-- ==== Sys2Proof/Word.lean ====
section
/-! DEFINITION. The bit-level types of the part: bytes of a frame and 12-bit conversion codes. -/
namespace Sys2Proof

/-- One byte of a works line frame (10 R178). -/
abbrev Byte := BitVec 8

/-- One conversion code of the 12-bit converter (01 R4). -/
abbrev Code := BitVec 12

end Sys2Proof
end

