-- ==== Sys2Proof/Config.lean ====
section
/-! DEFINITION. What an implementation fixes: the settings a configuration image gives a station, and the free values the
spec leaves open. One record type serves twice: in an `Image` its distances are in millimetres; in force in the part they
are in microsteps (06 R102; the conversion is Machine/Image.lean). -/
namespace Sys2Proof

/-- Settings of one sensor channel (01 1.2). -/
structure ChannelCfg where
  enabled : Bool
  bed : Option Nat
  z : Nat
  k : Nat
  deriving DecidableEq, Repr, Inhabited

/-- Settings of one bed: 03 3.1, and the heater period and flow band of 05 5.1. -/
structure BedCfg where
  assigned : Bool
  tf : Int
  th : Int
  tmax : Int
  presetMin : Nat
  rampRate : Nat
  holdMin : Nat
  coolRate : Nat
  gain : Nat
  pmax : Nat
  blindMin : Nat
  /-- slot pick positions; their number is the slot count -/
  picks : List Nat
  /-- heater period P in 10 ms units -/
  period : Nat
  flowCheck : Bool
  fmin : Nat
  fmax : Nat
  deriving DecidableEq, Repr, Inhabited

/-- One strength curve (02 R33): points (maturity, strength), thresholds, minimum ship age in hours. -/
structure Curve where
  points : List (Nat × Nat)
  release : Nat
  lift : Nat
  ship : Nat
  minAge : Nat
  deriving DecidableEq, Repr, Inhabited

/-- The source of an output line (05 5.1, R90). -/
inductive Source where
  | heater (b : Nat)
  | permit (b : Nat)
  | travelFwd
  | travelRev
  | speed0
  | speed1
  | aux (k : Nat)
  | stationReady
  | constLow
  | constHigh
  deriving DecidableEq, Repr, Inhabited

/-- Settings of one output line (05 5.1): `level` is the emergency level, true for high. -/
structure LineCfg where
  source : Source
  invert : Bool
  mask : Bool
  level : Bool
  deriving DecidableEq, Repr, Inhabited

/-- Settings of one AUX line (05 5.1): shed threshold 1..4 or none, and the value while shed. -/
structure AuxCfg where
  threshold : Option Nat
  shedOn : Bool
  deriving DecidableEq, Repr, Inhabited

/-- One span of the span table (07 7.1): it covers `lo` up to, not including, `hi`. -/
structure SpanCfg where
  lo : Nat
  hi : Nat
  home : Nat
  deriving DecidableEq, Repr, Inhabited

/-- Settings of one stack (08 8.4). -/
structure StackCfg where
  place : Nat
  tiers : Nat
  load : Nat
  deriving DecidableEq, Repr, Inhabited

/-- Every setting of the configuration image (11 11.2). -/
structure Settings where
  ts : Nat
  thp : Nat
  t0 : Int
  capacity : Nat
  /-- S0..S21 -/
  channels : List ChannelCfg
  ambZ : Nat
  ambK : Nat
  /-- beds 0..3 -/
  beds : List BedCfg
  /-- mixes 0..3 -/
  curves : List (Option Curve)
  /-- OL0..OL31 -/
  lines : List LineCfg
  /-- AUX 0..7 -/
  aux : List AuxCfg
  /-- mark spacing Lm, always in millimetres -/
  lm : Nat
  half : Nat
  refPos : Nat
  refHigh : Bool
  limLo : Nat
  limHi : Nat
  tol : Nat
  spans : List SpanCfg
  window : Nat
  /-- Vmax in mm/s -/
  vmax : Nat
  gap : Nat
  stopCreep : Nat
  stopSlow : Nat
  stopFast : Nat
  claimMin : Nat
  pickMin : Nat
  dispatch : Nat
  park : Option Nat
  /-- lanes 0..7, each with its stacks -/
  lanes : List (List StackCfg)
  deriving DecidableEq, Repr, Inhabited

/-- A configuration image as the memory port reads it: its bytes, and beside them the settings whose place or width within
their group the layout of 11 11.2 does not give, in millimetres (11 R194; log 6). Machine/Image.lean reads the others from the
bytes. -/
structure Image where
  bytes : List Byte
  settings : Settings
  deriving DecidableEq, Repr, Inhabited

/-- Free value (log 9): what a block write that failed leaves in the record memory: 0 the old contents, 1 the new contents,
2 a block whose check fails. The spec (11 R196) does not say; nothing is known of this function. -/
opaque Config.failedWrite : Nat → Fin 3

end Sys2Proof
end

