-- ==== Sys2Proof/Syntax.lean ====
section
/-! DEFINITION. The commands the part takes: one constructor per row of spec/opcode_table.json. -/
namespace Sys2Proof

/-- One of the 264 blocks of the record memory (11 11.3). -/
inductive Block where
  | clock
  | bed (b : Fin 4)
  | channels
  | piece (n : Fin 256)
  | stackTable
  | moves
  deriving DecidableEq, Repr, Inhabited

/-- One of the four crane lines (09 9.1). -/
inductive CraneLine where
  | hook
  | ready
  | fault
  | locl
  deriving DecidableEq, Repr, Inhabited

/-- A command: an order or another frame on the works line, an event of a pin, of a time base, of the transmitter, of the
memory port or of the supply. Orders carry the source address, the order tag and the parameter bytes that follow the tag
(for a QUERY those that follow the subject, for HOLD those that follow the form byte; 10 10.6). -/
inductive Instr where
  | castStart (src tag : Byte) (params : List Byte)
  | castEnd (src tag : Byte) (params : List Byte)
  | detension (src tag : Byte) (params : List Byte)
  | holdBed (src tag : Byte) (params : List Byte)
  | holdPiece (src tag : Byte) (params : List Byte)
  | retire (src tag : Byte) (params : List Byte)
  | clearBed (src tag : Byte) (params : List Byte)
  | lift (src tag : Byte) (params : List Byte)
  | ship (src tag : Byte) (params : List Byte)
  | cancel (src tag : Byte) (params : List Byte)
  | resume (src tag : Byte) (params : List Byte)
  | aux (src tag : Byte) (params : List Byte)
  | spanFree (src tag : Byte) (params : List Byte)
  | clearFault (src tag : Byte) (params : List Byte)
  | queryHeatState (src tag : Byte) (params : List Byte)
  | queryOutputState (src tag : Byte) (params : List Byte)
  | queryRunwayPosition (src tag : Byte) (params : List Byte)
  | querySpans (src tag : Byte) (params : List Byte)
  | queryCranes (src tag : Byte) (params : List Byte)
  | queryPiece (src tag : Byte) (params : List Byte)
  | queryBed (src tag : Byte) (params : List Byte)
  | querySlots (src tag : Byte) (params : List Byte)
  | queryChannel (src tag : Byte) (params : List Byte)
  | queryStack (src tag : Byte) (params : List Byte)
  | queryRegister (src tag : Byte) (params : List Byte)
  | queryMoves (src tag : Byte) (params : List Byte)
  | queryLineState (src tag : Byte) (params : List Byte)
  | restart (src tag : Byte) (params : List Byte)
  /-- the blocks of the flush whose write fails at its turn (11 R199; log 23) -/
  | restartReset (failed : List Block)
  | secondEvent
  | sampleIntervalBoundary
  | heatPeriodBoundary
  /-- the codes of ref1, ref2 and of S0..S21 and AM (23 codes; those of channels not enabled are not used) -/
  | scanCompletion (ref1 ref2 : Code) (codes : List Code)
  | stageTransition (b : Fin 4)
  | blindHoldExpiry (b : Fin 4)
  | ageTestReached (id : Nat)
  | jackHomeChange (b : Fin 4) (active : Bool)
  | heaterPeriodStart (b : Fin 4)
  | emergencyAccepted
  | emergencyReleased
  /-- the sampled levels of TRKA, TRKB, TRKC -/
  | trackStep (a b c : Bool)
  | trackStuck
  | markEntry
  | markEvent
  | microstep
  | microstepStop
  | standstill
  | referenceEdge
  | heatNoticeReceived (src target : Byte) (payload : List Byte)
  | spanNoticeReceived (src target : Byte) (payload : List Byte)
  | peerSilent (addr : Nat)
  | otherFrameReceived (kind src target : Byte) (payload : List Byte)
  /-- the characters received, and whether the frame ended by a framing error, an idle line or LINE_STUCK -/
  | frameDiscarded (bytes : List Byte) (framing : Bool)
  | clashFrame (kind target : Byte) (payload : List Byte)
  | clashEnd
  | transmitOffer
  | arbitrationLost
  | bitError
  | transmissionComplete
  | lineStuck
  | lineOk
  | claimDeadline
  | retryTimePassed (span : Fin 32)
  | spanNoticeInterval
  | hookLoaded
  | hookUnloaded
  | craneReadyChange (active : Bool)
  | craneFaultChange (active : Bool)
  | craneLocalChange (active : Bool)
  | claimTimeout
  | pickTimeout
  | blockWriteBegin
  /-- whether the page was the last of its block -/
  | pageWriteDone (last : Bool)
  | pageWriteTimeout
  | supplyWarning
  | supplyOk
  | supplyReset
  | powerOnReset
  /-- the strapping read from ADR0..ADR4 -/
  | resetRelease (adr : Fin 32)
  | configurationReadComplete (img : Image)
  /-- the blocks whose check fails as read, beside those the record memory holds as failing -/
  | recordReadComplete (lost : List Block)
  | startComplete
  | heaterPulseEnd (b : Fin 4)
  | flowRisingEdge (b : Fin 4)
  | peerRecordAgeIncrease
  | craneLineFirstAcceptance (line : CraneLine) (level : Bool)
  | lineIdle
  deriving DecidableEq, Repr

end Sys2Proof
end

