-- ==== Sys2Proof/Decode.lean ====
section
/-! DEFINITION. What spells a command. spec/opcode_table.json gives no row of this block any bits: its commands are told apart by what
brings them and not by an encoding word, so no word spells a command. An ORDER frame spells one by its order code (10 10.6). -/
namespace Sys2Proof

/-- The command that a word spells by the table's bits: none, since no row of the table has bits. -/
def decodeTableWord (_nbits _w : Nat) : Option Instr := none

/-- The query of a subject (10 10.6, the table of subjects). -/
def readQuery (src tag : Byte) (subject : Nat) (ps : List Byte) : Option Instr :=
  match subject with
  | 0x01 => some (.queryHeatState src tag ps)
  | 0x02 => some (.queryOutputState src tag ps)
  | 0x03 => some (.queryRunwayPosition src tag ps)
  | 0x04 => some (.querySpans src tag ps)
  | 0x05 => some (.queryCranes src tag ps)
  | 0x06 => some (.queryPiece src tag ps)
  | 0x07 => some (.queryBed src tag ps)
  | 0x08 => some (.querySlots src tag ps)
  | 0x09 => some (.queryChannel src tag ps)
  | 0x0A => some (.queryStack src tag ps)
  | 0x0B => some (.queryRegister src tag ps)
  | 0x0C => some (.queryMoves src tag ps)
  | 0x0D => some (.queryLineState src tag ps)
  | _ => none

/-- The form of a HOLD order (10 10.6). -/
def readHold (src tag : Byte) (form : Nat) (ps : List Byte) : Option Instr :=
  match form with
  | 0 => some (.holdBed src tag ps)
  | 1 => some (.holdPiece src tag ps)
  | _ => none

/-- The order that the payload of an ORDER frame names by its code, and by its form or subject where the code has them (10 R190 and
10.6, the table of order codes); none where it names none. -/
def readOrder (src : Byte) : List Byte → Option Instr
  | code :: tag :: ps =>
    match code.toNat, ps with
    | 0x01, _ => some (.castStart src tag ps)
    | 0x02, _ => some (.castEnd src tag ps)
    | 0x03, _ => some (.detension src tag ps)
    | 0x04, form :: rest => readHold src tag form.toNat rest
    | 0x05, _ => some (.retire src tag ps)
    | 0x06, _ => some (.clearBed src tag ps)
    | 0x07, _ => some (.lift src tag ps)
    | 0x08, _ => some (.ship src tag ps)
    | 0x09, _ => some (.cancel src tag ps)
    | 0x0A, _ => some (.resume src tag ps)
    | 0x0B, _ => some (.aux src tag ps)
    | 0x0C, _ => some (.spanFree src tag ps)
    | 0x0D, _ => some (.clearFault src tag ps)
    | 0x0E, subject :: rest => readQuery src tag subject.toNat rest
    | 0x0F, _ => some (.restart src tag ps)
    | _, _ => none
  | _ => none

end Sys2Proof
end

