-- ==== Sys2Proof/Machine/State.lean ====
section
/-! DEFINITION. The state of the part, block by block (00_scope.md section 2), the state after reset, and the reasons a step
can stop. INVENTORY.md lists every field with its rule and reset value. -/
namespace Sys2Proof.Machine
open Sys2Proof

/-! ### Values on the works line (10 10.6) -/

/-- One value of answer or report data with its width: 1, 2, 3 or 4 bytes, a packed value of `w` bits, or the start of a
list item (`brk`). -/
inductive Value where
  | b1 (n : Nat)
  | b2 (n : Nat)
  | b3 (n : Nat)
  | b4 (n : Nat)
  | bits (w n : Nat)
  | brk
  deriving DecidableEq, Repr

/-- The report kinds of 10 10.7. -/
inductive ReportKind where
  | referenceFault | referenceOk | sensorFault | sensorOk | blind | blindClear | overheat | overheatEnd | bedState | stage
  | bedHold | releaseReady | deaf | deafEnd | flowFault | flowClear | auxState | emergency | emergencyEnd | positionFault
  | referenced | runwayLimit | spanConflict | spanFreed | pieceShipped | piecesRemoved | shippable | pieceHold
  | pieceRemoved | craneLine | moveDone | moveHalted | moveRemoved | lineStuck | lineOk | clash | recordLost | memoryFault
  | supplyWarning | supplyOk | peerSilent | peerHeard
  deriving DecidableEq, Repr

/-- A report: its kind and its data (10 R189). -/
structure Report where
  kind : ReportKind
  data : List Value
  deriving DecidableEq, Repr

/-- Outcome codes (10 10.6). -/
inductive Result where
  | done | accepted | badState | notReady | unknown | full | stackBusy | overload | range | held | pieceOnHook
  | wrongPosition | unconfigured
  deriving DecidableEq, Repr

/-- An answer (10 R188, R190): order tag, address of the panel, outcome, data; `restart` marks the answer of a RESTART
(10 R191). -/
structure Answer where
  tag : Byte
  target : Byte
  result : Result
  data : List Value
  restart : Bool
  deriving DecidableEq, Repr

/-- A HEAT notice (04 R78). -/
structure HeatNotice where
  ds : Nat
  grant : Nat
  shed : Nat
  deriving DecidableEq, Repr

/-- Direction of the decoder (06 R103), coded as in 10 10.3. -/
inductive Dir where
  | none | forward | reverse
  deriving DecidableEq, Repr

/-- Speed class (07 5.3). -/
inductive Speed where
  | creep | slow | fast
  deriving DecidableEq, Repr

/-- The rank of a claim (07 R123). -/
structure Rank where
  urgency : Nat
  addr : Nat
  deriving DecidableEq, Repr

/-- Kind of an entry of a SPAN notice (07 R121). -/
inductive EntryKind where
  | claim | held | occupied
  deriving DecidableEq, Repr

/-- An entry of a SPAN notice; the rank is 0, 0 in an OCCUPIED entry (10 10.3). -/
structure Entry where
  span : Nat
  kind : EntryKind
  rank : Rank
  deriving DecidableEq, Repr

/-- A SPAN notice (07 R130). `claimSerial` is the model's own mark of which opening of a claim it carries (log 20); it is
not sent. -/
structure SpanNotice where
  pos : Option Nat
  referenced : Bool
  half : Nat
  dir : Dir
  speed : Option Speed
  entries : List Entry
  claimSerial : Option Nat
  deriving DecidableEq, Repr

/-! ### Works clock (01 1.1) -/

structure Clock where
  now : Nat
  samplePhase : Nat
  heatPhase : Nat
  sampleDue : Bool
  heatDue : Bool
  /-- 100 µs ticks within 10 ms, 0..99 -/
  tick : Nat
  /-- milliseconds since the reset was released -/
  ms : Nat
  /-- milliseconds since the last second event, 0..999 -/
  msPhase : Nat
  /-- `ms` at the completion of start: the span unit's count (07 R119) starts there -/
  startMs : Nat
  deriving DecidableEq, Repr

/-! ### Scan unit (01) -/

inductive Validity where
  | valid | held | faulted
  deriving DecidableEq, Repr

inductive SampleCause where
  | short | opened | range | missed
  deriving DecidableEq, Repr

/-- Channel record (01 1.4). -/
structure Channel where
  validity : Validity
  held : Nat
  last : Option Int
  cause : Option SampleCause
  retired : Bool
  deriving DecidableEq, Repr

/-- Bed temperature record (01 1.5); the blind flag is set while `blindSince` is present. -/
structure BedTemp where
  tc : Option Int
  blindSince : Option Nat
  overheat : Bool
  deriving DecidableEq, Repr

/-- The scan in flight (01 R3, R4, R21): `time` counts 20 µs units since its start. -/
structure ScanRun where
  initial : Bool
  endTime : Nat
  codes : List Code
  time : Nat
  deriving DecidableEq, Repr

structure ScanUnit where
  run : Option ScanRun
  /-- end times of the skipped boundaries, oldest first; their number is the skipped-boundary count -/
  skipped : List Nat
  refGood : Bool
  /-- S0..S21, then AM -/
  channels : List Channel
  beds : List BedTemp
  /-- the initial scan has completed -/
  evaluating : Bool
  deriving DecidableEq, Repr

/-! ### Maturity unit (02) -/

/-- An accumulator (02 R19): maturity in 0.01 °C·h and residue in 0.1 °C·s. -/
structure Acc where
  m : Nat
  residue : Nat
  deriving DecidableEq, Repr

structure MaturityUnit where
  accs : List Acc
  credit : List Nat
  ambient : Acc
  deriving DecidableEq, Repr

/-! ### Bed controller (03) -/

inductive BedState where
  | empty | casting | curing | detensioning | detensioned
  deriving DecidableEq, Repr

inductive Stage where
  | preset | ramp | hold | cool | finished
  deriving DecidableEq, Repr

/-- A line's 50 ms filter (03 R47, 09 R159): accepted level, level of the last sample and number of equal samples. -/
structure Filter where
  level : Bool
  last : Bool
  count : Nat
  deriving DecidableEq, Repr

/-- Bed record (03 3.1) with the published governing maturity (02 R27), and the bed strength and release test as the
maturity unit last handed them on (02 R36). -/
structure Bed where
  state : BedState
  mix : Nat
  castTime : Nat
  expected : Nat
  received : Nat
  stage : Stage
  stageStart : Nat
  rampStart : Int
  hold : Bool
  releaseReady : Bool
  slots : List (Option Nat)
  mg : Nat
  setpoint : Int
  f : Nat
  db : Nat
  strength : Nat
  releaseTest : Bool
  jack : Filter
  deriving DecidableEq, Repr

/-! ### Heat share unit (04) -/

structure HeatEntry where
  addr : Nat
  demand : Nat
  age : Nat
  deriving DecidableEq, Repr

structure HeatUnit where
  /-- in ascending address -/
  list : List HeatEntry
  heard : Bool
  /-- DEAF: the number of boundaries since the one that set it, that one counted -/
  deaf : Option Nat
  listening : Nat
  ds : Nat
  grant : Nat
  alloc : List Nat
  shed : Nat
  deriving DecidableEq, Repr

/-! ### Output matrix (05) -/

/-- Heater pulse generator (05 R83), in 10 ms units. -/
structure Gen where
  phase : Nat
  onTime : Nat
  buffer : Option Nat
  deriving DecidableEq, Repr

/-- Flow monitor (05 R86, R87). -/
structure Flow where
  last : Bool
  edges : Nat
  broken : Bool
  fault : Bool
  run : Nat
  flow : Nat
  deriving DecidableEq, Repr

/-- AUX line (05 R94); its shed flag is set while `saved` is present. -/
structure Aux where
  commanded : Bool
  saved : Option Bool
  deriving DecidableEq, Repr

/-- Emergency filter (05 R97): accepted level and last sample, true for active. -/
structure Emergency where
  accepted : Option Bool
  last : Option Bool
  since : Nat
  deriving DecidableEq, Repr

structure OutputUnit where
  gens : List Gen
  flows : List Flow
  aux : List Aux
  lastShed : Nat
  emergency : Emergency
  deriving DecidableEq, Repr

/-! ### Travel interpolator (06) -/

inductive PosFault where
  | skip | stuck | range
  deriving DecidableEq, Repr

/-- A window or limit state (06 R115, R116). -/
inductive Where where
  | none | below | inside | above
  deriving DecidableEq, Repr

/-- A mark in progress (06 R105). -/
inductive MarkRun where
  | out
  | unrecorded
  | entered (d : Dir)
  deriving DecidableEq, Repr

structure TravelUnit where
  /-- pattern index, none until a pattern is adopted (06 R103, R104) -/
  index : Option Nat
  dir : Dir
  uniform : Nat
  mark : MarkRun
  counter : Nat
  pprev : Option Nat
  standstill : Bool
  base : Nat
  u : Nat
  up : Bool
  timer : Nat
  /-- the last mark event was a reverse one: the caps are 1 and 16 (06 R108) -/
  lastReverse : Bool
  referenced : Bool
  fault : Bool
  cause : Option PosFault
  lastKnown : Option Nat
  occupancy : List Nat
  limit : Where
  refLast : Bool
  deriving DecidableEq, Repr

/-! ### Span unit (07) -/

/-- Role of a span (07 R120); a claim without a deadline is PENDING. -/
inductive Role where
  | none
  | claim (rank : Rank) (deadline : Option Nat) (contested : Bool) (serial : Nat)
  | held (rank : Rank)
  deriving DecidableEq, Repr

structure Span where
  role : Role
  releasing : Bool
  retry : Option Nat
  occupied : Bool
  deriving DecidableEq, Repr

/-- Peer crane record (07 R121). -/
structure Peer where
  addr : Nat
  pos : Option Nat
  referenced : Bool
  half : Nat
  dir : Dir
  speed : Option Speed
  entries : List Entry
  age : Nat
  deriving DecidableEq, Repr

/-- Travel decision (07 R134). -/
inductive Decision where
  | stop
  | go (forward : Bool) (speed : Speed)
  deriving DecidableEq, Repr

structure SpanUnit where
  spans : List Span
  /-- in ascending address -/
  peers : List Peer
  decision : Decision
  yieldStop : Bool
  /-- millisecond count of the last forming of a SPAN notice -/
  formed : Nat
  claimSerial : Nat
  deriving DecidableEq, Repr

/-! ### Piece store (08) -/

inductive Place where
  | onBed (bed slot : Nat)
  | onHook
  | inStock (lane stack tier : Nat)
  deriving DecidableEq, Repr

/-- Values captured at the first pick (02 R30). -/
structure Capture where
  mlift : Nat
  alift : Nat
  strength : Nat
  deriving DecidableEq, Repr

/-- Piece record (08 8.1), with the tests last handed on for it (02 R37..R39). -/
structure Piece where
  id : Nat
  mark : Nat
  mass : Nat
  mix : Nat
  castTime : Nat
  place : Place
  capture : Option Capture
  hold : Bool
  announced : Bool
  tag : Option Nat
  liftTest : Bool
  shipTest : Bool
  ageTest : Bool
  deriving DecidableEq, Repr

/-- Pending mark of a stack (08 R150). -/
inductive PendMark where
  | none
  | reservation (tag id mass : Nat)
  | dispatch (tag id : Nat)
  deriving DecidableEq, Repr

structure Stack where
  /-- piece ids, bottom to top -/
  list : List Nat
  mark : PendMark
  deriving DecidableEq, Repr

structure PieceStore where
  /-- 256 records -/
  register : List (Option Piece)
  /-- stack n of lane l stands at 12 l + n -/
  stackTable : List Stack
  deriving DecidableEq, Repr

/-! ### Move controller (09) -/

inductive MoveKind where
  | lift | dispatch
  deriving DecidableEq, Repr

inductive Phase where
  | queued | toPick | atPick | toPlace | atPlace | halted
  deriving DecidableEq, Repr

inductive HaltCause where
  | emergency | craneFault | craneLocal | positionFault | hookUnexpected | claimTimeout | timeout | restored
  deriving DecidableEq, Repr

/-- Move record (09 R160). The urgency follows from the kind. -/
structure Move where
  tag : Nat
  kind : MoveKind
  piece : Nat
  pick : Nat
  place : Nat
  stack : Option (Nat × Nat)
  phase : Phase
  start : Option Nat
  halt : Option (Phase × HaltCause)
  picked : Bool
  deriving DecidableEq, Repr

/-- A crane line (09 R159): its filter, and whether a level has been accepted since start. -/
structure CraneIn where
  filter : Filter
  seen : Bool
  deriving DecidableEq, Repr

/-- The target held, with its urgency (09 R165, R175). -/
structure Target where
  pos : Nat
  urgency : Nat
  deriving DecidableEq, Repr

structure MoveUnit where
  queue : List Move
  nextTag : Nat
  returning : Bool
  target : Option Target
  hook : CraneIn
  ready : CraneIn
  fault : CraneIn
  locl : CraneIn
  deriving DecidableEq, Repr

/-! ### Line interface (10) -/

structure Clash where
  endMs : Nat
  sinceMs : Nat
  count : Nat
  deriving DecidableEq, Repr

/-- What the transmitter holds (10 R187). -/
inductive TxFrame where
  | heat (n : HeatNotice)
  | span (n : SpanNotice)
  | answer (a : Answer)
  | report (r : Report) (dropped : Nat)
  deriving DecidableEq, Repr

/-- A transmission: in contention (10 R180) or after it; `inPlace` while the frame still stands where it waited. -/
structure Tx where
  frame : TxFrame
  contending : Bool
  inPlace : Bool
  deriving DecidableEq, Repr

/-- The ten counters of 10 R192. -/
structure Counters where
  valid : Nat
  badCheck : Nat
  badHeader : Nat
  framing : Nat
  payload : Nat
  lost : Nat
  bitErrors : Nat
  answersDropped : Nat
  ordersInClash : Nat
  sent : Nat
  deriving DecidableEq, Repr

/-- A RESTART that has been taken (10 R191): when, and whether its answer is over. -/
structure RestartReq where
  takenMs : Nat
  ended : Bool
  deriving DecidableEq, Repr

structure LineUnit where
  own : Nat
  clash : Option Clash
  /-- LINE_STUCK, with the millisecond it began -/
  stuck : Option Nat
  /-- the receiver takes no character until the line is idle (10 R179) -/
  waitIdle : Bool
  heatSlot : Option HeatNotice
  spanSlot : Option SpanNotice
  answers : List Answer
  reports : List Report
  tx : Option Tx
  dropped : Nat
  counters : Counters
  restart : Option RestartReq
  deriving DecidableEq, Repr

/-! ### Memory port (11) -/

structure ClockBlock where
  now : Nat
  ambient : Acc
  /-- last known position, with the mark spacing it was saved under -/
  lastKnown : Option (Nat × Nat)
  deriving DecidableEq, Repr

structure ChannelsBlock where
  accs : List Acc
  credit : List Nat
  retired : List Bool
  deriving DecidableEq, Repr

structure MovesBlock where
  queue : List Move
  nextTag : Nat
  deriving DecidableEq, Repr

/-- The record memory (11 11.3): the contents of each block, or none where its check fails. -/
structure RecMem where
  clock : Option ClockBlock
  beds : List (Option Bed)
  channels : Option ChannelsBlock
  pieces : List (Option (Option Piece))
  stackTable : Option (List Stack)
  moves : Option MovesBlock
  deriving DecidableEq, Repr

/-- The copy a block write carries (11 R195). -/
inductive Contents where
  | clock (c : ClockBlock)
  | bed (b : Nat) (c : Bed)
  | channels (c : ChannelsBlock)
  | piece (n : Nat) (c : Option Piece)
  | stackTable (c : List Stack)
  | moves (c : MovesBlock)
  deriving DecidableEq, Repr

structure WriteRun where
  block : Block
  copy : Contents
  deriving DecidableEq, Repr

/-- A write of the flush of a RESTART, and whether it fails at its turn, as RESTART_RESET told (11 R199; log 23). -/
structure FlushWrite where
  run : WriteRun
  fails : Bool
  deriving DecidableEq, Repr

structure MemPort where
  writing : Option WriteRun
  /-- round position: the number of a block in the order of 11 R195, or 264 while the move queue block is being written -/
  round : Nat
  /-- dirty blocks, in round order -/
  dirty : List Block
  fault : Bool
  roundFailed : Bool
  /-- what the flush of a RESTART has yet to write, in round order (11 R199) -/
  flush : List FlushWrite
  /-- the byte count of the read in progress (11 R194, R197) -/
  left : Nat
  mem : RecMem
  deriving DecidableEq, Repr

/-! ### Supply, start, pins -/

inductive SupplyState where
  | normal | warning | reset
  deriving DecidableEq, Repr

structure Supply where
  state : SupplyState
  since : Nat
  deriving DecidableEq, Repr

/-- Where the part stands in the start sequence (11 R193). -/
inductive Run where
  | inReset | readingConfig | readingRecords | restored | running
  deriving DecidableEq, Repr

/-- Input levels as the environment drives them (00 section 4; log 4); true is high, or active for the crane lines and
jack-home; `emgn` true is active (a low pin). `vdd` is in millivolts; `ain` are the codes the 22 sensor inputs and AINAM
convert to. -/
structure Pins where
  trkA : Bool
  trkB : Bool
  trkC : Bool
  mark : Bool
  refsw : Bool
  jhome : List Bool
  flow : List Bool
  hook : Bool
  crdy : Bool
  cflt : Bool
  cloc : Bool
  emgn : Bool
  vdd : Nat
  aref : Code
  ain : List Code
  /-- the address strapping ADR0..ADR4 -/
  adr : Fin 32
  deriving DecidableEq, Repr

/-- The part, block by block. -/
structure Part where
  run : Run
  config : Option Settings
  clock : Clock
  scan : ScanUnit
  maturity : MaturityUnit
  beds : List Bed
  heat : HeatUnit
  out : OutputUnit
  travel : TravelUnit
  span : SpanUnit
  pieces : PieceStore
  moves : MoveUnit
  line : LineUnit
  mem : MemPort
  supply : Supply
  pins : Pins
  freeCount : Nat
  deriving DecidableEq, Repr

/-- The part and the commands that wait, first in, first out. -/
structure State where
  part : Part
  pending : List Instr
  deriving DecidableEq, Repr

/-- Reasons a command stops the part: the spec gives none. Faults of the plant are flags and reports (INVENTORY.md,
'Faults'), so nobody raises a fault; this is safe. -/
inductive Fault where
  deriving DecidableEq, Repr

/-- Reasons a command has no meaning in the model. -/
inductive Refusal where
  /-- raised only by an arm of `exec` for a command that has no meaning yet; no arm does so; safe -/
  | notModelled (mnemonic : String)
  deriving DecidableEq, Repr

/-! ### Reset values -/

def Clock.reset : Clock := ⟨0, 0, 0, false, false, 0, 0, 0, 0⟩

def Channel.reset : Channel := ⟨.valid, 0, none, none, false⟩

def ScanUnit.reset : ScanUnit :=
  { run := none, skipped := [], refGood := true, channels := List.replicate 23 Channel.reset,
    beds := List.replicate 4 ⟨none, none, false⟩, evaluating := false }

def MaturityUnit.reset : MaturityUnit :=
  { accs := List.replicate 22 ⟨0, 0⟩, credit := List.replicate 4 0, ambient := ⟨0, 0⟩ }

/-- A bed as a lost block gives it (03 R65); its strength and release test before any computation: log 36. -/
def Bed.reset : Bed :=
  { state := .empty, mix := 0, castTime := 0, expected := 0, received := 0, stage := .preset, stageStart := 0,
    rampStart := 0, hold := false, releaseReady := false, slots := [], mg := 0, setpoint := 0, f := 0, db := 0,
    strength := 0, releaseTest := false, jack := ⟨false, false, 0⟩ }

def HeatUnit.reset : HeatUnit :=
  { list := [], heard := false, deaf := none, listening := 0, ds := 0, grant := 0, alloc := [0, 0, 0, 0], shed := 0 }

def Flow.reset : Flow := ⟨false, 0, true, false, 0, 0⟩

def OutputUnit.reset : OutputUnit :=
  { gens := List.replicate 4 ⟨0, 0, none⟩, flows := List.replicate 4 Flow.reset,
    aux := List.replicate 8 ⟨false, none⟩, lastShed := 0, emergency := ⟨none, none, 0⟩ }

/-- The start values of 06 R118; its table names neither the cause of the last fault nor the microstep timer, which start at none
and 0 (log 41). -/
def TravelUnit.reset : TravelUnit :=
  { index := none, dir := .none, uniform := 0, mark := .out, counter := 20001, pprev := none, standstill := true,
    base := 0, u := 0, up := true, timer := 0, lastReverse := false, referenced := false, fault := false, cause := none,
    lastKnown := none, occupancy := [], limit := .none, refLast := false }

def SpanUnit.reset : SpanUnit :=
  { spans := [], peers := [], decision := .stop, yieldStop := false, formed := 0, claimSerial := 0 }

def PieceStore.reset : PieceStore :=
  { register := List.replicate 256 none, stackTable := List.replicate 96 ⟨[], .none⟩ }

def MoveUnit.reset : MoveUnit :=
  { queue := [], nextTag := 1, returning := false, target := none, hook := ⟨⟨true, false, 0⟩, false⟩,
    ready := ⟨⟨false, false, 0⟩, false⟩, fault := ⟨⟨true, false, 0⟩, false⟩, locl := ⟨⟨true, false, 0⟩, false⟩ }

def LineUnit.reset : LineUnit :=
  { own := 32, clash := none, stuck := none, waitIdle := false, heatSlot := none, spanSlot := none, answers := [],
    reports := [], tx := none, dropped := 0, counters := ⟨0, 0, 0, 0, 0, 0, 0, 0, 0, 0⟩, restart := none }

/-- A blank record memory: every check fails (log 5). -/
def RecMem.blank : RecMem :=
  { clock := none, beds := List.replicate 4 none, channels := none, pieces := List.replicate 256 none, stackTable := none,
    moves := none }

def MemPort.reset (m : RecMem) : MemPort :=
  { writing := none, round := 0, dirty := [], fault := false, roundFailed := false, flush := [], left := 0,
    mem := m }

/-- Inputs at rest (log 4): nothing active, VDD at 3.3 V. -/
def Pins.rest : Pins :=
  { trkA := false, trkB := true, trkC := false, mark := false, refsw := false, jhome := List.replicate 4 false,
    flow := List.replicate 4 false, hook := false, crdy := false, cflt := false, cloc := false, emgn := false,
    vdd := 3300, aref := 2048, ain := List.replicate 23 0, adr := 0 }

/-- A reset in force (01 R18, 04 R81, 05 R100, 06 R118, 07 R139, 10 R187, 11 R193): every block at its reset value; the record
memory, the supply and the pins are outside the reset. -/
def Part.reset (m : RecMem) (supply : Supply) (pins : Pins) (free : Nat) : Part :=
  { run := .inReset, config := none, clock := .reset, scan := .reset, maturity := .reset,
    beds := List.replicate 4 Bed.reset, heat := .reset, out := .reset, travel := .reset, span := .reset,
    pieces := .reset, moves := .reset, line := .reset, mem := .reset m, supply := supply, pins := pins,
    freeCount := free }

/-- The machine in a power-on reset (11 R193, R198; log 1). -/
def State.reset : State :=
  { part := Part.reset RecMem.blank ⟨.reset, 0⟩ Pins.rest 0, pending := [] }

end Sys2Proof.Machine
end

