-- ==== Sys2Proof/Machine/Ops.lean ====
section
/-! DEFINITION. Shared operations: arithmetic conventions (00 6.2), access to the blocks, dirty marks (11 R195), and the
transmit places of the line interface (10 R187..R189). -/
namespace Sys2Proof

def Settings.bed (c : Settings) (b : Nat) : BedCfg := c.beds.getD b default
def Settings.curve (c : Settings) (m : Nat) : Option Curve := c.curves.getD m none
def Settings.channel (c : Settings) (k : Nat) : ChannelCfg := c.channels.getD k default
def Settings.stack? (c : Settings) (lane n : Nat) : Option StackCfg := (c.lanes.getD lane [])[n]?

/-- Beds assigned to casting (03 3.1). -/
def Settings.assigned (c : Settings) (b : Nat) : Bool := (c.bed b).assigned

/-- The enabled sensor channels assigned to a bed (01 1.2). -/
def Settings.bedChannels (c : Settings) (b : Nat) : List Nat :=
  (List.range 22).filter fun k => (c.channel k).enabled && (c.channel k).bed == some b

/-- Number of a block in the round of 11 R195. -/
def Block.round : Block → Nat
  | .clock => 0
  | .bed b => 1 + b.val
  | .channels => 5
  | .piece n => 6 + n.val
  | .stackTable => 262
  | .moves => 263

end Sys2Proof

namespace Sys2Proof.Machine
open Sys2Proof

/-- ceil(a / b) (00 6.2). -/
def ceilDiv (a b : Nat) : Nat := (a + b - 1) / b

/-- A result that would exceed the limit is the limit (00 6.2). -/
def sat (lim n : Nat) : Nat := min lim n

/-- Clamp to 0..hi (00 6.2). -/
def clampNat (hi : Nat) (x : Int) : Nat := min hi x.toNat

def boolNat (b : Bool) : Nat := if b then 1 else 0

/-- Insert in ascending order of a key, after equals. -/
def insertBy {α : Type} (key : α → Nat) (x : α) : List α → List α
  | [] => [x]
  | y :: ys => if key x < key y then x :: y :: ys else y :: insertBy key x ys

/-- Replace the entry with the same key, or insert in ascending order. -/
def putBy {α : Type} (key : α → Nat) (x : α) : List α → List α
  | [] => [x]
  | y :: ys => if key x < key y then x :: y :: ys else if key x = key y then x :: ys else y :: putBy key x ys

/-! ### Meanings as functions on the part -/

/-- Act on the part; the queue of waiting commands is left as it stands. -/
def State.onPart (s : State) (f : Part → Part) : State := { s with part := f s.part }

/-- What a block does only while the station runs configured (01 R2, 04 R66, 06 R118, 07 R139, 10 R191). -/
def Part.onRunning (p : Part) (f : Settings → Part → Part) : Part :=
  match p.run, p.config with
  | .running, some c => f c p
  | _, _ => p

/-! ### Access -/

def Part.bed (p : Part) (b : Nat) : Bed := p.beds.getD b Bed.reset
def Part.bedTemp (p : Part) (b : Nat) : BedTemp := p.scan.beds.getD b ⟨none, none, false⟩
def Part.channel (p : Part) (k : Nat) : Channel := p.scan.channels.getD k Channel.reset
def Part.now (p : Part) : Nat := p.clock.now

/-- The span unit's millisecond count (07 R119, R139). -/
def Part.msCount (p : Part) : Nat := p.clock.ms - p.clock.startMs

/-- The emergency input is active, as accepted by the output matrix (05 5.6). -/
def Part.emergencyActive (p : Part) : Bool := p.out.emergency.accepted == some true

/-- The station is in supply warning (11 R198). -/
def Part.inWarning (p : Part) : Bool := p.supply.state == .warning

def Part.inClash (p : Part) : Bool := p.line.clash.isSome

/-! ### Dirty marks (11 R195) -/

def Part.markDirty (b : Block) (p : Part) : Part :=
  { p with mem := { p.mem with dirty := putBy Block.round b p.mem.dirty } }

/-- Mark a block dirty when a persisted field of it changed. -/
def Part.markIf (changed : Bool) (b : Block) (p : Part) : Part := if changed then p.markDirty b else p

/-- The persisted fields of a bed record (03 R41, 02 R27): the others at their reset values,
strength and release test of the last computation among them (log 36). -/
def Bed.persisted (b : Bed) : Bed :=
  { b with setpoint := 0, f := 0, db := 0, strength := 0, releaseTest := false, jack := ⟨false, false, 0⟩ }

/-- Change a bed record; its block becomes dirty when a persisted field changed (03 R41). -/
def Part.withBed (b : Nat) (f : Bed → Bed) (p : Part) : Part :=
  let new := f (p.bed b)
  { p with beds := p.beds.set b new }.markIf (new.persisted != (p.bed b).persisted) (.bed (Fin.ofNat 4 b))

/-- The persisted fields of a piece record (08 R140). -/
def Piece.persisted (x : Piece) : Piece := { x with liftTest := false, shipTest := false, ageTest := false }

/-- Write a piece record; its block becomes dirty when a persisted field changed (08 R140). -/
def Part.setRecord (n : Nat) (x : Option Piece) (p : Part) : Part :=
  let old := p.pieces.register.getD n none
  { p with pieces := { p.pieces with register := p.pieces.register.set n x } }.markIf
    (x.map Piece.persisted != old.map Piece.persisted) (.piece (Fin.ofNat 256 n))

/-- Change the stacks; the stack block becomes dirty when they changed (08 R150). -/
def Part.setStacks (l : List Stack) (p : Part) : Part :=
  { p with pieces := { p.pieces with stackTable := l } }.markIf (l != p.pieces.stackTable) .stackTable

/-- Change the move queue; its block becomes dirty when it changed (09 R160). -/
def Part.setQueue (q : List Move) (p : Part) : Part :=
  { p with moves := { p.moves with queue := q } }.markIf (q != p.moves.queue) .moves

def Part.setNextTag (n : Nat) (p : Part) : Part :=
  { p with moves := { p.moves with nextTag := n } }.markIf (n != p.moves.nextTag) .moves

/-! ### Transmit places (10 R187) -/

/-- The offered frame leaves the place where it waited for the transmitter (10 R181). A placement that comes while the frame
is in contention is taken as coming after the contention has been won (log 11). -/
def LineUnit.takeOffered (l : LineUnit) : LineUnit :=
  match l.tx with
  | some ⟨fr, c, true⟩ =>
    let l := { l with tx := some ⟨fr, c, false⟩ }
    match fr with
    | .heat _ => { l with heatSlot := none }
    | .span _ => { l with spanSlot := none }
    | .answer _ => { l with answers := l.answers.drop 1 }
    | .report _ _ => { l with reports := l.reports.drop 1 }
  | _ => l

/-- A report joins the report queue; a full queue loses its oldest report, which is counted (10 R189). -/
def LineUnit.placeReport (r : Report) (l : LineUnit) : LineUnit :=
  let l := l.takeOffered
  if l.reports.length < 8 then { l with reports := l.reports ++ [r] }
  else { l with reports := l.reports.drop 1 ++ [r], dropped := sat 255 (l.dropped + 1) }

/-- An answer is dropped and counted (10 R188); that of a RESTART is lost, and with it over (10 R191). -/
def LineUnit.dropAnswer (a : Answer) (l : LineUnit) : LineUnit :=
  { l with
    counters := { l.counters with answersDropped := sat 65535 (l.counters.answersDropped + 1) }
    restart := if a.restart then l.restart.map fun r => { r with ended := true } else l.restart }

/-- An answer joins the answer queue, or is dropped when the queue holds 4 (10 R188). -/
def LineUnit.placeAnswer (a : Answer) (l : LineUnit) : LineUnit :=
  let l := l.takeOffered
  if l.answers.length < 4 then { l with answers := l.answers ++ [a] } else l.dropAnswer a

/-- A HEAT notice replaces the one that waits in its slot (04 R79). -/
def LineUnit.placeHeat (n : HeatNotice) (l : LineUnit) : LineUnit := { l.takeOffered with heatSlot := some n }

/-- A SPAN notice replaces the one that waits in its slot (07 R131). -/
def LineUnit.placeSpan (n : SpanNotice) (l : LineUnit) : LineUnit := { l.takeOffered with spanSlot := some n }

/-- A block sends a report (10 R189). -/
def Part.report (r : Report) (p : Part) : Part := { p with line := p.line.placeReport r }

def Part.reportIf (c : Bool) (r : Report) (p : Part) : Part := if c then p.report r else p

/-- Fold an operation over the beds 0..3 in ascending order. -/
def Part.forBeds (f : Nat → Part → Part) (p : Part) : Part := (List.range 4).foldl (fun q b => f b q) p

/-- Fold an operation over the beds assigned to casting, in ascending order. -/
def Part.forAssigned (c : Settings) (f : Nat → Part → Part) (p : Part) : Part :=
  p.forBeds fun b q => if c.assigned b then f b q else q

end Sys2Proof.Machine
end

