-- ==== Sys2Proof/WellFormed.lean ====
section
/-! DEFINITION. Which commands can reach the part at all: the bounds of a frame (10 10.3), of a scan (01 R4), of an image
(11 11.2) and of a piece id (00 6.1). `exec` does not ask for well-formedness. -/
namespace Sys2Proof

/-- A source address of a valid frame (10 R183). -/
def okSource (src : Byte) : Bool := decide (1 ≤ src.toNat ∧ src.toNat ≤ 32)

/-- A target address of a valid frame (10 R183). -/
def okTarget (t : Byte) : Bool := decide (t.toNat ≤ 32)

/-- One of the five frame kinds (10 R180). -/
def okKind (k : Byte) : Bool := k.toNat ∈ [0x10, 0x20, 0x30, 0x40, 0x50]

/-- An order frame: a payload of at most 48 bytes, of which `used` stand before the parameters. -/
def okOrder (src : Byte) (used : Nat) (params : List Byte) : Bool :=
  okSource src && decide (used + params.length ≤ 48)

/-- Each command's operands are ones a works line frame, the converter or a record can carry. -/
def Instr.wellFormed : Instr → Bool
  | .castStart src _ ps | .castEnd src _ ps | .detension src _ ps | .retire src _ ps | .clearBed src _ ps
  | .lift src _ ps | .ship src _ ps | .cancel src _ ps | .resume src _ ps | .aux src _ ps | .spanFree src _ ps
  | .clearFault src _ ps | .restart src _ ps => okOrder src 2 ps
  | .holdBed src _ ps | .holdPiece src _ ps => okOrder src 3 ps
  | .queryHeatState src _ ps | .queryOutputState src _ ps | .queryRunwayPosition src _ ps | .querySpans src _ ps
  | .queryCranes src _ ps | .queryPiece src _ ps | .queryBed src _ ps | .querySlots src _ ps | .queryChannel src _ ps
  | .queryStack src _ ps | .queryRegister src _ ps | .queryMoves src _ ps | .queryLineState src _ ps => okOrder src 3 ps
  | .heatNoticeReceived src t ps | .spanNoticeReceived src t ps => okSource src && okTarget t && decide (ps.length ≤ 48)
  | .otherFrameReceived k src t ps => okKind k && okSource src && okTarget t && decide (ps.length ≤ 48)
  | .clashFrame k t ps => okKind k && okTarget t && decide (ps.length ≤ 48)
  | .frameDiscarded bytes _ => decide (bytes.length ≤ 54)
  | .scanCompletion _ _ codes => decide (codes.length = 23)
  | .ageTestReached id => decide (1 ≤ id ∧ id ≤ 16777215)
  | .configurationReadComplete img => decide (img.bytes.length = 4096)
  | .peerSilent addr => decide (1 ≤ addr ∧ addr ≤ 32)
  | .restartReset _ | .secondEvent | .sampleIntervalBoundary | .heatPeriodBoundary | .stageTransition _
  | .blindHoldExpiry _ | .jackHomeChange _ _ | .heaterPeriodStart _ | .emergencyAccepted | .emergencyReleased
  | .trackStep _ _ _ | .trackStuck | .markEntry | .markEvent | .microstep | .microstepStop | .standstill
  | .referenceEdge | .clashEnd | .transmitOffer | .arbitrationLost | .bitError | .transmissionComplete | .lineStuck
  | .lineOk | .claimDeadline | .retryTimePassed _ | .spanNoticeInterval | .hookLoaded | .hookUnloaded
  | .craneReadyChange _ | .craneFaultChange _ | .craneLocalChange _ | .claimTimeout | .pickTimeout
  | .blockWriteBegin | .pageWriteDone _ | .pageWriteTimeout | .supplyWarning | .supplyOk | .supplyReset
  | .powerOnReset | .resetRelease _ | .recordReadComplete _ | .startComplete
  | .heaterPulseEnd _ | .flowRisingEdge _ | .peerRecordAgeIncrease | .craneLineFirstAcceptance _ _ | .lineIdle => true

end Sys2Proof
end

