-- ==== Sys2Proof/Machine/Operands.lean ====
section
/-! DEFINITION. Bytes on the works line: the check (10 R182), frame bytes, the coding of answer and report data (10 10.6),
order parameters, and notice payloads. -/
namespace Sys2Proof.Machine
open Sys2Proof

/-! ### The check (10 R182) -/

/-- One bit of the cyclic code x^16 + x^12 + x^5 + 1, most significant bit first. -/
def crcBit (crc : BitVec 16) (bit : Bool) : BitVec 16 :=
  if crc.msb != bit then (crc <<< 1) ^^^ 0x1021#16 else crc <<< 1

def crcByte (crc : BitVec 16) (b : Byte) : BitVec 16 :=
  [7, 6, 5, 4, 3, 2, 1, 0].foldl (fun c i => crcBit c (b.getLsbD i)) crc

/-- The check over a list of bytes: initial value all ones, no final inversion. -/
def crc (bs : List Byte) : BitVec 16 := bs.foldl crcByte 0xFFFF#16

/-! ### Big-endian fields (10 R178: high byte first) -/

def byte (n : Nat) : Byte := BitVec.ofNat 8 n

def be (bytes n : Nat) : List Byte :=
  match bytes with
  | 0 => []
  | k + 1 => byte (n / 256 ^ k) :: be k n

/-- The number a run of bytes spells, high byte first. -/
def num (bs : List Byte) : Nat := bs.foldl (fun a b => 256 * a + b.toNat) 0

/-! ### Answer and report data (10 10.6) -/

/-- Coding of values; `used` bits of the packed byte in progress hold `acc`. -/
def encodeFrom : List Value → Nat → Nat → List Byte
  | [], used, acc => if used = 0 then [] else [byte acc]
  | .bits w n :: vs, used, acc =>
    if used + w ≤ 8 then encodeFrom vs (used + w) (acc + n * 2 ^ used)
    else byte acc :: encodeFrom vs w n
  | .b1 n :: vs, used, acc => (if used = 0 then [] else [byte acc]) ++ be 1 n ++ encodeFrom vs 0 0
  | .b2 n :: vs, used, acc => (if used = 0 then [] else [byte acc]) ++ be 2 n ++ encodeFrom vs 0 0
  | .b3 n :: vs, used, acc => (if used = 0 then [] else [byte acc]) ++ be 3 n ++ encodeFrom vs 0 0
  | .b4 n :: vs, used, acc => (if used = 0 then [] else [byte acc]) ++ be 4 n ++ encodeFrom vs 0 0
  | .brk :: vs, used, acc => (if used = 0 then [] else [byte acc]) ++ encodeFrom vs 0 0

def encodeValues (vs : List Value) : List Byte := encodeFrom vs 0 0

/-- As many whole items after the head as 46 bytes hold (10 R192). -/
def fitItems (head : List Value) : List (List Value) → List Value
  | [] => head
  | it :: rest =>
    let next := head ++ .brk :: it
    if (encodeValues next).length ≤ 46 then fitItems next rest else head

/-- A temperature: two's complement in 2 bytes, 0x8000 when absent. -/
def tempValue : Option Int → Value
  | some t => .b2 ((t + 65536) % 65536).toNat
  | none => .b2 0x8000

/-- A runway position: 0xFFFFFF when absent or unknown. -/
def posValue : Option Nat → Value
  | some q => .b3 q
  | none => .b3 0xFFFFFF

def flag (b : Bool) : Value := .bits 1 (boolNat b)

/-- A set of spans: span k in bit k. -/
def spanSet (l : List Nat) : Value :=
  .b4 (((List.range 32).filter (· ∈ l)).foldl (fun a k => a + 2 ^ k) 0)

def Result.code : Result → Nat
  | .done => 0x00 | .accepted => 0x01 | .badState => 0x10 | .notReady => 0x11 | .unknown => 0x12 | .full => 0x13
  | .stackBusy => 0x14 | .overload => 0x15 | .range => 0x16 | .held => 0x17 | .pieceOnHook => 0x18
  | .wrongPosition => 0x19 | .unconfigured => 0x1A

/-- Report kind codes (10 10.7). -/
def ReportKind.code : ReportKind → Nat
  | .referenceFault => 0x01 | .referenceOk => 0x02 | .sensorFault => 0x03 | .sensorOk => 0x04 | .blind => 0x05
  | .blindClear => 0x06 | .overheat => 0x07 | .overheatEnd => 0x08 | .bedState => 0x09 | .stage => 0x0A
  | .bedHold => 0x0B | .releaseReady => 0x0C | .deaf => 0x0D | .deafEnd => 0x0E | .flowFault => 0x0F
  | .flowClear => 0x10 | .auxState => 0x11 | .emergency => 0x12 | .emergencyEnd => 0x13 | .positionFault => 0x14
  | .referenced => 0x15 | .runwayLimit => 0x16 | .spanConflict => 0x17 | .spanFreed => 0x18 | .pieceShipped => 0x19
  | .piecesRemoved => 0x1A | .shippable => 0x1B | .pieceHold => 0x1C | .pieceRemoved => 0x1D | .craneLine => 0x1E
  | .moveDone => 0x1F | .moveHalted => 0x20 | .moveRemoved => 0x21 | .lineStuck => 0x22 | .lineOk => 0x23
  | .clash => 0x24 | .recordLost => 0x25 | .memoryFault => 0x26 | .supplyWarning => 0x27 | .supplyOk => 0x28
  | .peerSilent => 0x29 | .peerHeard => 0x2A

/-! ### Frames (10 10.3) -/

def kindHeat : Byte := 0x40
def kindAnswer : Byte := 0x20
def kindSpan : Byte := 0x10
def kindReport : Byte := 0x50
def kindOrder : Byte := 0x30

/-- The bytes of a frame, with its check. -/
def frameBytes (kind src target : Byte) (payload : List Byte) : List Byte :=
  let head := kind :: src :: target :: byte payload.length :: payload
  head ++ be 2 (crc head).toNat

def HeatNotice.payload (n : HeatNotice) : List Byte := be 2 n.ds ++ be 2 n.grant ++ be 1 n.shed

def Dir.code : Dir → Nat
  | .none => 0 | .forward => 1 | .reverse => 2

def speedCode : Option Speed → Nat
  | none => 0 | some .creep => 1 | some .slow => 2 | some .fast => 3

def EntryKind.code : EntryKind → Nat
  | .claim => 1 | .held => 2 | .occupied => 3

def Entry.bytes (e : Entry) : List Byte := [byte e.span, byte e.kind.code, byte e.rank.urgency, byte e.rank.addr]

def SpanNotice.payload (n : SpanNotice) : List Byte :=
  be 3 (n.pos.getD 0xFFFFFF) ++ [byte (boolNat n.referenced + 2 * n.dir.code + 8 * speedCode n.speed)] ++ be 2 n.half
    ++ [byte n.entries.length] ++ n.entries.flatMap Entry.bytes

/-- The bytes of the frame the transmitter sends; `own` is the station's address. -/
def TxFrame.bytes (own : Nat) : TxFrame → List Byte
  | .heat n => frameBytes kindHeat (byte own) 0 n.payload
  | .span n => frameBytes kindSpan (byte own) 0 n.payload
  | .answer a => frameBytes kindAnswer (byte own) a.target ([a.tag, byte a.result.code] ++ encodeValues a.data)
  | .report r d => frameBytes kindReport (byte own) 0 ([byte r.kind.code, byte d] ++ encodeValues r.data)

/-- Why a frame is discarded (10 R183, R192). -/
inductive Discard where
  | check | header | framing
  deriving DecidableEq, Repr

/-- The receive checks of 10 R179, R183 on the characters of a frame; none when it is valid. A length above 48 is found at
byte 3, before anything else can be (10 R179); of the other checks the cyclic check comes first (log 12). -/
def classify (bs : List Byte) (framing : Bool) : Option Discard :=
  match bs with
  | kind :: src :: target :: len :: _ =>
    if 48 < len.toNat then some .header
    else if framing || bs.length != 6 + len.toNat then some .framing
    else if crc (bs.take (4 + len.toNat)) != BitVec.ofNat 16 (num (bs.drop (4 + len.toNat))) then some .check
    else if !(okKind kind && okSource src && okTarget target) then some .header
    else none
  | _ => some .framing

/-- A length byte above 48 has been received (10 R179). -/
def lengthTooLong (bs : List Byte) : Bool := decide (4 ≤ bs.length) && decide (48 < (bs.getD 3 0).toNat)

/-! ### Arbitration (10 R178, R180) -/

/-- The bits of one character as they cross the line: start bit, data lowest first, stop bit (10 R178). -/
def charBits (b : Byte) : List Bool :=
  false :: ([0, 1, 2, 3, 4, 5, 6, 7].map fun i => b.getLsbD i) ++ [true]

/-- The data byte of ten sampled bits, or none for a framing error or a false start (10 R178). -/
def readChar : List Bool → Option Byte
  | [false, b0, b1, b2, b3, b4, b5, b6, b7, true] =>
    some (byte ([b7, b6, b5, b4, b3, b2, b1, b0].foldl (fun a b => 2 * a + boolNat b) 0))
  | _ => none

/-- Of two contending bit streams, the first loses: it sends recessive (1) at the first bit in which they differ (10 R180). -/
def losesTo : List Bool → List Bool → Bool
  | a :: as, b :: bs => if a = b then losesTo as bs else a
  | _, _ => false

/-- The contending bits of a frame: those of its kind and source bytes (10 R180). -/
def contendBits (kind src : Byte) : List Bool := charBits kind ++ charBits src

/-! ### Notice payloads -/

/-- The announced demand of a HEAT notice, none when the payload is shorter than its three fields (04 R67). -/
def heatDemand (pl : List Byte) : Option Nat := if pl.length < 5 then none else some (num (pl.take 2))

def readEntry : List Byte → Option Entry
  | [s, k, u, a] =>
    if 31 < s.toNat then none
    else match k.toNat with
      | 1 => some ⟨s.toNat, .claim, ⟨u.toNat, a.toNat⟩⟩
      | 2 => some ⟨s.toNat, .held, ⟨u.toNat, a.toNat⟩⟩
      | 3 => some ⟨s.toNat, .occupied, ⟨0, 0⟩⟩
      | _ => none
  | _ => none

def readEntries : Nat → List Byte → Option (List Entry)
  | 0, _ => some []
  | n + 1, bs => do
    let e ← readEntry (bs.take 4)
    let es ← readEntries n (bs.drop 4)
    return e :: es

/-- What the receiver makes of a SPAN payload: too short (not taken, 07 R122), a bad entry (payload discard, 10 R183), or
the notice. -/
inductive SpanRead where
  | short
  | bad
  | notice (n : SpanNotice)
  deriving DecidableEq, Repr

def readSpeed (n : Nat) : Option Speed :=
  if n = 1 then some .creep else if n = 2 then some .slow else if n = 3 then some .fast else none

/-- A direction (10 10.3); the code 3, which the layout leaves without a meaning, is read as NONE (log 39). -/
def readDir (n : Nat) : Dir := if n = 1 then .forward else if n = 2 then .reverse else .none

/-- Read a SPAN payload (10 10.3). A position counts as known only with the referenced flag set (07 R122). -/
def readSpan (pl : List Byte) : SpanRead :=
  if pl.length < 7 then .short
  else
    let count := (pl.getD 6 0).toNat
    if 8 < count then .bad
    else if pl.length < 7 + 4 * count then .short
    else match readEntries count (pl.drop 7) with
      | none => .bad
      | some es =>
        let q := num (pl.take 3)
        let st := (pl.getD 3 0).toNat
        let ref := st % 2 = 1
        .notice
          { pos := if ref ∧ q ≠ 0xFFFFFF then some q else none
            referenced := ref
            half := num ((pl.drop 4).take 2)
            dir := readDir (st / 2 % 4)
            speed := readSpeed (st / 8 % 4)
            entries := es
            claimSerial := none }

/-! ### Order parameters (10 10.6) -/

/-- One byte of the parameters as a number. -/
def par (ps : List Byte) (i : Nat) : Nat := (ps.getD i 0).toNat

/-- A 3-byte number of the parameters. -/
def par3 (ps : List Byte) (i : Nat) : Nat := num ((ps.drop i).take 3)

/-- A piece entry of CAST_START: id 3, mark 2, slot 1, mass 2. -/
structure PartEntry where
  id : Nat
  mark : Nat
  slot : Nat
  mass : Nat
  deriving DecidableEq, Repr

/-- The entries after bed, mix, k and n; none when a part-entry is left over. -/
def readPartEntries (fuel : Nat) (bs : List Byte) : Option (List PartEntry) :=
  match fuel, bs with
  | _, [] => some []
  | k + 1, a :: b :: c :: d :: e :: f :: g :: h :: rest =>
    (readPartEntries k rest).map (⟨num [a, b, c], num [d, e], f.toNat, num [g, h]⟩ :: ·)
  | _, _ => none

end Sys2Proof.Machine
end

