-- ==== Sys2Proof/Machine/Reports.lean ====
section
/-! DEFINITION. The reports of 10 10.7, each with the fields its rule lists, in that order, in the widths of 10 10.6 (log 19 for
the widths the tables leave open). States are coded by their place in the list of their rule, causes by 10 10.7. -/
namespace Sys2Proof.Machine
open Sys2Proof

def BedState.code : BedState → Nat
  | .empty => 0 | .casting => 1 | .curing => 2 | .detensioning => 3 | .detensioned => 4

def Stage.code : Stage → Nat
  | .preset => 0 | .ramp => 1 | .hold => 2 | .cool => 3 | .finished => 4

def SampleCause.code : SampleCause → Nat
  | .short => 0 | .opened => 1 | .range => 2 | .missed => 3

/-- Causes of a change of bed state (03 R42). -/
inductive BedCause where
  | order | jackHome | emergency | lastPick | restore
  deriving DecidableEq, Repr

def BedCause.code : BedCause → Nat
  | .order => 0 | .jackHome => 1 | .emergency => 2 | .lastPick => 3 | .restore => 4

def PosFault.code : PosFault → Nat
  | .skip => 0 | .stuck => 1 | .range => 2

def HaltCause.code : HaltCause → Nat
  | .emergency => 0 | .craneFault => 1 | .craneLocal => 2 | .positionFault => 3 | .hookUnexpected => 4
  | .claimTimeout => 5 | .timeout => 6 | .restored => 7

def Phase.code : Phase → Nat
  | .queued => 0 | .toPick => 1 | .atPick => 2 | .toPlace => 3 | .atPlace => 4 | .halted => 5

def MoveKind.code : MoveKind → Nat
  | .lift => 0 | .dispatch => 1

/-- Limit and window states by their tables (06 R115, R116), NONE last. -/
def Where.code : Where → Nat
  | .below => 0 | .inside => 1 | .above => 2 | .none => 3

/-- Entry kinds as 07 R121 lists them. -/
def EntryKind.place : EntryKind → Nat
  | .claim => 0 | .held => 1 | .occupied => 2

/-- Block kinds in the order of the table of 11 11.3, with the number of the block in its kind. -/
def blockKindNumber : Block → Nat × Nat
  | .clock => (0, 0) | .bed b => (1, b.val) | .channels => (2, 0) | .piece n => (3, n.val) | .stackTable => (4, 0)
  | .moves => (5, 0)

namespace Report

/-- REFERENCE_FAULT (01 R5): the codes take 2 bytes each (log 19). -/
def referenceFault (r1 r2 now : Nat) : Report := ⟨.referenceFault, [.b2 r1, .b2 r2, .b4 now]⟩
def referenceOk (now : Nat) : Report := ⟨.referenceOk, [.b4 now]⟩
def sensorFault (ch : Nat) (c : SampleCause) (last : Option Int) : Report :=
  ⟨.sensorFault, [.b1 ch, .bits 2 c.code, tempValue last]⟩
def sensorOk (ch : Nat) (t : Int) : Report := ⟨.sensorOk, [.b1 ch, tempValue (some t)]⟩
def blind (b now : Nat) : Report := ⟨.blind, [.b1 b, .b4 now]⟩
def blindClear (b : Nat) (tc : Int) (secs : Nat) : Report := ⟨.blindClear, [.b1 b, tempValue (some tc), .b4 secs]⟩
def overheat (b : Nat) (tc tmax : Int) : Report := ⟨.overheat, [.b1 b, tempValue (some tc), tempValue (some tmax)]⟩
def overheatEnd (b : Nat) (tc : Int) : Report := ⟨.overheatEnd, [.b1 b, tempValue (some tc)]⟩
def bedState (b : Nat) (st : BedState) (c : BedCause) (now : Nat) : Report :=
  ⟨.bedState, [.b1 b, .bits 3 st.code, .bits 3 c.code, .b4 now]⟩
def stage (b : Nat) (st : Stage) (sp : Int) (now : Nat) : Report :=
  ⟨.stage, [.b1 b, .bits 3 st.code, tempValue (some sp), .b4 now]⟩
def bedHold (b : Nat) (v : Bool) : Report := ⟨.bedHold, [.b1 b, flag v]⟩
def releaseReady (b mg strength : Nat) : Report := ⟨.releaseReady, [.b1 b, .b4 mg, .b2 strength]⟩
def deaf (now entries : Nat) : Report := ⟨.deaf, [.b4 now, .b1 entries]⟩
/-- DEAF_END (04 R70): the count of boundaries saturates in its 2 bytes (log 19). -/
def deafEnd (now boundaries : Nat) : Report := ⟨.deafEnd, [.b4 now, .b2 (sat 65535 boundaries)]⟩
def flowFault (b flow now : Nat) : Report := ⟨.flowFault, [.b1 b, .b2 flow, .b4 now]⟩
def flowClear (b now : Nat) : Report := ⟨.flowClear, [.b1 b, .b4 now]⟩

/-- Causes of AUX_STATE (05 R94). -/
inductive AuxCause where
  | order | shed | unshed
  deriving DecidableEq, Repr

def AuxCause.code : AuxCause → Nat
  | .order => 0 | .shed => 1 | .unshed => 2

/-- The line number takes 1 byte, and on is 1 (log 19). -/
def auxState (k : Nat) (v shed : Bool) (c : AuxCause) : Report :=
  ⟨.auxState, [.b1 k, flag v, flag shed, .bits 2 c.code]⟩
def emergency (now : Nat) : Report := ⟨.emergency, [.b4 now]⟩
def emergencyEnd (now secs : Nat) : Report := ⟨.emergencyEnd, [.b4 now, .b4 secs]⟩
def positionFault (c : PosFault) (last : Option Nat) (now : Nat) : Report :=
  ⟨.positionFault, [.bits 2 c.code, posValue last, .b4 now]⟩

/-- REFERENCED (06 R110): Rp, station time, a flag that the position was known, and the correction, 0 where it was not (log 19). -/
def referenced (rp now : Nat) (before : Option Nat) : Report :=
  ⟨.referenced, [.b3 rp, .b4 now, flag before.isSome,
    .b3 ((((rp : Int) - (before.getD rp : Int)) + 16777216) % 16777216).toNat]⟩
def runwayLimit (w : Where) (q now : Nat) : Report := ⟨.runwayLimit, [.bits 2 w.code, .b3 q, .b4 now]⟩
def spanConflict (span addr : Nat) (k : EntryKind) (peer own : Rank) (yielded : Bool) (now : Nat) : Report :=
  ⟨.spanConflict, [.b1 span, .b1 addr, .bits 2 k.place, .b1 peer.urgency, .b1 peer.addr, .b1 own.urgency, .b1 own.addr,
    flag yielded, .b4 now]⟩
/-- SPAN_FREED (07 R129): the addresses ascend, without a count before them (log 19). -/
def spanFreed (span : Nat) (addrs : List Nat) (now : Nat) : Report :=
  ⟨.spanFreed, [.b1 span] ++ addrs.map .b1 ++ [.b4 now]⟩
/-- PIECE_SHIPPED (08 R144): the mark takes 2 bytes (log 19). -/
def pieceShipped (x : Piece) (maturity strength age now : Nat) : Report :=
  ⟨.pieceShipped, [.b3 x.id, .b2 x.mark, .b2 x.mass, .b4 maturity, .b2 strength, .b4 age, .b4 now]⟩
def piecesRemoved (b n now : Nat) : Report := ⟨.piecesRemoved, [.b1 b, .b1 n, .bits 1 0, .b4 now]⟩
/-- SHIPPABLE (08 R148): the mark takes 2 bytes (log 19). -/
def shippable (x : Piece) (lane stack maturity strength age now : Nat) : Report :=
  ⟨.shippable, [.b3 x.id, .b2 x.mark, .b1 lane, .b1 stack, .b4 maturity, .b2 strength, .b4 age, .b4 now]⟩
def pieceHold (id : Nat) (v : Bool) : Report := ⟨.pieceHold, [.b3 id, flag v]⟩

/-- A place: its state (ON_BED, ON_HOOK, IN_STOCK) and its numbers. -/
def placeValues : Place → List Value
  | .onBed b s => [.bits 2 0, .b1 b, .b1 s]
  | .onHook => [.bits 2 1]
  | .inStock l s t => [.bits 2 2, .b1 l, .b1 s, .b1 t]

def pieceRemoved (id : Nat) (pl : Place) : Report := ⟨.pieceRemoved, [.b3 id] ++ placeValues pl ++ [.bits 1 0]⟩
def craneLine (hook ready fault locl : Bool) (now : Nat) : Report :=
  ⟨.craneLine, [flag hook, flag ready, flag fault, flag locl, .b4 now]⟩

/-- MOVE_DONE (09 R168): the place is lane and stack for a LIFT, the dispatch point for a DISPATCH. -/
def moveDone (m : Move) (byResume : Bool) (now : Nat) : Report :=
  ⟨.moveDone, [.b1 m.tag, .bits 1 m.kind.code, .b3 m.piece]
    ++ (match m.stack with | some (l, s) => [.b1 l, .b1 s] | none => [.b3 m.place])
    ++ [flag byResume, .b4 now]⟩
def moveHalted (m : Move) (ph : Phase) (c : HaltCause) (q : Option Nat) (now : Nat) : Report :=
  ⟨.moveHalted, [.b1 m.tag, .bits 1 m.kind.code, .b3 m.piece, .bits 3 ph.code, .bits 3 c.code, flag m.picked, posValue q,
    .b4 now]⟩

/-- Causes of MOVE_REMOVED (09 R173, R174, R176). -/
inductive RemoveCause where
  | cancel | clearBed | restore
  deriving DecidableEq, Repr

def RemoveCause.code : RemoveCause → Nat
  | .cancel => 0 | .clearBed => 1 | .restore => 2

def moveRemoved (m : Move) (c : RemoveCause) : Report := ⟨.moveRemoved, [.b1 m.tag, .b3 m.piece, .bits 2 c.code]⟩
def lineStuck : Report := ⟨.lineStuck, []⟩
/-- LINE_OK (10 R184): the length of the episode in milliseconds, in 4 bytes; a longer episode than they hold is told as
4,294,967,295 (log 19). -/
def lineOk (ms : Nat) : Report := ⟨.lineOk, [.b4 (sat 4294967295 ms)]⟩
def clash (count secs now : Nat) : Report := ⟨.clash, [.b1 count, .b4 secs, .b4 now]⟩
def recordLost (kind n first : Nat) : Report := ⟨.recordLost, [.bits 3 kind, .b2 n, .b1 first]⟩
def memoryFault (b : Block) (now : Nat) : Report :=
  ⟨.memoryFault, [.bits 3 (blockKindNumber b).1, .b1 (blockKindNumber b).2, .b4 now]⟩
def supplyWarning : Report := ⟨.supplyWarning, []⟩
def supplyOk (secs : Nat) : Report := ⟨.supplyOk, [.b4 secs]⟩
def peerSilent (addr : Nat) (spans : List Nat) (now : Nat) : Report :=
  ⟨.peerSilent, [.b1 addr, spanSet spans, .b4 now]⟩
def peerHeard (addr now : Nat) : Report := ⟨.peerHeard, [.b1 addr, .b4 now]⟩

end Report

end Sys2Proof.Machine
end

