-- ==== Sys2Proof/Machine/Outputs.lean ====
section
/-! DEFINITION. Output matrix (05): heater pulse generators, flow monitors, AUX lines. The output lines are in Flags.lean. -/
namespace Sys2Proof.Machine
open Sys2Proof

def Part.gen (p : Part) (b : Nat) : Gen := p.out.gens.getD b ⟨0, 0, none⟩
def Part.flow (p : Part) (b : Nat) : Flow := p.out.flows.getD b Flow.reset
def Part.auxLine (p : Part) (k : Nat) : Aux := p.out.aux.getD k ⟨false, none⟩

/-- The heater request (05 R83). -/
def Gen.request (g : Gen) : Bool := decide (g.phase < g.onTime)

def Part.setFlow (b : Nat) (x : Flow) (p : Part) : Part :=
  { p with out := { p.out with flows := p.out.flows.set b x } }

/-- Change a generator; a request that becomes inactive breaks the open flow window (05 R86). -/
def Part.withGen (b : Nat) (f : Gen → Gen) (p : Part) : Part :=
  let new := f (p.gen b)
  let q := { p with out := { p.out with gens := p.out.gens.set b new } }
  if (p.gen b).request && !new.request then q.setFlow b { p.flow b with broken := true } else q

/-- The on-time of an allocation (05 R84). -/
def onTimeOf (x : BedCfg) (alloc : Nat) : Nat := alloc * x.period / x.pmax

/-- An allocation reaches its generator: buffered, or forced to 0 at once (05 R84, R85). -/
def takeAllocation (c : Settings) (b alloc : Nat) (forced : Bool) (p : Part) : Part :=
  p.withGen b fun g =>
    if forced then { g with onTime := 0, buffer := some 0 } else { g with buffer := some (onTimeOf (c.bed b) alloc) }

/-- Period start (05 R83). -/
def Gen.periodStart (g : Gen) : Gen := { phase := 0, onTime := g.buffer.getD g.onTime, buffer := none }

/-- The request ends within the period: the phase count has reached the on-time (05 R83). -/
def Gen.pulseEnd (period : Nat) (g : Gen) : Gen :=
  if g.request ∧ g.onTime < period then { g with phase := g.onTime } else g

/-! ### AUX lines (05 5.5) -/

/-- Effective value (05 R94). -/
def Aux.effective (x : AuxCfg) (a : Aux) : Bool := if a.saved.isSome then x.shedOn else a.commanded

def Settings.auxCfg (c : Settings) (k : Nat) : AuxCfg := c.aux.getD k ⟨none, false⟩

/-- Change an AUX line; a changed effective value is reported (05 R94). -/
def Part.withAux (c : Settings) (k : Nat) (cause : Report.AuxCause) (f : Aux → Aux) (p : Part) : Part :=
  let x := Settings.auxCfg c k
  let old := p.auxLine k
  let new := f old
  { p with out := { p.out with aux := p.out.aux.set k new } }.reportIf
    (old.effective x != new.effective x) (.auxState k (new.effective x) new.saved.isSome cause)

/-- One AUX line under a new shed level (05 R96). -/
def shedLine (c : Settings) (level : Nat) (p : Part) (k : Nat) : Part :=
  match (Settings.auxCfg c k).threshold, (p.auxLine k).saved with
  | some t, none => if t ≤ level then p.withAux c k .shed fun a => { a with saved := some a.commanded } else p
  | some t, some v => if level < t then p.withAux c k .unshed fun _ => ⟨v, none⟩ else p
  | none, _ => p

/-- The heat share unit hands on a shed level (05 R96). -/
def takeShed (c : Settings) (level : Nat) (p : Part) : Part :=
  if level = p.out.lastShed then p
  else (List.range 8).foldl (shedLine c level) { p with out := { p.out with lastShed := level } }

/-- Actions of an AUX order (05 R95). -/
def auxAction (action : Nat) : Option (Bool → Bool) :=
  if action = 1 then some fun _ => true
  else if action = 2 then some fun _ => false
  else if action = 3 then some (!·)
  else none

/-- The action acts on the commanded value, or on the saved value of a shed line (05 R95). -/
def Aux.act (f : Bool → Bool) (a : Aux) : Aux :=
  match a.saved with
  | some v => { a with saved := some (f v) }
  | none => { a with commanded := f a.commanded }

/-! ### Flow monitors (05 5.3) -/

/-- A rising edge of the FLOW input (05 R86). -/
def Flow.edge (x : Flow) : Flow := { x with last := true, edges := sat 65535 (x.edges + 1) }

/-- The run count after a window closes (05 R87): 3 sets the fault. -/
def Flow.runAfter (x : BedCfg) (m : Flow) : Nat :=
  if m.broken || !x.flowCheck || m.fault then m.run
  else if x.fmin ≤ m.edges ∧ m.edges ≤ x.fmax then 0 else m.run + 1

/-- A window closes and the next opens (05 R86, R87); `request` is the heater request at that moment. -/
def Flow.close (x : BedCfg) (request : Bool) (m : Flow) : Flow :=
  let run := m.runAfter x
  { m with edges := 0, broken := !request, flow := m.edges, fault := m.fault || run == 3, run := if run = 3 then 0 else run }

end Sys2Proof.Machine
end

