-- ==== Sys2Proof/Machine/Heat.lean ====
section
/-! DEFINITION. Heat share unit (04): heat list, DEAF, grant, allocations, shed level, HEAT notice. -/
namespace Sys2Proof.Machine
open Sys2Proof

/-- The station's demand (04 R72). -/
def totalDemand (c : Settings) (p : Part) : Nat :=
  ((List.range 4).map fun b => if c.assigned b then (p.bed b).db else 0).sum

/-- The demands of all entries of the heat list. -/
def listDemand (l : List HeatEntry) : Nat := (l.map (·.demand)).sum

/-- The grant (04 R72); `held` when the listening count is above 0 or the station is in CLASH. -/
def grantOf (held : Bool) (ds total capacity : Nat) : Nat :=
  if held then 0 else if ds = 0 then 0 else if total ≤ capacity then ds else ds * capacity / total

/-- A bed's allocation (04 R74). -/
def allocationOf (db grant ds : Nat) : Nat := if ds = 0 then 0 else db * grant / ds

/-- Shed level of a grant (04 R75). -/
def shedOf (grant ds : Nat) : Nat :=
  let q := if ds = 0 then 1000 else grant * 1000 / ds
  if 1000 ≤ q then 0 else if 750 ≤ q then 1 else if 500 ≤ q then 2 else if 250 ≤ q then 3 else 4

/-- The values of one computation (04 R73). -/
def shareOf (c : Settings) (p : Part) : HeatUnit :=
  let ds := totalDemand c p
  let g := grantOf (decide (0 < p.heat.listening) || p.inClash) ds (ds + listDemand p.heat.list) c.capacity
  { p.heat with
    ds := ds
    grant := g
    shed := shedOf g ds
    alloc := (List.range 4).map fun b => if c.assigned b then allocationOf (p.bed b).db g ds else 0 }

/-- Grant, allocations and shed level as one computation, handed to the output matrix (04 R73..R75). `forced` are the beds
whose demand change came with the forced flag; in CLASH every allocation is forced (04 R77). -/
def computeGrant (c : Settings) (forced : List Nat) (p : Part) : Part :=
  let h := shareOf c p
  let q := { p with heat := h }
  let r := q.forAssigned c fun b x => takeAllocation c b (h.alloc.getD b 0) (decide (b ∈ forced) || q.inClash) x
  takeShed c h.shed r

/-- A HEAT notice acts on the entry of its source (04 R67); the grant is computed when the counted total rises. -/
def takeHeatNotice (c : Settings) (src demand : Nat) (p : Part) : Part :=
  let before := listDemand p.heat.list
  let q := { p with heat := { p.heat with list := putBy (·.addr) ⟨src, demand, 0⟩ p.heat.list } }
  if before < listDemand q.heat.list then computeGrant c [] q else q

/-- Steps 1 and 2 of 04 R69: listening count and ages. -/
def HeatUnit.ageList (h : HeatUnit) : HeatUnit :=
  { h with listening := h.listening - 1, list := h.list.map fun e => { e with age := sat 255 (e.age + 1) } }

/-- Step 3 of 04 R69: the DEAF state (04 R70). -/
def settleDeaf (p : Part) : Part :=
  match p.heat.deaf, p.heat.heard with
  | none, false => { p with heat := { p.heat with deaf := some 1 } }.report (.deaf p.now p.heat.list.length)
  | none, true => p
  | some n, false => { p with heat := { p.heat with deaf := some (n + 1) } }
  | some n, true => { p with heat := { p.heat with deaf := none } }.report (.deafEnd p.now (n + 1))

/-- Steps 4 and 5 of 04 R69: removals, unless the line was not heard or the boundary ended DEAF, and the heard flag. -/
def HeatUnit.dropStale (endedDeaf : Bool) (h : HeatUnit) : HeatUnit :=
  { h with
    list := if h.heard && !endedDeaf then h.list.filter fun e => decide (e.age < 6) else h.list
    heard := false }

/-- A heat period boundary (04 R69). -/
def heatBoundary (c : Settings) (p : Part) : Part :=
  let p1 := settleDeaf { p with heat := p.heat.ageList }
  let ended := p.heat.deaf.isSome && p1.heat.deaf.isNone
  let p2 := computeGrant c [] { p1 with heat := p1.heat.dropStale ended }
  { p2 with line := p2.line.placeHeat ⟨p2.heat.ds, p2.heat.grant, p2.heat.shed⟩ }

end Sys2Proof.Machine
end

