-- ==== Sys2Proof/Machine/Image.lean ====
section
/-! DEFINITION. Reading a configuration image (11 R194): its check and its bytes, the conversion of distances to microsteps
(06 R102) and the checks of every chapter. -/
namespace Sys2Proof.Machine
open Sys2Proof

/-! ### Bytes (11 11.2) -/

/-- The size of the image, which is the byte count of its read (11 R194). -/
def imageBytes : Nat := 4096

/-- The check over bytes 0x000..0xFFD matches bytes 0xFFE..0xFFF (11 R194, 10 R182). -/
def imageCheck (bs : List Byte) : Bool :=
  bs.length == imageBytes && crc (bs.take 0xFFE) == BitVec.ofNat 16 (num (bs.drop 0xFFE))

/-- A 2-byte two's complement number. -/
def signed16 (n : Nat) : Int := if n < 32768 then n else (n : Int) - 65536

end Sys2Proof.Machine

namespace Sys2Proof
open Sys2Proof.Machine

/-- The field of `len` bytes at an offset, high byte first (11 11.2). -/
def Image.field (img : Image) (off len : Nat) : Nat := num ((img.bytes.drop off).take len)

/-- The channel table holds 5 bytes per channel: enable and bed, Z, K (11 11.2). -/
def Image.z (img : Image) (k : Nat) : Nat := img.field (0x010 + 5 * k + 1) 2
def Image.k (img : Image) (k : Nat) : Nat := img.field (0x010 + 5 * k + 3) 2

/-- The span table holds start, end and home of 32 spans (11 11.2). -/
def Image.span (img : Image) (k : Nat) : SpanCfg :=
  ⟨img.field (0x450 + 9 * k) 4, img.field (0x450 + 9 * k + 4) 4, img.field (0x450 + 9 * k + 8) 1⟩

/-- The stock group holds the stack counts of the lanes, then 12 stacks of 8 bytes per lane (11 11.2). -/
def Image.stack (img : Image) (lane n : Nat) : StackCfg :=
  let o := 0x578 + 8 * (12 * lane + n)
  ⟨img.field o 4, img.field (o + 4) 1, img.field (o + 5) 2⟩

/-- The settings of an image, distances in millimetres: those whose place and width the layout gives are read from the bytes. Bits 4
to 7 of the assigned-beds byte are ignored (log 6). -/
def Image.raw (img : Image) : Settings :=
  { img.settings with
    ts := img.field 2 2, thp := img.field 4 1, t0 := signed16 (img.field 5 2), capacity := img.field 7 2
    beds := img.settings.beds.mapIdx fun b x => { x with assigned := (img.field 9 1).testBit b }
    channels := img.settings.channels.mapIdx fun k x => { x with z := img.z k, k := img.k k }
    ambZ := img.z 22, ambK := img.k 22
    spans := img.settings.spans.mapIdx fun k _ => img.span k
    lanes := (List.range 8).map fun l => (List.range (img.field (0x570 + l) 1)).map fun n => img.stack l n }

end Sys2Proof

namespace Sys2Proof.Machine
open Sys2Proof

/-! ### Distances (06 R102) -/

/-- ceil(d × 16 / Lm) (06 R102). -/
def toSteps (lm d : Nat) : Nat := ceilDiv (d * 16) lm

/-- Every runway distance of the image in microsteps (06 R102). -/
def inSteps (c : Settings) : Settings :=
  let m := toSteps c.lm
  { c with
    beds := c.beds.map fun b => { b with picks := b.picks.map m }
    half := m c.half, refPos := m c.refPos, limLo := m c.limLo, limHi := m c.limHi, tol := m c.tol
    spans := c.spans.map fun x => { x with lo := m x.lo, hi := m x.hi }
    gap := m c.gap, stopCreep := m c.stopCreep, stopSlow := m c.stopSlow, stopFast := m c.stopFast
    dispatch := m c.dispatch, park := c.park.map m
    lanes := c.lanes.map fun l => l.map fun x => { x with place := m x.place } }

def within (lo hi n : Nat) : Bool := decide (lo ≤ n ∧ n ≤ hi)
def withinInt (lo hi n : Int) : Bool := decide (lo ≤ n ∧ n ≤ hi)

/-- The fields of the fixed tables stand where the image's layout puts them (11 11.2). -/
def okShape (c : Settings) : Bool :=
  c.channels.length == 22 && c.beds.length == 4 && c.curves.length == 4 && c.lines.length == 32 && c.aux.length == 8
    && c.lanes.length == 8 && c.lanes.all fun l => decide (l.length ≤ 12)

/-- General settings (01 R2, 02 2.1, 04 R72). -/
def okGeneral (c : Settings) : Bool :=
  within 10 600 c.ts && within 5 60 c.thp && withinInt (-100) 50 c.t0 && within 1 60000 c.capacity

/-- Channel settings (01 1.2): those of enabled channels, and of AM. -/
def okChannels (c : Settings) : Bool :=
  (c.channels.all fun ch => !ch.enabled ||
    (within 0 4095 ch.z && within 100 4000 ch.k && (match ch.bed with | none => true | some b => decide (b < 4))))
    && within 0 4095 c.ambZ && within 100 4000 c.ambK

/-- Bed settings (03 3.1, 05 5.1), and at least one enabled channel (01 1.2), for an assigned bed. -/
def okBed (c : Settings) (b : Nat) : Bool :=
  let x := c.bed b
  !x.assigned ||
    (withinInt (-100) 300 x.tf && withinInt x.tf 980 x.th && withinInt (x.th + 20) 1000 x.tmax && within 0 600 x.presetMin
      && within 10 400 x.rampRate && within 0 2880 x.holdMin && within 10 400 x.coolRate && within 1 1000 x.gain
      && within 1 2000 x.pmax && within 1 120 x.blindMin && within 1 16 x.picks.length && within 100 60000 x.period
      && within 1 500 x.fmin && within 1 500 x.fmax && decide (x.fmin ≤ x.fmax) && !(c.bedChannels b).isEmpty)

/-- Strictly rising maturities within 1..10,000,000, strengths within 0..1500 that do not fall (02 R33). -/
def okPoints : List (Nat × Nat) → Bool
  | (m1, s1) :: (m2, s2) :: rest =>
    within 1 10000000 m1 && within 0 1500 s1 && decide (m1 < m2 ∧ s1 ≤ s2) && okPoints ((m2, s2) :: rest)
  | [(m, s)] => within 1 10000000 m && within 0 1500 s
  | [] => true

/-- Strength at the last point of a curve. -/
def curveTop (k : Curve) : Nat := (k.points.getLastD (0, 0)).2

/-- A curve entry (02 R33). -/
def okCurve (k : Curve) : Bool :=
  within 2 8 k.points.length && okPoints k.points && decide (k.release ≤ curveTop k ∧ k.lift ≤ curveTop k ∧ k.ship ≤ curveTop k)
    && decide (k.minAge ≤ 2000)

def okCurves (c : Settings) : Bool :=
  c.curves.any Option.isSome && c.curves.all fun o => match o with | none => true | some k => okCurve k

/-- Output and AUX lines (05 5.1). -/
def okLines (c : Settings) : Bool :=
  (c.lines.all fun l => match l.source with
    | .heater b => decide (b < 4) && c.assigned b
    | .permit b => decide (b < 4) && c.assigned b
    | .aux k => decide (k < 8)
    | _ => true)
    && c.aux.all fun a => match a.threshold with | none => true | some t => within 1 4 t

/-- Ranges of the runway settings in millimetres (06 6.1, 07 7.1, 09 9.1). -/
def okRunwayRanges (c : Settings) : Bool :=
  within 100 1000 c.lm && within 100 30000 c.half && within 10 500 c.tol && within 1 32 c.spans.length
    && within 100 2000 c.window && within 100 5000 c.vmax && within 0 60000 c.gap && within 10 60000 c.stopCreep
    && within 10 60000 c.stopSlow && within 10 60000 c.stopFast && within 1 30 c.claimMin && within 1 60 c.pickMin

/-- The joint checks of 06 R102, on microsteps. -/
def okRunway (c : Settings) : Bool :=
  within 4 12 (c.refPos % 16) && decide (c.half + 32 ≤ c.limLo) && decide (c.limHi + c.half ≤ 1048543)
    && decide (c.limLo < c.refPos ∧ c.refPos < c.limHi) && decide (c.limLo + 2 * c.half < c.limHi)

/-- Each span ends where the next starts (07 R119). -/
def contiguous : List SpanCfg → Bool
  | a :: b :: rest => a.hi == b.lo && contiguous (b :: rest)
  | _ => true

/-- The spans whose home is this station. -/
def homeSpans (c : Settings) (own : Nat) : List Nat :=
  (List.range c.spans.length).filter fun k => (c.spans.getD k default).home == own

/-- The joint checks of 07 R119, on microsteps; `own` is the station's address. -/
def okSpans (c : Settings) (own : Nat) : Bool :=
  let h := homeSpans c own
  (c.spans.all fun x => decide (x.lo < x.hi) && decide (x.lo + 2 * c.half < x.hi) && within 1 32 x.home)
    && contiguous c.spans
    && decide ((c.spans.headD default).lo ≤ c.limLo) && decide (c.limHi < (c.spans.getLastD default).hi)
    && within 1 6 h.length && decide (h.getLastD 0 + 1 = h.headD 0 + h.length)
    && decide (c.stopCreep ≤ c.stopSlow ∧ c.stopSlow ≤ c.stopFast)

/-- Stacks within the limits (08 8.4), dispatch point and park position (09 9.1), on microsteps. -/
def okPlaces (c : Settings) (own : Nat) : Bool :=
  (c.lanes.all fun l => l.all fun x => within c.limLo c.limHi x.place && within 1 6 x.tiers && within 1 39000 x.load)
    && within c.limLo c.limHi c.dispatch
    && (match c.park with
      | none => true
      | some q => (homeSpans c own).any fun k =>
          decide ((c.spans.getD k default).lo ≤ q ∧ q < (c.spans.getD k default).hi))

/-- Every field lies within its range, and the joint checks hold; `c` in millimetres (11 R194). -/
def okSettings (own : Nat) (c : Settings) : Bool :=
  let d := inSteps c
  okShape c && okGeneral c && okChannels c && (List.range 4).all (okBed c) && okCurves c && okLines c && okRunwayRanges c
    && okRunway d && okSpans d own && okPlaces d own

/-- The image passes: its check matches, its format code is 0x0B24, and its settings are right (11 R194). -/
def imagePasses (own : Nat) (img : Image) : Bool :=
  imageCheck img.bytes && img.field 0 2 == 0x0B24 && okSettings own img.raw

/-- The settings in force after reading an image, or none when it fails its checks (11 R194). -/
def readImage (own : Nat) (img : Image) : Option Settings :=
  if imagePasses own img then some (inSteps img.raw) else none

end Sys2Proof.Machine
end

