-- ==== Sys2Proof/Machine/Maturity.lean ====
section
/-! DEFINITION. Maturity unit (02): curves, accumulators, governing maturity, piece maturity and the threshold tests. -/
namespace Sys2Proof.Machine
open Sys2Proof

/-- Saturation of a maturity (02 R22). -/
def maxMaturity : Nat := 10000000

/-! ### Strength curves (02 R34) -/

/-- The segments beyond a point (mi, si) (02 R34, second and third rows). -/
def segments (mi si : Nat) : List (Nat × Nat) → Nat → Nat
  | [], _ => si
  | (mj, sj) :: rest, m => if m ≤ mj then si + (sj - si) * (m - mi) / (mj - mi) else segments mj sj rest m

/-- The strength of a curve at a maturity (02 R34). -/
def curveStrength (k : Curve) (m : Nat) : Nat :=
  match k.points with
  | [] => 0
  | (m1, s1) :: rest => if m ≤ m1 then s1 * m / m1 else segments m1 s1 rest m

/-- The strength of a mix; 0 where the curve is absent (02 R35). -/
def mixStrength (c : Settings) (mix m : Nat) : Nat :=
  match c.curve mix with
  | none => 0
  | some k => curveStrength k m

/-- A threshold test of a mix at a strength; never reached where the curve is absent (02 R35). -/
def reached (c : Settings) (mix : Nat) (threshold : Curve → Nat) (strength : Nat) : Bool :=
  match c.curve mix with
  | none => false
  | some k => decide (threshold k ≤ strength)

/-! ### Accumulators -/

/-- One advance by a product in 0.1 °C·s (02 R20, R22). -/
def Acc.advance (a : Acc) (product : Nat) : Acc :=
  let r := a.residue + product
  if maxMaturity ≤ a.m ∨ maxMaturity < a.m + r / 360 then ⟨maxMaturity, 0⟩ else ⟨a.m + r / 360, r % 360⟩

/-- The product of a temperature over an interval (02 R20). -/
def product (t0 t : Int) (secs : Nat) : Nat := (t - t0).toNat * secs

/-- A completed sample as the scan unit hands it on (01 R7): usable temperatures of S0..S21 and AM, the interval it stands
for, and its end time (02 R21). -/
structure Sample where
  usable : List (Option Int)
  interval : Nat
  endTime : Nat
  deriving DecidableEq, Repr

/-- The credited interval of a bed's channels (02 R21). -/
def credited (interval endTime credit : Nat) : Nat := min interval (endTime - credit)

/-- The advance of one sensor channel (02 R20). -/
def advanceChannel (c : Settings) (p : Part) (x : Sample) (k : Nat) (a : Acc) : Acc :=
  let ch := c.channel k
  match ch.enabled, ch.bed, x.usable.getD k none with
  | true, some b, some t =>
    if c.assigned b ∧ (p.bed b).state ≠ .empty then
      a.advance (product c.t0 t (credited x.interval x.endTime (p.maturity.credit.getD b 0)))
    else a
  | _, _, _ => a

/-- Step 1 of 02 R40: every accumulator is advanced. A sample that stands for no interval advances none (02 R40). -/
def advanceAll (c : Settings) (x : Sample) (p : Part) : Part :=
  if x.interval = 0 then p
  else
    let accs := p.maturity.accs.mapIdx fun k a => advanceChannel c p x k a
    let amb := match x.usable.getD 22 none with
      | some t => p.maturity.ambient.advance (product c.t0 t x.interval)
      | none => p.maturity.ambient
    { p with maturity := { p.maturity with accs := accs, ambient := amb } }.markIf (accs != p.maturity.accs) .channels

/-! ### Governing maturity (02 R26, R27) -/

/-- The least of a list, if it has a member. -/
def least : List Nat → Option Nat
  | [] => none
  | x :: xs => some (match least xs with | some y => min x y | none => x)

/-- The governing minimum of a bed (02 R26). -/
def governingMinimum (c : Settings) (p : Part) (b : Nat) : Option Nat :=
  least (((c.bedChannels b).filter fun k => !(p.channel k).retired).map fun k => (p.maturity.accs.getD k ⟨0, 0⟩).m)

/-- The published value after a computation (02 R27). -/
def publish (old : Nat) (minimum : Option Nat) : Nat :=
  match minimum with
  | some m => if old ≤ m then m else old
  | none => old

/-- The maturity of a piece (02 R29, R31). -/
def pieceMaturity (p : Part) (x : Piece) : Nat :=
  match x.place, x.capture with
  | .onBed b _, _ => (p.bed b).mg
  | _, some k => sat maxMaturity (k.mlift + (p.maturity.ambient.m - k.alift))
  | _, none => 0

/-- The strength of a piece (02 R35). -/
def pieceStrength (c : Settings) (p : Part) (x : Piece) : Nat := mixStrength c x.mix (pieceMaturity p x)

/-- The age of a piece in seconds (02 R39). -/
def pieceAge (p : Part) (x : Piece) : Nat := p.now - x.castTime

/-- The age test (02 R39). -/
def ageReached (c : Settings) (p : Part) (x : Piece) : Bool :=
  match c.curve x.mix with
  | none => false
  | some k => decide (k.minAge * 3600 ≤ pieceAge p x)

/-- Change the tests of the piece records, which are not persisted. -/
def Part.mapPieces (f : Piece → Piece) (p : Part) : Part :=
  { p with pieces := { p.pieces with register := p.pieces.register.map (Option.map f) } }

def Piece.onBed? (x : Piece) (b : Nat) : Bool := match x.place with | .onBed b' _ => b == b' | _ => false

/-- The lift tests of the pieces on a bed (02 R37). -/
def formLiftTests (c : Settings) (b : Nat) (p : Part) : Part :=
  p.mapPieces fun x =>
    if x.onBed? b then { x with liftTest := reached c x.mix Curve.lift (mixStrength c x.mix (p.bed b).mg) } else x

/-- The ship strength tests of the pieces that hold Mlift and Alift (02 R38). -/
def formShipTests (c : Settings) (p : Part) : Part :=
  p.mapPieces fun x =>
    if x.capture.isSome then { x with shipTest := reached c x.mix Curve.ship (pieceStrength c p x) } else x

/-- The age tests of the pieces whose test is not yet reached (02 R39). -/
def formAgeTests (c : Settings) (p : Part) : Part :=
  p.mapPieces fun x => if x.ageTest then x else { x with ageTest := ageReached c p x }

/-- The bed strength and the release test at the published Mg (02 R35, R36). -/
def formBedTests (c : Settings) (x : Bed) : Bed :=
  let s := mixStrength c x.mix x.mg
  { x with strength := s, releaseTest := reached c x.mix Curve.release s }

/-- The computation of 02 R26 for one bed: publication, bed strength, release test and, when Mg changed, lift tests. -/
def computeGoverning (c : Settings) (b : Nat) (p : Part) : Part :=
  if (p.bed b).state = .empty then p
  else
    let old := (p.bed b).mg
    let new := publish old (governingMinimum c p b)
    let q := p.withBed b fun x => formBedTests c { x with mg := new }
    if new = old then q else formLiftTests c b q

/-- The maturity unit takes a completed sample (02 R40). -/
def maturityTakes (c : Settings) (x : Sample) (p : Part) : Part :=
  let q := advanceAll c x p
  let r := q.forAssigned c (computeGoverning c)
  (if q.maturity.ambient.m = p.maturity.ambient.m then r else formShipTests c r).markDirty .clock

/-- Zeroing at a first CAST_START part (02 R23). -/
def zeroBed (c : Settings) (b : Nat) (p : Part) : Part :=
  let chs := c.bedChannels b
  let p := { p with maturity := { p.maturity with
    accs := p.maturity.accs.mapIdx fun k a => if k ∈ chs then ⟨0, 0⟩ else a
    credit := p.maturity.credit.set b p.now } }.markDirty .channels
  computeGoverning c b (p.withBed b fun x => { x with mg := 0 })

/-- The values captured at the first pick (02 R30). -/
def capturePick (c : Settings) (p : Part) (x : Piece) : Capture :=
  match x.capture with
  | some k => k
  | none => ⟨pieceMaturity p x, p.maturity.ambient.m, pieceStrength c p x⟩

/-- The computations at the completion of start (02 R40). -/
def maturityAtStart (c : Settings) (p : Part) : Part :=
  let q := p.forAssigned c (computeGoverning c)
  let r := q.forAssigned c (formLiftTests c)
  (formShipTests c r).mapPieces fun x => { x with ageTest := ageReached c r x }

end Sys2Proof.Machine
end

