-- ==== Sys2Proof/Machine/Scan.lean ====
section
/-! DEFINITION. Scan unit (01): conversion, channel records, control temperature, blind and overheat. -/
namespace Sys2Proof.Machine
open Sys2Proof

/-- A classified sample (01 R6, R7). -/
inductive Classified where
  | valid (t : Int)
  | invalid (cause : SampleCause)
  deriving DecidableEq, Repr

/-- Both references within 1500..2600 and at most 16 apart (01 R5). -/
def accepted (ref1 ref2 : Nat) : Bool :=
  within 1500 2600 ref1 && within 1500 2600 ref2 && decide (ref1 ≤ ref2 + 16 ∧ ref2 ≤ ref1 + 16)

/-- Ratio of a code to the reference (01 R6). -/
def ratio (code rref : Nat) : Nat := code * 2048 / rref

/-- Temperature of a ratio, rounded toward minus infinity (01 R6). -/
def temperature (r z k : Nat) : Int := ((r : Int) - z) * 1000 / k

/-- Classification of a conversion (01 R6). -/
def classifySample (code rref z k : Nat) : Classified :=
  let r := ratio code rref
  if r < 64 then .invalid .short
  else if 4032 < r then .invalid .opened
  else
    let t := temperature r z k
    if t < -400 ∨ 1000 < t then .invalid .range else .valid t

/-- The record after a sample (01 R8, R9). -/
def Channel.apply (x : Channel) : Classified → Channel
  | .valid t => { x with validity := .valid, held := 0, last := some t, cause := none }
  | .invalid cause =>
    match x.validity with
    | .valid => { x with validity := .held, held := 1, cause := some cause }
    | .held =>
      if x.held < 3 then { x with held := x.held + 1, cause := some cause }
      else { x with validity := .faulted, held := 0, cause := some cause }
    | .faulted => { x with cause := some cause }

/-- The report of a sample (01 R8, R9): none while the channel is retired. -/
def Channel.sampleReport (k : Nat) (x : Channel) (s : Classified) : Option Report :=
  if x.retired then none
  else match s, x.validity, (x.apply s).validity with
    | .valid t, .faulted, _ => some (.sensorOk k t)
    | .invalid cause, .held, .faulted => some (.sensorFault k cause x.last)
    | _, _, _ => none

/-- Usable temperature (01 R10). -/
def Channel.usable (x : Channel) : Option Int :=
  if x.retired ∨ x.validity = .faulted then none else x.last

/-- Channels with a record in use: enabled sensor channels, and AM (01 1.4). -/
def channelsInUse (c : Settings) : List Nat := ((List.range 22).filter fun k => (c.channel k).enabled) ++ [22]

def applySample (k : Nat) (s : Classified) (p : Part) : Part :=
  let x := p.channel k
  let q := { p with scan := { p.scan with channels := p.scan.channels.set k (x.apply s) } }
  match x.sampleReport k s with
  | some r => q.report r
  | none => q

/-- Usable temperatures of S0..S21 and AM, absent for channels not in use. -/
def usableAll (c : Settings) (p : Part) : List (Option Int) :=
  (List.range 23).map fun k => if k ∈ channelsInUse c then (p.channel k).usable else none

/-! ### Bed evaluations (01 1.5) -/

/-- Control temperature of a list of usable temperatures (01 R13). -/
def meanTemp (l : List Int) : Option Int := if l = [] then none else some (l.foldl (· + ·) 0 / (l.length : Int))

def controlTemp (c : Settings) (p : Part) (b : Nat) : Option Int :=
  meanTemp ((c.bedChannels b).filterMap fun k => (p.channel k).usable)

def Part.setBedTemp (b : Nat) (x : BedTemp) (p : Part) : Part :=
  { p with scan := { p.scan with beds := p.scan.beds.set b x } }

/-- The blind flag follows the control temperature (01 R14). -/
def settleBlind (b : Nat) (p : Part) : Part :=
  let x := p.bedTemp b
  match x.tc, x.blindSince with
  | none, none => (p.setBedTemp b { x with blindSince := some p.now }).report (.blind b p.now)
  | some t, some since => (p.setBedTemp b { x with blindSince := none }).report (.blindClear b t (p.now - since))
  | _, _ => p

/-- The overheat flag follows the control temperature with hysteresis (01 R15). -/
def settleOverheat (c : Settings) (b : Nat) (p : Part) : Part :=
  let x := p.bedTemp b
  let tmax := (c.bed b).tmax
  match x.tc with
  | none => p
  | some t =>
    if !x.overheat ∧ tmax < t then (p.setBedTemp b { x with overheat := true }).report (.overheat b t tmax)
    else if x.overheat ∧ t ≤ tmax - 20 then (p.setBedTemp b { x with overheat := false }).report (.overheatEnd b t)
    else p

/-- The evaluation of a bed: R13, then R14, then R15; not before the initial scan has completed (01 R13). -/
def evaluateBed (c : Settings) (b : Nat) (p : Part) : Part :=
  if p.scan.evaluating then
    settleOverheat c b (settleBlind b (p.setBedTemp b { p.bedTemp b with tc := controlTemp c p b }))
  else p

/-! ### Retired flags (01 R11) -/

def Part.setRetired (k : Nat) (v : Bool) (p : Part) : Part :=
  { p with scan := { p.scan with channels := p.scan.channels.set k { p.channel k with retired := v } } }.markDirty .channels

/-- A RETIRE sets the flag of one channel. -/
def retireChannel (c : Settings) (b k : Nat) (p : Part) : Part := evaluateBed c b (p.setRetired k true)

/-- A first CAST_START part clears the flags of the bed's channels; a FAULTED channel is reported (01 R11). -/
def clearRetired (k : Nat) (p : Part) : Part :=
  let x := p.channel k
  let q := p.setRetired k false
  match x.validity, x.cause with
  | .faulted, some cause => q.report (.sensorFault k cause x.last)
  | _, _ => q

def clearBedRetired (c : Settings) (b : Nat) (p : Part) : Part :=
  let chs := (c.bedChannels b).filter fun k => (p.channel k).retired
  if chs = [] then p else evaluateBed c b (chs.foldl (fun q k => clearRetired k q) p)

end Sys2Proof.Machine
end

