-- ==== Sys2Proof/Machine/Beds.lean ====
section
/-! DEFINITION. Bed controller (03): curing stages, setpoint, demand, release-ready, bed states; and what a
completed sample does in them. -/
namespace Sys2Proof.Machine
open Sys2Proof

/-! ### Curing stages (03 3.3) -/

/-- The setpoint line of RAMP before its cap, and of COOL before its floor (03 R56, R57). -/
def rampLine (x : BedCfg) (start : Int) (elapsed : Nat) : Int := start + ((x.rampRate * elapsed / 3600 : Nat) : Int)
def coolLine (x : BedCfg) (elapsed : Nat) : Int := x.th - ((x.coolRate * elapsed / 3600 : Nat) : Int)

/-- The setpoint of a stage (03 R56, R57). -/
def stageSetpoint (x : BedCfg) (st : Stage) (start : Int) (elapsed : Nat) : Int :=
  match st with
  | .preset => x.tf
  | .ramp => min x.th (rampLine x start elapsed)
  | .hold => x.th
  | .cool => max x.tf (coolLine x elapsed)
  | .finished => x.tf

/-- The next stage, when the transition of the present one applies (03 R56, R57). -/
def nextStage (x : BedCfg) (st : Stage) (start : Int) (elapsed : Nat) : Option Stage :=
  match st with
  | .preset => if x.presetMin * 60 ≤ elapsed then some .ramp else none
  | .ramp => if x.th ≤ rampLine x start elapsed then some .hold else none
  | .hold => if x.holdMin * 60 ≤ elapsed then some .cool else none
  | .cool => if coolLine x elapsed ≤ x.tf then some .finished else none
  | .finished => none

/-- A stage runs while the bed is CURING or DETENSIONING (03 R55). -/
def Bed.stageRuns (x : Bed) : Bool := x.state == .curing || x.state == .detensioning

/-- Elapsed time of the stage (03 R55). -/
def Bed.elapsed (x : Bed) (now : Nat) : Nat := now - x.stageStart

/-- One transition, if it applies: the new stage begins now and is reported (03 R55). -/
def stageStep (c : Settings) (b : Nat) (p : Part) : Part :=
  let x := p.bed b
  let g := c.bed b
  match nextStage g x.stage x.rampStart (x.elapsed p.now) with
  | none => p
  | some st =>
    let start := if st = .ramp then max g.tf ((p.bedTemp b).tc.getD g.tf) else x.rampStart
    (p.withBed b fun y => { y with stage := st, stageStart := p.now, rampStart := start }).report
      (.stage b st (stageSetpoint g st start 0) p.now)

/-- The evaluation of a bed's stage (03 R55): at most four transitions follow one another. -/
def evaluateStage (c : Settings) (b : Nat) (p : Part) : Part :=
  if (p.bed b).stageRuns then
    let q := stageStep c b (stageStep c b (stageStep c b (stageStep c b p)))
    q.withBed b fun y => { y with setpoint := stageSetpoint (c.bed b) y.stage y.rampStart (y.elapsed q.now) }
  else p

/-! ### Demand (03 3.4) -/

/-- An output line with this bed's heater as source is masked (03 R60). -/
def heaterMasked (c : Settings) (b : Nat) : Bool := c.lines.any fun l => l.source == .heater b && l.mask

/-- The causes of 03 R60 whose change to 0 is handed on as forced (03 R62). -/
def forcing (c : Settings) (p : Part) (b : Nat) : Bool :=
  (p.bedTemp b).overheat || (p.flow b).fault || (heaterMasked c b && (p.emergencyActive || p.inWarning))

/-- Blind longer than the blind hold time (03 R61). -/
def blindTooLong (c : Settings) (p : Part) (b : Nat) : Bool :=
  match (p.bedTemp b).blindSince with
  | some since => decide ((c.bed b).blindMin * 60 < p.now - since)
  | none => false

/-- The demand of a bed (03 R59, R60). -/
def demandOf (c : Settings) (p : Part) (b : Nat) : Nat :=
  if (p.bed b).state == .empty || forcing c p b || blindTooLong c p b then 0
  else (p.bed b).f * (c.bed b).pmax / 1000

/-- A cause of forcing finds Db at 0 already: there is no change to hand on, and a pulse that still runs ends at once (01 R15,
05 R85, R87, R99; log 34). -/
def quell (c : Settings) (b : Nat) (p : Part) : Part :=
  if forcing c p b ∧ (p.gen b).onTime ≠ 0 then takeAllocation c b 0 true p else p

/-- Db formed again from the stored f; a change is handed to the heat share unit (03 R59, R62). -/
def formDemand (c : Settings) (b : Nat) (p : Part) : Part :=
  let new := demandOf c p b
  if new = (p.bed b).db then quell c b p
  else computeGrant c (if new = 0 ∧ forcing c p b then [b] else []) (p.withBed b fun x => { x with db := new })

/-- The demand fraction (03 R59). -/
def fractionOf (gain : Nat) (setpoint tc : Int) : Nat := clampNat 1000 ((setpoint - tc) * (gain : Int) / 10)

/-- The fraction formed at a completed sample: with Tc absent it keeps its value (03 R59, R61). -/
def formFraction (c : Settings) (b : Nat) (p : Part) : Part :=
  match (p.bedTemp b).tc with
  | some tc => p.withBed b fun x => { x with f := fractionOf (c.bed b).gain x.setpoint tc }
  | none => p

/-- Demands of every assigned bed formed again after a change of a condition of 03 R60. -/
def formDemands (c : Settings) (p : Part) : Part := p.forAssigned c (formDemand c)

/-! ### Release-ready and bed states -/

/-- The release-ready flag after a release test (03 R54). -/
def evaluateRelease (b : Nat) (p : Part) : Part :=
  let x := p.bed b
  if x.state = .curing ∧ x.releaseTest ∧ !x.releaseReady then
    (p.withBed b fun y => { y with releaseReady := true }).report (.releaseReady b x.mg x.strength)
  else p

/-- A change of bed state, with its report (03 R42). -/
def setBedState (b : Nat) (st : BedState) (cause : BedCause) (p : Part) : Part :=
  (p.withBed b fun x => { x with state := st }).report (.bedState b st cause p.now)

/-- Entry into EMPTY (03 R51). The hold flag it clears sends no BED_HOLD report (log 38). -/
def enterEmpty (c : Settings) (b : Nat) (cause : BedCause) (p : Part) : Part :=
  formDemand c b (setBedState b .empty cause (p.withBed b fun x => { x with hold := false, setpoint := (c.bed b).tf }))

/-- Entry into DETENSIONED (03 R46, R47, R58). -/
def enterDetensioned (c : Settings) (b : Nat) (p : Part) : Part :=
  setBedState b .detensioned .jackHome (p.withBed b fun x => { x with setpoint := (c.bed b).tf })

/-- The emergency returns a DETENSIONING bed to CURING (03 R49). -/
def emergencyBed (b : Nat) (p : Part) : Part :=
  if (p.bed b).state = .detensioning then setBedState b .curing .emergency p else p

/-! ### The completed sample -/

/-- A second release test after a computation outside a sample (02 R36, 03 R54). -/
def recomputeBed (c : Settings) (b : Nat) (p : Part) : Part := evaluateRelease b (computeGoverning c b p)

/-- The bed controller takes a completed sample, and the grant is computed (03 R54, R59, 04 R73). -/
def bedsTake (c : Settings) (p : Part) : Part :=
  let q := p.forAssigned c evaluateRelease
  computeGrant c [] (q.forAssigned c fun b r => formDemand c b (formFraction c b r))

/-- A missed sample for every channel in use (01 R7), S0 first and AM last (log 7). -/
def missAll (c : Settings) (p : Part) : Part :=
  (channelsInUse c).foldl (fun q k => applySample k (.invalid .missed) q) p

/-- The conversions of an accepted scan (01 R6), S0 first and AM last (log 7). -/
def convertAll (c : Settings) (rref : Nat) (codes : List Code) (p : Part) : Part :=
  (channelsInUse c).foldl (fun q k =>
    let z := if k = 22 then c.ambZ else (c.channel k).z
    let s := if k = 22 then c.ambK else (c.channel k).k
    applySample k (classifySample (codes.getD k 0).toNat rref z s) q) p

/-- The check of the reference codes and the samples of the scan (01 R5, R6). -/
def applyScan (c : Settings) (ref1 ref2 : Nat) (codes : List Code) (p : Part) : Part :=
  if accepted ref1 ref2 then
    let q := if p.scan.refGood then p
      else { p with scan := { p.scan with refGood := true } }.report (.referenceOk p.now)
    convertAll c ((ref1 + ref2) / 2) codes q
  else
    let q := if p.scan.refGood then
        { p with scan := { p.scan with refGood := false } }.report (.referenceFault ref1 ref2 p.now)
      else p
    missAll c q

end Sys2Proof.Machine
end

