-- ==== Sys2Proof/Machine/Pieces.lean ====
section
/-! DEFINITION. Piece store (08): register, stacks, pending marks, readiness, pick and place. -/
namespace Sys2Proof.Machine
open Sys2Proof

/-! ### Register -/

/-- The record block that carries an id. -/
def findRecord (p : Part) (id : Nat) : Option Nat := p.pieces.register.findIdx? fun o => o.any fun x => x.id == id

def recordAt (p : Part) (n : Nat) : Option Piece := p.pieces.register.getD n none

/-- The record that carries an id. -/
def findPiece (p : Part) (id : Nat) : Option Piece := (findRecord p id).bind (recordAt p)

/-- Records in use, in block order. -/
def recordsInUse (p : Part) : List Piece := p.pieces.register.filterMap id

/-- The free record count (08 R140). -/
def freeRecords (p : Part) : Nat := (p.pieces.register.filter Option.isNone).length

def updatePiece (id : Nat) (f : Piece → Piece) (p : Part) : Part :=
  match findRecord p id with
  | some n => p.setRecord n ((recordAt p n).map f)
  | none => p

def removePiece (id : Nat) (p : Part) : Part :=
  match findRecord p id with
  | some n => p.setRecord n none
  | none => p

/-- The lowest-numbered free block (08 R141). -/
def lowestFree (p : Part) : Option Nat := p.pieces.register.findIdx? Option.isNone

/-- The record of a piece entry (08 R141). Its lift test, not yet formed, stands not reached (log 17). -/
def newPiece (b mix castTime : Nat) (e : PartEntry) : Piece :=
  { id := e.id, mark := e.mark, mass := e.mass, mix := mix, castTime := castTime, place := .onBed b e.slot,
    capture := none, hold := false, announced := false, tag := none, liftTest := false, shipTest := false,
    ageTest := false }

/-- Creation of one record, with its age test (08 R141, 02 R39). -/
def createPiece (c : Settings) (b mix castTime : Nat) (e : PartEntry) (p : Part) : Part :=
  match lowestFree p with
  | some n =>
    let x := newPiece b mix castTime e
    p.setRecord n (some { x with ageTest := ageReached c p x })
  | none => p

/-! ### Stacks -/

def stackIndex (lane n : Nat) : Nat := 12 * lane + n
def Part.stackAt (p : Part) (i : Nat) : Stack := p.pieces.stackTable.getD i ⟨[], .none⟩
def Part.setStackAt (i : Nat) (x : Stack) (p : Part) : Part := p.setStacks (p.pieces.stackTable.set i x)

/-- Load of a list of pieces (08 R150). -/
def loadOf (p : Part) (l : List Nat) : Nat := (l.map fun i => ((findPiece p i).map (·.mass)).getD 0).sum

def PendMark.tag? : PendMark → Option Nat
  | .none => Option.none
  | .reservation t _ _ => some t
  | .dispatch t _ => some t

/-- The stack whose pending mark carries a tag. -/
def findMark (p : Part) (tag : Nat) : Option Nat := p.pieces.stackTable.findIdx? fun s => s.mark.tag? == some tag

def clearMark (tag : Nat) (p : Part) : Part :=
  match findMark p tag with
  | some i => p.setStackAt i { p.stackAt i with mark := .none }
  | none => p

/-- A pending mark is released and the piece's move tag cleared (08 R153). -/
def releaseMark (tag id : Nat) (p : Part) : Part := updatePiece id (fun x => { x with tag := none }) (clearMark tag p)

/-! ### Readiness (08 8.3) -/

/-- Lift-ready (08 R146). -/
def liftReady (p : Part) (x : Piece) : Bool :=
  match x.place with
  | .onBed b _ => (p.bed b).state == .detensioned && x.liftTest
  | _ => false

/-- Ship-ready (08 R147). -/
def shipReady (p : Part) (x : Piece) : Bool :=
  match x.place with
  | .inStock l n _ => (p.stackAt (stackIndex l n)).list.getLast? == some x.id && !x.hold && x.shipTest && x.ageTest
  | _ => false

/-- The SHIPPABLE announcement of one piece (08 R148). -/
def announceOne (c : Settings) (p : Part) (x : Piece) : Part :=
  match x.place with
  | .inStock l n _ =>
    (updatePiece x.id (fun y => { y with announced := true }) p).report
      (.shippable x l n (pieceMaturity p x) (pieceStrength c p x) (pieceAge p x) p.now)
  | _ => p

/-- Every piece that has become ship-ready and was not announced (08 R148), in the order of the blocks (log 7). -/
def announce (c : Settings) (p : Part) : Part :=
  ((recordsInUse p).filter fun x => !x.announced && shipReady p x).foldl (announceOne c) p

/-! ### Pick and place (08 8.2) -/

/-- A piece leaves its bed slot; the last one of a DETENSIONED bed empties the bed (03 R51, R63). -/
def leaveSlot (c : Settings) (b s : Nat) (p : Part) : Part :=
  let q := p.withBed b fun x => { x with slots := x.slots.set s none }
  if (q.bed b).state = .detensioned ∧ (q.bed b).slots.all Option.isNone then enterEmpty c b .lastPick q else q

/-- The piece of a move goes to the hook (08 R143). -/
def pickPiece (c : Settings) (id : Nat) (p : Part) : Part :=
  match findPiece p id with
  | none => p
  | some x =>
    let k := capturePick c p x
    let toHook := updatePiece id fun y => { y with place := .onHook, capture := some k }
    match x.place with
    | .onBed b s => leaveSlot c b s (toHook p)
    | .inStock l n _ =>
      let i := stackIndex l n
      toHook (p.setStackAt i { p.stackAt i with list := (p.stackAt i).list.dropLast })
    | .onHook => p

/-- The piece of a LIFT is placed: the reservation becomes its entry (08 R144). -/
def placeLift (tag id lane n : Nat) (p : Part) : Part :=
  let i := stackIndex lane n
  let q := clearMark tag p
  let l := (q.stackAt i).list ++ [id]
  updatePiece id (fun x => { x with place := .inStock lane n l.length }) (q.setStackAt i { q.stackAt i with list := l })

/-- The piece of a DISPATCH is set down: its record is removed and reported (08 R144). -/
def placeDispatch (c : Settings) (tag id : Nat) (p : Part) : Part :=
  let q := clearMark tag p
  match findPiece q id with
  | none => q
  | some x => (removePiece id q).report (.pieceShipped x (pieceMaturity q x) (pieceStrength c q x) (pieceAge q x) q.now)

/-! ### Admission checks (08 R151, R152) -/

/-- The piece store's checks of a LIFT, in order: a refusal, or the piece and its stack (08 R151). -/
def checkLift (c : Settings) (p : Part) (id lane n : Nat) : Except Result (Piece × StackCfg) :=
  if 7 < lane then .error .range
  else match c.stack? lane n with
    | none => .error .range
    | some g => match findPiece p id with
      | none => .error .unknown
      | some x =>
        let s := p.stackAt (stackIndex lane n)
        match x.place with
        | .onBed _ _ =>
          if x.tag.isSome then .error .badState
          else if s.mark ≠ .none then .error .stackBusy
          else if g.tiers < s.list.length + 1 then .error .full
          else if g.load < loadOf p s.list + x.mass then .error .overload
          else .ok (x, g)
        | _ => .error .badState

/-- The piece store's checks of a SHIP, in order: a refusal, or the piece with its lane and stack (08 R152). -/
def checkShip (p : Part) (id : Nat) : Except Result (Piece × Nat × Nat) :=
  match findPiece p id with
  | none => .error .unknown
  | some x =>
    match x.place with
    | .inStock l n _ =>
      let s := p.stackAt (stackIndex l n)
      if x.tag.isSome then .error .badState
      else if s.list.getLast? ≠ some id then .error .badState
      else if s.mark ≠ .none then .error .stackBusy
      else if x.hold then .error .held
      else .ok (x, l, n)
    | _ => .error .badState

end Sys2Proof.Machine
end

