-- ==== Sys2Proof/Machine/Runway.lean ====
section
/-! DEFINITION. Travel interpolator (06): track decoder, marks, microsteps, referencing, position changes. -/
namespace Sys2Proof.Machine
open Sys2Proof

/-- The position base × 16 + u (06 6.4). -/
def TravelUnit.count (t : TravelUnit) : Nat := t.base * 16 + t.u

/-- The position while it is known (06 R111). -/
def Part.position (p : Part) : Option Nat := if p.travel.referenced then some p.travel.count else none

/-! ### Occupancy, windows, limits -/

/-- A span intersects the stretch lo .. hi, both ends included (06 R113). -/
def intersects (x : SpanCfg) (lo hi : Int) : Bool := decide ((x.lo : Int) ≤ hi ∧ lo < (x.hi : Int))

/-- The spans of the table that a stretch intersects, ascending. -/
def spansIn (c : Settings) (lo hi : Int) : List Nat :=
  (List.range c.spans.length).filter fun k => intersects (c.spans.getD k default) lo hi

/-- The spans an extent around q intersects (06 R113). -/
def occupancyAt (c : Settings) (q : Nat) : List Nat := spansIn c ((q : Int) - c.half) ((q : Int) + c.half)

/-- A run of spans with the next span below it and the next above it, where those exist. -/
def widened (c : Settings) (l : List Nat) : List Nat :=
  (List.range c.spans.length).filter fun k => l.any fun j => j == k || j == k + 1 || k == j + 1

/-- The spans nearest to a place outside every span (06 R114). -/
def nearest (c : Settings) (q : Nat) : List Nat :=
  let below := (List.range c.spans.length).filter fun k => decide ((c.spans.getD k default).hi ≤ q)
  let above := (List.range c.spans.length).filter fun k => decide (q < (c.spans.getD k default).lo)
  below.drop (below.length - 1) ++ above.take 1

/-- The occupancy of an unknown position (06 R114). -/
def unknownOccupancy (c : Settings) (own : Nat) (last : Option Nat) : List Nat :=
  match last with
  | some q => if occupancyAt c q = [] then nearest c q else widened c (occupancyAt c q)
  | none => if homeSpans c own = [] then List.range c.spans.length else widened c (homeSpans c own)

/-- Target window state of a known position (06 R115). -/
def windowOf (c : Settings) (q target : Nat) : Where :=
  if q + c.tol < target then .below else if target + c.tol < q then .above else .inside

/-- Target window state (06 R115). -/
def windowState (c : Settings) (p : Part) : Where :=
  match p.position, p.moves.target with
  | some q, some t => windowOf c q t.pos
  | _, _ => .none

/-- Runway limit state of a known position (06 R116). -/
def limitOf (c : Settings) (q : Nat) : Where :=
  if q < c.limLo + c.half then .below else if c.limHi < q + c.half then .above else .inside

/-- The span that contains a position. -/
def spanOf (c : Settings) (q : Nat) : Option Nat := (spansIn c q q).head?

/-! ### Position changes (06 R112) -/

/-- The occupied flags follow the occupancy (07 R120). -/
def handOccupancy (occ : List Nat) (p : Part) : Part :=
  { p with
    travel := { p.travel with occupancy := occ }
    span := { p.span with spans := p.span.spans.mapIdx fun k x => { x with occupied := decide (k ∈ occ) } } }

/-- The results of a position change while the position is known (06 R111..R113, R116); while it is unknown the occupancy
stays as formed. -/
def positionChanged (c : Settings) (p : Part) : Part :=
  match p.position with
  | none => p
  | some q =>
    let lim := limitOf c q
    let old := p.travel.limit
    let moved := decide (p.travel.lastKnown.bind (spanOf c) ≠ spanOf c q)
    let p1 := handOccupancy (occupancyAt c q) { p with travel := { p.travel with lastKnown := some q, limit := lim } }
    (p1.markIf moved .clock).reportIf (old != .none && old != lim) (.runwayLimit lim q p.now)

/-- The position is unknown from now on (06 R111, R114). -/
def positionLost (c : Settings) (p : Part) : Part :=
  handOccupancy (unknownOccupancy c p.line.own p.travel.lastKnown)
    { p with travel := { p.travel with referenced := false, limit := .none } }

/-- A position fault in the interpolator (06 R104): fault flag, cause, loss of the position, report when the flag was
clear. -/
def faultPosition (c : Settings) (cause : PosFault) (p : Part) : Part :=
  let first := !p.travel.fault
  let p1 := { p with travel := { p.travel with fault := true, cause := some cause } }
  let p2 := if p.travel.referenced then positionLost c p1 else p1
  p2.reportIf first (.positionFault cause p.travel.lastKnown p.now)

/-! ### Direction decoder (06 6.2) -/

/-- Index of a pattern A B C; none for the uniform ones. -/
def patternIndex : Bool → Bool → Bool → Option Nat
  | false, true, false => some 0
  | true, true, false => some 1
  | true, false, false => some 2
  | true, false, true => some 3
  | false, false, true => some 4
  | false, true, true => some 5
  | false, false, false => none
  | true, true, true => none

/-- A step in a direction: a reversal changes the count direction and restarts the microstep timer (06 R103, R109). -/
def TravelUnit.step (t : TravelUnit) (i : Nat) (d : Dir) : TravelUnit :=
  let t1 := { t with index := some i, dir := d, uniform := 0 }
  if t.dir = d then t1 else { t1 with up := d == .forward, timer := 0 }

/-- The decoder adopts a pattern with direction NONE (06 R103, R104). -/
def TravelUnit.adopt (t : TravelUnit) (i : Nat) : TravelUnit := { t with index := some i, dir := .none, uniform := 0 }

/-- One sample of the tracks (06 R103, R104). -/
def sampleTracks (c : Settings) (pat : Option Nat) (p : Part) : Part :=
  let t := p.travel
  match pat with
  | none =>
    if t.uniform = 200 then faultPosition c .stuck { p with travel := { t with uniform := 201 } }
    else { p with travel := { t with uniform := sat 201 (t.uniform + 1) } }
  | some i =>
    match t.index with
    | none => { p with travel := t.adopt i }
    | some k =>
      if 201 ≤ t.uniform then { p with travel := t.adopt i }
      else if i = k then { p with travel := { t with uniform := 0 } }
      else if i = (k + 1) % 6 then { p with travel := t.step i .forward }
      else if i = (k + 5) % 6 then { p with travel := t.step i .reverse }
      else
        let q := faultPosition c .skip p
        { q with travel := q.travel.adopt i }

/-! ### Marks (06 6.3, 6.4) -/

/-- The direction of the mark event of an exit, if there is one (06 R105). -/
def exitDirection (m : MarkRun) (d : Dir) : Option Dir :=
  match m, d with
  | .entered .forward, .forward => some .forward
  | .entered .reverse, .reverse => some .reverse
  | .entered .none, .forward => some .forward
  | .entered .none, .reverse => some .reverse
  | _, _ => none

/-- The mark period after a mark event (06 R106). -/
def TravelUnit.period (t : TravelUnit) : TravelUnit :=
  { t with
    pprev := if t.counter ≤ 20000 then some (max 1 t.counter) else none
    counter := 0
    standstill := false }

/-- The position at a mark (06 R107); `clamped` bounds it while the position is unknown. -/
def TravelUnit.atForward (t : TravelUnit) : TravelUnit :=
  { t with base := min 65535 (t.base + 1), u := 0, up := true, timer := 0, lastReverse := false }

def TravelUnit.atReverse (t : TravelUnit) : TravelUnit :=
  { t with base := t.base - 1, u := 16, up := false, timer := 0, lastReverse := true }

/-- A mark event (06 R106, R107): beyond the range a known position is a RANGE fault, which leaves base and u as they stood, and
with them the count direction, the caps and the microstep timer (log 25). -/
def markPassed (c : Settings) (forward : Bool) (p : Part) : Part :=
  let t := p.travel.period
  let beyond := if forward then decide (65535 < t.base + 1) else decide (t.base = 0)
  if beyond && t.referenced then faultPosition c .range { p with travel := t }
  else positionChanged c { p with travel := if forward then t.atForward else t.atReverse }

/-- MARK rises (06 R105). Within a mark in progress the command is an entry too, which records the direction anew (log 29). -/
def markRises (p : Part) : Part := { p with travel := { p.travel with mark := .entered p.travel.dir } }

/-- MARK falls (06 R105). -/
def markFalls (c : Settings) (p : Part) : Part :=
  let q := { p with travel := { p.travel with mark := .out } }
  match exitDirection p.travel.mark p.travel.dir with
  | some .forward => markPassed c true q
  | some .reverse => markPassed c false q
  | _ => q

/-- Caps of the microstep count (06 R108). -/
def TravelUnit.lowerCap (t : TravelUnit) : Nat := if t.lastReverse then 1 else 0
def TravelUnit.upperCap (t : TravelUnit) : Nat := if t.lastReverse then 16 else 15

/-- Microsteps are made: a period is known and the mark is not overdue by more than four of it (06 R108). -/
def TravelUnit.stepping (t : TravelUnit) : Bool :=
  match t.pprev with
  | some d => decide (t.counter ≤ 4 * d)
  | none => false

/-- Spacing of microsteps (06 R108). -/
def spacing (period : Nat) : Nat := max 1 (period / 16)

/-- One microstep within the caps (06 R108). -/
def TravelUnit.micro (t : TravelUnit) : TravelUnit :=
  if t.up then (if t.u < t.upperCap then { t with u := t.u + 1 } else t)
  else (if t.lowerCap < t.u then { t with u := t.u - 1 } else t)

/-- The microstep timer reaches its spacing (06 R108). -/
def microstepDue (c : Settings) (p : Part) : Part :=
  if p.travel.stepping then
    let t := { p.travel with timer := 0 }
    if t.micro.u = t.u then { p with travel := t } else positionChanged c { p with travel := t.micro }
  else p

/-- The mark period counter passes 4 × Pprev (06 R108), which it cannot where that lies at its end or beyond (06 R106). At its
end it sets the standstill flag. -/
def microstepsStop (p : Part) : Part :=
  match p.travel.pprev with
  | some d =>
    if 4 * d < 20001 then
      let n := max p.travel.counter (4 * d + 1)
      { p with travel := { p.travel with counter := n, standstill := p.travel.standstill || n == 20001 } }
    else p
  | none => p

/-- More than 2 s without a mark event (06 R106). -/
def standstillReached (p : Part) : Part := { p with travel := { p.travel with counter := 20001, standstill := true } }

/-- An active edge of the reference switch in forward travel (06 R110): REFERENCED is sent before a RUNWAY_LIMIT of the position
change (log 7). -/
def reference (c : Settings) (p : Part) : Part :=
  let t := p.travel
  let q := { p with travel := { t with
    base := c.refPos / 16
    u := c.refPos % 16
    up := true
    lastReverse := false
    timer := 0
    mark := if t.mark = MarkRun.out then MarkRun.out else MarkRun.unrecorded
    referenced := true
    fault := false } }
  positionChanged c (q.report (.referenced c.refPos p.now p.position))

/-- The interpolator at the completion of start (06 R118). The last sample of REFSW is its level at that moment (log 4). -/
def travelAtStart (c : Settings) (p : Part) : Part :=
  let last := p.travel.lastKnown
  let q := { p with travel := { TravelUnit.reset with
    lastKnown := last
    base := (last.getD 0) / 16
    u := (last.getD 0) % 16
    mark := if p.pins.mark then MarkRun.unrecorded else MarkRun.out
    refLast := p.pins.refsw == c.refHigh } }
  handOccupancy (unknownOccupancy c p.line.own last) q

end Sys2Proof.Machine
end

