-- ==== Sys2Proof/Machine/Spans.lean ====
section
/-! DEFINITION. Span unit (07): views, claims, holds, SPAN notices, envelopes and the travel decision. -/
namespace Sys2Proof.Machine
open Sys2Proof

def Part.spanAt (p : Part) (k : Nat) : Span := p.span.spans.getD k ⟨.none, false, none, false⟩

def Part.setSpan (k : Nat) (x : Span) (p : Part) : Part :=
  { p with span := { p.span with spans := p.span.spans.set k x } }

def Role.isClaim : Role → Bool
  | .claim _ _ _ _ => true
  | _ => false

def Role.isHeld : Role → Bool
  | .held _ => true
  | _ => false

/-- One rank is better than another (07 R123). -/
def Rank.better (a b : Rank) : Bool := decide (a.urgency < b.urgency ∨ (a.urgency = b.urgency ∧ a.addr < b.addr))

/-- A record whose age is greater than 3000 ms is silent (07 R121). -/
def Peer.silent (x : Peer) : Bool := decide (3000 < x.age)

/-- The record's entries name the span HELD or OCCUPIED. -/
def Peer.names (x : Peer) (k : Nat) : Bool := x.entries.any fun e => e.span == k && e.kind != .claim

/-- The spans a record's entries name HELD or OCCUPIED, also beyond the station's own span table (log 27). -/
def Peer.namedSpans (x : Peer) : List Nat := (List.range 32).filter x.names

/-- The peer part of a span (07 R120), in ascending address. -/
def peerPart (p : Part) (k : Nat) : List Peer := p.span.peers.filter (·.names k)

/-- The view of a span (07 R120). -/
inductive View where
  | ownOccupied
  | ownHeld (rank : Rank)
  | ownClaim (rank : Rank) (deadline : Option Nat)
  | silent (addr : Nat)
  | peerOccupied (addr age : Nat)
  | peerHeld (addr : Nat) (rank : Rank) (age : Nat)
  | free
  deriving DecidableEq, Repr

def viewOf (p : Part) (k : Nat) : View :=
  let x := p.spanAt k
  if x.occupied then .ownOccupied
  else match x.role with
    | .held r => .ownHeld r
    | .claim r d _ _ => .ownClaim r d
    | .none =>
      let part := peerPart p k
      match part.find? (·.silent) with
      | some s => .silent s.addr
      | none =>
        match part.find? fun y => y.entries.any fun e => e.span == k && e.kind == .occupied with
        | some y => .peerOccupied y.addr y.age
        | none =>
          match part with
          | y :: _ => .peerHeld y.addr (((y.entries.find? fun e => e.span == k && e.kind == .held).map (·.rank)).getD ⟨0, 0⟩) y.age
          | [] => .free

/-! ### Crane lines, as the move controller reads them (09 R159) -/

def Part.hookLoaded (p : Part) : Bool := p.moves.hook.filter.level
def Part.craneReady (p : Part) : Bool := p.moves.ready.filter.level
def Part.craneFault (p : Part) : Bool := p.moves.fault.filter.level
def Part.craneLocal (p : Part) : Bool := p.moves.locl.filter.level

/-! ### Envelopes and stop reach (07 R132, R133) -/

def growth (c : Settings) (age : Nat) : Nat := ceilDiv (c.vmax * age * 16) (1000 * c.lm)

/-- The pieces of a record's envelope (07 R132). -/
def envelope (c : Settings) (x : Peer) : List (Int × Int) :=
  match x.pos, x.silent with
  | some q, false =>
    let r : Int := growth c x.age + x.half
    [((q : Int) - r, (q : Int) + r)]
  | _, _ => (x.namedSpans.filter fun k => decide (k < c.spans.length)).map fun k =>
      (((c.spans.getD k default).lo : Int), ((c.spans.getD k default).hi : Int) - 1)

def envelopes (c : Settings) (p : Part) : List (Int × Int) := p.span.peers.flatMap (envelope c)

def stopDistance (c : Settings) : Speed → Nat
  | .creep => c.stopCreep
  | .slow => c.stopSlow
  | .fast => c.stopFast

/-- The stretch from the own extent to the stop reach (07 R133). -/
def stretch (c : Settings) (q : Nat) : Decision → Int × Int
  | .stop => ((q : Int) - c.half, (q : Int) + c.half)
  | .go true k => ((q : Int) - c.half, (q : Int) + c.half + stopDistance c k)
  | .go false k => ((q : Int) - c.half - stopDistance c k, (q : Int) + c.half)

/-- Every span that intersects the stretch is held or occupied by this station (07 R133). -/
def spansOwn (c : Settings) (p : Part) (st : Int × Int) : Bool :=
  (spansIn c st.1 st.2).all fun k => (p.spanAt k).occupied || (p.spanAt k).role.isHeld

/-- A class is permitted in a direction (07 R133). -/
def permitted (c : Settings) (p : Part) (q : Nat) (forward : Bool) (k : Speed) : Bool :=
  let st := stretch c q (.go forward k)
  let lo : Int := (q : Int) - c.half
  let hi : Int := (q : Int) + c.half
  spansOwn c p st &&
    (if forward then
      (envelopes c p).all (fun e => decide (e.2 < lo) || decide (st.2 + c.gap ≤ e.1)) && decide (st.2 ≤ c.limHi)
    else
      (envelopes c p).all (fun e => decide (hi < e.1) || decide (e.2 ≤ st.1 - c.gap)) && decide ((c.limLo : Int) ≤ st.1))

/-- Fast and slow may overrun the target window; creep does not (07 R134). -/
def overruns (c : Settings) (q target : Nat) (forward : Bool) (k : Speed) : Bool :=
  k != .creep &&
    (if forward then decide (target + c.tol < q + stopDistance c k) else decide (q + c.tol < target + stopDistance c k))

/-- The conditions of 07 R134 that hold the decision at stop, beside the position and the target. -/
def mustStop (p : Part) : Bool :=
  p.emergencyActive || p.inWarning || p.inClash || p.craneFault || !p.craneReady || p.craneLocal || p.span.yieldStop

/-- The travel decision (07 R134). -/
def travelDecision (c : Settings) (p : Part) : Decision :=
  match p.position, p.moves.target with
  | some q, some t =>
    if mustStop p then .stop
    else match windowOf c q t.pos with
      | .inside => .stop
      | .none => .stop
      | w =>
        let fwd := w == .below
        match [Speed.fast, .slow, .creep].find? fun k => permitted c p q fwd k && !overruns c q t.pos fwd k with
        | some k => .go fwd k
        | none => .stop
  | _, _ => .stop

/-! ### Claims (07 7.3) -/

/-- The route (07 R123). -/
def route (c : Settings) (q t : Nat) : Int × Int := ((min q t : Nat) - (c.half : Int), (max q t : Nat) + (c.half : Int))

/-- The next span (07 R123). -/
def nextSpan (c : Settings) (p : Part) (q t : Nat) : Option Nat :=
  let r := route c q t
  let l := spansIn c r.1 r.2
  let l := if q < t then l else if t < q then l.reverse else []
  l.find? fun k => (p.spanAt k).role == .none && !(p.spanAt k).occupied

/-- The count beyond occupancy (07 R123). -/
def countBeyond (p : Part) : Nat := (p.span.spans.filter fun x => x.role != .none && !x.occupied).length

/-- The span with role CLAIM, if there is one. -/
def claimed (p : Part) : Option Nat := (List.range p.span.spans.length).find? fun k => (p.spanAt k).role.isClaim

/-- A released or lost span: role NONE. -/
def Span.dropRole (x : Span) : Span := { x with role := .none, releasing := false }

/-! ### SPAN notices (07 7.5) -/

/-- The entries of a notice (07 R130). A span whose releasing flag is kept under crane-local is held, and is entered so (log 45). -/
def noticeEntries (p : Part) : List Entry :=
  let ks := List.range p.span.spans.length
  (ks.filterMap fun k => if (p.spanAt k).occupied then some ⟨k, .occupied, ⟨0, 0⟩⟩ else none)
    ++ (ks.filterMap fun k => match (p.spanAt k).role, (p.spanAt k).occupied with
      | .held r, false => some ⟨k, .held, r⟩
      | _, _ => none)
    ++ (ks.filterMap fun k => match (p.spanAt k).role with
      | .claim r _ _ _ => some ⟨k, .claim, r⟩
      | _ => none)

def Decision.speed? : Decision → Option Speed
  | .stop => none
  | .go _ k => some k

/-- The releases that fall due at a forming (07 R127). While crane-local is active and the position is known every held span is
kept, and its flag with it (07 R137). -/
def releaseDue (p : Part) : Part :=
  let due := p.span.spans.map fun x => if x.releasing then x.dropRole else x
  { p with span := { p.span with spans := if p.craneLocal && p.position.isSome then p.span.spans else due } }

/-- A SPAN notice is formed into its slot (07 R130, R131). -/
def formNotice (c : Settings) (p : Part) : Part :=
  let q := releaseDue p
  let n : SpanNotice :=
    { pos := q.position
      referenced := q.travel.referenced
      half := c.half
      dir := q.travel.dir
      speed := q.span.decision.speed?
      entries := noticeEntries q
      claimSerial := (claimed q).bind fun k => match (q.spanAt k).role with | .claim _ _ _ s => some s | _ => none }
  { q with line := q.line.placeSpan n, span := { q.span with formed := q.msCount } }

/-- The interval of the periodic SPAN notice (07 R131). -/
def noticeInterval (p : Part) : Nat :=
  if (claimed p).isSome || p.span.decision != .stop || !p.travel.standstill then 200 else 2000

/-- A notice is formed at once when its interval has been brought forward to a moment that has passed (07 R131). -/
def noticeIfDue (c : Settings) (p : Part) : Part :=
  if p.span.formed + noticeInterval p ≤ p.msCount then formNotice c p else p

/-- A claim opens when every condition of 07 R124 holds. -/
def openClaim (c : Settings) (p : Part) : Part :=
  match p.position, p.moves.target with
  | some q, some t =>
    if p.inClash || p.craneLocal || (claimed p).isSome || decide (4 ≤ countBeyond p) then p
    else match nextSpan c p q t.pos with
      | none => p
      | some k =>
        let x := p.spanAt k
        if peerPart p k != [] || (match x.retry with | some r => decide (p.msCount < r) | none => false) then p
        else
          let serial := p.span.claimSerial + 1
          let y : Span := { x with role := .claim ⟨t.urgency, p.line.own⟩ none false serial }
          formNotice c ({ p with span := { p.span with claimSerial := serial } }.setSpan k y)
  | _, _ => p

/-- The transmission of a notice is complete: the window of the claim it carries opens (07 R124). -/
def openWindow (c : Settings) (n : SpanNotice) (p : Part) : Part :=
  match claimed p with
  | none => p
  | some k =>
    let x := p.spanAt k
    match x.role with
    | .claim r none contested s =>
      if n.claimSerial = some s then p.setSpan k { x with role := .claim r (some (p.msCount + c.window)) contested s } else p
    | _ => p

/-- An OPEN claim is decided (07 R125). -/
def decideClaim (c : Settings) (p : Part) : Part :=
  match claimed p with
  | none => p
  | some k =>
    let x := p.spanAt k
    match x.role with
    | .claim r (some _) contested _ =>
      if !contested && peerPart p k == [] then p.setSpan k { x with role := .held r }
      else p.setSpan k { x.dropRole with retry := some (p.msCount + 2 * c.window) }
    | _ => p

/-- The claim's span lies on the route, and claims are allowed (07 R126). -/
def claimStands (c : Settings) (p : Part) (k : Nat) : Bool :=
  match p.position, p.moves.target with
  | some q, some t =>
    !p.craneLocal && !p.inClash && intersects (c.spans.getD k default) (route c q t.pos).1 (route c q t.pos).2
  | _, _ => false

/-- Claims are withdrawn (07 R126). -/
def withdrawClaims (c : Settings) (p : Part) : Part :=
  match claimed p with
  | none => p
  | some k => if claimStands c p k then p else p.setSpan k (p.spanAt k).dropRole

/-- A HELD span is kept (07 R127) while the position is known. -/
def keepsHold (c : Settings) (p : Part) (q k : Nat) : Bool :=
  let x := c.spans.getD k default
  let st := stretch c q p.span.decision
  intersects x st.1 st.2 ||
    (match p.moves.target with
      | some t => intersects x (route c q t.pos).1 (route c q t.pos).2
      | none => false)

/-- The releasing flags (07 R127). -/
def settleReleases (c : Settings) (p : Part) : Part :=
  { p with span := { p.span with spans := p.span.spans.mapIdx fun k x =>
    if x.role.isHeld then
      match p.position with
      | none => { x with releasing := x.releasing || !x.occupied }
      | some q => if p.craneLocal then x else { x with releasing := !keepsHold c p q k }
    else { x with releasing := false } } }

/-- The yield stop ends at standstill and with the position unknown (07 R135); the clearing of a target ends it where it is
cleared. -/
def settleYield (p : Part) : Part :=
  { p with span := { p.span with yieldStop := p.span.yieldStop && !p.travel.standstill && p.travel.referenced } }

/-- The span unit takes a change of its inputs (07 R124, R126, R127, R131, R135, R136). -/
def settleSpans (c : Settings) (p : Part) : Part :=
  let q := settleYield (withdrawClaims c p)
  openClaim c (noticeIfDue c (settleReleases c { q with span := { q.span with decision := travelDecision c q } }))

/-! ### Peers (07 7.2, 7.4) -/

/-- The station yields a span that it holds with rank `own` to the entry `e` of a peer (07 R128). -/
def yieldsTo (x : Span) (own : Rank) (e : Entry) : Bool := e.kind == .occupied || (!x.occupied && !own.better e.rank)

/-- A span intersects the stretch from the own extent to the stop reach of the current decision (07 R133). -/
def onStretch (c : Settings) (p : Part) (k : Nat) : Bool :=
  match p.position with
  | some q => intersects (c.spans.getD k default) (stretch c q p.span.decision).1 (stretch c q p.span.decision).2
  | none => false

/-- A span is yielded: its role is lost until the retry time, and a crane that moves toward it stops (07 R128, R135). -/
def yieldSpan (c : Settings) (k : Nat) (p : Part) : Part :=
  let q := p.setSpan k { (p.spanAt k).dropRole with retry := some (p.msCount + 2 * c.window) }
  { q with span := { q.span with yieldStop := q.span.yieldStop || (onStretch c p k && !p.travel.standstill) } }

/-- A double hold is resolved (07 R128); `e` is the peer's entry. -/
def resolveDouble (c : Settings) (addr : Nat) (e : Entry) (p : Part) : Part :=
  let x := p.spanAt e.span
  match x.role with
  | .held own =>
    let yields := yieldsTo x own e
    (formNotice c (if yields then yieldSpan c e.span p else p)).report
      (.spanConflict e.span addr e.kind e.rank own yields p.now)
  | _ => p

/-- An entry is new when the earlier list did not name that span with that kind (07 R122). -/
def isNew (old : List Entry) (e : Entry) : Bool := !old.any fun o => o.span == e.span && o.kind == e.kind

/-- A better claim contests the own one (07 R122, step 3). -/
def contest (e : Entry) (p : Part) : Part :=
  let x := p.spanAt e.span
  match e.kind, x.role with
  | .claim, .claim r d contested s =>
    p.setSpan e.span { x with role := .claim r d (contested || e.rank.better r) s }
  | _, _ => p

/-- A new peer claim meets a span of this station: a notice is formed at once (07 R122, step 4). -/
def answerClaim (c : Settings) (e : Entry) (p : Part) : Part :=
  let x := p.spanAt e.span
  if x.role != .none || x.occupied then formNotice c p else p

/-- The record of an address, if there is one (07 R121). -/
def peerAt (p : Part) (addr : Nat) : Option Peer := p.span.peers.find? (·.addr == addr)

/-- The entries of a notice that the record of its sender did not name before (07 R122, step 2). -/
def freshEntries (p : Part) (src : Nat) (n : SpanNotice) : List Entry :=
  n.entries.filter (isNew (((peerAt p src).map (·.entries)).getD []))

/-- The sender's record is created or replaced from its notice, and one that was silent is heard again (07 R121, R122, step 1). -/
def recordPeer (src : Nat) (n : SpanNotice) (p : Part) : Part :=
  let x : Peer :=
    { addr := src, pos := n.pos, referenced := n.referenced, half := n.half, dir := n.dir, speed := n.speed,
      entries := n.entries, age := 0 }
  { p with span := { p.span with peers := putBy (·.addr) x p.span.peers } }.reportIf
    (((peerAt p src).map Peer.silent).getD false) (.peerHeard src p.now)

/-- A SPAN notice is taken (07 R122). -/
def takeSpanNotice (c : Settings) (src : Nat) (n : SpanNotice) (p : Part) : Part :=
  let fresh := freshEntries p src n
  let p2 := (fresh.filter (·.kind != .claim)).foldl (fun q e => resolveDouble c src e q) (recordPeer src n p)
  let p3 := n.entries.foldl (fun q e => contest e q) p2
  (fresh.filter (·.kind == .claim)).foldl (fun q e => answerClaim c e q) p3

/-- The report of a record that becomes silent (07 R121). -/
def silentReport (now : Nat) (x : Peer) : Option Report :=
  if x.namedSpans = [] then none else some (.peerSilent x.addr x.namedSpans now)

/-- A record reaches an age; one that becomes silent is reported (07 R121). -/
def agePeer (addr age : Nat) (p : Part) : Part :=
  match peerAt p addr with
  | none => p
  | some x =>
    let y := { x with age := sat 65535 age }
    let q := { p with span := { p.span with peers := putBy (·.addr) y p.span.peers } }
    match !x.silent && y.silent, silentReport p.now y with
    | true, some r => q.report r
    | _, _ => q

/-- Every record's age increases by one (07 R121). -/
def agePeers (p : Part) : Part := p.span.peers.foldl (fun q x => agePeer x.addr (x.age + 1) q) p

/-- A span leaves the entries of every silent record that names it (07 R129). The records stand by ascending address, and so the report
tells them (log 19). -/
def freeSpan (k : Nat) (p : Part) : Part :=
  let hit := fun (x : Peer) => x.silent && x.names k
  let addrs := (p.span.peers.filter hit).map (·.addr)
  let peers := p.span.peers.map fun x =>
    if hit x then { x with entries := x.entries.filter fun e => e.span != k } else x
  { p with span := { p.span with peers := peers } }.report (.spanFreed k addrs p.now)

/-- The span unit at the completion of start (07 R139). -/
def spansAtStart (c : Settings) (p : Part) : Part :=
  { p with span := { SpanUnit.reset with
    spans := (List.range c.spans.length).map fun k => ⟨.none, false, none, decide (k ∈ p.travel.occupancy)⟩ } }

end Sys2Proof.Machine
end

