-- ==== Sys2Proof/Machine/Moves.lean ====
section
/-! DEFINITION. Move controller (09): queue, start, arrival, hook events, halts, return travel; and `settle`, which brings the
crane side in line after any event. -/
namespace Sys2Proof.Machine
open Sys2Proof

/-- Urgency of a move (09 R160). -/
def Move.urgency (m : Move) : Nat := match m.kind with | .lift => 1 | .dispatch => 0

/-- The head move (09 R160). -/
def headMove (p : Part) : Option Move := p.moves.queue.find? (·.phase != .queued)

def findMove (p : Part) (tag : Nat) : Option Move := p.moves.queue.find? (·.tag == tag)

def updateMove (tag : Nat) (f : Move → Move) (p : Part) : Part :=
  p.setQueue (p.moves.queue.map fun m => if m.tag = tag then f m else m)

/-- The target is set, or cleared, which ends a yield stop (07 R135). -/
def setTarget (t : Option Target) (p : Part) : Part :=
  { p with
    moves := { p.moves with target := t }
    span := { p.span with yieldStop := p.span.yieldStop && !(p.moves.target.isSome && t.isNone) } }

/-- A move leaves the queue; its piece's move tag is cleared (09 R160). -/
def removeMove (m : Move) (p : Part) : Part :=
  updatePiece m.piece (fun x => { x with tag := none }) (p.setQueue (p.moves.queue.filter (·.tag != m.tag)))

/-! ### Tags (09 R161) -/

/-- The count advanced by one, from 255 to 1. -/
def tagAfter (n : Nat) : Nat := if 255 ≤ n then 1 else n + 1

/-- The first tag from `n` on that no record carries. -/
def freeTag (used : List Nat) : Nat → Nat → Nat
  | 0, n => n
  | k + 1, n => if n ∈ used then freeTag used k (tagAfter n) else n

/-- A move enters the queue with the tag of the next-tag count, which then moves on (09 R161). -/
def enqueue (m : Move) (p : Part) : Part :=
  let q := p.setQueue (p.moves.queue ++ [m])
  q.setNextTag (freeTag (q.moves.queue.map (·.tag)) 17 (tagAfter m.tag))

/-! ### Start conditions (09 R164) -/

/-- The start conditions other than a move's eligibility. -/
def mayStart (p : Part) : Bool :=
  (headMove p).isNone && p.travel.referenced && p.craneReady && !p.craneFault && !p.craneLocal && !p.hookLoaded
    && !p.emergencyActive && !p.inWarning && !p.inClash

/-- The piece of a move is eligible. -/
def eligible (p : Part) (m : Move) : Bool :=
  match findPiece p m.piece with
  | some x => match m.kind with
    | .lift => liftReady p x
    | .dispatch => shipReady p x
  | none => false

/-- Entry into a travel phase (09 R165, R166). -/
def enterTravel (m : Move) (ph : Phase) (pos : Nat) (p : Part) : Part :=
  setTarget (some ⟨pos, m.urgency⟩)
    (updateMove m.tag (fun x => { x with phase := ph, start := some p.now, halt := none }) p)

/-- A move starts; return travel ends (09 R164, R175). -/
def startMove (m : Move) (p : Part) : Part :=
  enterTravel m .toPick m.pick { p with moves := { p.moves with returning := false } }

/-- Starts and return travel (09 R164, R175), or no target where neither a travel phase nor return travel holds one. -/
def settleStart (c : Settings) (p : Part) : Part :=
  if mayStart p then
    match p.moves.queue.find? fun m => m.phase == .queued && eligible p m with
    | some m => startMove m p
    | none => setTarget (if p.moves.returning then c.park.map (⟨·, 2⟩) else none) p
  else match headMove p with
    | some m => if m.phase = .toPick ∨ m.phase = .toPlace then p else setTarget none p
    | none => setTarget none p

/-- Arrival: window INSIDE together with standstill (09 R165, R167, R175). -/
def settleArrival (c : Settings) (p : Part) : Part :=
  if windowState c p = .inside ∧ p.travel.standstill then
    match headMove p with
    | some m =>
      if m.phase = .toPick then
        setTarget none (updateMove m.tag (fun x => { x with phase := .atPick, start := some p.now }) p)
      else if m.phase = .toPlace then
        setTarget none (updateMove m.tag (fun x => { x with phase := .atPlace, start := some p.now }) p)
      else p
    | none => if p.moves.returning then setTarget none { p with moves := { p.moves with returning := false } } else p
  else p

/-- After an event: announcements, starts, arrival, claims, holds and the travel decision (08 R148, 09 R164, R165, R175,
07 R136; log 15). -/
def settle (c : Settings) (p : Part) : Part := settleSpans c (settleArrival c (settleStart c (announce c p)))

/-! ### Halts (09 R171) -/

/-- The head move in a working phase is halted. -/
def halt (cause : HaltCause) (p : Part) : Part :=
  match headMove p with
  | some m =>
    if m.phase = .halted then p
    else
      (setTarget none (updateMove m.tag (fun x =>
          { x with phase := .halted, start := none, halt := some (m.phase, cause) }) p)).report
        (.moveHalted m m.phase cause p.position p.now)
  | none => p

/-- The position became unknown: the head move is halted, the decision follows and a notice is formed (06 R104, 07 R131,
09 R171). -/
def afterLoss (c : Settings) (before after : Part) : Part :=
  if before.travel.referenced && !after.travel.referenced then formNotice c (settle c (halt .positionFault after))
  else settle c after

/-! ### Hook events (09 R166, R168, R169) -/

/-- The return flag after the removal of a head move (09 R175). -/
def setReturn (c : Settings) (p : Part) : Part := { p with moves := { p.moves with returning := c.park.isSome } }

/-- A completed move: the piece is placed, the move removed and reported (09 R168, R172). -/
def completeMove (c : Settings) (m : Move) (byResume : Bool) (p : Part) : Part :=
  let q := match m.stack with
    | some (l, n) => placeLift m.tag m.piece l n p
    | none => placeDispatch c m.tag m.piece p
  setReturn c ((removeMove m q).report (.moveDone m byResume p.now))

/-- Hook loaded (09 R166, R169). -/
def hookLoads (c : Settings) (p : Part) : Part :=
  match headMove p with
  | some m =>
    match m.phase with
    | .atPick => enterTravel m .toPlace m.place (updateMove m.tag (fun x => { x with picked := true }) (pickPiece c m.piece p))
    | .toPick => halt .hookUnexpected p
    | _ => p
  | none => p

/-- Hook unloaded (09 R168, R169). -/
def hookUnloads (c : Settings) (p : Part) : Part :=
  match headMove p with
  | some m =>
    match m.phase with
    | .atPlace => completeMove c m false p
    | .toPlace => halt .hookUnexpected p
    | _ => p
  | none => p

/-! ### Crane lines (09 R159) -/

def MoveUnit.crane (u : MoveUnit) : CraneLine → CraneIn
  | .hook => u.hook | .ready => u.ready | .fault => u.fault | .locl => u.locl

def MoveUnit.setCrane (u : MoveUnit) (l : CraneLine) (x : CraneIn) : MoveUnit :=
  match l with
  | .hook => { u with hook := x }
  | .ready => { u with ready := x }
  | .fault => { u with fault := x }
  | .locl => { u with locl := x }

def Pins.setCrane (q : Pins) (l : CraneLine) (v : Bool) : Pins :=
  match l with
  | .hook => { q with hook := v }
  | .ready => { q with crdy := v }
  | .fault => { q with cflt := v }
  | .locl => { q with cloc := v }

/-- A level is accepted on a crane line; the pin stands at it. -/
def acceptLevel (l : CraneLine) (v : Bool) (p : Part) : Part :=
  { p with moves := p.moves.setCrane l ⟨⟨v, v, 5⟩, true⟩, pins := p.pins.setCrane l v }

/-- A changed accepted level is reported with the four levels (09 R159). -/
def reportCrane (p : Part) : Part :=
  p.report (.craneLine p.hookLoaded p.craneReady p.craneFault p.craneLocal p.now)

/-- What an event of a crane line does beside its report (09 R159). -/
def craneEffect (c : Settings) (l : CraneLine) (v : Bool) (p : Part) : Part :=
  match l, v with
  | .hook, true => hookLoads c p
  | .hook, false => hookUnloads c p
  | .fault, true => halt .craneFault p
  | .locl, true => halt .craneLocal p
  | _, _ => p

/-- A level of a crane line has been stable for 50 ms (09 R159): the first acceptance since start is no event; a later
change is one, and CRANE_LINE is sent before what the event does to the head move (log 7). -/
def craneLevel (c : Settings) (l : CraneLine) (v : Bool) (p : Part) : Part :=
  let x := p.moves.crane l
  if !x.seen then settle c (acceptLevel l v p)
  else if x.filter.level = v then p
  else settle c (craneEffect c l v (reportCrane (acceptLevel l v p)))

/-! ### Timeouts (09 R170) -/

/-- The timeout of a phase in seconds, with its halt cause. -/
def timeoutOf (c : Settings) : Phase → Option (Nat × HaltCause)
  | .toPick => some (c.claimMin * 60, .claimTimeout)
  | .toPlace => some (c.claimMin * 60, .claimTimeout)
  | .atPick => some (c.pickMin * 60, .timeout)
  | .atPlace => some (c.pickMin * 60, .timeout)
  | _ => none

/-- The head move has stood in a phase for its timeout, of the given cause. -/
def timedOut (c : Settings) (p : Part) (cause : HaltCause) : Bool :=
  match headMove p with
  | some m => match timeoutOf c m.phase, m.start with
    | some (limit, k), some t => k == cause && decide (limit ≤ p.now - t)
    | _, _ => false
  | none => false

/-- The timeout of a cause is tested (09 R170). -/
def testTimeout (c : Settings) (cause : HaltCause) (p : Part) : Part :=
  if timedOut c p cause then halt cause p else p

end Sys2Proof.Machine
end

