-- ==== Sys2Proof/Machine/Flags.lean ====
section
/-! DEFINITION. The output lines OL0..OL31 (05 5.4): requested values and pin levels, formed from the state of their sources. -/
namespace Sys2Proof.Machine
open Sys2Proof

/-- STATION_READY (05 R92). -/
def stationReady (p : Part) : Bool :=
  p.run == .running && p.config.isSome && !p.inClash && !p.inWarning

/-- TRAVEL_FWD, TRAVEL_REV, SPEED_1, SPEED_0 of a decision (05 R91). -/
def travelCode : Decision → Bool × Bool × Bool × Bool
  | .stop => (false, false, false, false)
  | .go true .creep => (true, false, false, false)
  | .go true .slow => (true, false, false, true)
  | .go true .fast => (true, false, true, false)
  | .go false .creep => (false, true, false, false)
  | .go false .slow => (false, true, false, true)
  | .go false .fast => (false, true, true, false)

/-- The detension permit request of a bed (03 R48). -/
def permitRequest (p : Part) (b : Nat) : Bool := (p.bed b).state == .detensioning

/-- The heater request of a bed (05 R83): none runs for a bed not assigned to casting. -/
def heaterRequest (c : Settings) (p : Part) (b : Nat) : Bool := c.assigned b && (p.gen b).request

def auxEffective (c : Settings) (p : Part) (k : Nat) : Bool := (p.auxLine k).effective (Settings.auxCfg c k)

/-- Requested value of a source (05 R90). -/
def requestedOf (c : Settings) (p : Part) : Source → Bool
  | .heater b => heaterRequest c p b
  | .permit b => permitRequest p b
  | .travelFwd => (travelCode p.span.decision).1
  | .travelRev => (travelCode p.span.decision).2.1
  | .speed1 => (travelCode p.span.decision).2.2.1
  | .speed0 => (travelCode p.span.decision).2.2.2
  | .aux k => auxEffective c p k
  | .stationReady => stationReady p
  | .constLow => false
  | .constHigh => true

def Settings.line (c : Settings) (n : Nat) : LineCfg := c.lines.getD n ⟨.constLow, false, false, false⟩

/-- A masked line is made safe under emergency and under supply warning (05 R93). -/
def madeSafe (p : Part) (l : LineCfg) : Bool := l.mask && (p.emergencyActive || p.inWarning)

/-- Pin level of a line of a running station (05 R93). -/
def levelOf (c : Settings) (p : Part) (l : LineCfg) : Bool :=
  if madeSafe p l then l.level else requestedOf c p l.source != l.invert

/-- Pin level of OLn, true for high: low until a configured start completes (05 R93, R100). -/
def pinLevel (p : Part) (n : Nat) : Bool :=
  match p.run, p.config with
  | .running, some c => levelOf c p (Settings.line c n)
  | _, _ => false

end Sys2Proof.Machine
end

