-- ==== Sys2Proof/Machine/Line.lean ====
section
/-! DEFINITION. Line interface (10): receiving, the clash rule, order routing, transmission, stuck line; and the commands of
those families. -/
namespace Sys2Proof.Machine
open Sys2Proof

/-! ### Counters (10 R192) -/

def Part.count (f : Counters → Counters) (p : Part) : Part :=
  { p with line := { p.line with counters := f p.line.counters } }

def Counters.addValid (k : Counters) : Counters := { k with valid := sat 65535 (k.valid + 1) }
def Counters.addCheck (k : Counters) : Counters := { k with badCheck := sat 65535 (k.badCheck + 1) }
def Counters.addHeader (k : Counters) : Counters := { k with badHeader := sat 65535 (k.badHeader + 1) }
def Counters.addFraming (k : Counters) : Counters := { k with framing := sat 65535 (k.framing + 1) }
def Counters.addPayload (k : Counters) : Counters := { k with payload := sat 65535 (k.payload + 1) }
def Counters.addLost (k : Counters) : Counters := { k with lost := sat 65535 (k.lost + 1) }
def Counters.addBitError (k : Counters) : Counters := { k with bitErrors := sat 65535 (k.bitErrors + 1) }
def Counters.addInClash (k : Counters) : Counters := { k with ordersInClash := sat 65535 (k.ordersInClash + 1) }
def Counters.addSent (k : Counters) : Counters := { k with sent := sat 65535 (k.sent + 1) }

/-! ### The clash rule (10 R185, R186) -/

/-- What the blocks do at entry into CLASH (04 R77, 07 R126, 09 R171). -/
def enterClash (c : Settings) (p : Part) : Part := settle c (halt .craneFault (computeGrant c [] p))

/-- A valid frame with the own source address that the station did not send (10 R185). -/
def clashRule (p : Part) : Part :=
  let fin := p.clock.ms + 10000
  match p.line.clash with
  | some k => { p with line := { p.line with clash := some ⟨fin, k.sinceMs, sat 255 (k.count + 1)⟩ } }
  | none =>
    { p with line := { p.line with clash := some ⟨fin, p.clock.ms, 1⟩ } }.onRunning enterClash

/-- The line interface places a report of its own, unless the station is unconfigured (11 R194). While the image is being read that
is not settled: the report waits, and an image that fails takes it away (log 26). -/
def reportConfigured (r : Report) (p : Part) : Part := p.reportIf (p.config.isSome || p.run == .readingConfig) r

/-- CLASH is left (10 R186): the report, and the exit handed to the blocks. The millisecond count stands at the clash end or
beyond it. -/
def leaveClash (p : Part) : Part :=
  match p.line.clash with
  | none => p
  | some k =>
    let t := max p.clock.ms k.endMs
    let q := { p with clock := { p.clock with ms := t }, line := { p.line with clash := none } }
    (reportConfigured (.clash k.count ((t - k.sinceMs) / 1000) q.now) q).onRunning fun c r => settle c (computeGrant c [] r)

/-! ### Receiving (10 R183) -/

/-- The receiver takes characters: the part is not in reset and does not wait for an idle line (11 R193, 10 R179). -/
def listening (p : Part) : Bool := p.run != .inReset && !p.line.waitIdle

/-- A valid frame can arrive: the receiver takes characters, and the line is not held dominant (10 R184). -/
def receiving (p : Part) : Bool := listening p && p.line.stuck.isNone

/-- The heard flag (04 R68): while the heat share unit runs. -/
def hear (p : Part) : Part := p.onRunning fun _ q => { q with heat := { q.heat with heard := true } }

/-- A valid frame, if it arrives: it is counted; one with the own source goes to the clash rule; any other is a sign of life and is
dispatched once start is complete (10 R183, 11 R193). -/
def receiveWhen (arrives : Bool) (src : Byte) (dispatch : Part → Part) (p : Part) : Part :=
  if arrives then
    let q := p.count Counters.addValid
    if src.toNat = p.line.own then clashRule q
    else if p.run = .running then dispatch (hear q) else q
  else p

/-- A valid frame arrives at a receiver that takes characters, on a line that is not stuck. -/
def receive (src : Byte) (dispatch : Part → Part) (p : Part) : Part := receiveWhen (receiving p) src dispatch p

/-! ### Orders and answers (10 R188, R190, R191) -/

/-- An outcome of an order: its result code, its data, and the part after it. -/
structure Reply where
  result : Result
  data : List Value
  part : Part

def refuse (r : Result) (p : Part) : Reply := ⟨r, [], p⟩
def done (p : Part) : Reply := ⟨.done, [], p⟩

def answer (src tag : Byte) (restart : Bool) (r : Reply) : Part :=
  { r.part with line := r.part.line.placeAnswer ⟨tag, src, r.result, r.data, restart⟩ }

/-- An order reaches order routing (10 R186, R190, R191): not taken in CLASH (counted) or after a RESTART; answered
UNCONFIGURED without a configuration; RANGE with too few parameters; otherwise the owning block gives the outcome. -/
def routeOrder (src tag : Byte) (need : Nat) (params : List Byte) (act : Settings → Part → Reply) (p : Part) : Part :=
  if p.inClash then p.count Counters.addInClash
  else if p.line.restart.isSome then p
  else match p.config with
    | none => answer src tag false (refuse .unconfigured p)
    | some c => answer src tag false (if params.length < need then refuse .range p else act c p)

/-- An order addressed to the station arrives as a valid frame. -/
def takeOrder (src tag : Byte) (need : Nat) (params : List Byte) (act : Settings → Part → Reply) (p : Part) : Part :=
  receive src (routeOrder src tag need params act) p

/-- A RESTART (10 R191): answered DONE or UNCONFIGURED, and no further order is taken. -/
def routeRestart (src tag : Byte) (p : Part) : Part :=
  if p.inClash then p.count Counters.addInClash
  else if p.line.restart.isSome then p
  else
    let q := { p with line := { p.line with restart := some ⟨p.clock.ms, false⟩ } }
    answer src tag true (refuse (if p.config.isSome then .done else .unconfigured) q)

/-- RESTART (10 R191): one sent to a station on a stuck line restarts it too, without an answer on the line (log 46). -/
def execRestart (src tag : Byte) (_params : List Byte) (s : State) : Host.Outcome State Fault Refusal :=
  .next (s.onPart fun p => receiveWhen (listening p) src (routeRestart src tag) p)

/-! ### Notices and other frames -/

/-- A HEAT payload reaches the heat share unit (04 R67). One shorter than its three fields is not taken, and is not counted
(log 43). -/
def heatPayload (src : Byte) (payload : List Byte) (p : Part) : Part :=
  p.onRunning fun c q =>
    match heatDemand payload with
    | some d => takeHeatNotice c src.toNat d q
    | none => q

/-- HEAT_NOTICE_RECEIVED (04 R67): the target address is not examined. -/
def execHeatNoticeReceived (src _target : Byte) (payload : List Byte) (s : State) : Host.Outcome State Fault Refusal :=
  .next (s.onPart (receive src (heatPayload src payload)))

/-- A SPAN payload reaches the span unit (10 R183, 07 R122). One shorter than its fixed fields and declared entries is not taken, and
is not counted (log 43). Payload discards are counted in any station (11 R194). -/
def spanPayload (src : Byte) (payload : List Byte) (p : Part) : Part :=
  match readSpan payload with
  | .short => p
  | .bad => p.count Counters.addPayload
  | .notice n => p.onRunning fun c q => settle c (takeSpanNotice c src.toNat n q)

/-- SPAN_NOTICE_RECEIVED (07 R122): the target address is not examined. -/
def execSpanNoticeReceived (src _target : Byte) (payload : List Byte) (s : State) : Host.Outcome State Fault Refusal :=
  .next (s.onPart (receive src (spanPayload src payload)))

/-- CLASH_FRAME (10 R185): a valid frame with the own source address. -/
def execClashFrame (_kind _target : Byte) (_payload : List Byte) (s : State) : Host.Outcome State Fault Refusal :=
  .next (s.onPart fun p => receive (byte p.line.own) id p)

/-- CLASH_END (10 R186). -/
def execClashEnd (s : State) : Host.Outcome State Fault Refusal := .next (s.onPart leaveClash)

/-- A frame that fails its checks is counted by cause (10 R183, R192); a length above 48 makes the receiver wait for an idle
line (10 R179), a framing error does not (log 42). LINE_STUCK discards the frame it finds being received (10 R184). -/
def discardFrame (bytes : List Byte) (framing : Bool) (p : Part) : Part :=
  if listening p then
    let q := match classify bytes framing with
      | some .check => p.count Counters.addCheck
      | some .header => p.count Counters.addHeader
      | some .framing => p.count Counters.addFraming
      | none => p
    if lengthTooLong bytes then { q with line := { q.line with waitIdle := true } } else q
  else p

/-- FRAME_DISCARDED (10 R183). -/
def execFrameDiscarded (bytes : List Byte) (framing : Bool) (s : State) : Host.Outcome State Fault Refusal :=
  .next (s.onPart (discardFrame bytes framing))

/-- LINE_IDLE (10 R179): the receiver takes characters again. -/
def execLineIdle (s : State) : Host.Outcome State Fault Refusal :=
  .next (s.onPart fun p => { p with line := { p.line with waitIdle := false } })

/-! ### Transmission (10 R180, R181, R187) -/

/-- The first waiting frame in slot order (10 R187); a report carries the dropped count as it stands (10 R189). -/
def firstWaiting (l : LineUnit) : Option TxFrame :=
  match l.heatSlot, l.answers, l.spanSlot, l.reports with
  | some n, _, _, _ => some (.heat n)
  | none, a :: _, _, _ => some (.answer a)
  | none, [], some n, _ => some (.span n)
  | none, [], none, r :: _ => some (.report r l.dropped)
  | none, [], none, [] => none

/-- The station may start a frame: start is complete, the line is idle, and neither LINE_STUCK nor CLASH prevents it (10 R178,
R184, R186, 11 R193). -/
def maySend (p : Part) : Bool :=
  p.run == .running && !p.line.waitIdle && p.line.stuck.isNone && !p.inClash && p.line.tx.isNone

/-- The station offers its first waiting frame and contends (10 R187). -/
def offer (p : Part) : Part :=
  if maySend p then { p with line := { p.line with tx := (firstWaiting p.line).map (⟨·, true, true⟩) } } else p

/-- TRANSMIT_OFFER (10 R187). -/
def execTransmitOffer (s : State) : Host.Outcome State Fault Refusal := .next (s.onPart offer)

/-- A frame that left its place early (log 11) goes back to it: a slot keeps a newer frame, a queue takes it back at its
head. A full answer queue then loses its newest answer (10 R188), a full report queue its oldest report, which is this one
(10 R189). -/
def LineUnit.putBack (fr : TxFrame) (l : LineUnit) : LineUnit :=
  match fr with
  | .heat n => if l.heatSlot.isSome then l else { l with heatSlot := some n }
  | .span n => if l.spanSlot.isSome then l else { l with spanSlot := some n }
  | .answer a =>
    if l.answers.length < 4 then { l with answers := a :: l.answers }
    else match l.answers.getLast? with
      | some b => { l with answers := a :: l.answers.dropLast }.dropAnswer b
      | none => l
  | .report r _ =>
    if l.reports.length < 8 then { l with reports := r :: l.reports } else { l with dropped := sat 255 (l.dropped + 1) }

/-- Arbitration is lost: the frame stays where it waited (10 R180). -/
def loseArbitration (p : Part) : Part :=
  match p.line.tx with
  | some ⟨fr, true, inPlace⟩ =>
    let l := { p.line with tx := none }
    { p with line := if inPlace then l else l.putBack fr }.count Counters.addLost
  | _ => p

/-- ARBITRATION_LOST (10 R180). -/
def execArbitrationLost (s : State) : Host.Outcome State Fault Refusal := .next (s.onPart loseArbitration)

/-- The answer of a RESTART is over (10 R191). -/
def LineUnit.restartOver (fr : TxFrame) (l : LineUnit) : LineUnit :=
  match fr with
  | .answer a => if a.restart then { l with restart := l.restart.map fun r => { r with ended := true } } else l
  | _ => l

/-- A bit error after arbitration (10 R181): the frame is not offered again; a report counts as dropped (10 R189). -/
def bitErrorOn (p : Part) : Part :=
  match p.line.tx with
  | some ⟨fr, _, _⟩ =>
    let l := ({ p.line.takeOffered with tx := none }).restartOver fr
    let l := match fr with
      | .report _ _ => { l with dropped := sat 255 (l.dropped + 1) }
      | _ => l
    { p with line := l }.count Counters.addBitError
  | none => p

/-- BIT_ERROR (10 R181). -/
def execBitError (s : State) : Host.Outcome State Fault Refusal := .next (s.onPart bitErrorOn)

/-- A transmission completes (10 R181): a report's dropped count is taken off (10 R189), a SPAN notice opens the window of the
claim it carries (07 R124). -/
def transmitted (p : Part) : Part :=
  match p.line.tx with
  | some ⟨fr, _, _⟩ =>
    let l := ({ p.line.takeOffered with tx := none }).restartOver fr
    let q := { p with line := l }.count Counters.addSent
    match fr with
    | .report _ d => { q with line := { q.line with dropped := q.line.dropped - d } }
    | .span n => q.onRunning fun c r => openWindow c n r
    | _ => q
  | none => p

/-- TRANSMISSION_COMPLETE (10 R181). -/
def execTransmissionComplete (s : State) : Host.Outcome State Fault Refusal := .next (s.onPart transmitted)

/-! ### The stuck line (10 R184) -/

/-- The line is held dominant for more than 32 bit times. -/
def lineSticks (p : Part) : Part :=
  if p.run = .inReset ∨ p.line.stuck.isSome then p
  else reportConfigured .lineStuck { p with line := { p.line with stuck := some p.clock.ms } }

/-- LINE_STUCK (10 R184). -/
def execLineStuck (s : State) : Host.Outcome State Fault Refusal := .next (s.onPart lineSticks)

/-- The line is recessive for 12 bit times. -/
def lineRecovers (p : Part) : Part :=
  match p.line.stuck with
  | none => p
  | some t => reportConfigured (.lineOk (p.clock.ms - t)) { p with line := { p.line with stuck := none, waitIdle := false } }

/-- LINE_OK (10 R184). -/
def execLineOk (s : State) : Host.Outcome State Fault Refusal := .next (s.onPart lineRecovers)

end Sys2Proof.Machine
end

