-- ==== Sys2Proof/Machine/Orders.lean ====
section
/-! DEFINITION. The orders on beds, pieces, stock, moves, AUX lines and spans (10 10.6): for each its checks in the order of its
rule, its effect, and its meaning as a command. -/
namespace Sys2Proof.Machine
open Sys2Proof

/-- An outcome whose part is brought in line by `settle`. -/
def doneSettled (c : Settings) (p : Part) : Reply := done (settle c p)

/-! ### CAST_START (03 R43, R44) -/

def noRepeat : List Nat → Bool
  | [] => true
  | x :: xs => decide (x ∉ xs) && noRepeat xs

/-- The entry checks on ids, masses and slots (03 R43, second row). -/
def entriesInRange (slotCount : Nat) (es : List PartEntry) : Bool :=
  es.all fun e => decide (e.id ≠ 0) && within 1 6500 e.mass && decide (e.slot < slotCount)

/-- No id or slot twice, and no id in the register (03 R43, fourth row). -/
def entriesNew (p : Part) (es : List PartEntry) : Bool :=
  noRepeat (es.map (·.id)) && noRepeat (es.map (·.slot)) && es.all fun e => (findRecord p e.id).isNone

/-- The state checks of a first part (03 R43) or a later part (03 R44). -/
def partFits (x : Bed) (mix k n : Nat) : Bool :=
  if k = 1 then x.state == .empty
  else x.state == .casting && n == x.expected && mix == x.mix && k == x.received + 1

/-- The slots of the entries are free (03 R44). -/
def slotsFree (x : Bed) (es : List PartEntry) : Bool := es.all fun e => (x.slots.getD e.slot none).isNone

/-- Records and slot entries of a part (08 R141, 03 R63). -/
def createPart (c : Settings) (b : Nat) (es : List PartEntry) (p : Part) : Part :=
  es.foldl (fun q e =>
    (createPiece c b (q.bed b).mix (q.bed b).castTime e q).withBed b fun x => { x with slots := x.slots.set e.slot (some e.id) }) p

/-- An accepted first part (03 R43, 01 R11, 02 R23, 08 R141). The stage it sets to PRESET sends no STAGE report (log 16). -/
def startCast (c : Settings) (b mix n : Nat) (es : List PartEntry) (p : Part) : Part :=
  let q := p.withBed b fun x =>
    { x with
      mix := mix, castTime := p.now, expected := n, received := 1, hold := false, releaseReady := false,
      stage := .preset, stageStart := p.now, setpoint := (c.bed b).tf,
      slots := List.replicate (c.bed b).picks.length none }
  let r := zeroBed c b (clearBedRetired c b (setBedState b .casting .order q))
  formDemand c b (createPart c b es r)

/-- An accepted later part (03 R44). -/
def continueCast (c : Settings) (b : Nat) (es : List PartEntry) (p : Part) : Part :=
  (createPart c b es p).withBed b fun x => { x with received := x.received + 1 }

/-- The checks and the effect of CAST_START. A later part has its ranges checked before its sequence, as a first part (03 R44;
log 37). -/
def orderCastStart (ps : List Byte) (c : Settings) (p : Part) : Reply :=
  let b := par ps 0
  let mix := par ps 1
  let k := par ps 2
  let n := par ps 3
  match readPartEntries 6 (ps.drop 4) with
  | none => refuse .range p
  | some es =>
    if !(c.assigned b && (c.curve mix).isSome && within 1 5 k && within 1 5 n && decide (k ≤ n) && within 1 4 es.length) then
      refuse .range p
    else if !entriesInRange (c.bed b).picks.length es then refuse .range p
    else if !partFits (p.bed b) mix k n then refuse .badState p
    else if !entriesNew p es || (k != 1 && !slotsFree (p.bed b) es) then refuse .badState p
    else if freeRecords p < es.length then refuse .full p
    else doneSettled c (if k = 1 then startCast c b mix n es p else continueCast c b es p)

/-- CAST_START (03 R43, R44). -/
def execCastStart (src tag : Byte) (ps : List Byte) (s : State) : Host.Outcome State Fault Refusal :=
  .next (s.onPart (takeOrder src tag 4 ps (orderCastStart ps)))

/-! ### Bed orders (03 3.2) -/

def orderCastEnd (ps : List Byte) (c : Settings) (p : Part) : Reply :=
  let b := par ps 0
  let x := p.bed b
  if !c.assigned b then refuse .range p
  else if x.state ≠ .casting ∨ x.received < x.expected then refuse .badState p
  else
    let q := p.withBed b fun y => { y with stage := .preset, stageStart := p.now }
    doneSettled c (evaluateRelease b (evaluateStage c b (setBedState b .curing .order q)))

/-- CAST_END (03 R45). -/
def execCastEnd (src tag : Byte) (ps : List Byte) (s : State) : Host.Outcome State Fault Refusal :=
  .next (s.onPart (takeOrder src tag 1 ps (orderCastEnd ps)))

def orderDetension (ps : List Byte) (c : Settings) (p : Part) : Reply :=
  let b := par ps 0
  let x := p.bed b
  if !c.assigned b then refuse .range p
  else if x.state ≠ .curing then refuse .badState p
  else if !x.releaseReady then refuse .notReady p
  else if x.hold then refuse .held p
  else if p.emergencyActive then refuse .notReady p
  else if x.jack.level then doneSettled c (enterDetensioned c b p)
  else doneSettled c (setBedState b .detensioning .order p)

/-- DETENSION (03 R46). -/
def execDetension (src tag : Byte) (ps : List Byte) (s : State) : Host.Outcome State Fault Refusal :=
  .next (s.onPart (takeOrder src tag 1 ps (orderDetension ps)))

def orderHoldBed (ps : List Byte) (c : Settings) (p : Part) : Reply :=
  let v := par ps 0
  let b := par ps 1
  if !c.assigned b || decide (1 < v) then refuse .range p
  else if (p.bed b).state = .empty then refuse .badState p
  else
    let new := v == 1
    if (p.bed b).hold = new then done p
    else done ((p.withBed b fun x => { x with hold := new }).report (.bedHold b new))

/-- HOLD_BED: the HOLD order of the bed form (03 R52). -/
def execHoldBed (src tag : Byte) (ps : List Byte) (s : State) : Host.Outcome State Fault Refusal :=
  .next (s.onPart (takeOrder src tag 2 ps (orderHoldBed ps)))

def orderHoldPiece (ps : List Byte) (c : Settings) (p : Part) : Reply :=
  let v := par ps 0
  let id := par3 ps 1
  if id = 0 ∨ 1 < v then refuse .range p
  else match findPiece p id with
    | none => refuse .unknown p
    | some x =>
      let new := v == 1
      if x.hold = new then done p
      else doneSettled c ((updatePiece id (fun y => { y with hold := new }) p).report (.pieceHold id new))

/-- HOLD_PIECE: the HOLD order of the piece form (08 R149). -/
def execHoldPiece (src tag : Byte) (ps : List Byte) (s : State) : Host.Outcome State Fault Refusal :=
  .next (s.onPart (takeOrder src tag 4 ps (orderHoldPiece ps)))

def orderRetire (ps : List Byte) (c : Settings) (p : Part) : Reply :=
  let b := par ps 0
  let k := par ps 1
  if !c.assigned b || decide (21 < k) || !(c.bedChannels b).contains k then refuse .range p
  else if (p.bed b).state = .empty then refuse .badState p
  else if (p.channel k).retired then done p
  else if (c.bedChannels b).all fun j => j == k || (p.channel j).retired then refuse .badState p
  else doneSettled c (formDemand c b (recomputeBed c b (retireChannel c b k p)))

/-- RETIRE (03 R53). -/
def execRetire (src tag : Byte) (ps : List Byte) (s : State) : Host.Outcome State Fault Refusal :=
  .next (s.onPart (takeOrder src tag 2 ps (orderRetire ps)))

/-- The ids in a bed's slot list. -/
def slotIds (p : Part) (b : Nat) : List Nat := (p.bed b).slots.filterMap id

/-- A QUEUED move carries a piece of the bed: it is removed and its mark released (09 R174). -/
def dropQueued (p : Part) (m : Move) : Part :=
  (removeMove m (releaseMark m.tag m.piece p)).report (.moveRemoved m .clearBed)

def clearBed (c : Settings) (b : Nat) (p : Part) : Part :=
  let ids := slotIds p b
  let q := (p.moves.queue.filter fun m => m.phase == .queued && ids.contains m.piece).foldl dropQueued p
  let r := (ids.foldl (fun z i => removePiece i z) q).reportIf (!ids.isEmpty) (.piecesRemoved b ids.length q.now)
  enterEmpty c b .order (r.withBed b fun x => { x with slots := x.slots.map fun _ => none })

def orderClearBed (ps : List Byte) (c : Settings) (p : Part) : Reply :=
  let b := par ps 0
  let x := p.bed b
  if !c.assigned b then refuse .range p
  else if x.state = .empty ∨ x.state = .curing ∨ x.state = .detensioning then refuse .badState p
  else if p.moves.queue.any fun m => m.phase != .queued && (slotIds p b).contains m.piece then refuse .badState p
  else doneSettled c (clearBed c b p)

/-- CLEAR_BED (03 R50). -/
def execClearBed (src tag : Byte) (ps : List Byte) (s : State) : Host.Outcome State Fault Refusal :=
  .next (s.onPart (takeOrder src tag 1 ps (orderClearBed ps)))

/-! ### Move orders (09) -/

/-- An admitted LIFT (09 R162, 08 R151). -/
def admitLift (c : Settings) (x : Piece) (g : StackCfg) (lane n : Nat) (p : Part) : Part :=
  let t := p.moves.nextTag
  let pick := match x.place with
    | .onBed b s => (c.bed b).picks.getD s 0
    | _ => 0
  let i := stackIndex lane n
  let q := updatePiece x.id (fun y => { y with tag := some t })
    (p.setStackAt i { p.stackAt i with mark := .reservation t x.id x.mass })
  enqueue { tag := t, kind := .lift, piece := x.id, pick := pick, place := g.place, stack := some (lane, n), phase := .queued,
            start := none, halt := none, picked := false } q

def orderLift (ps : List Byte) (c : Settings) (p : Part) : Reply :=
  let id := par3 ps 0
  let lane := par ps 3
  let n := par ps 4
  if id = 0 then refuse .range p
  else if 16 ≤ p.moves.queue.length then refuse .full p
  else match checkLift c p id lane n with
    | .error r => refuse r p
    | .ok (x, g) => ⟨.accepted, [.b1 p.moves.nextTag], settle c (admitLift c x g lane n p)⟩

/-- LIFT (09 R162). -/
def execLift (src tag : Byte) (ps : List Byte) (s : State) : Host.Outcome State Fault Refusal :=
  .next (s.onPart (takeOrder src tag 5 ps (orderLift ps)))

/-- An admitted DISPATCH (09 R163, 08 R152). -/
def admitShip (c : Settings) (x : Piece) (lane n : Nat) (p : Part) : Part :=
  let t := p.moves.nextTag
  let i := stackIndex lane n
  let pick := ((c.stack? lane n).map (·.place)).getD 0
  let q := updatePiece x.id (fun y => { y with tag := some t }) (p.setStackAt i { p.stackAt i with mark := .dispatch t x.id })
  enqueue { tag := t, kind := .dispatch, piece := x.id, pick := pick, place := c.dispatch, stack := none, phase := .queued,
            start := none, halt := none, picked := false } q

def orderShip (ps : List Byte) (c : Settings) (p : Part) : Reply :=
  let id := par3 ps 0
  if id = 0 then refuse .range p
  else if 16 ≤ p.moves.queue.length then refuse .full p
  else match checkShip p id with
    | .error r => refuse r p
    | .ok (x, lane, n) => ⟨.accepted, [.b1 p.moves.nextTag], settle c (admitShip c x lane n p)⟩

/-- SHIP (09 R163). -/
def execShip (src tag : Byte) (ps : List Byte) (s : State) : Host.Outcome State Fault Refusal :=
  .next (s.onPart (takeOrder src tag 3 ps (orderShip ps)))

def orderCancel (ps : List Byte) (c : Settings) (p : Part) : Reply :=
  let t := par ps 0
  if t = 0 then refuse .range p
  else match findMove p t with
    | none => refuse .unknown p
    | some m =>
      if m.phase ≠ .queued ∧ m.phase ≠ .halted then refuse .badState p
      else if m.phase = .halted ∧ m.picked then refuse .pieceOnHook p
      else
        let q := (removeMove m (releaseMark m.tag m.piece p)).report (.moveRemoved m .cancel)
        doneSettled c (if m.phase = .halted then setReturn c q else q)

/-- CANCEL (09 R173). -/
def execCancel (src tag : Byte) (ps : List Byte) (s : State) : Host.Outcome State Fault Refusal :=
  .next (s.onPart (takeOrder src tag 1 ps (orderCancel ps)))

/-- The conditions that make a RESUME wait (09 R172, fourth row). -/
def mayResume (p : Part) : Bool :=
  p.travel.referenced && !p.emergencyActive && !p.inWarning && !p.inClash && !p.craneFault && !p.craneLocal

/-- The position lies within the window of a place position (09 R172). -/
def inPlaceWindow (c : Settings) (p : Part) (place : Nat) : Bool :=
  match p.position with
  | some q => windowOf c q place == .inside
  | none => false

def orderResume (ps : List Byte) (c : Settings) (p : Part) : Reply :=
  let t := par ps 0
  if t = 0 then refuse .range p
  else match findMove p t with
    | none => refuse .unknown p
    | some m =>
      if m.phase ≠ .halted then refuse .badState p
      else if !mayResume p then refuse .notReady p
      else match m.picked, p.hookLoaded with
        | false, false => doneSettled c (enterTravel m .toPick m.pick p)
        | false, true => refuse .notReady p
        | true, true => doneSettled c (enterTravel m .toPlace m.place p)
        | true, false =>
          if inPlaceWindow c p m.place then doneSettled c (completeMove c m true p) else refuse .wrongPosition p

/-- RESUME (09 R172). -/
def execResume (src tag : Byte) (ps : List Byte) (s : State) : Host.Outcome State Fault Refusal :=
  .next (s.onPart (takeOrder src tag 1 ps (orderResume ps)))

/-! ### AUX, SPAN_FREE, CLEAR_FAULT -/

def orderAux (ps : List Byte) (c : Settings) (p : Part) : Reply :=
  let k := par ps 0
  match auxAction (par ps 1) with
  | none => refuse .range p
  | some f => if 7 < k then refuse .range p else done (p.withAux c k .order (Aux.act f))

/-- AUX (05 R95). -/
def execAux (src tag : Byte) (ps : List Byte) (s : State) : Host.Outcome State Fault Refusal :=
  .next (s.onPart (takeOrder src tag 2 ps (orderAux ps)))

def orderSpanFree (ps : List Byte) (c : Settings) (p : Part) : Reply :=
  let k := par ps 0
  if c.spans.length ≤ k then refuse .range p
  else if !p.span.peers.any (fun x => x.silent && x.names k) then refuse .badState p
  else doneSettled c (freeSpan k p)

/-- SPAN_FREE (07 R129). -/
def execSpanFree (src tag : Byte) (ps : List Byte) (s : State) : Host.Outcome State Fault Refusal :=
  .next (s.onPart (takeOrder src tag 1 ps (orderSpanFree ps)))

def orderClearFault (ps : List Byte) (c : Settings) (p : Part) : Reply :=
  let b := par ps 0
  if !c.assigned b then refuse .range p
  else if !(p.flow b).fault then done p
  else
    let q := (p.setFlow b { p.flow b with fault := false, run := 0 }).report (.flowClear b p.now)
    done (formDemand c b q)

/-- CLEAR_FAULT (05 R88). -/
def execClearFault (src tag : Byte) (ps : List Byte) (s : State) : Host.Outcome State Fault Refusal :=
  .next (s.onPart (takeOrder src tag 1 ps (orderClearFault ps)))

end Sys2Proof.Machine
end

