-- ==== Sys2Proof/Machine/Queries.lean ====
section
/-! DEFINITION. The thirteen QUERY subjects (10 10.6): checks and answer data, in the order of their rules (widths: log 19). A query
changes nothing but the answer queue and the line's counters. -/
namespace Sys2Proof.Machine
open Sys2Proof

/-- An answer with data. -/
def tell (vs : List Value) (p : Part) : Reply := ⟨.done, vs, p⟩

def optNat (o : Option Nat) (absent : Nat) : Nat := o.getD absent

/-! ### Heat state (04 R80) -/

def queryHeatState (ps : List Byte) (c : Settings) (p : Part) : Reply :=
  let a := par ps 0
  if !within 1 32 a then refuse .range p
  else
    let h := p.heat
    let beds := (List.range 4).flatMap fun b =>
      [Value.b2 (if c.assigned b then (p.bed b).db else 0), .b2 (h.alloc.getD b 0)]
    let items := ((h.list.filter fun e => decide (a ≤ e.addr)).take 6).map fun e => [Value.b1 e.addr, .b2 e.demand, .b1 e.age]
    tell (fitItems ([.b2 h.ds, .b2 h.grant, .bits 3 h.shed, .bits 2 h.listening, flag h.deaf.isSome, flag p.inClash,
      .b1 h.list.length] ++ beds) items) p

/-- QUERY_HEAT_STATE (04 R80). -/
def execQueryHeatState (src tag : Byte) (ps : List Byte) (s : State) : Host.Outcome State Fault Refusal :=
  .next (s.onPart (takeOrder src tag 1 ps (queryHeatState ps)))

/-! ### Output state (05 R101) -/

/-- One AUX line: on is 1, and its saved value takes 2 bits, 2 for an absent one (log 19). -/
def auxValues (c : Settings) (p : Part) (k : Nat) : List Value :=
  let a := p.auxLine k
  [flag a.commanded, flag a.saved.isSome, .bits 2 (match a.saved with | some v => boolNat v | none => 2),
    flag (auxEffective c p k)]

/-- One bed's heater and flow values, zeros for a bed not assigned to casting. -/
def genValues (c : Settings) (p : Part) (b : Nat) : List Value :=
  if c.assigned b then
    [.b2 (p.gen b).onTime, .b2 (optNat (p.gen b).buffer 0xFFFF), flag (heaterRequest c p b), flag (p.flow b).fault,
      .b1 (p.flow b).run, .b2 (p.flow b).flow]
  else [.b2 0, .b2 0, flag false, flag false, .b1 0, .b2 0]

/-- Output lines, AUX lines and beds follow one another without a break, 46 bytes in all; active and high are 1 (log 19). -/
def queryOutputState (c : Settings) (p : Part) : Reply :=
  tell (((List.range 32).flatMap fun n => [flag (requestedOf c p (Settings.line c n).source), flag (pinLevel p n)])
    ++ (List.range 8).flatMap (auxValues c p) ++ [.bits 3 p.out.lastShed, flag p.emergencyActive, flag p.inWarning]
    ++ (List.range 4).flatMap (genValues c p)) p

/-- QUERY_OUTPUT_STATE (05 R101). -/
def execQueryOutputState (src tag : Byte) (ps : List Byte) (s : State) : Host.Outcome State Fault Refusal :=
  .next (s.onPart (takeOrder src tag 0 ps queryOutputState))

/-! ### Runway position (06 R117) -/

/-- Directions as 06 R103 lists them. -/
def Dir.place : Dir → Nat
  | .forward => 0 | .reverse => 1 | .none => 2

/-- The decoder's index takes 1 byte, 0xFF before a pattern is adopted (log 19). The unreferenced count is that of base and u, with the
position known too (log 47). -/
def queryRunwayPosition (c : Settings) (p : Part) : Reply :=
  let t := p.travel
  tell [posValue p.position, flag t.referenced, flag t.fault, .bits 2 ((t.cause.map PosFault.code).getD 3),
    posValue t.lastKnown, .b3 t.count, .b1 (optNat t.index 0xFF), .bits 2 t.dir.place, .b2 (optNat t.pprev 0),
    flag t.standstill, posValue (p.moves.target.map (·.pos)), .bits 2 (windowState c p).code, .bits 2 t.limit.code,
    spanSet t.occupancy] p

/-- QUERY_RUNWAY_POSITION (06 R117). -/
def execQueryRunwayPosition (src tag : Byte) (ps : List Byte) (s : State) : Host.Outcome State Fault Refusal :=
  .next (s.onPart (takeOrder src tag 0 ps queryRunwayPosition))

/-! ### Spans and cranes (07 R138) -/

/-- Travel decisions as 05 R91 lists them. -/
def Decision.code : Decision → Nat
  | .stop => 0 | .go true .creep => 1 | .go true .slow => 2 | .go true .fast => 3 | .go false .creep => 4
  | .go false .slow => 5 | .go false .fast => 6

def rankValues (r : Rank) : List Value := [.b1 r.urgency, .b1 r.addr]

/-- A view and what it carries (07 R120); a deadline is told as time remaining, 0 while PENDING. -/
def viewValues (now : Nat) : View → List Value
  | .ownOccupied => [.bits 3 0]
  | .ownHeld r => .bits 3 1 :: rankValues r
  | .ownClaim r d => [.bits 3 2] ++ rankValues r ++ [.b2 ((d.map (· - now)).getD 0)]
  | .silent a => [.bits 3 3, .b1 a]
  | .peerOccupied a g => [.bits 3 4, .b1 a, .b2 g]
  | .peerHeld a r g => [.bits 3 5, .b1 a] ++ rankValues r ++ [.b2 g]
  | .free => [.bits 3 6]

def Role.code : Role → Nat
  | .none => 0 | .claim _ _ _ _ => 1 | .held _ => 2

/-- One span: the view with what it carries, and then the role as its code alone, without the rank, window and contested flag that
07 R120 makes part of it (log 19). -/
def spanItem (p : Part) (k : Nat) : List Value :=
  let x := p.spanAt k
  viewValues p.msCount (viewOf p k) ++ [.bits 2 x.role.code, flag x.releasing, .b2 ((x.retry.map (· - p.msCount)).getD 0)]

def querySpans (ps : List Byte) (c : Settings) (p : Part) : Reply :=
  let k := par ps 0
  if c.spans.length ≤ k then refuse .range p
  else tell (fitItems [.bits 3 p.span.decision.code, flag p.span.yieldStop, .b1 (countBeyond p)]
    ((((List.range c.spans.length).drop k).take 8).map (spanItem p))) p

/-- QUERY_SPANS (07 R138). -/
def execQuerySpans (src tag : Byte) (ps : List Byte) (s : State) : Host.Outcome State Fault Refusal :=
  .next (s.onPart (takeOrder src tag 1 ps (querySpans ps)))

/-- Speed classes as 07 R121 lists them. -/
def speedPlace : Option Speed → Nat
  | some .creep => 0 | some .slow => 1 | some .fast => 2 | none => 3

/-- One peer crane record: its address stands first, the number of its entries before them, and each entry carries a rank, 0 and 0
in an OCCUPIED one (log 19). -/
def peerItem (x : Peer) : List Value :=
  [.b1 x.addr, posValue x.pos, flag x.referenced, .b2 x.half, .bits 2 x.dir.place, .bits 2 (speedPlace x.speed),
    .b1 x.entries.length] ++ (x.entries.flatMap fun e => [.b1 e.span, .bits 2 e.kind.place] ++ rankValues e.rank)
    ++ [.b2 x.age, flag x.silent]

def queryCranes (ps : List Byte) (_c : Settings) (p : Part) : Reply :=
  let a := par ps 0
  if !within 1 32 a then refuse .range p
  else tell (fitItems [] (((p.span.peers.filter fun x => decide (a ≤ x.addr)).take 4).map peerItem)) p

/-- QUERY_CRANES (07 R138). -/
def execQueryCranes (src tag : Byte) (ps : List Byte) (s : State) : Host.Outcome State Fault Refusal :=
  .next (s.onPart (takeOrder src tag 1 ps (queryCranes ps)))

/-! ### Pieces, beds, channels, stacks (08 8.6) -/

/-- A test of a piece takes 2 bits: not reached, reached, or 2 where the piece has no such test (log 19). A piece on its bed has a
lift test from its creation (log 17). -/
def testValue (has : Bool) (v : Bool) : Value := .bits 2 (if has then boolNat v else 2)

/-- A piece's values, its mark in 2 bytes (log 19). -/
def queryPiece (ps : List Byte) (c : Settings) (p : Part) : Reply :=
  match findPiece p (par3 ps 0) with
  | none => refuse .unknown p
  | some x =>
    let k := x.capture
    let onBed := match x.place with | .onBed _ _ => true | _ => false
    tell ([.b2 x.mark, .b2 x.mass, .b1 x.mix, .b4 x.castTime] ++ Report.placeValues x.place
      ++ [.b4 (pieceAge p x), .b4 (pieceMaturity p x), .b2 (pieceStrength c p x),
        .b4 ((k.map (·.mlift)).getD 0xFFFFFFFF), .b4 ((k.map (·.alift)).getD 0xFFFFFFFF),
        .b2 ((k.map (·.strength)).getD 0xFFFF), flag x.hold, flag x.announced, .b1 (optNat x.tag 0),
        testValue onBed x.liftTest, testValue k.isSome x.shipTest, testValue true x.ageTest, flag (liftReady p x),
        flag (shipReady p x)]) p

/-- QUERY_PIECE (08 R155). -/
def execQueryPiece (src tag : Byte) (ps : List Byte) (s : State) : Host.Outcome State Fault Refusal :=
  .next (s.onPart (takeOrder src tag 3 ps (queryPiece ps)))

/-- A bed's values; blind-since is told as 0 while the bed is not blind (log 19). -/
def queryBed (ps : List Byte) (c : Settings) (p : Part) : Reply :=
  let b := par ps 0
  if !c.assigned b then refuse .range p
  else
    let x := p.bed b
    let t := p.bedTemp b
    let ids := slotIds p b
    let ready := ids.filter fun i => match findPiece p i with | some y => liftReady p y | none => false
    tell [.bits 3 x.state.code, .b1 x.mix, .b4 x.castTime, .b1 x.expected, .b1 x.received, .bits 3 x.stage.code,
      .b4 x.stageStart, tempValue (some x.rampStart), tempValue (some x.setpoint), .b2 x.f, .b2 x.db, tempValue t.tc,
      flag t.blindSince.isSome, .b4 (optNat t.blindSince 0), flag t.overheat, flag x.hold, flag x.releaseReady, .b4 x.mg,
      .b2 x.strength, flag x.releaseTest, flag x.jack.level, flag (permitRequest p b), .b1 ids.length, .b1 ready.length] p

/-- QUERY_BED (08 R156). -/
def execQueryBed (src tag : Byte) (ps : List Byte) (s : State) : Host.Outcome State Fault Refusal :=
  .next (s.onPart (takeOrder src tag 1 ps (queryBed ps)))

def querySlots (ps : List Byte) (c : Settings) (p : Part) : Reply :=
  let b := par ps 0
  let k := par ps 1
  let picks := (c.bed b).picks
  if !c.assigned b || decide (picks.length ≤ k) then refuse .range p
  else tell (fitItems [] ((((List.range picks.length).drop k).take 6).map fun i =>
    [.b1 i, .b3 (picks.getD i 0), .b3 (optNat ((p.bed b).slots.getD i none) 0)])) p

/-- QUERY_SLOTS (08 R156). -/
def execQuerySlots (src tag : Byte) (ps : List Byte) (s : State) : Host.Outcome State Fault Refusal :=
  .next (s.onPart (takeOrder src tag 2 ps (querySlots ps)))

def Validity.code : Validity → Nat
  | .valid => 0 | .held => 1 | .faulted => 2

/-- A channel's values; a channel of no bed tells bed 0xFF, and one without an invalid cause tells the cause 4 (log 19). -/
def queryChannel (ps : List Byte) (c : Settings) (p : Part) : Reply :=
  let k := par ps 0
  if !(channelsInUse c).contains k then refuse .range p
  else
    let x := p.channel k
    let a := if k = 22 then p.maturity.ambient else p.maturity.accs.getD k ⟨0, 0⟩
    let bed := if k = 22 then none else (c.channel k).bed
    tell [.b1 (optNat bed 0xFF), .bits 2 x.validity.code, .b1 x.held, tempValue x.last,
      .bits 3 ((x.cause.map SampleCause.code).getD 4), flag x.retired, tempValue x.usable, .b4 a.m, .b2 a.residue,
      flag (!p.scan.refGood)] p

/-- QUERY_CHANNEL (08 R157). -/
def execQueryChannel (src tag : Byte) (ps : List Byte) (s : State) : Host.Outcome State Fault Refusal :=
  .next (s.onPart (takeOrder src tag 1 ps (queryChannel ps)))

/-- A pending mark; none tells tag 0 and piece 0, and only a reservation tells its mass (log 19). -/
def markValues : PendMark → List Value
  | .none => [.bits 2 0, .b1 0, .b3 0]
  | .reservation t i m => [.bits 2 1, .b1 t, .b3 i, .b2 m]
  | .dispatch t i => [.bits 2 2, .b1 t, .b3 i]

/-- The top piece of a stack is ship-ready. -/
def topReady (p : Part) (s : Stack) : Bool :=
  match s.list.getLast?.bind (findPiece p) with
  | some x => shipReady p x
  | none => false

def queryStack (ps : List Byte) (c : Settings) (p : Part) : Reply :=
  let lane := par ps 0
  let n := par ps 1
  match c.stack? lane n with
  | none => refuse .range p
  | some g =>
    let s := p.stackAt (stackIndex lane n)
    tell ([.b3 g.place, .b1 g.tiers, .b2 g.load, .b1 s.list.length, .b2 (loadOf p s.list)] ++ s.list.map .b3
      ++ markValues s.mark ++ [flag (topReady p s)]) p

/-- QUERY_STACK (08 R158). -/
def execQueryStack (src tag : Byte) (ps : List Byte) (s : State) : Host.Outcome State Fault Refusal :=
  .next (s.onPart (takeOrder src tag 2 ps (queryStack ps)))

def Place.code : Place → Nat
  | .onBed _ _ => 0 | .onHook => 1 | .inStock _ _ _ => 2

def countPieces (p : Part) (f : Piece → Bool) : Nat := ((recordsInUse p).filter f).length

/-- Free records and records IN_STOCK may exceed 255 and are counted in 2 bytes; those ON_BED (16 slots on each of 4 beds), ON_HOOK
and ship-ready (one to each of 96 stacks) cannot, and are counted in 1 byte (10 10.6, 03 R63, 08 R142, R147, R150). -/
def queryRegister (ps : List Byte) (_c : Settings) (p : Part) : Reply :=
  let i := par3 ps 0
  if i = 0 then refuse .range p
  else
    let l := ((recordsInUse p).filter fun x => decide (i ≤ x.id)).foldl (fun acc x => insertBy (·.id) x acc) []
    tell (fitItems [.b2 (freeRecords p), .b1 (countPieces p fun x => x.place.code == 0),
      .b1 (countPieces p fun x => x.place.code == 1), .b2 (countPieces p fun x => x.place.code == 2),
      .b1 (countPieces p (shipReady p))] ((l.take 8).map fun x => [.b3 x.id, .bits 2 x.place.code])) p

/-- QUERY_REGISTER (08 R158). -/
def execQueryRegister (src tag : Byte) (ps : List Byte) (s : State) : Host.Outcome State Fault Refusal :=
  .next (s.onPart (takeOrder src tag 3 ps (queryRegister ps)))

/-! ### Moves (09 R177) -/

/-- Seconds left before the timeout of a timed phase. -/
def secondsLeft (c : Settings) (now : Nat) (m : Move) : List Value :=
  match timeoutOf c m.phase, m.start with
  | some (limit, _), some t => [.b2 (t + limit - now)]
  | _, _ => []

/-- One move record; a field it does not hold takes no bytes (log 19). -/
def moveItem (c : Settings) (now : Nat) (m : Move) : List Value :=
  [.b1 m.tag, .bits 1 m.kind.code, .b3 m.piece, .b3 m.pick, .b3 m.place]
    ++ (match m.stack with | some (l, n) => [.b1 l, .b1 n] | none => [])
    ++ [.b1 m.urgency, .bits 3 m.phase.code]
    ++ (match m.start with | some t => [.b4 t] | none => [])
    ++ (match m.halt with | some (ph, k) => [.bits 3 ph.code, .bits 3 k.code] | none => [])
    ++ [flag m.picked] ++ secondsLeft c now m

def queryMoves (ps : List Byte) (c : Settings) (p : Part) : Reply :=
  let k := par ps 0
  if 15 < k then refuse .range p
  else tell (fitItems [.b1 p.moves.queue.length, .b1 p.moves.nextTag, .b1 (((headMove p).map (·.tag)).getD 0),
    flag p.moves.returning, posValue (p.moves.target.map (·.pos)), flag p.hookLoaded, flag p.craneReady,
    flag p.craneFault, flag p.craneLocal] (((p.moves.queue.drop k).take 4).map (moveItem c p.now))) p

/-- QUERY_MOVES (09 R177). -/
def execQueryMoves (src tag : Byte) (ps : List Byte) (s : State) : Host.Outcome State Fault Refusal :=
  .next (s.onPart (takeOrder src tag 1 ps (queryMoves ps)))

/-! ### Line state (10 R192) -/

def queryLineState (_c : Settings) (p : Part) : Reply :=
  let l := p.line
  let k := l.counters
  tell [.b1 l.own, flag l.clash.isSome, .b2 ((l.clash.map fun x => (x.endMs - p.clock.ms) / 1000).getD 0),
    .b1 ((l.clash.map (·.count)).getD 0), flag l.stuck.isSome, flag l.heatSlot.isSome, flag l.spanSlot.isSome,
    .b1 l.answers.length, .b1 l.reports.length, .b1 l.dropped, .b2 k.valid, .b2 k.badCheck, .b2 k.badHeader, .b2 k.framing,
    .b2 k.payload, .b2 k.lost, .b2 k.bitErrors, .b2 k.answersDropped, .b2 k.ordersInClash, .b2 k.sent] p

/-- QUERY_LINE_STATE (10 R192). -/
def execQueryLineState (src tag : Byte) (ps : List Byte) (s : State) : Host.Outcome State Fault Refusal :=
  .next (s.onPart (takeOrder src tag 0 ps queryLineState))

end Sys2Proof.Machine
end

