-- ==== Sys2Proof/Machine/Frames.lean ====
section
/-! DEFINITION. Order routing of whole frames (10 R190): the orders as their blocks take them, and the frames that come by
OTHER_FRAME_RECEIVED. -/
namespace Sys2Proof.Machine
open Sys2Proof

/-- An order of 10 10.6 as its block takes it: sender, tag, parameters, how many of them it needs, and the block's outcome. -/
structure OrderForm where
  src : Byte
  tag : Byte
  params : List Byte
  need : Nat
  act : Settings → Part → Reply

/-- The order a command is; RESTART and the other commands are none of these. -/
def orderOf : Instr → Option OrderForm
  | .castStart src tag ps => some ⟨src, tag, ps, 4, orderCastStart ps⟩
  | .castEnd src tag ps => some ⟨src, tag, ps, 1, orderCastEnd ps⟩
  | .detension src tag ps => some ⟨src, tag, ps, 1, orderDetension ps⟩
  | .holdBed src tag ps => some ⟨src, tag, ps, 2, orderHoldBed ps⟩
  | .holdPiece src tag ps => some ⟨src, tag, ps, 4, orderHoldPiece ps⟩
  | .retire src tag ps => some ⟨src, tag, ps, 2, orderRetire ps⟩
  | .clearBed src tag ps => some ⟨src, tag, ps, 1, orderClearBed ps⟩
  | .lift src tag ps => some ⟨src, tag, ps, 5, orderLift ps⟩
  | .ship src tag ps => some ⟨src, tag, ps, 3, orderShip ps⟩
  | .cancel src tag ps => some ⟨src, tag, ps, 1, orderCancel ps⟩
  | .resume src tag ps => some ⟨src, tag, ps, 1, orderResume ps⟩
  | .aux src tag ps => some ⟨src, tag, ps, 2, orderAux ps⟩
  | .spanFree src tag ps => some ⟨src, tag, ps, 1, orderSpanFree ps⟩
  | .clearFault src tag ps => some ⟨src, tag, ps, 1, orderClearFault ps⟩
  | .queryHeatState src tag ps => some ⟨src, tag, ps, 1, queryHeatState ps⟩
  | .queryOutputState src tag ps => some ⟨src, tag, ps, 0, queryOutputState⟩
  | .queryRunwayPosition src tag ps => some ⟨src, tag, ps, 0, queryRunwayPosition⟩
  | .querySpans src tag ps => some ⟨src, tag, ps, 1, querySpans ps⟩
  | .queryCranes src tag ps => some ⟨src, tag, ps, 1, queryCranes ps⟩
  | .queryPiece src tag ps => some ⟨src, tag, ps, 3, queryPiece ps⟩
  | .queryBed src tag ps => some ⟨src, tag, ps, 1, queryBed ps⟩
  | .querySlots src tag ps => some ⟨src, tag, ps, 2, querySlots ps⟩
  | .queryChannel src tag ps => some ⟨src, tag, ps, 1, queryChannel ps⟩
  | .queryStack src tag ps => some ⟨src, tag, ps, 2, queryStack ps⟩
  | .queryRegister src tag ps => some ⟨src, tag, ps, 3, queryRegister ps⟩
  | .queryMoves src tag ps => some ⟨src, tag, ps, 1, queryMoves ps⟩
  | .queryLineState src tag ps => some ⟨src, tag, ps, 0, queryLineState⟩
  | _ => none

/-- An order that has been read goes to its block; a RESTART is the line interface's own (10 R190, R191). -/
def routeCommand (i : Instr) (p : Part) : Part :=
  match i, orderOf i with
  | .restart src tag _, _ => routeRestart src tag p
  | _, some o => routeOrder o.src o.tag o.need o.params o.act p
  | _, none => p

/-- An ORDER frame for this station (10 R190): one too short to carry a tag is a payload discard, in CLASH an order discarded there
alone; one that names no order is refused with RANGE; any other goes to its block (log 14). -/
def routeFrame (src : Byte) (payload : List Byte) (p : Part) : Part :=
  match payload with
  | _ :: tag :: params =>
    match readOrder src payload with
    | some i => routeCommand i p
    | none => routeOrder src tag 0 params (fun _ q => refuse .range q) p
  | _ => if p.inClash then p.count Counters.addInClash else p.count Counters.addPayload

/-- An ORDER frame for this station. -/
def forOwn (kind target : Byte) (p : Part) : Bool := decide (kind = kindOrder ∧ target.toNat = p.line.own)

/-- The dispatch by kind (10 R183): HEAT and SPAN to their units, an ORDER for this station to order routing; an ANSWER, a REPORT or
an ORDER for another station is not taken. HEAT, SPAN and ORDER frames have commands of their own as well (log 14). -/
def otherFrame (kind src target : Byte) (payload : List Byte) (p : Part) : Part :=
  if kind = kindHeat then heatPayload src payload p
  else if kind = kindSpan then spanPayload src payload p
  else if forOwn kind target p then routeFrame src payload p
  else p

/-- A frame of OTHER_FRAME_RECEIVED can arrive: a RESTART for this station also on a stuck line (10 R191; log 46). -/
def frameArrives (kind src target : Byte) (payload : List Byte) (p : Part) : Bool :=
  match forOwn kind target p, readOrder src payload with
  | true, some (.restart _ _ _) => listening p
  | _, _ => receiving p

/-- OTHER_FRAME_RECEIVED (10 R183, R190). -/
def execOtherFrameReceived (kind src target : Byte) (payload : List Byte) (s : State) : Host.Outcome State Fault Refusal :=
  .next (s.onPart fun p => receiveWhen (frameArrives kind src target payload p) src (otherFrame kind src target payload) p)

end Sys2Proof.Machine
end

