-- ==== Sys2Proof/Machine/Events.lean ====
section
/-! DEFINITION. The timer events and the pin events: works clock, scans, beds, heaters, flow, emergency, runway, spans, crane
lines, timeouts. A command is the occurrence of its event (log 2): it brings the counter that times the event to its value. -/
namespace Sys2Proof.Machine
open Sys2Proof

/-! ### Works clock (01 R1, R2) -/

/-- Both phase counts advance; one that would reach its interval is set to 0 and its boundary is delivered (01 R2). -/
def Clock.second (c : Settings) (k : Clock) : Clock :=
  { k with
    now := sat 4294967295 (k.now + 1)
    msPhase := 0
    samplePhase := if c.ts ≤ k.samplePhase + 1 then 0 else k.samplePhase + 1
    sampleDue := k.sampleDue || decide (c.ts ≤ k.samplePhase + 1)
    heatPhase := if c.thp ≤ k.heatPhase + 1 then 0 else k.heatPhase + 1
    heatDue := k.heatDue || decide (c.thp ≤ k.heatPhase + 1) }

/-- A flow window closes; a third counted window outside the band sets the fault (05 R86, R87). -/
def closeWindow (c : Settings) (b : Nat) (p : Part) : Part :=
  let new := (p.flow b).close (c.bed b) (p.gen b).request
  let q := p.setFlow b new
  if new.fault && !(p.flow b).fault then formDemand c b (q.report (.flowFault b new.flow q.now)) else q

/-- What falls due at a second event (05 R86, 03 R55, R61, 02 R39, 09 R170). -/
def secondWork (c : Settings) (p : Part) : Part :=
  let q := ((p.forAssigned c (closeWindow c)).forAssigned c (evaluateStage c)).forAssigned c (formDemand c)
  testTimeout c .timeout (testTimeout c .claimTimeout (formAgeTests c q))

/-- A second event (01 R1). The boundaries it brings are commands of their own that come next (log 8). -/
def secondPasses (c : Settings) (p : Part) : Part :=
  settle c (secondWork c { p with clock := p.clock.second c })

/-- SECOND_EVENT (01 R1, R2). -/
def execSecondEvent (s : State) : Host.Outcome State Fault Refusal := .next (s.onPart (·.onRunning secondPasses))

/-- A sample interval boundary (01 R3, 02 R21): a scan starts, or the boundary is counted as skipped with its end time. -/
def sampleBoundary (p : Part) : Part :=
  let q := { p with clock := { p.clock with samplePhase := 0, sampleDue := false } }
  match q.scan.run with
  | none => { q with scan := { q.scan with run := some ⟨false, q.now, [], 0⟩ } }
  | some _ =>
    if q.scan.skipped.length < 255 then { q with scan := { q.scan with skipped := q.scan.skipped ++ [q.now] } } else q

/-- SAMPLE_INTERVAL_BOUNDARY (01 R3). -/
def execSampleIntervalBoundary (s : State) : Host.Outcome State Fault Refusal :=
  .next (s.onPart (·.onRunning fun _ p => sampleBoundary p))

/-- HEAT_PERIOD_BOUNDARY (04 R69). -/
def execHeatPeriodBoundary (s : State) : Host.Outcome State Fault Refusal :=
  .next (s.onPart (·.onRunning fun c p =>
    heatBoundary c { p with clock := { p.clock with heatPhase := 0, heatDue := false } }))

/-- A completed sample is handed on in its fixed order; the piece store and the crane side act on the tests it formed before the
next sample (01 R7, 02 R40, 08 R148). -/
def handOn (c : Settings) (interval endTime : Nat) (p : Part) : Part :=
  let p := p.forAssigned c (evaluateBed c)
  settle c (bedsTake c (maturityTakes c ⟨usableAll c p, interval, endTime⟩ p))

/-- Scan completion (01 R3, R5..R7): the scan's own sample, then one missed sample per skipped boundary. -/
def completeScan (c : Settings) (run : ScanRun) (ref1 ref2 : Nat) (codes : List Code) (p : Part) : Part :=
  let q := applyScan c ref1 ref2 codes { p with scan := { p.scan with run := none, evaluating := true } }
  let r := handOn c (if run.initial then 0 else c.ts) run.endTime q
  let skipped := r.scan.skipped
  skipped.foldl (fun x t => handOn c c.ts t (missAll c x)) { r with scan := { r.scan with skipped := [] } }

/-- The scan in flight completes; without one there is no completion (01 R4). -/
def scanEnds (ref1 ref2 : Code) (codes : List Code) (c : Settings) (p : Part) : Part :=
  match p.scan.run with
  | none => p
  | some run => completeScan c run ref1.toNat ref2.toNat codes p

/-- SCAN_COMPLETION (01 R4, R5). -/
def execScanCompletion (ref1 ref2 : Code) (codes : List Code) (s : State) : Host.Outcome State Fault Refusal :=
  .next (s.onPart (·.onRunning (scanEnds ref1 ref2 codes)))

/-! ### Beds -/

/-- Act on a bed that is assigned to casting. -/
def onAssigned (b : Nat) (f : Settings → Part → Part) (c : Settings) (p : Part) : Part :=
  if c.assigned b then f c p else p

/-- STAGE_TRANSITION (03 R55). -/
def execStageTransition (b : Fin 4) (s : State) : Host.Outcome State Fault Refusal :=
  .next (s.onPart (·.onRunning (onAssigned b fun c p => evaluateStage c b p)))

/-- BLIND_HOLD_EXPIRY (03 R61). -/
def execBlindHoldExpiry (b : Fin 4) (s : State) : Host.Outcome State Fault Refusal :=
  .next (s.onPart (·.onRunning (onAssigned b fun c p => formDemand c b p)))

/-- The age test of one piece, if it is not yet reached (02 R39). -/
def formAgeTest (c : Settings) (id : Nat) (p : Part) : Part :=
  updatePiece id (fun x => if x.ageTest then x else { x with ageTest := ageReached c p x }) p

/-- AGE_TEST_REACHED (02 R39). -/
def execAgeTestReached (id : Nat) (s : State) : Host.Outcome State Fault Refusal :=
  .next (s.onPart (·.onRunning fun c p => settle c (formAgeTest c id p)))

/-- A level of a jack-home input is accepted; the pin stands at it. -/
def acceptJack (b : Nat) (v : Bool) (p : Part) : Part :=
  { p.withBed b fun x => { x with jack := ⟨v, v, 5⟩ } with pins := { p.pins with jhome := p.pins.jhome.set b v } }

/-- The accepted level of a jack-home input changes (03 R47). -/
def jackChanges (b : Nat) (v : Bool) (c : Settings) (p : Part) : Part :=
  if (p.bed b).jack.level = v then p
  else
    let q := acceptJack b v p
    settle c (if v ∧ (q.bed b).state = .detensioning then enterDetensioned c b q else q)

/-- JACK_HOME_CHANGE (03 R47). -/
def execJackHomeChange (b : Fin 4) (active : Bool) (s : State) : Host.Outcome State Fault Refusal :=
  .next (s.onPart (·.onRunning (onAssigned b (jackChanges b active))))

/-! ### Heaters and flow (05) -/

/-- HEATER_PERIOD_START (05 R83). -/
def execHeaterPeriodStart (b : Fin 4) (s : State) : Host.Outcome State Fault Refusal :=
  .next (s.onPart (·.onRunning (onAssigned b fun _ p => p.withGen b Gen.periodStart)))

/-- HEATER_PULSE_END (05 R83). -/
def execHeaterPulseEnd (b : Fin 4) (s : State) : Host.Outcome State Fault Refusal :=
  .next (s.onPart (·.onRunning (onAssigned b fun c p => p.withGen b (Gen.pulseEnd (c.bed b).period))))

/-- A rising edge of a FLOW input; the pin stands high. It counts also where the last sample read high (log 29). -/
def flowRises (b : Nat) (p : Part) : Part :=
  { p.setFlow b (p.flow b).edge with pins := { p.pins with flow := p.pins.flow.set b true } }

/-- FLOW_RISING_EDGE (05 R86). -/
def execFlowRisingEdge (b : Fin 4) (s : State) : Host.Outcome State Fault Refusal :=
  .next (s.onPart (·.onRunning (onAssigned b fun _ p => flowRises b p)))

/-! ### The emergency input (05 5.6) -/

/-- The filter accepts a level; the pin stands at it (05 R97). -/
def acceptEmergency (v : Bool) (p : Part) : Part :=
  { p with
    out := { p.out with emergency := ⟨some v, some v, if v then p.now else p.out.emergency.since⟩ }
    pins := { p.pins with emgn := v } }

/-- What the blocks do when the emergency becomes active (05 R98, 03 R49, 09 R171). -/
def emergencyBegins (c : Settings) (p : Part) : Part :=
  let q := (p.report (.emergency p.now)).forAssigned c emergencyBed
  settle c (halt .emergency (formDemands c q))

/-- What the blocks do when the emergency ends (05 R98). The seconds it lasted are the difference of station times (log 31). -/
def emergencyEnds (c : Settings) (p : Part) : Part :=
  settle c (formDemands c (p.report (.emergencyEnd p.now (p.now - p.out.emergency.since))))

/-- The accepted level becomes active or inactive; the filter runs from the end of reset (05 R97). -/
def emergencyLevel (v : Bool) (p : Part) : Part :=
  if p.run = .inReset ∨ p.out.emergency.accepted = some v then p
  else
    let q := acceptEmergency v p
    if v then q.onRunning emergencyBegins
    else if p.emergencyActive then q.onRunning emergencyEnds else q

/-- EMERGENCY_ACCEPTED (05 R97, R98). -/
def execEmergencyAccepted (s : State) : Host.Outcome State Fault Refusal := .next (s.onPart (emergencyLevel true))

/-- EMERGENCY_RELEASED (05 R97, R98). -/
def execEmergencyReleased (s : State) : Host.Outcome State Fault Refusal := .next (s.onPart (emergencyLevel false))

/-! ### Runway (06) -/

/-- One sample of the three tracks; the pins stand at it (06 R103, R104). -/
def trackSample (ta tb tc : Bool) (c : Settings) (p : Part) : Part :=
  afterLoss c p
    (sampleTracks c (patternIndex ta tb tc) { p with pins := { p.pins with trkA := ta, trkB := tb, trkC := tc } })

/-- TRACK_STEP (06 R103, R104, R109). -/
def execTrackStep (ta tb tc : Bool) (s : State) : Host.Outcome State Fault Refusal :=
  .next (s.onPart (·.onRunning (trackSample ta tb tc)))

/-- The 201st consecutive uniform sample (06 R104). -/
def trackSticks (c : Settings) (p : Part) : Part :=
  if 201 ≤ p.travel.uniform then p
  else afterLoss c p (sampleTracks c none { p with travel := { p.travel with uniform := 200 } })

/-- TRACK_STUCK (06 R104). -/
def execTrackStuck (s : State) : Host.Outcome State Fault Refusal := .next (s.onPart (·.onRunning trackSticks))

/-- MARK_ENTRY (06 R105). -/
def execMarkEntry (s : State) : Host.Outcome State Fault Refusal :=
  .next (s.onPart (·.onRunning fun _ p => markRises { p with pins := { p.pins with mark := true } }))

/-- MARK_EVENT (06 R105, R107): the exit from a mark. -/
def execMarkEvent (s : State) : Host.Outcome State Fault Refusal :=
  .next (s.onPart (·.onRunning fun c p => afterLoss c p (markFalls c { p with pins := { p.pins with mark := false } })))

/-- MICROSTEP (06 R108). -/
def execMicrostep (s : State) : Host.Outcome State Fault Refusal :=
  .next (s.onPart (·.onRunning fun c p => settle c (microstepDue c p)))

/-- MICROSTEP_STOP (06 R108). -/
def execMicrostepStop (s : State) : Host.Outcome State Fault Refusal :=
  .next (s.onPart (·.onRunning fun c p => settle c (microstepsStop p)))

/-- STANDSTILL (06 R106). -/
def execStandstill (s : State) : Host.Outcome State Fault Refusal :=
  .next (s.onPart (·.onRunning fun c p => settle c (standstillReached p)))

/-- The active edge of the reference switch: in forward travel it references the crane, otherwise it is ignored
(06 R110). The command is an edge also where the last sample stands active (log 29). -/
def referenceEdge (c : Settings) (p : Part) : Part :=
  let q := { p with
    travel := { p.travel with refLast := true }
    pins := { p.pins with refsw := c.refHigh } }
  if p.travel.dir = .forward then settle c (reference c q) else q

/-- REFERENCE_EDGE (06 R110). -/
def execReferenceEdge (s : State) : Host.Outcome State Fault Refusal := .next (s.onPart (·.onRunning referenceEdge))

/-! ### Spans (07) -/

/-- A record's age passes 3000 ms (07 R121). -/
def peerFallsSilent (addr : Nat) (p : Part) : Part :=
  agePeer addr (max 3001 (((peerAt p addr).map (·.age)).getD 0)) p

/-- PEER_SILENT (07 R121). -/
def execPeerSilent (addr : Nat) (s : State) : Host.Outcome State Fault Refusal :=
  .next (s.onPart (·.onRunning fun c p => settle c (peerFallsSilent addr p)))

/-- PEER_RECORD_AGE_INCREASE (07 R121, R132). -/
def execPeerRecordAgeIncrease (s : State) : Host.Outcome State Fault Refusal :=
  .next (s.onPart (·.onRunning fun c p => settle c (agePeers p)))

/-- The span unit's millisecond count stands at a value or beyond it. -/
def Part.reachCount (n : Nat) (p : Part) : Part :=
  { p with clock := { p.clock with ms := max p.clock.ms (p.clock.startMs + n) } }

/-- The deadline of the open claim, if there is one (07 R124). -/
def openDeadline (p : Part) : Option Nat :=
  (claimed p).bind fun k => match (p.spanAt k).role with
    | .claim _ d _ _ => d
    | _ => none

/-- The deadline of an OPEN claim is reached (07 R125). -/
def deadlinePasses (c : Settings) (p : Part) : Part :=
  match openDeadline p with
  | some d => settle c (decideClaim c (p.reachCount d))
  | none => p

/-- CLAIM_DEADLINE (07 R125). -/
def execClaimDeadline (s : State) : Host.Outcome State Fault Refusal := .next (s.onPart (·.onRunning deadlinePasses))

/-- A retry time passes (07 R124). -/
def retryPasses (k : Nat) (c : Settings) (p : Part) : Part :=
  match (p.spanAt k).retry with
  | some r => settle c (p.reachCount r)
  | none => p

/-- RETRY_TIME_PASSED (07 R124). -/
def execRetryTimePassed (k : Fin 32) (s : State) : Host.Outcome State Fault Refusal :=
  .next (s.onPart (·.onRunning (retryPasses k)))

/-- SPAN_NOTICE_INTERVAL (07 R131): a notice is formed whenever the command comes, and the count stands (log 2). -/
def execSpanNoticeInterval (s : State) : Host.Outcome State Fault Refusal :=
  .next (s.onPart (·.onRunning fun c p => settle c (formNotice c p)))

/-! ### Crane lines and timeouts (09) -/

/-- HOOK_LOADED (09 R166, R169). -/
def execHookLoaded (s : State) : Host.Outcome State Fault Refusal :=
  .next (s.onPart (·.onRunning fun c p => craneLevel c .hook true p))

/-- HOOK_UNLOADED (09 R168, R169). -/
def execHookUnloaded (s : State) : Host.Outcome State Fault Refusal :=
  .next (s.onPart (·.onRunning fun c p => craneLevel c .hook false p))

/-- CRANE_READY_CHANGE (09 R159, R164). -/
def execCraneReadyChange (active : Bool) (s : State) : Host.Outcome State Fault Refusal :=
  .next (s.onPart (·.onRunning fun c p => craneLevel c .ready active p))

/-- CRANE_FAULT_CHANGE (09 R159, R171). -/
def execCraneFaultChange (active : Bool) (s : State) : Host.Outcome State Fault Refusal :=
  .next (s.onPart (·.onRunning fun c p => craneLevel c .fault active p))

/-- CRANE_LOCAL_CHANGE (09 R159, R171). -/
def execCraneLocalChange (active : Bool) (s : State) : Host.Outcome State Fault Refusal :=
  .next (s.onPart (·.onRunning fun c p => craneLevel c .locl active p))

/-- CRANE_LINE_FIRST_ACCEPTANCE (09 R159): no event and no report; a line accepted before has no first acceptance. -/
def execCraneLineFirstAcceptance (l : CraneLine) (level : Bool) (s : State) : Host.Outcome State Fault Refusal :=
  .next (s.onPart (·.onRunning fun c p => if (p.moves.crane l).seen then p else settle c (acceptLevel l level p)))

/-- CLAIM_TIMEOUT (09 R170). -/
def execClaimTimeout (s : State) : Host.Outcome State Fault Refusal :=
  .next (s.onPart (·.onRunning fun c p => settle c (testTimeout c .claimTimeout p)))

/-- PICK_TIMEOUT (09 R170). -/
def execPickTimeout (s : State) : Host.Outcome State Fault Refusal :=
  .next (s.onPart (·.onRunning fun c p => settle c (testTimeout c .timeout p)))

end Sys2Proof.Machine
end

