-- ==== Sys2Proof/Machine/Memory.lean ====
section
/-! DEFINITION. Memory port (11 11.3): block contents, the round of writes, failures; and the supply monitor while it asserts no
reset (11 11.5). -/
namespace Sys2Proof.Machine
open Sys2Proof

/-! ### Contents of the record blocks (11 11.3) -/

/-- The present contents of a block. -/
def contents (c : Settings) (p : Part) : Block → Contents
  | .clock => .clock ⟨p.now, p.maturity.ambient, p.travel.lastKnown.map (·, c.lm)⟩
  | .bed b => .bed b.val (p.bed b.val).persisted
  | .channels =>
    .channels ⟨p.maturity.accs, p.maturity.credit, (List.range 22).map fun k => (p.channel k).retired⟩
  | .piece n => .piece n.val ((recordAt p n.val).map Piece.persisted)
  | .stackTable => .stackTable p.pieces.stackTable
  | .moves => .moves ⟨p.moves.queue, p.moves.nextTag⟩

/-- A block is written with a good check. -/
def RecMem.store (m : RecMem) : Contents → RecMem
  | .clock k => { m with clock := some k }
  | .bed b x => { m with beds := m.beds.set b (some x) }
  | .channels x => { m with channels := some x }
  | .piece n x => { m with pieces := m.pieces.set n (some x) }
  | .stackTable l => { m with stackTable := some l }
  | .moves x => { m with moves := some x }

/-- A block is left with a bad check. -/
def RecMem.spoil (m : RecMem) : Block → RecMem
  | .clock => { m with clock := none }
  | .bed b => { m with beds := m.beds.set b.val none }
  | .channels => { m with channels := none }
  | .piece n => { m with pieces := m.pieces.set n.val none }
  | .stackTable => { m with stackTable := none }
  | .moves => { m with moves := none }

/-- What a failed write leaves: the spec does not say (11 R196), so it is a free value (log 9). -/
def RecMem.failed (m : RecMem) (free : Nat) (b : Block) (copy : Contents) : RecMem :=
  match Config.failedWrite free with
  | 0 => m
  | 1 => m.store copy
  | 2 => m.spoil b

/-! ### The round (11 R195, R196) -/

/-- The dirty blocks in the order in which the round, from its present position, comes to them. -/
def MemPort.ahead (u : MemPort) : List Block :=
  (u.dirty.filter fun b => decide (u.round ≤ b.round)) ++ u.dirty.filter fun b => decide (b.round < u.round)

/-- The end of a round clears the fault flag when no write of the round failed (11 R196). -/
def MemPort.endRound (u : MemPort) : MemPort := { u with fault := u.fault && u.roundFailed, roundFailed := false }

/-- The port takes a block: copy, dirty mark cleared, round position moved past it (11 R195). To a block that lies before its
position it comes by the move queue block, so a round has ended (11 R196, log 10). -/
def MemPort.take (u : MemPort) (b : Block) (copy : Contents) : MemPort :=
  { if b.round < u.round then u.endRound else u with
    writing := some ⟨b, copy⟩
    dirty := u.dirty.filter (· != b)
    round := b.round + 1 }

/-- A write is over, whatever became of it. From the move queue block the position then passes to the clock block, and a round
has ended with that write in it (11 R196, log 10). -/
def MemPort.finish (u : MemPort) (b : Block) : MemPort :=
  let u := { u with writing := none }
  if b = .moves then { u.endRound with round := 0 } else u

/-- An idle port begins the next write, unless the supply warning stands (11 R195, R198). -/
def writeBegins (c : Settings) (p : Part) : Part :=
  match p.mem.writing, p.mem.ahead with
  | none, b :: _ => if p.inWarning then p else { p with mem := p.mem.take b (contents c p b) }
  | _, _ => p

/-- A write of the flush fails: it is not retried, and the blocks that keep the fault flag and the reports have stopped
(11 R199). -/
def flushFails (p : Part) : Part :=
  match p.mem.writing with
  | none => p
  | some w =>
    { p with
      mem := { p.mem with writing := none, mem := p.mem.mem.failed p.freeCount w.block w.copy }
      freeCount := p.freeCount + 1 }

/-- In the reset of a RESTART the idle port begins the next write of the flush, which may fail (11 R199; log 23). -/
def flushBegins (p : Part) : Part :=
  match p.mem.writing, p.mem.flush with
  | none, x :: rest =>
    let q := { p with mem := { p.mem with writing := some x.run, flush := rest } }
    if x.fails then flushFails q else q
  | _, _ => p

/-- What the memory port does in a reset, where it works only to flush, and while the station runs. -/
def Part.onPort (flush : Part → Part) (f : Settings → Part → Part) (p : Part) : Part :=
  if p.run = .inReset then flush p else p.onRunning f

/-- BLOCK_WRITE_BEGIN (11 R195, R199). -/
def execBlockWriteBegin (s : State) : Host.Outcome State Fault Refusal :=
  .next (s.onPart (Part.onPort flushBegins writeBegins))

/-- A page is complete; the write succeeds with its last page (11 R195). -/
def pageDone (last : Bool) (p : Part) : Part :=
  match p.mem.writing, last with
  | some w, true => { p with mem := { p.mem with mem := p.mem.mem.store w.copy }.finish w.block }
  | _, _ => p

/-- PAGE_WRITE_DONE (11 R195, R199). -/
def execPageWriteDone (last : Bool) (s : State) : Host.Outcome State Fault Refusal :=
  .next (s.onPart (Part.onPort (pageDone last) fun _ p => pageDone last p))

/-- A page is not done within 10 ms: the write fails (11 R196). -/
def pageFails (p : Part) : Part :=
  match p.mem.writing with
  | none => p
  | some w =>
    let m := { p.mem with
      mem := p.mem.mem.failed p.freeCount w.block w.copy
      roundFailed := true
      fault := true }
    ({ p with mem := m.finish w.block, freeCount := p.freeCount + 1 }.markDirty w.block).reportIf (!p.mem.fault)
      (.memoryFault w.block p.now)

/-- PAGE_WRITE_TIMEOUT (11 R196, R199). -/
def execPageWriteTimeout (s : State) : Host.Outcome State Fault Refusal :=
  .next (s.onPart (Part.onPort flushFails fun _ p => pageFails p))

/-! ### Supply warning (11 R198) -/

/-- What the blocks do when the warning begins (05 R99, 03 R60, 07 R134, 09 R171). -/
def warningBegins (c : Settings) (p : Part) : Part :=
  settle c (halt .emergency (formDemands c (p.report .supplyWarning)))

/-- VDD falls below 2.95 V. A flush completes the write in flight and begins no other (11 R198, R199; log 10). Before
the completion of start no SUPPLY_WARNING is sent (log 48). -/
def supplyFalls (p : Part) : Part :=
  if p.supply.state = .normal then
    { p with
      supply := ⟨.warning, p.now⟩
      pins := { p.pins with vdd := min p.pins.vdd 2949 }
      mem := { p.mem with flush := if p.run = Run.inReset then [] else p.mem.flush } }.onRunning warningBegins
  else p

/-- SUPPLY_WARNING (11 R198). -/
def execSupplyWarning (s : State) : Host.Outcome State Fault Refusal := .next (s.onPart supplyFalls)

/-- What the blocks do when the warning ends (05 R99, 03 R60, 07 R134). The seconds it lasted are the difference of station times
(log 31). -/
def warningEnds (since : Nat) (c : Settings) (p : Part) : Part :=
  settle c (formDemands c (p.report (.supplyOk (p.now - since))))

/-- VDD rises above 3.05 V. Before the completion of start no SUPPLY_OK is sent (log 48). -/
def supplyRises (p : Part) : Part :=
  if p.supply.state = .warning then
    { p with supply := ⟨.normal, p.supply.since⟩, pins := { p.pins with vdd := max p.pins.vdd 3051 } }.onRunning
      (warningEnds p.supply.since)
  else p

/-- SUPPLY_OK (11 R198). -/
def execSupplyOk (s : State) : Host.Outcome State Fault Refusal := .next (s.onPart supplyRises)

end Sys2Proof.Machine
end

