-- ==== Sys2Proof/Machine/Restore.lean ====
section
/-! DEFINITION. The restore (11 R197): blocks as read, lost blocks, and the owners in their order (02 R25, R31, 03 R64, R65,
08 R154, 09 R176). -/
namespace Sys2Proof.Machine
open Sys2Proof

/-- The record memory is read in one read of 32 KiB (11 R197). -/
def recordBytes : Nat := 32768

/-! ### Lost blocks -/

/-- The blocks of the record memory in round order. -/
def allBlocks : List Block :=
  .clock :: (List.finRange 4).map .bed ++ .channels :: (List.finRange 256).map .piece ++ [.stackTable, .moves]

/-- The check of a block fails. -/
def RecMem.isLost (m : RecMem) : Block → Bool
  | .clock => m.clock.isNone
  | .bed b => (m.beds.getD b.val none).isNone
  | .channels => m.channels.isNone
  | .piece n => (m.pieces.getD n.val none).isNone
  | .stackTable => m.stackTable.isNone
  | .moves => m.moves.isNone

/-- The report of one block kind, if it has lost blocks (11 R197). -/
def lostReport (lost : List Block) (kind : Nat) (p : Part) : Part :=
  match lost.filter fun b => (blockKindNumber b).1 == kind with
  | [] => p
  | b :: rest => p.report (.recordLost kind (rest.length + 1) (blockKindNumber b).2)

/-- Every lost block is marked dirty, and each kind is reported (11 R197). -/
def announceLost (lost : List Block) (p : Part) : Part :=
  (List.range 6).foldl (fun q k => lostReport lost k q) (lost.foldl (fun q b => q.markDirty b) p)

/-! ### Blocks as read -/

/-- The last known position, when it was saved under the present mark spacing (06 R111). One that is dropped marks no block
dirty (log 49). -/
def restoredPosition (c : Settings) (k : ClockBlock) : Option Nat :=
  match k.lastKnown with
  | some (q, lm) => if lm = c.lm then some q else none
  | none => none

/-- The bed record of a block as the bed controller takes it: fields that are not kept stand at their start values (03 R41: the
setpoint is Tf; the strength and the release test: log 36). -/
def bedAsRead (c : Settings) (m : RecMem) (b : Nat) : Bed :=
  { ((m.beds.getD b none).getD Bed.reset).persisted with setpoint := (c.bed b).tf }

/-- The piece record of a block as the piece store takes it; a lost block is a free record, and no test is reached (11 R197). -/
def recordAsRead (m : RecMem) (n : Nat) : Option Piece := ((m.pieces.getD n none).getD none).map Piece.persisted

/-- Every owner takes its blocks as written; a lost one as empty (11 R197). -/
def takeBlocks (c : Settings) (m : RecMem) (p : Part) : Part :=
  let k := m.clock.getD ⟨0, ⟨0, 0⟩, none⟩
  let x := m.channels.getD ⟨List.replicate 22 ⟨0, 0⟩, List.replicate 4 0, List.replicate 22 false⟩
  let v := m.moves.getD ⟨[], 1⟩
  { p with
    clock := { p.clock with now := k.now }
    maturity := ⟨x.accs, x.credit, k.ambient⟩
    scan := { p.scan with channels := p.scan.channels.mapIdx fun i ch => { ch with retired := x.retired.getD i false } }
    travel := { p.travel with lastKnown := restoredPosition c k }
    beds := (List.range 4).map (bedAsRead c m)
    pieces := ⟨(List.range 256).map (recordAsRead m), m.stackTable.getD PieceStore.reset.stackTable⟩
    moves := { p.moves with queue := v.queue, nextTag := v.nextTag }
    mem := { p.mem with mem := m, left := 0 } }

/-! ### Maturity (02 R25, R31) -/

/-- The ambient base of a piece is brought into line with A. -/
def capAlift (a : Nat) (x : Piece) : Piece := { x with capture := x.capture.map fun k => { k with alift := min k.alift a } }

/-- Change every record in block order; changed ones are marked dirty. -/
def mapRecords (f : Piece → Piece) (p : Part) : Part :=
  (List.range 256).foldl (fun q n =>
    match recordAt q n with
    | some x => q.setRecord n (some (f x))
    | none => q) p

/-- With the clock block lost, every credit start is 0 (02 R25). -/
def clearCredits (p : Part) : Part :=
  { p with maturity := { p.maturity with credit := List.replicate 4 0 } }.markIf
    (p.maturity.credit != List.replicate 4 0) .channels

/-- Alift never exceeds A after a restore: with the clock block lost A is 0, so every Alift is 0 (02 R25, R31). -/
def restoreMaturity (clockLost : Bool) (p : Part) : Part :=
  let q := if clockLost then clearCredits p else p
  mapRecords (capAlift q.maturity.ambient.m) q

/-! ### Beds (03 R64, R65) -/

/-- The slot list with the present slot count: entries beyond it are dropped, new slots are empty. -/
def resize (n : Nat) (l : List (Option Nat)) : List (Option Nat) := (List.range n).map fun i => l.getD i none

/-- A DETENSIONED bed whose slot list has been emptied enters EMPTY with cause RESTORE (03 R64, R51). -/
def emptiedAtRestore (c : Settings) (b : Nat) (p : Part) : Part :=
  setBedState b .empty .restore (p.withBed b fun x => { x with hold := false, setpoint := (c.bed b).tf })

/-- Slot entries that fail a test, and those beyond the present slot count, are removed; a DETENSIONED bed that this empties
enters EMPTY (03 R64, R65; log 28). -/
def cleanSlots (c : Settings) (keep : Part → Nat → Nat → Nat → Bool) (b : Nat) (p : Part) : Part :=
  let old := (p.bed b).slots
  let new := (resize (c.bed b).picks.length old).mapIdx fun i o => o.filter (keep p b i)
  let q := p.withBed b fun x => { x with slots := new }
  if (p.bed b).state = .detensioned ∧ old.any Option.isSome ∧ new.all Option.isNone then emptiedAtRestore c b q else q

/-- A bed restored as DETENSIONING is taken as CURING, release-ready (03 R64). -/
def settleDetensioning (b : Nat) (p : Part) : Part :=
  if (p.bed b).state = .detensioning then
    setBedState b .curing .restore (p.withBed b fun x => { x with releaseReady := true })
  else p

/-- The restore of one bed (03 R64, R65): an unassigned one is taken as a lost one. -/
def restoreBed (c : Settings) (clockLost : Bool) (b : Nat) (p : Part) : Part :=
  if c.assigned b then
    let q := if clockLost then p.withBed b fun x => { x with stageStart := 0 } else p
    cleanSlots c (fun r _ _ id => (findRecord r id).isSome) b (settleDetensioning b q)
  else p.withBed b fun _ => Bed.reset

/-! ### Reconciliation (08 R154) -/

/-- A record is removed at restore, with its report. -/
def dropRecord (n : Nat) (p : Part) : Part :=
  match recordAt p n with
  | some x => (p.setRecord n none).report (.pieceRemoved x.id x.place)
  | none => p

/-- Records that fail a test are removed, in block order. -/
def dropRecords (bad : Part → Nat → Piece → Bool) (p : Part) : Part :=
  (List.range 256).foldl (fun q n =>
    match recordAt q n with
    | some x => if bad q n x then dropRecord n q else q
    | none => q) p

/-- Step 1: a lower-numbered block carries the same id. -/
def isDuplicate (p : Part) (n : Nat) (x : Piece) : Bool := (findRecord p x.id).any fun k => decide (k < n)

/-- The record stands ON_BED in a slot that holds its id (step 2). -/
def onItsBed (c : Settings) (p : Part) (x : Piece) : Bool :=
  match x.place with
  | .onBed b s => c.assigned b && (p.bed b).slots.getD s none == some x.id
  | _ => true

/-- A slot entry names a record that is ON_BED there (08 R142, log 28). -/
def slotAgrees (p : Part) (b i id : Nat) : Bool := (findPiece p id).any fun x => x.place == .onBed b i

/-- A list entry at a tier names a record IN_STOCK there (step 3). -/
def entryAgrees (p : Part) (lane n tier id : Nat) : Bool :=
  (findPiece p id).any fun x => x.place == .inStock lane n tier

/-- The tiers of the records follow their list (step 3). -/
def retier (lane n : Nat) (l : List Nat) (p : Part) : Part :=
  (l.zipIdx 1).foldl (fun q e => updatePiece e.1 (fun x => { x with place := .inStock lane n e.2 }) q) p

/-- Step 3, entries: those without their record at the tier restored leave the list, and the list closes over them (log 44). -/
def closeStack (lane n : Nat) (p : Part) : Part :=
  let i := stackIndex lane n
  let l := ((p.stackAt i).list.zipIdx 1).filterMap fun e => if entryAgrees p lane n e.2 e.1 then some e.1 else none
  retier lane n l (p.setStackAt i { p.stackAt i with list := l })

/-- Step 3, records: the stack exists and its list holds the record. -/
def inItsStack (c : Settings) (p : Part) (x : Piece) : Bool :=
  match x.place with
  | .inStock lane n _ => (c.stack? lane n).isSome && (p.stackAt (stackIndex lane n)).list.contains x.id
  | _ => true

/-- Step 3, limits: pieces leave the top until count and load are within the limits. -/
def trimStack (g : StackCfg) (i : Nat) : Nat → Part → Part
  | 0, p => p
  | fuel + 1, p =>
    let s := p.stackAt i
    if g.tiers < s.list.length ∨ g.load < loadOf p s.list then
      let q := p.setStackAt i { s with list := s.list.dropLast }
      trimStack g i fuel (match s.list.getLast?.bind (findRecord q) with | some k => dropRecord k q | none => q)
    else p

/-- Lane and number of every stack, in order. -/
def stackNumbers : List (Nat × Nat) := (List.range 8).flatMap fun l => (List.range 12).map fun n => (l, n)

def trimStacks (c : Settings) (p : Part) : Part :=
  stackNumbers.foldl (fun q ln =>
    match c.stack? ln.1 ln.2 with
    | some g => trimStack g (stackIndex ln.1 ln.2) (q.stackAt (stackIndex ln.1 ln.2)).list.length q
    | none => q.setStackAt (stackIndex ln.1 ln.2) { q.stackAt (stackIndex ln.1 ln.2) with list := [] }) p

/-- Steps 1 to 3. -/
def reconcilePlaces (c : Settings) (p : Part) : Part :=
  let p1 := dropRecords isDuplicate p
  let p2 := (dropRecords (fun q _ x => !onItsBed c q x) p1).forAssigned c (cleanSlots c slotAgrees)
  let p3 := stackNumbers.foldl (fun q ln => closeStack ln.1 ln.2 q) p2
  trimStacks c (dropRecords (fun q _ x => !inItsStack c q x) p3)

/-! ### Moves (09 R176) -/

/-- The picked flag a restored move takes from its piece's record, or none when the move is removed (09 R176). -/
def restoredPicked (c : Settings) (p : Part) (m : Move) : Option Bool :=
  match findPiece p m.piece with
  | none => none
  | some x =>
    match m.kind, x.place with
    | .lift, .onBed b s => if (c.bed b).picks[s]? = some m.pick then some false else none
    | .lift, .onHook => some true
    | .lift, .inStock _ _ _ => none
    | .dispatch, .inStock l n _ =>
      let s := p.stackAt (stackIndex l n)
      if s.list.getLast? = some x.id ∧ s.mark.tag? = some m.tag then some false else none
    | .dispatch, .onHook => some true
    | .dispatch, .onBed _ _ => none

/-- A move is removed at restore: its mark is released, and the removal is reported (08 R153, 09 R176). -/
def dropMove (m : Move) (p : Part) : Part :=
  (removeMove m (releaseMark m.tag m.piece p)).report (.moveRemoved m .restore)

/-- Step 4, first part: one move is brought into line with its record. -/
def alignMove (c : Settings) (p : Part) (m : Move) : Part :=
  match restoredPicked c p m with
  | some v => updateMove m.tag (fun x => { x with picked := v }) p
  | none => dropMove m p

/-- A stack exists, and one more piece of a mass fits under its limits (08 R151). -/
def reservationFits (c : Settings) (p : Part) (lane n mass : Nat) : Bool :=
  (c.stack? lane n).any fun g =>
    let l := (p.stackAt (stackIndex lane n)).list
    decide (l.length + 1 ≤ g.tiers) && decide (loadOf p l + mass ≤ g.load)

/-- A mark stands after step 4: its move remains, and a reservation still fits, or a dispatch piece is on top or on the
hook. -/
def markStands (c : Settings) (p : Part) (lane n : Nat) : Bool :=
  let s := p.stackAt (stackIndex lane n)
  match s.mark with
  | .none => true
  | .reservation t id mass =>
    (findMove p t).isSome && (findPiece p id).isSome && reservationFits c p lane n mass
  | .dispatch t id =>
    (findMove p t).isSome &&
      (s.list.getLast? == some id || (findPiece p id).any fun x => x.place == .onHook)

def PendMark.piece? : PendMark → Option Nat
  | .none => Option.none
  | .reservation _ i _ => some i
  | .dispatch _ i => some i

/-- Step 4, second part: a mark that does not stand is released, and the move that carried it is removed, stack by stack (log 7). -/
def settleMark (c : Settings) (p : Part) (ln : Nat × Nat) : Part :=
  if markStands c p ln.1 ln.2 then p
  else
    let k := (p.stackAt (stackIndex ln.1 ln.2)).mark
    let q := releaseMark (k.tag?.getD 0) (k.piece?.getD 0) p
    match k.tag?.bind (findMove q) with
    | some m => (removeMove m q).report (.moveRemoved m .restore)
    | none => q

/-- A LIFT has its reservation; a DISPATCH needs none. -/
def hasReservation (p : Part) (m : Move) : Bool :=
  match m.kind, m.stack with
  | .lift, some (l, n) => match (p.stackAt (stackIndex l n)).mark with
    | .reservation t _ _ => t == m.tag
    | _ => false
  | .lift, none => false
  | .dispatch, _ => true

/-- A remaining LIFT whose reservation was never written, or was lost with the stack block, is kept (09 R176). Its reservation is
made again where its stack has no mark and the piece fits; elsewhere the LIFT stands without one (log 32). -/
def reserveAgain (c : Settings) (p : Part) (m : Move) : Part :=
  if hasReservation p m then p
  else match m.stack, findPiece p m.piece with
    | some (l, n), some x =>
      let i := stackIndex l n
      if (p.stackAt i).mark = .none ∧ reservationFits c p l n x.mass then
        p.setStackAt i { p.stackAt i with mark := .reservation m.tag m.piece x.mass }
      else p
    | _, _ => p

/-- A move becomes HALTED with cause RESTORED. Its halted phase is the phase it was restored in, which of a move restored HALTED is
HALTED (09 R176). -/
def haltRestored (m : Move) (p : Part) : Part :=
  (updateMove m.tag (fun x => { x with phase := .halted, start := none, halt := some (m.phase, .restored) }) p).report
    (.moveHalted m m.phase .restored p.position p.now)

/-- The moves that remain past QUEUED are halted. -/
def haltHeads (p : Part) : Part := (p.moves.queue.filter (·.phase != .queued)).foldl (fun q m => haltRestored m q) p

/-- A QUEUED move whose picked flag has been set is halted when no other move is past QUEUED, and removed otherwise. -/
def settlePicked (p : Part) (m : Move) : Part := if (headMove p).isNone then haltRestored m p else dropMove m p

/-- Step 4 (08 R154, 09 R176). -/
def reconcileMoves (c : Settings) (p : Part) : Part :=
  let p1 := p.moves.queue.foldl (alignMove c) p
  let q := stackNumbers.foldl (settleMark c) p1
  let p2 := haltHeads (q.moves.queue.foldl (reserveAgain c) q)
  (p2.moves.queue.filter fun m => m.phase == .queued && m.picked).foldl settlePicked p2

/-- Step 5: a piece on the hook has its picked move. -/
def onItsHook (p : Part) (x : Piece) : Bool :=
  x.place != .onHook || p.moves.queue.any fun m => m.piece == x.id && m.picked

/-- Step 5: a kept record carries the tag of the remaining move that carries its piece, and no other (08 8.1, 09 R160; log 40). -/
def carrierTag (p : Part) (x : Piece) : Piece := { x with tag := (p.moves.queue.find? (·.piece == x.id)).map (·.tag) }

/-- Step 5 (08 R154). -/
def reconcileHook (p : Part) : Part :=
  let q := dropRecords (fun r _ x => !onItsHook r x) p
  mapRecords (carrierTag q) q

/-- The owners bring their state into line (11 R197). -/
def restore (c : Settings) (lost : List Block) (p : Part) : Part :=
  let clockLost := lost.contains .clock
  let p1 := restoreMaturity clockLost p
  let p2 := p1.forBeds (restoreBed c clockLost)
  reconcileHook (reconcileMoves c (reconcilePlaces c p2))

/-- The record memory has been read; `bad` are blocks whose check fails as read. -/
def recordsRead (bad : List Block) (p : Part) : Part :=
  match p.run, p.config with
  | .readingRecords, some c =>
    let m := bad.foldl RecMem.spoil p.mem.mem
    let lost := allBlocks.filter m.isLost
    { restore c lost (announceLost lost (takeBlocks c m p)) with run := .restored }
  | _, _ => p

/-- RECORD_READ_COMPLETE (11 R197). -/
def execRecordReadComplete (bad : List Block) (s : State) : Host.Outcome State Fault Refusal :=
  .next (s.onPart (recordsRead bad))

end Sys2Proof.Machine
end

