-- ==== Sys2Proof/Machine/Start.lean ====
section
/-! DEFINITION. Resets and the start sequence (11 11.1, R198, R199). -/
namespace Sys2Proof.Machine
open Sys2Proof

/-! ### Resets -/

/-- A write in flight is cut off: its block fails its check at the next restore (11 R198). -/
def cutOff (u : MemPort) : RecMem :=
  match u.writing with
  | some w => u.mem.spoil w.block
  | none => u.mem

/-- VDD falls below 2.70 V, from any state (11 R198). -/
def supplyFails (p : Part) : Part :=
  Part.reset (cutOff p.mem) ⟨.reset, 0⟩ { p.pins with vdd := min p.pins.vdd 2699 } p.freeCount

/-- SUPPLY_RESET (11 R198). -/
def execSupplyReset (s : State) : Host.Outcome State Fault Refusal := .next (s.onPart supplyFails)

/-- Power-on (11 R193). -/
def powersOn (p : Part) : Part := Part.reset (cutOff p.mem) ⟨.reset, 0⟩ p.pins p.freeCount

/-- POWER_ON_RESET (11 R193). -/
def execPowerOnReset (s : State) : Host.Outcome State Fault Refusal := .next (s.onPart powersOn)

/-- What the port writes in the reset of a RESTART: every block dirty at that moment, in round order, with its contents;
nothing while the supply warning stands, and nothing for a station that keeps no records. The writes of `failed` fail at their
turn (11 R199; log 23). -/
def toFlush (failed : List Block) (p : Part) : List FlushWrite :=
  match p.run, p.config with
  | .running, some c => if p.inWarning then [] else p.mem.ahead.map fun b => ⟨⟨b, contents c p b⟩, failed.contains b⟩
  | _, _ => []

/-- The reset of a RESTART that has been taken: the blocks stop, and the port goes on with the write in flight and the flush
(10 R191, 11 R199; log 10). -/
def restarts (failed : List Block) (p : Part) : Part :=
  if p.line.restart.isSome then
    let q := Part.reset p.mem.mem ⟨p.supply.state, 0⟩ p.pins p.freeCount
    { q with mem := { q.mem with writing := p.mem.writing, flush := toFlush failed p } }
  else p

/-- RESTART_RESET (10 R191, 11 R199). -/
def execRestartReset (failed : List Block) (s : State) : Host.Outcome State Fault Refusal :=
  .next (s.onPart (restarts failed))

/-! ### The start sequence (11 R193) -/

/-- The own address of a strapping (10 R192). -/
def ownAddress (adr : Fin 32) : Nat := if adr.val = 0 then 32 else adr.val

/-- Nothing is being written and nothing is left to flush. -/
def MemPort.idle (u : MemPort) : Bool := u.writing.isNone && u.flush.isEmpty

/-- A reset is released, once its flush is over; from a supply reset the state is then WARNING (11 R193, R198, R199). The read
of the image begins (11 R194). -/
def released (adr : Fin 32) (p : Part) : Part :=
  if p.run = .inReset ∧ p.mem.idle then
    let fromSupply := p.supply.state == .reset
    { p with
      run := .readingConfig
      line := { p.line with own := ownAddress adr }
      mem := { p.mem with left := imageBytes }
      supply := if fromSupply then ⟨.warning, 0⟩ else p.supply
      pins := { p.pins with adr := adr, vdd := if fromSupply then max p.pins.vdd 2801 else p.pins.vdd } }
  else p

/-- RESET_RELEASE (11 R193). -/
def execResetRelease (adr : Fin 32) (s : State) : Host.Outcome State Fault Refusal := .next (s.onPart (released adr))

/-- The image has been read: a configured station goes on to its records, an unconfigured one does not, and sends no report
(11 R193, R194). -/
def imageRead (img : Image) (p : Part) : Part :=
  if p.run = .readingConfig then
    match readImage p.line.own img with
    | some c => { p with config := some c, run := .readingRecords, mem := { p.mem with left := recordBytes } }
    | none =>
      { p with
        config := none
        run := .restored
        line := { p.line with reports := [], dropped := 0 }
        mem := { p.mem with left := 0 } }
  else p

/-- CONFIGURATION_READ_COMPLETE (11 R194). -/
def execConfigurationReadComplete (img : Image) (s : State) : Host.Outcome State Fault Refusal :=
  .next (s.onPart (imageRead img))

/-- What stands at the completion of start acts from that moment: an active emergency (05 R97), the supply warning (11 R198),
CLASH (10 R185). -/
def standingConditions (c : Settings) (p : Part) : Part :=
  let p1 := if p.emergencyActive then emergencyBegins c p else p
  let p2 := if p.inWarning then warningBegins c { p1 with supply := ⟨.warning, p1.now⟩ } else p1
  if p.inClash then enterClash c p2 else p2

/-- The counters and fields that a configured start sets (01 R2, R3, 04 R71, 05 R83, R89, R97, 07 R119). -/
def startFields (p : Part) : Part :=
  { p with
    clock := { p.clock with startMs := p.clock.ms, msPhase := 0 }
    heat := { p.heat with listening := 2 }
    out := { p.out with emergency := { p.out.emergency with since := p.now } }
    scan := { p.scan with run := some ⟨true, p.now, [], 0⟩ } }

/-- The completion of a configured start (11 R193): computations, release tests and stages (02 R40, 03 R54, R55), unknown position
(06 R118), span unit (07 R139), what stands, and a SPAN notice (07 R131). -/
def startConfigured (c : Settings) (p : Part) : Part :=
  let p1 := (maturityAtStart c (startFields p)).forAssigned c fun b q => evaluateStage c b (evaluateRelease b q)
  let p2 := spansAtStart c (travelAtStart c p1)
  settle c (formNotice c (standingConditions c p2))

/-- The completion of start, once the restore has ended and the emergency filter holds a level; before that it is not reached
(11 R193, 05 R97). -/
def startCompletes (p : Part) : Part :=
  if p.run = .restored ∧ p.out.emergency.accepted.isSome then { p with run := .running }.onRunning startConfigured else p

/-- START_COMPLETE (11 R193). -/
def execStartComplete (s : State) : Host.Outcome State Fault Refusal := .next (s.onPart startCompletes)

end Sys2Proof.Machine
end

