-- ==== Sys2Proof/Machine/Dispatch.lean ====
section
/-! DEFINITION. The meaning of each command: one direct call per constructor. -/
namespace Sys2Proof.Machine
open Sys2Proof

def exec (i : Instr) (s : State) : Host.Outcome State Fault Refusal :=
  match i with
  | .castStart src tag params => Sys2Proof.Machine.execCastStart src tag params s
  | .castEnd src tag params => Sys2Proof.Machine.execCastEnd src tag params s
  | .detension src tag params => Sys2Proof.Machine.execDetension src tag params s
  | .holdBed src tag params => Sys2Proof.Machine.execHoldBed src tag params s
  | .holdPiece src tag params => Sys2Proof.Machine.execHoldPiece src tag params s
  | .retire src tag params => Sys2Proof.Machine.execRetire src tag params s
  | .clearBed src tag params => Sys2Proof.Machine.execClearBed src tag params s
  | .lift src tag params => Sys2Proof.Machine.execLift src tag params s
  | .ship src tag params => Sys2Proof.Machine.execShip src tag params s
  | .cancel src tag params => Sys2Proof.Machine.execCancel src tag params s
  | .resume src tag params => Sys2Proof.Machine.execResume src tag params s
  | .aux src tag params => Sys2Proof.Machine.execAux src tag params s
  | .spanFree src tag params => Sys2Proof.Machine.execSpanFree src tag params s
  | .clearFault src tag params => Sys2Proof.Machine.execClearFault src tag params s
  | .queryHeatState src tag params => Sys2Proof.Machine.execQueryHeatState src tag params s
  | .queryOutputState src tag params => Sys2Proof.Machine.execQueryOutputState src tag params s
  | .queryRunwayPosition src tag params => Sys2Proof.Machine.execQueryRunwayPosition src tag params s
  | .querySpans src tag params => Sys2Proof.Machine.execQuerySpans src tag params s
  | .queryCranes src tag params => Sys2Proof.Machine.execQueryCranes src tag params s
  | .queryPiece src tag params => Sys2Proof.Machine.execQueryPiece src tag params s
  | .queryBed src tag params => Sys2Proof.Machine.execQueryBed src tag params s
  | .querySlots src tag params => Sys2Proof.Machine.execQuerySlots src tag params s
  | .queryChannel src tag params => Sys2Proof.Machine.execQueryChannel src tag params s
  | .queryStack src tag params => Sys2Proof.Machine.execQueryStack src tag params s
  | .queryRegister src tag params => Sys2Proof.Machine.execQueryRegister src tag params s
  | .queryMoves src tag params => Sys2Proof.Machine.execQueryMoves src tag params s
  | .queryLineState src tag params => Sys2Proof.Machine.execQueryLineState src tag params s
  | .restart src tag params => Sys2Proof.Machine.execRestart src tag params s
  | .restartReset failed => Sys2Proof.Machine.execRestartReset failed s
  | .secondEvent => Sys2Proof.Machine.execSecondEvent s
  | .sampleIntervalBoundary => Sys2Proof.Machine.execSampleIntervalBoundary s
  | .heatPeriodBoundary => Sys2Proof.Machine.execHeatPeriodBoundary s
  | .scanCompletion ref1 ref2 codes => Sys2Proof.Machine.execScanCompletion ref1 ref2 codes s
  | .stageTransition b => Sys2Proof.Machine.execStageTransition b s
  | .blindHoldExpiry b => Sys2Proof.Machine.execBlindHoldExpiry b s
  | .ageTestReached id => Sys2Proof.Machine.execAgeTestReached id s
  | .jackHomeChange b active => Sys2Proof.Machine.execJackHomeChange b active s
  | .heaterPeriodStart b => Sys2Proof.Machine.execHeaterPeriodStart b s
  | .emergencyAccepted => Sys2Proof.Machine.execEmergencyAccepted s
  | .emergencyReleased => Sys2Proof.Machine.execEmergencyReleased s
  | .trackStep a b c => Sys2Proof.Machine.execTrackStep a b c s
  | .trackStuck => Sys2Proof.Machine.execTrackStuck s
  | .markEntry => Sys2Proof.Machine.execMarkEntry s
  | .markEvent => Sys2Proof.Machine.execMarkEvent s
  | .microstep => Sys2Proof.Machine.execMicrostep s
  | .microstepStop => Sys2Proof.Machine.execMicrostepStop s
  | .standstill => Sys2Proof.Machine.execStandstill s
  | .referenceEdge => Sys2Proof.Machine.execReferenceEdge s
  | .heatNoticeReceived src target payload => Sys2Proof.Machine.execHeatNoticeReceived src target payload s
  | .spanNoticeReceived src target payload => Sys2Proof.Machine.execSpanNoticeReceived src target payload s
  | .peerSilent addr => Sys2Proof.Machine.execPeerSilent addr s
  | .otherFrameReceived kind src target payload => Sys2Proof.Machine.execOtherFrameReceived kind src target payload s
  | .frameDiscarded bytes framing => Sys2Proof.Machine.execFrameDiscarded bytes framing s
  | .clashFrame kind target payload => Sys2Proof.Machine.execClashFrame kind target payload s
  | .clashEnd => Sys2Proof.Machine.execClashEnd s
  | .transmitOffer => Sys2Proof.Machine.execTransmitOffer s
  | .arbitrationLost => Sys2Proof.Machine.execArbitrationLost s
  | .bitError => Sys2Proof.Machine.execBitError s
  | .transmissionComplete => Sys2Proof.Machine.execTransmissionComplete s
  | .lineStuck => Sys2Proof.Machine.execLineStuck s
  | .lineOk => Sys2Proof.Machine.execLineOk s
  | .claimDeadline => Sys2Proof.Machine.execClaimDeadline s
  | .retryTimePassed span => Sys2Proof.Machine.execRetryTimePassed span s
  | .spanNoticeInterval => Sys2Proof.Machine.execSpanNoticeInterval s
  | .hookLoaded => Sys2Proof.Machine.execHookLoaded s
  | .hookUnloaded => Sys2Proof.Machine.execHookUnloaded s
  | .craneReadyChange active => Sys2Proof.Machine.execCraneReadyChange active s
  | .craneFaultChange active => Sys2Proof.Machine.execCraneFaultChange active s
  | .craneLocalChange active => Sys2Proof.Machine.execCraneLocalChange active s
  | .claimTimeout => Sys2Proof.Machine.execClaimTimeout s
  | .pickTimeout => Sys2Proof.Machine.execPickTimeout s
  | .blockWriteBegin => Sys2Proof.Machine.execBlockWriteBegin s
  | .pageWriteDone last => Sys2Proof.Machine.execPageWriteDone last s
  | .pageWriteTimeout => Sys2Proof.Machine.execPageWriteTimeout s
  | .supplyWarning => Sys2Proof.Machine.execSupplyWarning s
  | .supplyOk => Sys2Proof.Machine.execSupplyOk s
  | .supplyReset => Sys2Proof.Machine.execSupplyReset s
  | .powerOnReset => Sys2Proof.Machine.execPowerOnReset s
  | .resetRelease adr => Sys2Proof.Machine.execResetRelease adr s
  | .configurationReadComplete img => Sys2Proof.Machine.execConfigurationReadComplete img s
  | .recordReadComplete lost => Sys2Proof.Machine.execRecordReadComplete lost s
  | .startComplete => Sys2Proof.Machine.execStartComplete s
  | .heaterPulseEnd b => Sys2Proof.Machine.execHeaterPulseEnd b s
  | .flowRisingEdge b => Sys2Proof.Machine.execFlowRisingEdge b s
  | .peerRecordAgeIncrease => Sys2Proof.Machine.execPeerRecordAgeIncrease s
  | .craneLineFirstAcceptance line level => Sys2Proof.Machine.execCraneLineFirstAcceptance line level s
  | .lineIdle => Sys2Proof.Machine.execLineIdle s

end Sys2Proof.Machine
end

