-- ==== Sys2Proof/Machine/Tick.lean ====
section
/-! DEFINITION. One tick of the 100 µs time base (01 1.1), taken on an empty queue (log 3): the counters advance, the pins are
sampled, and the events that fall due become the commands that come next. -/
namespace Sys2Proof.Machine
open Sys2Proof

/-- This tick ends a millisecond, or 10 ms. -/
def Clock.endsMs (k : Clock) : Bool := (k.tick + 1) % 10 == 0
def Clock.endsTen (k : Clock) : Bool := decide (99 ≤ k.tick)

/-- The millisecond counters; the phase within the second waits at 999 for its second event (01 R1). -/
def stepMs (p : Part) : Part :=
  if p.clock.endsMs then
    { p with clock := { p.clock with ms := p.clock.ms + 1, msPhase := min 999 (p.clock.msPhase + 1) } }
  else p

/-! ### Supply and start sequence (11 R193, R198) -/

/-- The release of a reset, once its flush is over. -/
def dueRelease (p : Part) : List Instr :=
  if p.run = .inReset ∧ p.mem.idle then [.resetRelease p.pins.adr] else []

/-- Threshold crossings of VDD, and the release of a reset. -/
def dueSupply (p : Part) : List Instr :=
  match p.supply.state with
  | .normal =>
    if p.pins.vdd < 2700 then [.supplyReset] else if p.pins.vdd < 2950 then [.supplyWarning] else dueRelease p
  | .warning =>
    if p.pins.vdd < 2700 then [.supplyReset] else if 3050 < p.pins.vdd then [.supplyOk] else dueRelease p
  | .reset => if 2800 < p.pins.vdd then dueRelease p else []

/-- The idle port has a block of the flush to write (11 R199). -/
def dueFlush (p : Part) : List Instr :=
  if p.mem.writing.isNone && !p.mem.flush.isEmpty then [.blockWriteBegin] else []

/-- The byte count of a read falls by one at each byte time: 25 in a tick, at the port's clock of 2 MHz (11 R193, R194). -/
def stepRead (p : Part) : Part := { p with mem := { p.mem with left := p.mem.left - 25 } }

/-- The record memory has been read when the count reaches 0, and start completes once the emergency filter holds a level. -/
def dueStart (p : Part) : List Instr :=
  match p.run with
  | .readingRecords => if p.mem.left ≤ 25 then [.recordReadComplete []] else []
  | .restored => if p.out.emergency.accepted.isSome then [.startComplete] else []
  | _ => []

/-! ### Line interface (10 R186, R191) -/

/-- The clash end, and the reset of a RESTART, at the count of milliseconds that this tick brings. -/
def dueLine (p : Part) : List Instr :=
  let ms := (stepMs p).clock.ms
  (match p.line.clash with | some k => if k.endMs ≤ ms then [.clashEnd] else [] | none => [])
    ++ (match p.line.restart with
      | some r => if r.ended ∨ r.takenMs + 50 ≤ ms then [.restartReset []] else []
      | none => [])

/-! ### Filters -/

/-- One 10 ms sample of a 50 ms filter: 5 equal samples make a level stable (03 R47, 09 R159; log 35). -/
def Filter.sample (v : Bool) (f : Filter) : Filter :=
  if v = f.last then { f with count := min 5 (f.count + 1) } else { f with last := v, count := 1 }

/-- The level this sample makes stable, if it does. -/
def Filter.stable (v : Bool) (f : Filter) : Bool := (f.sample v).count == 5

/-- The emergency filter: two consecutive equal samples that differ from the accepted level (05 R97). -/
def dueEmergency (p : Part) : List Instr :=
  let e := p.out.emergency
  let v := p.pins.emgn
  if p.clock.endsTen && e.last == some v && e.accepted != some v then
    [if v then .emergencyAccepted else .emergencyReleased]
  else []

def sampleEmergency (p : Part) : Part :=
  if p.clock.endsTen then
    { p with out := { p.out with emergency := { p.out.emergency with last := some p.pins.emgn } } }
  else p

/-- The event of a crane line that becomes stable at a level (09 R159). -/
def craneEvent : CraneLine → Bool → Instr
  | .hook, true => .hookLoaded
  | .hook, false => .hookUnloaded
  | .ready, v => .craneReadyChange v
  | .fault, v => .craneFaultChange v
  | .locl, v => .craneLocalChange v

def Pins.crane (q : Pins) : CraneLine → Bool
  | .hook => q.hook | .ready => q.crdy | .fault => q.cflt | .locl => q.cloc

def dueCrane (p : Part) (l : CraneLine) : List Instr :=
  let x := p.moves.crane l
  let v := p.pins.crane l
  if x.filter.stable v then
    if !x.seen then [.craneLineFirstAcceptance l v] else if x.filter.level != v then [craneEvent l v] else []
  else []

def craneLines : List CraneLine := [.hook, .ready, .fault, .locl]

def sampleCrane (p : Part) (l : CraneLine) : Part :=
  let x := p.moves.crane l
  { p with moves := p.moves.setCrane l { x with filter := x.filter.sample (p.pins.crane l) } }

/-- JHOME is sampled while the station runs, from the completion of start on (03 R47; log 35). -/
def dueJack (c : Settings) (p : Part) (b : Fin 4) : List Instr :=
  let f := (p.bed b).jack
  let v := p.pins.jhome.getD b false
  if c.assigned b && f.stable v && f.level != v then [.jackHomeChange b v] else []

def sampleJack (c : Settings) (p : Part) (b : Fin 4) : Part :=
  if c.assigned b then p.withBed b fun x => { x with jack := x.jack.sample (p.pins.jhome.getD b false) } else p

def fourBeds : List (Fin 4) := [0, 1, 2, 3]

/-! ### Heaters (05 R83) -/

/-- The phase count would reach the period, or reach the on-time with the request active. -/
def dueGen (c : Settings) (p : Part) (b : Fin 4) : List Instr :=
  let g := p.gen b
  if !c.assigned b then []
  else if (c.bed b).period ≤ g.phase + 1 then [.heaterPeriodStart b]
  else if g.request && g.phase + 1 == g.onTime then [.heaterPulseEnd b]
  else []

def stepGen (c : Settings) (p : Part) (b : Fin 4) : Part :=
  if c.assigned b && (dueGen c p b).isEmpty then p.withGen b fun g => { g with phase := g.phase + 1 } else p

/-! ### Flow inputs (05 R86) -/

def dueFlow (c : Settings) (p : Part) (b : Fin 4) : List Instr :=
  if c.assigned b && p.pins.flow.getD b false && !(p.flow b).last then [.flowRisingEdge b] else []

def sampleFlow (c : Settings) (p : Part) (b : Fin 4) : Part :=
  if c.assigned b && !p.pins.flow.getD b false then p.setFlow b { p.flow b with last := false } else p

/-! ### Runway inputs (06) -/

/-- The tracks (06 R103): a change of the pattern held, or the 201st uniform sample. -/
def dueTracks (p : Part) : List Instr :=
  let t := p.travel
  match patternIndex p.pins.trkA p.pins.trkB p.pins.trkC with
  | none => if t.uniform = 200 then [.trackStuck] else []
  | some i => if t.index = some i ∧ t.uniform < 201 then [] else [.trackStep p.pins.trkA p.pins.trkB p.pins.trkC]

/-- MARK and REFSW (06 R105, R110). -/
def dueMark (p : Part) : List Instr :=
  match p.pins.mark, p.travel.mark with
  | true, .out => [.markEntry]
  | true, _ => []
  | false, .out => []
  | false, _ => [.markEvent]

def dueReference (c : Settings) (p : Part) : List Instr :=
  if p.pins.refsw == c.refHigh && !p.travel.refLast then [.referenceEdge] else []

/-- Mark period counter and microstep timer (06 R106, R108). -/
def dueTravel (p : Part) : List Instr :=
  let t := p.travel
  (if t.counter = 20000 then [.standstill] else [])
    ++ (match t.pprev with
      | some d =>
        (if t.stepping && decide (spacing d ≤ t.timer + 1) then [.microstep] else [])
          ++ if t.counter = 4 * d then [.microstepStop] else []
      | none => [])

/-- The counters of the interpolator after a tick without an event of theirs. -/
def stepTravel (c : Settings) (p : Part) : Part :=
  let t := p.travel
  let uniform := match patternIndex p.pins.trkA p.pins.trkB p.pins.trkC with
    | none => if t.uniform = 200 then 200 else sat 201 (t.uniform + 1)
    | some _ => if t.uniform < 201 then 0 else t.uniform
  { p with travel := { t with
    uniform := uniform
    counter := if t.counter < 20000 then t.counter + 1 else t.counter
    timer := t.timer + 1
    refLast := t.refLast && p.pins.refsw == c.refHigh } }

/-! ### The scan in flight (01 R4): one tick is 5 units of 20 µs, one conversion 6 -/

/-- The code of the conversion with a number in the scan. -/
def conversion (c : Settings) (p : Part) (i : Nat) : Code :=
  match i with
  | 0 => p.pins.aref
  | k + 1 => match (channelsInUse c)[k]? with
    | some ch => p.pins.ain.getD ch 0
    | none => p.pins.aref

/-- The conversions of a scan: ref1, the channels in use, ref2. -/
def conversions (c : Settings) : Nat := (channelsInUse c).length + 2

/-- The scan in flight after one more tick. -/
def ScanRun.tick (c : Settings) (p : Part) (r : ScanRun) : ScanRun :=
  let done := min (conversions c) ((r.time + 5) / 6)
  { r with
    time := r.time + 5
    codes := if r.codes.length < done then r.codes ++ [conversion c p r.codes.length] else r.codes }

def stepScan (c : Settings) (p : Part) : Part := { p with scan := { p.scan with run := p.scan.run.map (·.tick c p) } }

/-- The codes of a finished scan by channel: 0 for a channel not in use. -/
def codesByChannel (c : Settings) (codes : List Code) : List Code :=
  (List.range 23).map fun ch => match (channelsInUse c).findIdx? (· == ch) with
    | some k => codes.getD (k + 1) 0
    | none => 0

/-- The scan is complete at the tick that ends its last conversion. -/
def dueScan (c : Settings) (p : Part) : List Instr :=
  match p.scan.run.map (·.tick c p) with
  | none => []
  | some r =>
    if r.codes.length = conversions c then
      [.scanCompletion (r.codes.headD 0) (r.codes.getLastD 0) (codesByChannel c r.codes)]
    else []

/-! ### Milliseconds (01 R1, 07 R121..R131) -/

def dueMs (p : Part) : List Instr :=
  let n := p.msCount + 1
  (if p.clock.msPhase + 1 < 1000 then [] else [.secondEvent])
    ++ (if p.span.peers.isEmpty then [] else [.peerRecordAgeIncrease])
    ++ (match openDeadline p with | some d => if d ≤ n then [.claimDeadline] else [] | none => [])
    ++ ((List.finRange 32).filter fun (k : Fin 32) => (p.spanAt k.val).retry == some n).map Instr.retryTimePassed
    ++ (if p.span.formed + noticeInterval p ≤ n then [.spanNoticeInterval] else [])

/-! ### The tick -/

/-- Boundaries that a second event has delivered (01 R2). -/
def dueBoundaries (p : Part) : List Instr :=
  (if p.clock.sampleDue then [.sampleIntervalBoundary] else []) ++ if p.clock.heatDue then [.heatPeriodBoundary] else []

/-- An idle memory port with dirty blocks and no supply warning (11 R195). -/
def dueWrite (p : Part) : List Instr :=
  if p.mem.writing.isNone && !p.mem.dirty.isEmpty && !p.inWarning then [.blockWriteBegin] else []

/-- The counters that reach a value at this tick, before anything else that falls due can restart or hold them: microsteps and
standstill (06 R106, R108), heater phases (05 R83). -/
def dueCounters (c : Settings) (p : Part) : List Instr :=
  dueTravel p ++ if p.clock.endsTen then fourBeds.flatMap (dueGen c p) else []

/-- The other events of a running station that fall due at this tick. -/
def dueRunning (c : Settings) (p : Part) : List Instr :=
  dueBoundaries p ++ dueTracks p ++ dueMark p ++ dueReference c p ++ fourBeds.flatMap (dueFlow c p)
    ++ dueScan c p ++ (if p.clock.endsMs then dueMs p else [])
    ++ (if p.clock.endsTen then fourBeds.flatMap (dueJack c p) ++ craneLines.flatMap (dueCrane p) else [])
    ++ dueWrite p

/-- The counters and samples of a running station at this tick. -/
def stepRunning (c : Settings) (p : Part) : Part :=
  let q := stepScan c (fourBeds.foldl (sampleFlow c) (stepTravel c p))
  if p.clock.endsTen then craneLines.foldl sampleCrane (fourBeds.foldl (sampleJack c) (fourBeds.foldl (stepGen c) q)) else q

/-- Events of a running, configured station. -/
def Part.whenRunning (p : Part) (f : Settings → Part → List Instr) : List Instr :=
  match p.run, p.config with
  | .running, some c => f c p
  | _, _ => []

/-- Every event that falls due at this tick. -/
def dueNow (p : Part) : List Instr :=
  if p.run = .inReset then dueSupply p ++ dueFlush p
  else
    p.whenRunning dueCounters ++ dueSupply p ++ dueStart p ++ dueLine p ++ dueEmergency p ++ p.whenRunning dueRunning

/-- The part after a tick: in a reset every block stands still (11 R198). -/
def tickPart (p : Part) : Part :=
  if p.run = .inReset then p
  else
    let q := stepMs (sampleEmergency (stepRead (p.onRunning stepRunning)))
    { q with clock := { q.clock with tick := if 99 ≤ p.clock.tick then 0 else p.clock.tick + 1 } }

/-- One tick of the works clock on an empty queue. -/
def tick (s : State) : State := { part := tickPart s.part, pending := dueNow s.part }

end Sys2Proof.Machine
end

