-- ==== Sys2Proof/Machine/Step.lean ====
section
/-! DEFINITION. One step: the command at the front of the queue, or a tick of the time base on an empty queue. -/
namespace Sys2Proof.Machine
open Sys2Proof

/-- One step: run the command at the front on the queue's rest; with nothing waiting the block is idle but for its time bases
(log 3). -/
def step (s : State) : Host.Outcome State Fault Refusal :=
  match s.pending with
  | [] => .next (tick s)
  | c :: rest => exec c { s with pending := rest }

/-- `s` with the command that a word spells put at the front of its queue; a word that spells none leaves `s` as it is. -/
def State.withFetchWord (s : State) (nbits w : Nat) : State :=
  match decodeTableWord nbits w with
  | some c => { s with pending := c :: s.pending }
  | none => s

end Sys2Proof.Machine
end

