-- ==== Sys2Proof/Safety.lean ====
section
/-! DEFINITION. The words the statements are written in: outcomes, frames, hypotheses, and the invariants of the part. -/
namespace Sys2Proof.Machine
open Sys2Proof

/-! ### Outcomes -/

/-- The command answers a next state, with the waiting commands as they were and a part that meets `post`. -/
def Completes (i : Instr) (s : State) (post : Part → Prop) : Prop :=
  ∃ q, exec i s = .next { s with part := q } ∧ post q

/-- The station runs with settings `c`. -/
def Part.runs (p : Part) (c : Settings) : Prop := p.run = .running ∧ p.config = some c

/-! ### Frames -/

/-- Of the line interface, nothing changed but its transmit places: slots, queues, what the transmitter holds, the dropped
count. -/
def LineUnit.keeps (l m : LineUnit) : Prop :=
  m = { l with heatSlot := m.heatSlot, spanSlot := m.spanSlot, answers := m.answers, reports := m.reports, tx := m.tx,
               dropped := m.dropped }

/-- Of the memory port, nothing changed but dirty marks. -/
def MemPort.keeps (u v : MemPort) : Prop := v = { u with dirty := v.dirty }

/-- Nothing changed but the span unit, the piece store, the move controller, transmit places and dirty marks. -/
def craneFrame (p q : Part) : Prop :=
  q = { p with span := q.span, pieces := q.pieces, moves := q.moves, line := q.line, mem := q.mem }
    ∧ p.line.keeps q.line ∧ p.mem.keeps q.mem

/-- Nothing changed but the bed records, the heat share unit, the output matrix, transmit places and dirty marks. -/
def heatFrame (p q : Part) : Prop :=
  q = { p with beds := q.beds, heat := q.heat, out := q.out, line := q.line, mem := q.mem }
    ∧ p.line.keeps q.line ∧ p.mem.keeps q.mem

/-- Nothing changed but bed records and what `craneFrame` and `heatFrame` name together. -/
def plantFrame (p q : Part) : Prop :=
  q = { p with beds := q.beds, heat := q.heat, out := q.out, span := q.span, pieces := q.pieces, moves := q.moves,
               line := q.line, mem := q.mem }
    ∧ p.line.keeps q.line ∧ p.mem.keeps q.mem

/-! ### Hypotheses -/

/-- The tables of the part have the sizes the spec gives them: 4 beds, 23 channels, 22 accumulators, 8 AUX lines, 256
records, 96 stacks. -/
def Part.shaped (p : Part) : Prop :=
  p.beds.length = 4 ∧ p.scan.beds.length = 4 ∧ p.scan.channels.length = 23 ∧ p.maturity.accs.length = 22
    ∧ p.maturity.credit.length = 4 ∧ p.out.gens.length = 4 ∧ p.out.flows.length = 4 ∧ p.out.aux.length = 8
    ∧ p.pieces.register.length = 256 ∧ p.pieces.stackTable.length = 96

/-- The record memory has 4 bed blocks and 256 piece blocks, and what its other blocks hold has the part's sizes. -/
def RecMem.shaped (m : RecMem) : Prop :=
  m.beds.length = 4 ∧ m.pieces.length = 256
    ∧ (∀ x, m.channels = some x → x.accs.length = 22 ∧ x.credit.length = 4) ∧ (∀ l, m.stackTable = some l → l.length = 96)

def Contents.shaped : Contents → Prop
  | .channels x => x.accs.length = 22 ∧ x.credit.length = 4
  | .stackTable l => l.length = 96
  | _ => True

/-- The part, the record memory, the write in flight and the writes of a flush have their sizes. -/
def ShapeInv (p : Part) : Prop :=
  p.shaped ∧ p.mem.mem.shaped ∧ (∀ w, p.mem.writing = some w → w.copy.shaped) ∧ ∀ x ∈ p.mem.flush, x.run.copy.shaped

/-- A running, configured station takes an order from `src` and has room for its answer (10 R178, R183, R186, R188, R191). -/
structure TakesOrders (p : Part) (c : Settings) (src : Byte) : Prop where
  running : p.run = .running
  configured : p.config = some c
  receiving : p.line.waitIdle = false
  free : p.line.stuck = none
  foreign : src.toNat ≠ p.line.own
  noClash : p.line.clash = none
  noRestart : p.line.restart = none
  room : p.line.answers.length < 4

/-- The part after a valid frame of another sender has been counted and heard (10 R183, 04 R68). -/
def heard (p : Part) : Part :=
  { p with
    line := { p.line with counters := p.line.counters.addValid }
    heat := { p.heat with heard := true } }

/-- The answer of an order: it stands last in the answer queue. -/
def Answered (q : Part) (src tag : Byte) (r : Result) (data : List Value) : Prop :=
  q.line.answers.getLast? = some ⟨tag, src, r, data, false⟩

/-- An order is answered with `r` and no data, and nothing changes but the answer queue. A report in contention has left its
queue by then (log 11). -/
def AnsweredOnly (p q : Part) (src tag : Byte) (r : Result) : Prop :=
  Answered q src tag r [] ∧ q = { p with line := q.line } ∧ p.line.keeps q.line
    ∧ q.line.reports = p.line.takeOffered.reports

/-- A query is answered DONE with data that begins with `vs`, and changes nothing but the answer queue. A report in contention has
left its queue by then (log 11). -/
def Tells (p q : Part) (src tag : Byte) (vs : List Value) : Prop :=
  (∃ d, Answered q src tag .done (vs ++ d)) ∧ q = { p with line := q.line } ∧ p.line.keeps q.line
    ∧ q.line.reports = p.line.takeOffered.reports

/-! ### Reports sent -/

/-- The reports that wait in the queue. One in contention has left it (log 11). -/
def Part.waiting (p : Part) : List Report := p.line.takeOffered.reports

/-- What a report queue keeps of a list: its last eight (10 R189). -/
def lastEight (l : List Report) : List Report := l.drop (l.length - 8)

/-- The blocks have sent the reports `rs`, in that order, and no others. -/
def Sends (p q : Part) (rs : List Report) : Prop := q.waiting = lastEight (p.waiting ++ rs)

/-- The blocks have sent the reports `rs`, in that order, and after them SHIPPABLE reports alone: those of pieces that had become
ship-ready (08 R148; log 15). -/
def SendsFirst (p q : Part) (rs : List Report) : Prop :=
  ∃ more : List Report, (∀ r ∈ more, r.kind = .shippable) ∧ Sends p q (rs ++ more)

/-- The SPAN_CONFLICT reports of the new HELD and OCCUPIED entries of a notice from `addr`, in turn (07 R122, R128). An entry is a
double hold while its span is held: not once the span is `lost` to an earlier entry, nor where its release was due and an earlier
double hold has formed a notice (07 R127). -/
def conflictReports (p : Part) (addr : Nat) : Bool → List Nat → List Entry → List Report
  | _, _, [] => []
  | formed, lost, e :: es =>
    match (p.spanAt e.span).role with
    | .held own =>
      if e.span ∈ lost ∨ (formed = true ∧ (releaseDue p).spanAt e.span ≠ p.spanAt e.span) then
        conflictReports p addr formed lost es
      else
        let yields := e.kind == .occupied || (!(p.spanAt e.span).occupied && !own.better e.rank)
        Report.spanConflict e.span addr e.kind e.rank own yields p.now
          :: conflictReports p addr true (if yields then e.span :: lost else lost) es
    | _ => conflictReports p addr formed lost es

/-- Records as read that need no reconciliation: every record has the place it names, every entry and mark has its record and its
move, every limit is kept, and every move stands as the table of 09 R176 would leave it (03 R64, R65, 08 R154). -/
structure Coherent (c : Settings) (p : Part) : Prop where
  ids : ∀ n x, recordAt p n = some x → findRecord p x.id = some n
  onBeds : ∀ n x, recordAt p n = some x → onItsBed c p x = true
  slotCount : ∀ b < 4, c.assigned b = true → (p.bed b).slots.length = (c.bed b).picks.length
  slots : ∀ b < 4, c.assigned b = true → ∀ i id, (p.bed b).slots.getD i none = some id → slotAgrees p b i id = true
  stacked : ∀ n x, recordAt p n = some x → inItsStack c p x = true
  entries : ∀ l n, (l, n) ∈ stackNumbers → ∀ e ∈ (p.stackAt (stackIndex l n)).list.zipIdx 1, entryAgrees p l n e.2 e.1 = true
  limits : ∀ l n, (l, n) ∈ stackNumbers →
    match c.stack? l n with
    | some g => (p.stackAt (stackIndex l n)).list.length ≤ g.tiers ∧ loadOf p (p.stackAt (stackIndex l n)).list ≤ g.load
    | none => (p.stackAt (stackIndex l n)).list = []
  marks : ∀ l n, (l, n) ∈ stackNumbers → markStands c p l n = true
  tags : (p.moves.queue.map (·.tag)).Nodup
  aligned : ∀ m ∈ p.moves.queue, restoredPicked c p m = some m.picked
  reserved : ∀ m ∈ p.moves.queue, hasReservation p m = true
  notPicked : ∀ m ∈ p.moves.queue, m.phase = .queued → m.picked = false
  hooks : ∀ n x, recordAt p n = some x → onItsHook p x = true

/-! ### Invariants -/

/-- Bounds of the line interface (10 R187..R189, R192). -/
def LineUnit.bounded (l : LineUnit) : Prop :=
  l.answers.length ≤ 4 ∧ l.reports.length ≤ 8 ∧ l.dropped ≤ 255 ∧ 1 ≤ l.own ∧ l.own ≤ 32
    ∧ l.counters.valid ≤ 65535 ∧ l.counters.badCheck ≤ 65535 ∧ l.counters.badHeader ≤ 65535
    ∧ l.counters.framing ≤ 65535 ∧ l.counters.payload ≤ 65535 ∧ l.counters.lost ≤ 65535
    ∧ l.counters.bitErrors ≤ 65535 ∧ l.counters.answersDropped ≤ 65535 ∧ l.counters.ordersInClash ≤ 65535
    ∧ l.counters.sent ≤ 65535

/-- No notice waits, and the transmitter holds nothing but an answer. -/
def LineUnit.answersOnly (l : LineUnit) : Prop :=
  l.heatSlot = none ∧ l.spanSlot = none ∧ ∀ x, l.tx = some x → ∃ a, x.frame = .answer a

/-- The line interface keeps its bounds, and a station without a configuration has only answers to send, once its image has been
read (10 R187, R191, 11 R194; log 26). -/
def LineInv (p : Part) : Prop :=
  p.line.bounded
    ∧ (p.config = none → p.line.answersOnly ∧ (p.run ≠ .readingConfig → p.line.reports = []))

/-- Before a configuration has been read there is none, and a supply reset holds every block in reset (11 R193, R198). -/
def RunInv (p : Part) : Prop :=
  (p.run = .inReset ∨ p.run = .readingConfig → p.config = none) ∧ (p.supply.state = .reset → p.run = .inReset)

/-- The grant law (04 R73): the grant never exceeds the own demand, and a grant that is not 0, times the counted total, never
exceeds the own demand times the plant capacity. There is no grant before a configured start completes. -/
def GrantInv (p : Part) : Prop :=
  (p.run ≠ .running ∨ p.config = none → p.heat.grant = 0)
    ∧ ∀ c, p.config = some c →
        p.heat.grant ≤ totalDemand c p
          ∧ (p.heat.grant ≠ 0 →
              p.heat.grant * (totalDemand c p + listDemand p.heat.list) ≤ totalDemand c p * c.capacity)

/-- No heat in CLASH (04 R77, 05 R85): every allocation has been forced to 0, so the generator of an assigned bed has an on-time of
0, and nothing else waits in its buffer. -/
def ClashInv (p : Part) : Prop :=
  ∀ c, p.runs c → p.inClash = true → ∀ b < 4, c.assigned b = true →
    (p.gen b).onTime = 0 ∧ ((p.gen b).buffer = none ∨ (p.gen b).buffer = some 0)

/-- The microstep law (06 R108): u stays within 0..15 after a forward mark and within 1..16 after a reverse mark. -/
def CapsInv (p : Part) : Prop :=
  if p.travel.lastReverse then 1 ≤ p.travel.u ∧ p.travel.u ≤ 16 else p.travel.u ≤ 15

/-- The travel law (07 R134): the travel decision asks for motion only while the position is known, every span of the extent
and stop reach is held or occupied by the station, every envelope ahead is the gap away, and no condition stops travel. -/
def TravelInv (p : Part) : Prop :=
  ∀ fwd k, p.span.decision = .go fwd k →
    ∃ c q, p.runs c ∧ p.position = some q ∧ mustStop p = false ∧ permitted c p q fwd k = true

/-- The claim law (07 R124, R126): a span with role CLAIM is the only one, and its claim stands: the position is known, a target is
held, the span lies on the route, and neither crane-local nor CLASH forbids claims. -/
def ClaimInv (p : Part) : Prop :=
  ∀ c, p.runs c → ∀ k, (p.spanAt k).role.isClaim = true → claimStands c p k = true ∧ claimed p = some k

end Sys2Proof.Machine
end

