-- ==== Sys2Proof/Certificates/Slice0/Obligations.lean ====
section
/-! DEFINITION. The statements for the provers, block by block. -/
open Sys2Proof Sys2Proof.Machine

/-! ### The step -/

/-- A step takes the command at the front of the queue and runs it on the queue's rest. On an empty queue it is a tick: the counters
advance, and the events that fall due are the commands that come next.
Model's choice: the tick is what an empty queue does (log 3). -/
def Obligations.StepRunsFrontCommand : Prop :=
  (∀ (s : State) (i : Instr) (rest : List Instr),
    step { s with pending := i :: rest } = exec i { s with pending := rest })
  ∧ ∀ s : State, s.pending = [] → step s = .next { part := tickPart s.part, pending := dueNow s.part }

/-- No command stops the part: each answers a next state, and none touches the waiting commands. -/
def Obligations.EveryCommandAnswersNext : Prop :=
  ∀ (i : Instr) (s : State), ∃ q, exec i s = .next { s with part := q }

/-! ### Reset and start (11) -/

/-- What a reset leaves in the blocks, and that every output line is low. Bed, piece and move records, accumulators and stacks
stand empty until the restore brings them back.
Model's choices: the part starts in reset with no command waiting, and what the restore brings back is empty until then (log 1). -/
def Obligations.ResetValues : Prop :=
  let p := State.reset.part
  State.reset.pending = [] ∧ p.run = .inReset ∧ p.config = none
    ∧ p.clock.now = 0 ∧ p.clock.samplePhase = 0 ∧ p.clock.heatPhase = 0
    ∧ p.scan.run = none ∧ p.scan.skipped = [] ∧ p.scan.refGood = true
    ∧ (∀ x ∈ p.scan.channels, x.validity = .valid ∧ x.held = 0 ∧ x.last = none ∧ x.cause = none)
    ∧ (∀ x ∈ p.scan.beds, x.tc = none ∧ x.blindSince = none ∧ x.overheat = false)
    ∧ (∀ x ∈ p.beds, x.jack.level = false ∧ x.f = 0 ∧ x.db = 0 ∧ x.state = .empty ∧ x.slots = [])
    ∧ (∀ x ∈ p.maturity.accs, x = ⟨0, 0⟩) ∧ p.maturity.ambient = ⟨0, 0⟩
    ∧ (∀ x ∈ p.pieces.register, x = none) ∧ (∀ x ∈ p.pieces.stackTable, x = ⟨[], .none⟩) ∧ p.moves.queue = []
    ∧ p.heat.list = [] ∧ p.heat.heard = false ∧ p.heat.deaf = none ∧ p.heat.grant = 0 ∧ p.heat.shed = 0
    ∧ (∀ x ∈ p.out.gens, x.phase = 0 ∧ x.onTime = 0 ∧ x.buffer = none)
    ∧ (∀ x ∈ p.out.flows, x.edges = 0 ∧ x.fault = false ∧ x.run = 0 ∧ x.flow = 0)
    ∧ (∀ x ∈ p.out.aux, x.commanded = false ∧ x.saved = none)
    ∧ p.travel.referenced = false ∧ p.travel.fault = false ∧ p.travel.standstill = true ∧ p.travel.pprev = none
    ∧ p.span.peers = [] ∧ p.span.decision = .stop ∧ p.span.yieldStop = false
    ∧ p.moves.hook.filter.level = true ∧ p.moves.ready.filter.level = false ∧ p.moves.fault.filter.level = true
    ∧ p.moves.locl.filter.level = true ∧ p.moves.returning = false
    ∧ p.line.clash = none ∧ p.line.heatSlot = none ∧ p.line.spanSlot = none ∧ p.line.answers = []
    ∧ p.line.reports = [] ∧ p.line.dropped = 0 ∧ p.line.counters = ⟨0, 0, 0, 0, 0, 0, 0, 0, 0, 0⟩
    ∧ p.mem.writing = none ∧ p.mem.dirty = [] ∧ p.mem.fault = false
    ∧ ∀ n, pinLevel p n = false

/-- A power-on reset and a supply reset put every block at its reset value from any state. The record memory keeps its contents,
but the block of a write in flight fails its check; every output line is low; of the pins at most VDD moves.
Model's choices: the record memory is the contents of its blocks (log 5), and a command is its event, VDD standing at its
threshold (log 2). -/
def Obligations.PowerAndSupplyReset : Prop :=
  ∀ s : State, ∀ i ∈ [Instr.powerOnReset, Instr.supplyReset],
    Completes i s fun q =>
      q = Part.reset q.mem.mem ⟨.reset, 0⟩ q.pins s.part.freeCount
        ∧ q.mem.mem = (match s.part.mem.writing with
            | some w => s.part.mem.mem.spoil w.block
            | none => s.part.mem.mem)
        ∧ q.pins = { s.part.pins with vdd := q.pins.vdd }
        ∧ ∀ n, pinLevel q n = false

/-- A RESTART is answered DONE (UNCONFIGURED without a configuration), and from then on no order is taken: it is counted as a
valid frame and nothing else. On a stuck line it is taken too, its answer cannot be sent, and its reset falls due 50 ms after
it. Its reset puts every block at its reset value and keeps the supply state. In that reset the port goes on with the write in
flight and then writes every dirty block in round order with its contents, unless the supply warning stands; a write that fails
is not retried, and the reset is released only when the flush is over. Without a RESTART there is no such reset.
Model's choices: a write in flight is finished first (log 10), a failed write leaves what a free value decides (log 9), the
command carries the writes that fail (log 23), and a RESTART arrives on a stuck line (log 46). -/
def Obligations.RestartRuns : Prop :=
  (∀ (s : State) (src tag : Byte) (ps : List Byte),
    s.part.run = .running → s.part.line.waitIdle = false → src.toNat ≠ s.part.line.own → s.part.line.clash = none →
    s.part.line.restart = none → s.part.line.answers.length < 4 →
    Completes (.restart src tag ps) s fun q =>
      q.line.answers.getLast? = some ⟨tag, src, if s.part.config.isSome then .done else .unconfigured, [], true⟩
        ∧ q.line.restart = some ⟨s.part.clock.ms, false⟩
        ∧ (s.part.line.stuck.isSome = true → maySend q = false)
        ∧ q = { s.part with line := q.line, heat := q.heat }
        ∧ q.heat = { s.part.heat with heard := q.heat.heard })
  ∧ (∀ (p : Part) (r : RestartReq), p.run ≠ .inReset → p.line.restart = some r →
      ((∃ l, Instr.restartReset l ∈ dueNow p) ↔ r.ended = true ∨ r.takenMs + 50 ≤ (stepMs p).clock.ms))
  ∧ (∀ (i : Instr) (o : OrderForm) (s : State) (c : Settings) (r : RestartReq),
      orderOf i = some o → s.part.runs c → receiving s.part = true → o.src.toNat ≠ s.part.line.own →
      s.part.line.clash = none → s.part.line.restart = some r →
      exec i s = .next { s with part := heard s.part })
  ∧ (∀ (s : State) (r : RestartReq) (failed : List Block), s.part.line.restart = some r →
    Completes (.restartReset failed) s fun q =>
      q = { Part.reset s.part.mem.mem ⟨s.part.supply.state, 0⟩ s.part.pins s.part.freeCount with mem := q.mem }
        ∧ q.mem = { MemPort.reset s.part.mem.mem with writing := s.part.mem.writing, flush := q.mem.flush }
        ∧ (∀ c, s.part.runs c → s.part.inWarning = false →
            q.mem.flush = s.part.mem.ahead.map (fun b => ⟨⟨b, contents c s.part b⟩, failed.contains b⟩)
              ∧ ∀ b ∈ s.part.mem.dirty, ∃ x ∈ q.mem.flush, x.run.block = b ∧ x.run.copy = contents c s.part b)
        ∧ (s.part.inWarning = true ∨ s.part.config = none → q.mem.flush = [])
        ∧ ∀ n, pinLevel q n = false)
  ∧ (∀ (s : State) (w : WriteRun) (rest : List FlushWrite),
      s.part.run = .inReset → s.part.mem.writing = none →
      (s.part.mem.flush = ⟨w, false⟩ :: rest → exec .blockWriteBegin s =
        .next { s with part := { s.part with mem := { s.part.mem with writing := some w, flush := rest } } })
      ∧ (s.part.mem.flush = ⟨w, true⟩ :: rest → Completes .blockWriteBegin s fun q =>
        q.mem.writing = none ∧ q.mem.flush = rest
          ∧ (q.mem.mem = s.part.mem.mem ∨ q.mem.mem = s.part.mem.mem.store w.copy
              ∨ q.mem.mem = s.part.mem.mem.spoil w.block)
          ∧ q = { s.part with mem := q.mem, freeCount := s.part.freeCount + 1 }))
  ∧ (∀ (s : State) (w : WriteRun), s.part.run = .inReset → s.part.mem.writing = some w →
      (Completes (.pageWriteDone true) s fun q =>
        q.mem.writing = none ∧ q.mem.mem = s.part.mem.mem.store w.copy ∧ q.mem.flush = s.part.mem.flush
          ∧ q = { s.part with mem := q.mem })
      ∧ Completes .pageWriteTimeout s fun q =>
        q.mem.writing = none ∧ q.mem.flush = s.part.mem.flush
          ∧ (q.mem.mem = s.part.mem.mem ∨ q.mem.mem = s.part.mem.mem.store w.copy
              ∨ q.mem.mem = s.part.mem.mem.spoil w.block)
          ∧ q = { s.part with mem := q.mem, freeCount := s.part.freeCount + 1 })
  ∧ (∀ (s : State) (adr : Fin 32), s.part.mem.writing ≠ none ∨ s.part.mem.flush ≠ [] →
      exec (.resetRelease adr) s = .next s)
  ∧ ∀ (s : State) (failed : List Block), s.part.line.restart = none → exec (.restartReset failed) s = .next s

/-- RESET_RELEASE reads the own address, 32 for a strapping of 0, and goes on to read the 4096 bytes of the configuration; after a
power-on or supply reset the supply state is WARNING. An image that passes its checks configures the station, which goes on
to its records; one whose check or format code is wrong, or whose runway settings fail together, leaves it unconfigured with
no report to send. Nothing else changes.
Model's choices: VDD stands above its threshold at release (log 2), a tick takes 25 bytes of a read (log 3), and an image that fails
clears the report queue and the dropped count (log 26). -/
def Obligations.StartSequence : Prop :=
  (∀ (s : State) (adr : Fin 32), s.part.run = .inReset → s.part.mem.writing = none → s.part.mem.flush = [] →
    Completes (.resetRelease adr) s fun q =>
      q = { s.part with
        run := .readingConfig
        line := { s.part.line with own := if adr.val = 0 then 32 else adr.val }
        mem := { s.part.mem with left := 4096 }
        supply := q.supply
        pins := q.pins }
        ∧ q.supply.state = (if s.part.supply.state = .reset then .warning else s.part.supply.state)
        ∧ q.pins = { s.part.pins with adr := adr, vdd := q.pins.vdd })
  ∧ (∀ (s : State) (img : Image) (c : Settings), s.part.run = .readingConfig →
      readImage s.part.line.own img = some c →
      exec (.configurationReadComplete img) s =
        .next { s with part := { s.part with
          config := some c, run := .readingRecords, mem := { s.part.mem with left := 32768 } } })
  ∧ (∀ (s : State) (img : Image), s.part.run = .readingConfig → readImage s.part.line.own img = none →
      exec (.configurationReadComplete img) s = .next { s with part := { s.part with
        config := none, run := .restored, line := { s.part.line with reports := [], dropped := 0 }
        mem := { s.part.mem with left := 0 } } })
  ∧ (∀ (own : Nat) (img : Image),
      img.bytes.length ≠ 4096 ∨ crc (img.bytes.take 0xFFE) ≠ BitVec.ofNat 16 (num (img.bytes.drop 0xFFE))
        ∨ num (img.bytes.take 2) ≠ 0x0B24 ∨ okRunway (inSteps img.raw) = false →
      readImage own img = none)
  ∧ ∀ p : Part, p.run = .readingConfig ∨ p.run = .readingRecords →
      (tickPart p).mem = { p.mem with left := p.mem.left - 25 }

/-- Every runway distance is converted to the least number of microsteps that reaches it, and an image in force meets the joint
checks of the runway settings. -/
def Obligations.DistancesConverted : Prop :=
  (∀ lm d, 0 < lm → d * 16 ≤ toSteps lm d * lm ∧ ∀ n, d * 16 ≤ n * lm → toSteps lm d ≤ n)
  ∧ toSteps 250 1000 = 64 ∧ toSteps 250 100 = 7
  ∧ ∀ (own : Nat) (img : Image) (c : Settings), readImage own img = some c →
      let r := img.raw
      let m := toSteps r.lm
      (c.half = m r.half ∧ c.refPos = m r.refPos ∧ c.limLo = m r.limLo ∧ c.limHi = m r.limHi ∧ c.tol = m r.tol
        ∧ c.gap = m r.gap ∧ c.stopCreep = m r.stopCreep ∧ c.stopSlow = m r.stopSlow ∧ c.stopFast = m r.stopFast
        ∧ c.dispatch = m r.dispatch ∧ c.park = r.park.map m
        ∧ c.beds.map (·.picks) = r.beds.map (fun b => b.picks.map m)
        ∧ c.spans.map (fun x => (x.lo, x.hi)) = r.spans.map (fun x => (m x.lo, m x.hi))
        ∧ c.lanes.map (·.map (·.place)) = r.lanes.map (·.map fun x => m x.place))
      ∧ 4 ≤ c.refPos % 16 ∧ c.refPos % 16 ≤ 12 ∧ c.half + 32 ≤ c.limLo ∧ c.limHi + c.half ≤ 1048543
      ∧ c.limLo < c.refPos ∧ c.refPos < c.limHi ∧ c.limLo + 2 * c.half < c.limHi

/-- The restore. The contents of every intact block come back as written, and those of a lost one empty: station time, the ambient
base and the last known position (under the same mark spacing); accumulators, credit starts (0 with the clock block lost) and
retired flags; the kept fields of every assigned bed; piece records, stacks, the move queue and the next-tag count. What the
restore changes: a DETENSIONING bed is CURING, release-ready; a DETENSIONED bed whose slot list is emptied is EMPTY; an unassigned
bed is as a lost one; slots, records, stack entries, marks and moves that disagree are removed, and nothing is added but the
reservation of a LIFT that has lost it; no Alift is above A; every move that remains is QUEUED or HALTED, and every piece record
has the tag of the move that carries its piece, if one does. Records in which nothing disagrees come back whole, with every move
past QUEUED halted, its halted phase the phase it was restored in. Every lost block is to be written again; the blocks that keep nothing stand.
Model's choices: a jack-home filter starts inactive with no equal sample counted (log 4), the tests of a restored piece, which
are kept outside the record memory, stand not reached until they are formed (log 17), slot entries agree with their records
(log 28), a LIFT's reservation is made again where it fits (log 32), a bed's strength and
release test start at none (log 36), the tags of the records follow the queue (log 40), and list entries are tested at the tiers
restored (log 44). -/
def Obligations.RecordsRead : Prop :=
  ∀ (s : State) (c : Settings) (bad : List Block),
    s.part.run = .readingRecords → s.part.config = some c →
    Completes (.recordReadComplete bad) s fun q =>
      let m := bad.foldl RecMem.spoil s.part.mem.mem
      q.run = .restored ∧ q.config = some c
        ∧ q.clock = { s.part.clock with now := ((m.clock.map (·.now)).getD 0) }
        ∧ q.maturity.ambient = ((m.clock.map (·.ambient)).getD ⟨0, 0⟩)
        ∧ q.travel = { s.part.travel with lastKnown := m.clock.bind (restoredPosition c) }
        ∧ (∀ x, m.channels = some x → q.maturity.accs = x.accs
            ∧ q.maturity.credit = (if m.clock = none then List.replicate 4 0 else x.credit)
            ∧ (s.part.shaped → ∀ k < 22, (q.channel k).retired = x.retired.getD k false))
        ∧ (m.channels = none → q.maturity.accs = List.replicate 22 ⟨0, 0⟩ ∧ q.maturity.credit = List.replicate 4 0
            ∧ ∀ k, (q.channel k).retired = false)
        ∧ (∀ k, q.channel k = { s.part.channel k with retired := (q.channel k).retired })
        ∧ q.scan = { s.part.scan with channels := q.scan.channels }
        ∧ (∀ b < 4, c.assigned b = false → q.bed b = Bed.reset)
        ∧ (∀ b < 4, c.assigned b = true →
            let x := (m.beds.getD b none).getD Bed.reset
            let y := q.bed b
            y = { x with
                state := y.state, stageStart := y.stageStart, hold := y.hold, releaseReady := y.releaseReady, slots := y.slots
                setpoint := (c.bed b).tf, f := 0, db := 0, strength := 0, releaseTest := false, jack := ⟨false, false, 0⟩ }
              ∧ y.stageStart = (if m.clock = none then 0 else x.stageStart)
              ∧ (x.state = .detensioning → y.state = .curing ∧ y.releaseReady = true)
              ∧ (x.state ≠ .detensioning → y.releaseReady = x.releaseReady)
              ∧ (x.state = .detensioned →
                  y.state = (if x.slots.any Option.isSome = true ∧ y.slots.all Option.isNone = true then .empty
                    else .detensioned))
              ∧ (x.state ≠ .detensioning → x.state ≠ .detensioned → y.state = x.state)
              ∧ y.hold = (if x.state = .detensioned ∧ y.state = .empty then false else x.hold)
              ∧ y.slots.length = (c.bed b).picks.length
              ∧ ∀ i id, y.slots.getD i none = some id → x.slots.getD i none = some id)
        ∧ (∀ n y, recordAt q n = some y →
            y.tag = (q.moves.queue.find? (·.piece == y.id)).map (·.tag)
              ∧ ∃ x, m.pieces.getD n none = some (some x)
                ∧ y = { x with
                    place := y.place, tag := y.tag, liftTest := false, shipTest := false, ageTest := false
                    capture := x.capture.map fun k => { k with alift := min k.alift q.maturity.ambient.m } }
                ∧ (y.place = x.place
                  ∨ ∃ l k i j, x.place = .inStock l k i ∧ y.place = .inStock l k j ∧ j ≤ i))
        ∧ (∀ i, let old := (m.stackTable.getD (List.replicate 96 ⟨[], .none⟩)).getD i ⟨[], .none⟩
            let new := q.stackAt i
            new.list.Sublist old.list
              ∧ (new.mark = old.mark ∨ new.mark = .none
                ∨ ∃ x ∈ ((m.moves.map (·.queue)).getD []), ∃ l n mass,
                    x.stack = some (l, n) ∧ stackIndex l n = i ∧ new.mark = .reservation x.tag x.piece mass))
        ∧ q.moves = { s.part.moves with queue := q.moves.queue, nextTag := (m.moves.map (·.nextTag)).getD 1 }
        ∧ (q.moves.queue.map fun x => (x.tag, x.kind, x.piece, x.pick, x.place, x.stack)).Sublist
            (((m.moves.map (·.queue)).getD []).map fun x => (x.tag, x.kind, x.piece, x.pick, x.place, x.stack))
        ∧ (∀ x ∈ q.moves.queue, x.phase = .queued ∨ x.phase = .halted)
        ∧ (Coherent c (takeBlocks c m s.part) →
            (∀ b < 4, c.assigned b = true → (q.bed b).slots = ((m.beds.getD b none).getD Bed.reset).slots)
              ∧ (∀ n < 256, ((recordAt q n).map (·.id)) = ((m.pieces.getD n none).getD none).map (·.id)
                  ∧ ((recordAt q n).map (·.place)) = ((m.pieces.getD n none).getD none).map (·.place))
              ∧ q.pieces.stackTable = m.stackTable.getD (List.replicate 96 ⟨[], .none⟩)
              ∧ q.moves.queue = ((m.moves.map (·.queue)).getD []).map fun x =>
                  if x.phase = .queued then x
                  else { x with
                    phase := .halted, start := none
                    halt := some (x.phase, .restored) })
        ∧ (∀ b, m.isLost b = true → b ∈ q.mem.dirty)
        ∧ q.heat = s.part.heat ∧ q.out = s.part.out ∧ q.span = s.part.span ∧ q.supply = s.part.supply
        ∧ q.pins = s.part.pins ∧ q.mem.mem = m ∧ s.part.line.keeps q.line

/-- The completion of a configured start, once the emergency filter holds a level: the initial scan runs, the listening interval
begins, the position is unknown, travel stops, a SPAN notice waits; station time and the configuration stand. An unconfigured
start ends with nothing but the run state. Before the filter holds a level, completion is not reached. -/
def Obligations.StartCompletes : Prop :=
  (∀ (s : State) (c : Settings), s.part.run = .restored → s.part.config = some c →
    s.part.out.emergency.accepted ≠ none →
    Completes .startComplete s fun q =>
      q.run = .running ∧ q.config = some c ∧ q.scan.run = some ⟨true, s.part.now, [], 0⟩ ∧ q.heat.listening = 2
        ∧ q.position = none ∧ q.span.decision = .stop ∧ q.line.spanSlot.isSome = true ∧ q.msCount = 0
        ∧ q.out.emergency.accepted = s.part.out.emergency.accepted
        ∧ q.clock.now = s.part.clock.now ∧ q.pins = s.part.pins ∧ s.part.mem.keeps q.mem ∧ s.part.line.keeps q.line)
  ∧ (∀ s : State, s.part.run = .restored → s.part.config = none → s.part.out.emergency.accepted ≠ none →
      exec .startComplete s = .next { s with part := { s.part with run := .running } })
  ∧ ∀ s : State, s.part.out.emergency.accepted = none → exec .startComplete s = .next s

/-! ### Works clock and scan unit (01) -/

/-- A second event advances station time up to its limit, and both phase counts, which bring their boundaries. Every flow window
closes: the rate is the edges counted, and the count begins again; a counted window inside the band clears the run count, one
outside adds one, and the third in a row sets the flow fault, with the demand and the heater request of the bed at rest. (That
is said of states in which a station in CLASH has no heat, as every step keeps it: GrantLawEveryStep.) The timers are tested: a
curing stage whose time has come goes on until no transition applies, and its setpoint is formed; one whose time has not come
stands, and so does the stage of a bed that is not CURING or DETENSIONING; every demand is formed, 0 for a bed blind longer than
its hold time; every age test that is reached is set; the head move that has stood in its phase for its timeout is halted with
its cause. The interpolator, the scan and maturity units stand. A sample interval boundary starts a scan, or is counted as
skipped, up to 255, while one is in flight. A tick brings the second event at the end of the thousandth millisecond.
Model's choice: the boundaries a second event brings are commands that come next (log 8). -/
def Obligations.ClockEventsTurn : Prop :=
  ∀ (s : State) (c : Settings), s.part.runs c →
    (s.part.shaped → Completes .secondEvent s fun q =>
      q.clock.now = min 4294967295 (s.part.clock.now + 1)
        ∧ q.clock.samplePhase = (if c.ts ≤ s.part.clock.samplePhase + 1 then 0 else s.part.clock.samplePhase + 1)
        ∧ (c.ts ≤ s.part.clock.samplePhase + 1 → q.clock.sampleDue = true)
        ∧ q.clock.heatPhase = (if c.thp ≤ s.part.clock.heatPhase + 1 then 0 else s.part.clock.heatPhase + 1)
        ∧ (c.thp ≤ s.part.clock.heatPhase + 1 → q.clock.heatDue = true)
        ∧ (ClashInv s.part → ∀ b < 4, c.assigned b = true →
            let x := s.part.flow b
            let y := q.flow b
            let g := c.bed b
            y.edges = 0 ∧ y.flow = x.edges
              ∧ (x.run < 3 → x.broken = true ∨ g.flowCheck = false ∨ x.fault = true → y.run = x.run ∧ y.fault = x.fault)
              ∧ (x.broken = false → g.flowCheck = true → x.fault = false →
                  (g.fmin ≤ x.edges → x.edges ≤ g.fmax → y.run = 0 ∧ y.fault = false)
                    ∧ (x.edges < g.fmin ∨ g.fmax < x.edges →
                        (x.run < 2 → y.run = x.run + 1 ∧ y.fault = false)
                          ∧ (x.run = 2 → y.run = 0 ∧ y.fault = true ∧ (q.bed b).db = 0
                              ∧ heaterRequest c q b = false))))
        ∧ (∀ b < 4, c.assigned b = true →
            let x := s.part.bed b
            let y := q.bed b
            let g := c.bed b
            y.state = x.state
              ∧ (x.stageRuns = false → y.stage = x.stage ∧ y.stageStart = x.stageStart ∧ y.rampStart = x.rampStart
                  ∧ y.setpoint = x.setpoint)
              ∧ (x.stageRuns = true →
                  nextStage g y.stage y.rampStart (y.elapsed q.now) = none
                    ∧ y.setpoint = stageSetpoint g y.stage y.rampStart (y.elapsed q.now)
                    ∧ (nextStage g x.stage x.rampStart (x.elapsed q.now) = none →
                        y.stage = x.stage ∧ y.stageStart = x.stageStart ∧ y.rampStart = x.rampStart)
                    ∧ ∀ st, nextStage g x.stage x.rampStart (x.elapsed q.now) = some st →
                        let start := if st = .ramp then max g.tf ((s.part.bedTemp b).tc.getD g.tf) else x.rampStart
                        nextStage g st start 0 = none → y.stage = st ∧ y.stageStart = q.now ∧ y.rampStart = start)
              ∧ y.f = x.f
              ∧ y.db = (if x.state = .empty ∨ forcing c q b = true ∨ blindTooLong c q b = true then 0
                  else x.f * g.pmax / 1000))
        ∧ (∀ n x, recordAt s.part n = some x →
            ∃ y, recordAt q n = some y ∧ y.ageTest = (x.ageTest || ageReached c q x)
              ∧ y = { x with ageTest := y.ageTest, announced := y.announced })
        ∧ (∀ m t, headMove s.part = some m → m.start = some t →
            (m.phase = .toPick ∨ m.phase = .toPlace → c.claimMin * 60 ≤ q.now - t →
              q.moves.target = none
                ∧ ∃ y ∈ q.moves.queue, y.tag = m.tag ∧ y.phase = .halted ∧ y.halt = some (m.phase, .claimTimeout))
            ∧ (m.phase = .atPick ∨ m.phase = .atPlace → c.pickMin * 60 ≤ q.now - t →
              q.moves.target = none
                ∧ ∃ y ∈ q.moves.queue, y.tag = m.tag ∧ y.phase = .halted ∧ y.halt = some (m.phase, .timeout)))
        ∧ q.run = s.part.run ∧ q.config = s.part.config ∧ q.travel = s.part.travel ∧ q.scan = s.part.scan
        ∧ q.maturity = s.part.maturity ∧ q.pins = s.part.pins ∧ q.supply = s.part.supply
        ∧ s.part.line.keeps q.line ∧ s.part.mem.keeps q.mem)
    ∧ (Completes .sampleIntervalBoundary s fun q =>
      q = { s.part with
        clock := { s.part.clock with samplePhase := 0, sampleDue := false }
        scan := { s.part.scan with run := q.scan.run, skipped := q.scan.skipped } }
        ∧ (s.part.scan.run = none →
            q.scan.run = some ⟨false, s.part.now, [], 0⟩ ∧ q.scan.skipped = s.part.scan.skipped)
        ∧ (∀ r, s.part.scan.run = some r → q.scan.run = some r
            ∧ q.scan.skipped.length = (if s.part.scan.skipped.length < 255 then s.part.scan.skipped.length + 1
                else s.part.scan.skipped.length)))
    ∧ (Instr.secondEvent ∈ dueNow s.part ↔ s.part.clock.endsMs = true ∧ 999 ≤ s.part.clock.msPhase)
    ∧ (Instr.sampleIntervalBoundary ∈ dueNow s.part ↔ s.part.clock.sampleDue = true)
    ∧ (Instr.heatPeriodBoundary ∈ dueNow s.part ↔ s.part.clock.heatDue = true)

/-- The sample a scan gives a channel: its conversion when the references are accepted, a missed one otherwise. -/
def scanSample (c : Settings) (ref1 ref2 : Nat) (codes : List Code) (k : Nat) : Classified :=
  if accepted ref1 ref2 then
    classifySample (codes.getD k 0).toNat ((ref1 + ref2) / 2) (if k = 22 then c.ambZ else (c.channel k).z)
      (if k = 22 then c.ambK else (c.channel k).k)
  else .invalid .missed

/-- A scan completes: the reference state follows the check of the codes, and every channel in use takes its sample and then one
missed sample per skipped boundary. With none skipped, every assigned bed has its control temperature formed, and its blind and
overheat flags after it; its governing maturity published, with the release test of that value, which makes a CURING bed
release-ready; and its demand formed from the new fraction; and the accumulators are advanced by the one sample. The clock, the
interpolator and the pins stand. The scan comes due at the tick that ends its last conversion, each of which takes 120 µs.
Model's choice: the tick is what an empty queue does (log 3). -/
def Obligations.ScanCompletes : Prop :=
  (∀ (s : State) (c : Settings) (r : ScanRun) (ref1 ref2 : Code) (codes : List Code),
    s.part.runs c → s.part.shaped → s.part.scan.run = some r →
    Completes (.scanCompletion ref1 ref2 codes) s fun q =>
      q.scan.run = none ∧ q.scan.skipped = [] ∧ q.scan.evaluating = true
        ∧ q.scan.refGood = accepted ref1.toNat ref2.toNat
        ∧ (∀ k ∈ channelsInUse c, q.channel k =
            s.part.scan.skipped.foldl (fun x _ => x.apply (.invalid .missed))
              ((s.part.channel k).apply (scanSample c ref1.toNat ref2.toNat codes k)))
        ∧ (∀ k, k ∉ channelsInUse c → q.channel k = s.part.channel k)
        ∧ (s.part.scan.skipped = [] →
            q.maturity = (advanceAll c ⟨usableAll c q, if r.initial then 0 else c.ts, r.endTime⟩ s.part).maturity)
        ∧ (s.part.scan.skipped = [] → ∀ b < 4, c.assigned b = true →
            let g := c.bed b
            let k := s.part.bedTemp b
            let t := q.bedTemp b
            let x := s.part.bed b
            let y := q.bed b
            t.tc = meanTemp ((c.bedChannels b).filterMap fun j => (q.channel j).usable)
              ∧ (t.tc = none → t.blindSince = some (k.blindSince.getD s.part.now) ∧ t.overheat = k.overheat)
              ∧ (∀ v, t.tc = some v → t.blindSince = none
                  ∧ t.overheat = (if k.overheat then decide (g.tmax - 20 < v) else decide (g.tmax < v)))
              ∧ y.state = x.state
              ∧ (x.state ≠ .empty → y.mg = publish x.mg (governingMinimum c q b)
                  ∧ y.releaseTest = reached c x.mix Curve.release (mixStrength c x.mix y.mg))
              ∧ y.releaseReady = (x.releaseReady || (x.state == .curing && y.releaseTest))
              ∧ (∀ v, t.tc = some v → y.f = fractionOf g.gain x.setpoint v) ∧ (t.tc = none → y.f = x.f)
              ∧ y.db = (if x.state = .empty ∨ forcing c q b = true ∨ blindTooLong c q b = true then 0
                  else y.f * g.pmax / 1000))
        ∧ q.run = s.part.run ∧ q.config = s.part.config ∧ q.clock = s.part.clock ∧ q.travel = s.part.travel
        ∧ q.pins = s.part.pins ∧ q.supply = s.part.supply ∧ s.part.line.keeps q.line ∧ s.part.mem.keeps q.mem)
  ∧ ∀ (p : Part) (c : Settings) (r : ScanRun), p.runs c → p.scan.run = some r →
      (tickPart p).scan.run = some (r.tick c p) ∧ (r.tick c p).time = r.time + 5
        ∧ (r.codes.length = min (conversions c) (r.time / 6) →
          (r.tick c p).codes.length = min (conversions c) ((r.time + 5) / 6)
            ∧ ((∃ a b l, Instr.scanCompletion a b l ∈ dueNow p) ↔ conversions c * 6 ≤ r.time + 5))

/-- Samples. A valid one sets the record of its channel, with SENSOR_OK when it leaves FAULTED and the channel is not retired. An
invalid one keeps the temperature, sets the cause and follows the five rows of its table, with SENSOR_FAULT once, at the entry
into FAULTED of a channel that is not retired. -/
def Obligations.SamplesApplied : Prop :=
  (∀ (p : Part) (k : Nat) (t : Int), k < p.scan.channels.length →
    let q := applySample k (.valid t) p
    q.channel k = ⟨.valid, 0, some t, none, (p.channel k).retired⟩
      ∧ (∀ j, j ≠ k → q.channel j = p.channel j)
      ∧ q.line = (if (p.channel k).validity = .faulted ∧ (p.channel k).retired = false
          then p.line.placeReport (.sensorOk k t) else p.line))
  ∧ ∀ (p : Part) (k : Nat) (w : SampleCause), k < p.scan.channels.length →
    let x := p.channel k
    let q := applySample k (.invalid w) p
    let y := q.channel k
    y.cause = some w ∧ y.last = x.last ∧ y.retired = x.retired
      ∧ (x.validity = .valid → y.validity = .held ∧ y.held = 1)
      ∧ (x.validity = .held → x.held = 1 → y.validity = .held ∧ y.held = 2)
      ∧ (x.validity = .held → x.held = 2 → y.validity = .held ∧ y.held = 3)
      ∧ (x.validity = .held → x.held = 3 → y.validity = .faulted ∧ y.held = 0)
      ∧ (x.validity = .faulted → y.validity = .faulted ∧ y.held = x.held)
      ∧ (∀ j, j ≠ k → q.channel j = p.channel j)
      ∧ q.line = (if x.validity = .held ∧ y.validity = .faulted ∧ x.retired = false
          then p.line.placeReport (.sensorFault k w x.last) else p.line)

/-! ### Maturity unit (02) -/

/-- The strength of a curve: its three rows, exact at every point, within 0 and the last strength, and never falling. -/
def Obligations.StrengthOfCurve : Prop :=
  ∀ k : Curve, okCurve k = true →
    (∀ m, m ≤ (k.points.getD 0 (0, 0)).1 →
      curveStrength k m = (k.points.getD 0 (0, 0)).2 * m / (k.points.getD 0 (0, 0)).1)
    ∧ (∀ i m, i + 1 < k.points.length → (k.points.getD i (0, 0)).1 < m → m ≤ (k.points.getD (i + 1) (0, 0)).1 →
        curveStrength k m = (k.points.getD i (0, 0)).2
          + ((k.points.getD (i + 1) (0, 0)).2 - (k.points.getD i (0, 0)).2) * (m - (k.points.getD i (0, 0)).1)
            / ((k.points.getD (i + 1) (0, 0)).1 - (k.points.getD i (0, 0)).1))
    ∧ (∀ m, (k.points.getLastD (0, 0)).1 < m → curveStrength k m = (k.points.getLastD (0, 0)).2)
    ∧ (∀ i, i < k.points.length → curveStrength k (k.points.getD i (0, 0)).1 = (k.points.getD i (0, 0)).2)
    ∧ (∀ m, curveStrength k m ≤ (k.points.getLastD (0, 0)).2)
    ∧ (∀ m n, m ≤ n → curveStrength k m ≤ curveStrength k n)

/-- A completed sample that stands for an interval advances the accumulator of every enabled channel of an assigned bed that is not
EMPTY and has a usable temperature, by the degrees above the datum times the credited seconds, and no other; and the ambient
accumulator, when the ambient channel has a usable temperature, by the degrees times the whole interval. An advance loses
nothing of what is added until the accumulator saturates, where it stays at its limit with no residue. -/
def Obligations.SampleAdvancesMaturity : Prop :=
  (∀ (a : Acc) (x : Nat), a.residue < 360 →
    let y := a.advance x
    y.residue < 360
      ∧ (a.m < maxMaturity → a.m * 360 + a.residue + x < (maxMaturity + 1) * 360 →
          y.m * 360 + y.residue = a.m * 360 + a.residue + x)
      ∧ (maxMaturity ≤ a.m ∨ (maxMaturity + 1) * 360 ≤ a.m * 360 + a.residue + x → y = ⟨maxMaturity, 0⟩))
  ∧ (∀ (c : Settings) (p : Part) (x : Sample) (k : Nat), k < p.maturity.accs.length → x.interval ≠ 0 →
    let a := p.maturity.accs.getD k ⟨0, 0⟩
    let new := (advanceAll c x p).maturity.accs.getD k ⟨0, 0⟩
    (∀ b t, (c.channel k).enabled = true → (c.channel k).bed = some b → c.assigned b = true →
        (p.bed b).state ≠ .empty → x.usable.getD k none = some t →
        new = a.advance ((t - c.t0).toNat * min x.interval (x.endTime - p.maturity.credit.getD b 0)))
      ∧ ((c.channel k).enabled = false ∨ (c.channel k).bed = none ∨ x.usable.getD k none = none → new = a)
      ∧ ∀ b, (c.channel k).bed = some b → c.assigned b = false ∨ (p.bed b).state = .empty → new = a)
  ∧ ∀ (c : Settings) (p : Part) (x : Sample),
    let a := p.maturity.ambient
    let new := (advanceAll c x p).maturity.ambient
    (∀ t, x.interval ≠ 0 → x.usable.getD 22 none = some t → new = a.advance ((t - c.t0).toNat * x.interval))
      ∧ (x.interval = 0 ∨ x.usable.getD 22 none = none → new = a)

/-! ### Order routing (10) -/

/-- An order that reaches the station is a valid frame and a sign of life; its answer is the one of the owning block, or RANGE with
no effect when parameters are missing. An ORDER frame names its order by the code of the tables, and its form or subject; one for
this station that comes as a whole frame has the effect of the order it names.
Model's choices: a placement ends contention (log 11), and an ORDER frame may come as OTHER_FRAME_RECEIVED (log 14). -/
def Obligations.OrdersReachTheirBlock : Prop :=
  (∀ (i : Instr) (o : OrderForm) (s : State) (c : Settings), orderOf i = some o → TakesOrders s.part c o.src →
    Completes i s fun q =>
      if o.params.length < o.need then
        Answered q o.src o.tag .range [] ∧ q = { heard s.part with line := q.line }
          ∧ q.line.reports = (heard s.part).line.takeOffered.reports
      else
        Answered q o.src o.tag (o.act c (heard s.part)).result (o.act c (heard s.part)).data
          ∧ q = { (o.act c (heard s.part)).part with line := q.line })
  ∧ (∀ (i : Instr) (s : State) (src target : Byte) (pl : List Byte), readOrder src pl = some i →
      target.toNat = s.part.line.own → exec (.otherFrameReceived kindOrder src target pl) s = exec i s)
  ∧ ∀ (src tag : Byte) (ps : List Byte),
      readOrder src (0x01 :: tag :: ps) = some (.castStart src tag ps)
      ∧ readOrder src (0x02 :: tag :: ps) = some (.castEnd src tag ps)
      ∧ readOrder src (0x03 :: tag :: ps) = some (.detension src tag ps)
      ∧ readOrder src (0x04 :: tag :: 0 :: ps) = some (.holdBed src tag ps)
      ∧ readOrder src (0x04 :: tag :: 1 :: ps) = some (.holdPiece src tag ps)
      ∧ readOrder src (0x05 :: tag :: ps) = some (.retire src tag ps)
      ∧ readOrder src (0x06 :: tag :: ps) = some (.clearBed src tag ps)
      ∧ readOrder src (0x07 :: tag :: ps) = some (.lift src tag ps)
      ∧ readOrder src (0x08 :: tag :: ps) = some (.ship src tag ps)
      ∧ readOrder src (0x09 :: tag :: ps) = some (.cancel src tag ps)
      ∧ readOrder src (0x0A :: tag :: ps) = some (.resume src tag ps)
      ∧ readOrder src (0x0B :: tag :: ps) = some (.aux src tag ps)
      ∧ readOrder src (0x0C :: tag :: ps) = some (.spanFree src tag ps)
      ∧ readOrder src (0x0D :: tag :: ps) = some (.clearFault src tag ps)
      ∧ readOrder src (0x0F :: tag :: ps) = some (.restart src tag ps)
      ∧ readOrder src (0x0E :: tag :: 0x01 :: ps) = some (.queryHeatState src tag ps)
      ∧ readOrder src (0x0E :: tag :: 0x02 :: ps) = some (.queryOutputState src tag ps)
      ∧ readOrder src (0x0E :: tag :: 0x03 :: ps) = some (.queryRunwayPosition src tag ps)
      ∧ readOrder src (0x0E :: tag :: 0x04 :: ps) = some (.querySpans src tag ps)
      ∧ readOrder src (0x0E :: tag :: 0x05 :: ps) = some (.queryCranes src tag ps)
      ∧ readOrder src (0x0E :: tag :: 0x06 :: ps) = some (.queryPiece src tag ps)
      ∧ readOrder src (0x0E :: tag :: 0x07 :: ps) = some (.queryBed src tag ps)
      ∧ readOrder src (0x0E :: tag :: 0x08 :: ps) = some (.querySlots src tag ps)
      ∧ readOrder src (0x0E :: tag :: 0x09 :: ps) = some (.queryChannel src tag ps)
      ∧ readOrder src (0x0E :: tag :: 0x0A :: ps) = some (.queryStack src tag ps)
      ∧ readOrder src (0x0E :: tag :: 0x0B :: ps) = some (.queryRegister src tag ps)
      ∧ readOrder src (0x0E :: tag :: 0x0C :: ps) = some (.queryMoves src tag ps)
      ∧ readOrder src (0x0E :: tag :: 0x0D :: ps) = some (.queryLineState src tag ps)

/-- An order in CLASH is counted and not taken, being a sign of life to a configured station alone; without a configuration it
is answered UNCONFIGURED; with the answer queue full its answer is dropped and counted, its effect standing. -/
def Obligations.OrdersTurnedAway : Prop :=
  ∀ (i : Instr) (o : OrderForm) (s : State), orderOf i = some o → s.part.run = .running → receiving s.part = true →
    o.src.toNat ≠ s.part.line.own →
    (s.part.line.clash.isSome = true →
      Completes i s fun q =>
        q.line = { s.part.line with counters := s.part.line.counters.addValid.addInClash }
          ∧ q = { s.part with line := q.line, heat := q.heat }
          ∧ q.heat = { s.part.heat with heard := s.part.heat.heard || s.part.config.isSome })
    ∧ (s.part.line.clash = none → s.part.line.restart = none → s.part.config = none → s.part.line.answers.length < 4 →
      Completes i s fun q => Answered q o.src o.tag .unconfigured [] ∧ q = { s.part with line := q.line })
    ∧ (∀ c, s.part.config = some c → s.part.line.clash = none → s.part.line.restart = none → s.part.line.tx = none →
        s.part.line.answers.length = 4 → o.need ≤ o.params.length →
      Completes i s fun q =>
        q.line.answers = s.part.line.answers
          ∧ q.line.counters.answersDropped = min 65535 (s.part.line.counters.answersDropped + 1)
          ∧ q = { (o.act c (heard s.part)).part with line := q.line })

/-- Each of the thirteen queries is answered with the leading fields of its rule, and changes nothing but the answer queue and what
a received frame counts. So is its refusal: RANGE for an address outside 1..32, a span, slot, stack or channel that is not
there, a bed not assigned, a piece id of 0 to begin at and a move number above 15; UNKNOWN for a piece without a record.
Model's choices: the field widths of log 19 and its 0xFF for the bed of a channel of no bed, and a placement ends contention
(log 11). -/
def Obligations.QueriesTell : Prop :=
  ∀ (s : State) (c : Settings) (src tag : Byte) (ps : List Byte), TakesOrders s.part c src →
    let p := heard s.part
    let Refused := fun i r => Completes i s fun q => AnsweredOnly p q src tag r
    (1 ≤ ps.length → par ps 0 = 0 ∨ 32 < par ps 0 →
      Refused (.queryHeatState src tag ps) .range ∧ Refused (.queryCranes src tag ps) .range)
    ∧ (1 ≤ ps.length → c.spans.length ≤ par ps 0 → Refused (.querySpans src tag ps) .range)
    ∧ (3 ≤ ps.length → findPiece p (par3 ps 0) = none → Refused (.queryPiece src tag ps) .unknown)
    ∧ (1 ≤ ps.length → c.assigned (par ps 0) = false → Refused (.queryBed src tag ps) .range)
    ∧ (2 ≤ ps.length → c.assigned (par ps 0) = false ∨ (c.bed (par ps 0)).picks.length ≤ par ps 1 →
        Refused (.querySlots src tag ps) .range)
    ∧ (1 ≤ ps.length → par ps 0 ∉ channelsInUse c → Refused (.queryChannel src tag ps) .range)
    ∧ (2 ≤ ps.length → c.stack? (par ps 0) (par ps 1) = none → Refused (.queryStack src tag ps) .range)
    ∧ (3 ≤ ps.length → par3 ps 0 = 0 → Refused (.queryRegister src tag ps) .range)
    ∧ (1 ≤ ps.length → 15 < par ps 0 → Refused (.queryMoves src tag ps) .range)
    ∧ (1 ≤ ps.length → 1 ≤ par ps 0 → par ps 0 ≤ 32 → Completes (.queryHeatState src tag ps) s fun q =>
      Tells p q src tag [.b2 p.heat.ds, .b2 p.heat.grant, .bits 3 p.heat.shed, .bits 2 p.heat.listening])
    ∧ (Completes (.queryOutputState src tag ps) s fun q =>
      Tells p q src tag
        ((List.range 32).flatMap fun n => [flag (requestedOf c p (Settings.line c n).source), flag (pinLevel p n)]))
    ∧ (Completes (.queryRunwayPosition src tag ps) s fun q =>
      Tells p q src tag [posValue p.position, flag p.travel.referenced, flag p.travel.fault])
    ∧ (1 ≤ ps.length → par ps 0 < c.spans.length → Completes (.querySpans src tag ps) s fun q =>
      Tells p q src tag [.bits 3 p.span.decision.code, flag p.span.yieldStop, .b1 (countBeyond p)])
    ∧ (1 ≤ ps.length → 1 ≤ par ps 0 → par ps 0 ≤ 32 → Completes (.queryCranes src tag ps) s fun q =>
      Tells p q src tag [] ∧ Answered q src tag .done
        (fitItems [] (((p.span.peers.filter fun x => decide (par ps 0 ≤ x.addr)).take 4).map peerItem)))
    ∧ (∀ x, 3 ≤ ps.length → findPiece p (par3 ps 0) = some x → Completes (.queryPiece src tag ps) s fun q =>
      Tells p q src tag ([.b2 x.mark, .b2 x.mass, .b1 x.mix, .b4 x.castTime] ++ Report.placeValues x.place))
    ∧ (1 ≤ ps.length → c.assigned (par ps 0) = true → Completes (.queryBed src tag ps) s fun q =>
      let x := p.bed (par ps 0)
      Tells p q src tag [.bits 3 x.state.code, .b1 x.mix, .b4 x.castTime, .b1 x.expected, .b1 x.received])
    ∧ (2 ≤ ps.length → c.assigned (par ps 0) = true → par ps 1 < (c.bed (par ps 0)).picks.length →
        Completes (.querySlots src tag ps) s fun q =>
      Tells p q src tag [] ∧ Answered q src tag .done
        (fitItems [] ((((List.range (c.bed (par ps 0)).picks.length).drop (par ps 1)).take 6).map fun i =>
          [.b1 i, .b3 ((c.bed (par ps 0)).picks.getD i 0), .b3 (((p.bed (par ps 0)).slots.getD i none).getD 0)])))
    ∧ (1 ≤ ps.length → par ps 0 ∈ channelsInUse c → Completes (.queryChannel src tag ps) s fun q =>
      let x := p.channel (par ps 0)
      let bed := if par ps 0 = 22 then 0xFF else ((c.channel (par ps 0)).bed).getD 0xFF
      Tells p q src tag [.b1 bed, .bits 2 x.validity.code, .b1 x.held, tempValue x.last])
    ∧ (∀ g, 2 ≤ ps.length → c.stack? (par ps 0) (par ps 1) = some g → Completes (.queryStack src tag ps) s fun q =>
      Tells p q src tag [.b3 g.place, .b1 g.tiers, .b2 g.load,
        .b1 (p.stackAt (stackIndex (par ps 0) (par ps 1))).list.length])
    ∧ (3 ≤ ps.length → par3 ps 0 ≠ 0 → Completes (.queryRegister src tag ps) s fun q =>
      Tells p q src tag [.b2 (freeRecords p), .b1 (countPieces p fun x => x.place.code == 0),
        .b1 (countPieces p fun x => x.place.code == 1), .b2 (countPieces p fun x => x.place.code == 2),
        .b1 (countPieces p (shipReady p))])
    ∧ (1 ≤ ps.length → par ps 0 ≤ 15 → Completes (.queryMoves src tag ps) s fun q =>
      Tells p q src tag [.b1 p.moves.queue.length, .b1 p.moves.nextTag])
    ∧ (Completes (.queryLineState src tag ps) s fun q =>
      Tells p q src tag [.b1 p.line.own, flag p.line.clash.isSome])

/-! ### Bed orders (03) -/

/-- A first part is accepted: the bed begins its cast, its channels are no longer retired, their accumulators and the published
maturity are 0, and each entry has its record and its slot. Other beds stand.
Model's choice: all retired flags are cleared before the bed is evaluated once (log 24). -/
def Obligations.CastStartFirstPart : Prop :=
  ∀ (s : State) (c : Settings) (src tag : Byte) (ps : List Byte) (es : List PartEntry),
    let p := heard s.part
    let b := par ps 0
    let mix := par ps 1
    let n := par ps 3
    TakesOrders s.part c src → s.part.shaped → b < 4 → 4 ≤ ps.length → par ps 2 = 1 →
    readPartEntries 6 (ps.drop 4) = some es →
    c.assigned b = true → (c.curve mix).isSome = true → 1 ≤ n → n ≤ 5 → 1 ≤ es.length → es.length ≤ 4 →
    entriesInRange (c.bed b).picks.length es = true → (p.bed b).state = .empty → entriesNew p es = true →
    es.length ≤ freeRecords p →
    Completes (.castStart src tag ps) s fun q =>
      Answered q src tag .done []
        ∧ (let x := q.bed b
          x.state = .casting ∧ x.mix = mix ∧ x.castTime = p.now ∧ x.expected = n ∧ x.received = 1 ∧ x.hold = false
            ∧ x.releaseReady = false ∧ x.stage = .preset ∧ x.stageStart = p.now ∧ x.mg = 0
            ∧ ∀ e ∈ es, x.slots.getD e.slot none = some e.id)
        ∧ (∀ k ∈ c.bedChannels b, (q.channel k).retired = false ∧ q.maturity.accs.getD k ⟨0, 0⟩ = ⟨0, 0⟩)
        ∧ q.maturity.credit.getD b 0 = p.now
        ∧ (∀ e ∈ es, ∃ x, findPiece q e.id = some x ∧ x.mark = e.mark ∧ x.mass = e.mass ∧ x.mix = mix
            ∧ x.castTime = p.now ∧ x.place = .onBed b e.slot ∧ x.capture = none ∧ x.hold = false ∧ x.tag = none)
        ∧ (∀ j, j ≠ b → q.bed j = p.bed j)
        ∧ q.clock = p.clock ∧ q.travel = p.travel ∧ q.pins = p.pins ∧ q.config = p.config ∧ q.run = p.run
        ∧ p.line.keeps q.line ∧ p.mem.keeps q.mem

/-- A later part is accepted: the parts received increase by one, and each entry has its record, with the cast's time and mix, and
its slot. The other slots and the records of other pieces stand, but for a SHIPPABLE announcement; so do the rest of the bed record,
its accumulators and the retired flags. -/
def Obligations.CastStartLaterPart : Prop :=
  ∀ (s : State) (c : Settings) (src tag : Byte) (ps : List Byte) (es : List PartEntry),
    let p := heard s.part
    let b := par ps 0
    let k := par ps 2
    TakesOrders s.part c src → s.part.shaped → b < 4 → 4 ≤ ps.length → 2 ≤ k → k ≤ par ps 3 → par ps 3 ≤ 5 →
    readPartEntries 6 (ps.drop 4) = some es →
    c.assigned b = true → (c.curve (par ps 1)).isSome = true → 1 ≤ es.length → es.length ≤ 4 →
    entriesInRange (c.bed b).picks.length es = true → (p.bed b).state = .casting → par ps 3 = (p.bed b).expected →
    par ps 1 = (p.bed b).mix → k = (p.bed b).received + 1 → (p.bed b).slots.length = (c.bed b).picks.length →
    entriesNew p es = true → slotsFree (p.bed b) es = true → es.length ≤ freeRecords p →
    Completes (.castStart src tag ps) s fun q =>
      Answered q src tag .done []
        ∧ q.bed b = { p.bed b with received := k, slots := (q.bed b).slots }
        ∧ (∀ e ∈ es, (q.bed b).slots.getD e.slot none = some e.id)
        ∧ (q.bed b).slots.length = (p.bed b).slots.length
        ∧ (∀ i, (∀ e ∈ es, e.slot ≠ i) → (q.bed b).slots.getD i none = (p.bed b).slots.getD i none)
        ∧ (∀ n x, recordAt p n = some x → ∃ y, recordAt q n = some y ∧ y = { x with announced := y.announced })
        ∧ (∀ e ∈ es, ∃ x, findPiece q e.id = some x ∧ x.mark = e.mark ∧ x.mass = e.mass ∧ x.mix = (p.bed b).mix
            ∧ x.castTime = (p.bed b).castTime ∧ x.place = .onBed b e.slot)
        ∧ (∀ j, j ≠ b → q.bed j = p.bed j)
        ∧ q.maturity = p.maturity ∧ q.scan = p.scan ∧ q.heat = p.heat ∧ q.out = p.out ∧ plantFrame p q

/-- CAST_START refused: the rows of its checks in their order, with nothing changed but the answer queue.
Model's choices: a placement ends contention (log 11), and a later part's ranges are checked before its sequence (log 37). -/
def Obligations.CastStartRefused : Prop :=
  ∀ (s : State) (c : Settings) (src tag : Byte) (ps : List Byte),
    let p := heard s.part
    let b := par ps 0
    let mix := par ps 1
    let k := par ps 2
    let n := par ps 3
    let inRange := fun es : List PartEntry =>
      c.assigned b = true ∧ (c.curve mix).isSome = true ∧ 1 ≤ k ∧ k ≤ n ∧ n ≤ 5 ∧ 1 ≤ es.length ∧ es.length ≤ 4
        ∧ entriesInRange (c.bed b).picks.length es = true
    let isNew := fun es : List PartEntry => entriesNew p es = true ∧ (k ≠ 1 → slotsFree (p.bed b) es = true)
    let refused := fun r => Completes (.castStart src tag ps) s fun q => AnsweredOnly p q src tag r
    TakesOrders s.part c src → 4 ≤ ps.length →
    (readPartEntries 6 (ps.drop 4) = none → refused .range)
    ∧ ∀ es, readPartEntries 6 (ps.drop 4) = some es →
      (¬inRange es → refused .range)
        ∧ (inRange es → partFits (p.bed b) mix k n = false → refused .badState)
        ∧ (inRange es → partFits (p.bed b) mix k n = true → ¬isNew es → refused .badState)
        ∧ (inRange es → partFits (p.bed b) mix k n = true → isNew es → freeRecords p < es.length → refused .full)

/-- CAST_END: its checks in order; accepted, the bed is CURING from now on in PRESET (with a preset time above 0), release-ready when
its release test was reached. Other beds, the heat share unit and the output matrix stand.
Model's choice: a placement ends contention (log 11). -/
def Obligations.CastEndChecked : Prop :=
  ∀ (s : State) (c : Settings) (src tag : Byte) (ps : List Byte),
    let p := heard s.part
    let b := par ps 0
    let x := p.bed b
    TakesOrders s.part c src → s.part.shaped → 1 ≤ ps.length → b < 4 →
    Completes (.castEnd src tag ps) s fun q =>
      if c.assigned b = false then AnsweredOnly p q src tag .range
      else if x.state ≠ .casting ∨ x.received < x.expected then
        AnsweredOnly p q src tag .badState
      else
        Answered q src tag .done [] ∧ (q.bed b).state = .curing
          ∧ (q.bed b).releaseReady = (x.releaseReady || x.releaseTest)
          ∧ (0 < (c.bed b).presetMin → (q.bed b).stage = .preset ∧ (q.bed b).stageStart = p.now
              ∧ (q.bed b).setpoint = (c.bed b).tf)
          ∧ (∀ j, j ≠ b → q.bed j = p.bed j) ∧ q.heat = p.heat ∧ q.out = p.out ∧ plantFrame p q

/-- DETENSION: its five checks in order; accepted, the bed is DETENSIONING with its permit request active, or DETENSIONED at once when
the jack-home level is active. Nothing else of the beds, of heat and outputs changes.
Model's choice: a placement ends contention (log 11). -/
def Obligations.DetensionChecked : Prop :=
  ∀ (s : State) (c : Settings) (src tag : Byte) (ps : List Byte),
    let p := heard s.part
    let b := par ps 0
    let x := p.bed b
    TakesOrders s.part c src → s.part.shaped → 1 ≤ ps.length → b < 4 →
    Completes (.detension src tag ps) s fun q =>
      if c.assigned b = false then AnsweredOnly p q src tag .range
      else if x.state ≠ .curing then AnsweredOnly p q src tag .badState
      else if x.releaseReady = false then AnsweredOnly p q src tag .notReady
      else if x.hold = true then AnsweredOnly p q src tag .held
      else if p.emergencyActive = true then AnsweredOnly p q src tag .notReady
      else
        Answered q src tag .done []
          ∧ q.bed b = (if x.jack.level then { x with state := .detensioned, setpoint := (c.bed b).tf }
              else { x with state := .detensioning })
          ∧ permitRequest q b = !x.jack.level
          ∧ (∀ j, j ≠ b → q.bed j = p.bed j) ∧ q.heat = p.heat ∧ q.out = p.out ∧ plantFrame p q

/-- HOLD of a bed and of a piece: the checks in order; accepted, the hold flag has the value. The bed form reports a change of the
flag; of a piece's record nothing else but its announcement may change.
Model's choice: a placement ends contention (log 11). -/
def Obligations.HoldChecked : Prop :=
  (∀ (s : State) (c : Settings) (src tag : Byte) (ps : List Byte),
    let p := heard s.part
    let v := par ps 0
    let b := par ps 1
    TakesOrders s.part c src → s.part.shaped → 2 ≤ ps.length → b < 4 →
    Completes (.holdBed src tag ps) s fun q =>
      if c.assigned b = false ∨ 1 < v then AnsweredOnly p q src tag .range
      else if (p.bed b).state = .empty then AnsweredOnly p q src tag .badState
      else
        Answered q src tag .done [] ∧ q.bed b = { p.bed b with hold := v == 1 }
          ∧ (∀ j, j ≠ b → q.bed j = p.bed j) ∧ q = { p with beds := q.beds, line := q.line, mem := q.mem }
          ∧ q.line.reports = (if (p.bed b).hold = (v == 1) then p.line.takeOffered.reports
              else (p.line.placeReport (.bedHold b (v == 1))).reports)
          ∧ p.line.keeps q.line ∧ p.mem.keeps q.mem)
  ∧ ∀ (s : State) (c : Settings) (src tag : Byte) (ps : List Byte),
    let p := heard s.part
    let v := par ps 0
    let id := par3 ps 1
    TakesOrders s.part c src → 4 ≤ ps.length →
    Completes (.holdPiece src tag ps) s fun q =>
      if id = 0 ∨ 1 < v then AnsweredOnly p q src tag .range
      else match findPiece p id with
        | none => AnsweredOnly p q src tag .unknown
        | some x =>
          Answered q src tag .done [] ∧ craneFrame p q
            ∧ ∃ y, findPiece q id = some y ∧ y = { x with hold := v == 1, announced := y.announced }

/-- RETIRE: its checks in order; accepted, the channel has no usable temperature and the other channels stand; a channel already
retired is answered DONE with no effect.
Model's choice: a placement ends contention (log 11). -/
def Obligations.RetireChecked : Prop :=
  ∀ (s : State) (c : Settings) (src tag : Byte) (ps : List Byte),
    let p := heard s.part
    let b := par ps 0
    let k := par ps 1
    TakesOrders s.part c src → s.part.shaped → 2 ≤ ps.length →
    Completes (.retire src tag ps) s fun q =>
      if c.assigned b = false ∨ k ∉ c.bedChannels b then AnsweredOnly p q src tag .range
      else if (p.bed b).state = .empty then AnsweredOnly p q src tag .badState
      else if (p.channel k).retired = true then AnsweredOnly p q src tag .done
      else if ∀ j ∈ c.bedChannels b, j ≠ k → (p.channel j).retired = true then
        AnsweredOnly p q src tag .badState
      else
        Answered q src tag .done [] ∧ q.channel k = { p.channel k with retired := true } ∧ (q.channel k).usable = none
          ∧ (∀ j, j ≠ k → q.channel j = p.channel j) ∧ (∀ j, j ≠ b → q.bed j = p.bed j)
          ∧ (p.bed b).mg ≤ (q.bed b).mg
          ∧ q.clock = p.clock ∧ q.travel = p.travel ∧ q.pins = p.pins ∧ q.maturity = p.maturity ∧ q.run = p.run
          ∧ q.config = p.config ∧ p.line.keeps q.line ∧ p.mem.keeps q.mem

/-- CLEAR_BED: its checks in order; accepted, the bed is EMPTY with its hold flag clear, no demand and no piece in its slots, no
QUEUED move carries one of those pieces, and their records are removed. The other pieces keep their records, and the other
beds stand.
Model's choice: a placement ends contention (log 11). -/
def Obligations.ClearBedChecked : Prop :=
  ∀ (s : State) (c : Settings) (src tag : Byte) (ps : List Byte),
    let p := heard s.part
    let b := par ps 0
    let x := p.bed b
    TakesOrders s.part c src → s.part.shaped → 1 ≤ ps.length → b < 4 →
    Completes (.clearBed src tag ps) s fun q =>
      if c.assigned b = false then AnsweredOnly p q src tag .range
      else if x.state ≠ .casting ∧ x.state ≠ .detensioned then AnsweredOnly p q src tag .badState
      else if ∃ m ∈ p.moves.queue, m.phase ≠ .queued ∧ m.piece ∈ slotIds p b then AnsweredOnly p q src tag .badState
      else
        Answered q src tag .done []
          ∧ (let y := q.bed b
            y.state = .empty ∧ y.hold = false ∧ y.setpoint = (c.bed b).tf ∧ y.db = 0 ∧ slotIds q b = []
              ∧ y.releaseReady = x.releaseReady ∧ y.stage = x.stage ∧ y.mix = x.mix ∧ y.mg = x.mg)
          ∧ (∀ m ∈ q.moves.queue, m.piece ∉ slotIds p b)
          ∧ (∀ id n, id ∈ slotIds p b → findRecord p id = some n → recordAt q n = none)
          ∧ (∀ n y, recordAt p n = some y → y.id ∉ slotIds p b → (recordAt q n).map (·.id) = some y.id)
          ∧ (∀ j, j ≠ b → q.bed j = p.bed j) ∧ plantFrame p q

/-! ### Moves (09), pieces and stock (08) -/

/-- LIFT and SHIP that pass every check are answered ACCEPTED with the next tag: the move stands in the queue with that tag, and
its stack carries the mark. Beds, heat and outputs stand. Refused, they change nothing but the answer queue, and the refusal is
that of the first row of their checks that applies.
Model's choice: a placement ends contention (log 11). -/
def Obligations.MovesAdmitted : Prop :=
  ∀ (s : State) (c : Settings) (src tag : Byte) (ps : List Byte),
    let p := heard s.part
    let t := p.moves.nextTag
    let id := par3 ps 0
    let refused := fun i r => Completes i s fun q => AnsweredOnly p q src tag r
    TakesOrders s.part c src → s.part.shaped →
    (5 ≤ ps.length → id = 0 → refused (.lift src tag ps) .range)
    ∧ (5 ≤ ps.length → id ≠ 0 → 16 ≤ p.moves.queue.length → refused (.lift src tag ps) .full)
    ∧ (∀ r, 5 ≤ ps.length → id ≠ 0 → p.moves.queue.length < 16 → checkLift c p id (par ps 3) (par ps 4) = .error r →
        refused (.lift src tag ps) r)
    ∧ (∀ x g, 5 ≤ ps.length → id ≠ 0 → p.moves.queue.length < 16 →
        checkLift c p id (par ps 3) (par ps 4) = .ok (x, g) → stackIndex (par ps 3) (par ps 4) < 96 →
      Completes (.lift src tag ps) s fun q =>
        Answered q src tag .accepted [.b1 t] ∧ craneFrame p q
          ∧ (∃ m ∈ q.moves.queue, m.tag = t ∧ m.kind = .lift ∧ m.piece = x.id ∧ m.place = g.place
              ∧ m.stack = some (par ps 3, par ps 4) ∧ m.picked = false)
          ∧ (q.stackAt (stackIndex (par ps 3) (par ps 4))).mark = .reservation t x.id x.mass)
    ∧ (∀ lane n,
        let k := checkLift c p id lane n
        let i := stackIndex lane n;
        (7 < lane ∨ c.stack? lane n = none → k = .error .range)
          ∧ ∀ g, lane ≤ 7 → c.stack? lane n = some g →
            (findPiece p id = none → k = .error .unknown)
              ∧ ∀ x, findPiece p id = some x →
                ((∀ b s, x.place ≠ .onBed b s) ∨ x.tag.isSome = true → k = .error .badState)
                  ∧ ∀ b s, x.place = .onBed b s → x.tag = none →
                    ((p.stackAt i).mark ≠ .none → k = .error .stackBusy)
                      ∧ ((p.stackAt i).mark = .none → g.tiers < (p.stackAt i).list.length + 1 → k = .error .full)
                      ∧ ((p.stackAt i).mark = .none → (p.stackAt i).list.length + 1 ≤ g.tiers →
                          (g.load < loadOf p (p.stackAt i).list + x.mass → k = .error .overload)
                            ∧ (loadOf p (p.stackAt i).list + x.mass ≤ g.load → k = .ok (x, g))))
    ∧ (let k := checkShip p id;
        (findPiece p id = none → k = .error .unknown)
          ∧ ∀ x, findPiece p id = some x →
            ((∀ l n h, x.place ≠ .inStock l n h) ∨ x.tag.isSome = true → k = .error .badState)
              ∧ ∀ l n h, x.place = .inStock l n h → x.tag = none →
                let y := p.stackAt (stackIndex l n);
                (y.list.getLast? ≠ some id → k = .error .badState)
                  ∧ (y.list.getLast? = some id → y.mark ≠ .none → k = .error .stackBusy)
                  ∧ (y.list.getLast? = some id → y.mark = .none →
                      (x.hold = true → k = .error .held) ∧ (x.hold = false → k = .ok (x, l, n))))
    ∧ (3 ≤ ps.length → id = 0 → refused (.ship src tag ps) .range)
    ∧ (3 ≤ ps.length → id ≠ 0 → 16 ≤ p.moves.queue.length → refused (.ship src tag ps) .full)
    ∧ (∀ r, 3 ≤ ps.length → id ≠ 0 → p.moves.queue.length < 16 → checkShip p id = .error r →
        refused (.ship src tag ps) r)
    ∧ (∀ x l n, 3 ≤ ps.length → id ≠ 0 → p.moves.queue.length < 16 → checkShip p id = .ok (x, l, n) → stackIndex l n < 96 →
      Completes (.ship src tag ps) s fun q =>
        Answered q src tag .accepted [.b1 t] ∧ craneFrame p q
          ∧ (∃ m ∈ q.moves.queue, m.tag = t ∧ m.kind = .dispatch ∧ m.piece = x.id ∧ m.place = c.dispatch
              ∧ m.stack = none ∧ m.picked = false)
          ∧ (q.stackAt (stackIndex l n)).mark = .dispatch t x.id)

/-- The tag after an admission: the next of 1..255 that no move of the queue carries, for any queue of at most 16 moves. Every tag
passed over is carried. -/
def Obligations.NextTagIsFree : Prop :=
  ∀ (m : Move) (p : Part), p.moves.queue.length < 16 → 1 ≤ m.tag → m.tag ≤ 255 →
    let q := enqueue m p
    q.moves.queue = p.moves.queue ++ [m] ∧ 1 ≤ q.moves.nextTag ∧ q.moves.nextTag ≤ 255
      ∧ (∀ x ∈ q.moves.queue, x.tag ≠ q.moves.nextTag)
      ∧ ∃ k, q.moves.nextTag = Nat.iterate tagAfter (k + 1) m.tag
          ∧ ∀ j < k, ∃ x ∈ q.moves.queue, x.tag = Nat.iterate tagAfter (j + 1) m.tag

/-- CANCEL: its checks in order; a QUEUED move, or a HALTED one that has not picked its piece, leaves the queue, and the other
moves stay. The pending mark it holds is released, the list of that stack standing, and every other stack stands; the move tag
of its piece is cleared, the piece staying where it stands with all it holds but a SHIPPABLE announcement that its release may
bring, and so does every other record. After the cancel of a HALTED move the crane returns to its park position, when one is
configured: the flag stands, and the target is held only while a move could start.
Model's choice: a placement ends contention (log 11). -/
def Obligations.CancelChecked : Prop :=
  ∀ (s : State) (c : Settings) (src tag : Byte) (ps : List Byte),
    let p := heard s.part
    let t := par ps 0
    TakesOrders s.part c src → 1 ≤ ps.length →
    Completes (.cancel src tag ps) s fun q =>
      if t = 0 then AnsweredOnly p q src tag .range
      else match findMove p t with
        | none => AnsweredOnly p q src tag .unknown
        | some m =>
          if m.phase ≠ .queued ∧ m.phase ≠ .halted then AnsweredOnly p q src tag .badState
          else if m.phase = .halted ∧ m.picked = true then AnsweredOnly p q src tag .pieceOnHook
          else
            Answered q src tag .done [] ∧ craneFrame p q ∧ (∀ x ∈ q.moves.queue, x.tag ≠ t)
              ∧ (∀ x ∈ p.moves.queue, x.tag ≠ t → ∃ y ∈ q.moves.queue, y.tag = x.tag ∧ y.piece = x.piece)
              ∧ (∀ i, findMark p t = some i → q.stackAt i = { p.stackAt i with mark := .none })
              ∧ (∀ i, findMark p t ≠ some i → q.stackAt i = p.stackAt i)
              ∧ (∀ n x, recordAt p n = some x → ∃ y, recordAt q n = some y
                  ∧ y = { x with
                      tag := if findRecord p m.piece = some n then none else x.tag, announced := y.announced })
              ∧ (m.phase = .halted → p.moves.queue = [m] →
                  (p.craneReady = false → q.moves.returning = c.park.isSome ∧ q.moves.target = none)
                    ∧ ∀ x n, c.park = some x → p.position = some n → windowOf c n x ≠ .inside →
                        mayStart { p with moves := { p.moves with queue := [] } } = true →
                        q.moves.returning = true ∧ q.moves.target = some ⟨x, 2⟩)

/-- RESUME: its checks in order. A HALTED move that may resume, with the hook as the picked flag says, travels again, its timer
afresh and with its own target, or has arrived there at once; with the piece set down at its place, the move is done and
leaves the queue.
Model's choice: a placement ends contention (log 11). -/
def Obligations.ResumeChecked : Prop :=
  ∀ (s : State) (c : Settings) (src tag : Byte) (ps : List Byte),
    let p := heard s.part
    TakesOrders s.part c src → 1 ≤ ps.length →
    (par ps 0 = 0 → Completes (.resume src tag ps) s fun q => AnsweredOnly p q src tag .range)
    ∧ (par ps 0 ≠ 0 → findMove p (par ps 0) = none →
      Completes (.resume src tag ps) s fun q => AnsweredOnly p q src tag .unknown)
    ∧ ∀ m : Move, par ps 0 ≠ 0 → findMove p (par ps 0) = some m →
      (m.phase ≠ .halted → Completes (.resume src tag ps) s fun q => AnsweredOnly p q src tag .badState)
      ∧ (m.phase = .halted → mayResume p = false ∨ (m.picked = false ∧ p.hookLoaded = true) →
        Completes (.resume src tag ps) s fun q => AnsweredOnly p q src tag .notReady)
      ∧ (m.phase = .halted → mayResume p = true → m.picked = p.hookLoaded →
        Completes (.resume src tag ps) s fun q =>
          Answered q src tag .done [] ∧ craneFrame p q
            ∧ (∃ x ∈ q.moves.queue, x.tag = m.tag ∧ x.piece = m.piece ∧ x.halt = none ∧ x.start = some p.now
              ∧ (x.phase = (if m.picked then .toPlace else .toPick) ∨ x.phase = (if m.picked then .atPlace else .atPick)))
            ∧ (headMove p = some m →
                (q.moves.target = some ⟨if m.picked then m.place else m.pick, m.urgency⟩
                    ∧ ∃ x ∈ q.moves.queue, x.tag = m.tag ∧ x.phase = (if m.picked then .toPlace else .toPick))
                  ∨ (q.moves.target = none
                    ∧ ∃ x ∈ q.moves.queue, x.tag = m.tag ∧ x.phase = (if m.picked then .atPlace else .atPick))))
      ∧ (m.phase = .halted → mayResume p = true → m.picked = true → p.hookLoaded = false →
          inPlaceWindow c p m.place = false →
        Completes (.resume src tag ps) s fun q => AnsweredOnly p q src tag .wrongPosition)
      ∧ (m.phase = .halted → mayResume p = true → m.picked = true → p.hookLoaded = false →
          inPlaceWindow c p m.place = true →
        Completes (.resume src tag ps) s fun q =>
          Answered q src tag .done [] ∧ craneFrame p q ∧ ∀ x ∈ q.moves.queue, x.tag ≠ m.tag)

/-- Hook loaded in AT_PICK: the piece is on the hook with the values captured at its first pick, and the move travels to its
place, picked. The piece has left its slot or the top of its stack, whose mark stands; the last one of a DETENSIONED bed leaves
the bed EMPTY, with no hold and no demand. In TO_PICK the move is halted.
Model's choices: the hook event fills its filter (log 2), and the hold flag that an emptied bed loses is not reported (log 38).
-/
def Obligations.HookLoadedPicks : Prop :=
  ∀ (s : State) (c : Settings) (m : Move),
    let p := s.part
    p.runs c → p.moves.hook.seen = true → p.hookLoaded = false → headMove p = some m →
    (∀ x, m.phase = .atPick → findPiece p m.piece = some x → x.place ≠ .onHook →
      Completes .hookLoaded s fun q =>
        (∃ y, findPiece q m.piece = some y ∧ y.place = .onHook ∧ y.capture = some (capturePick c p x))
          ∧ (∃ y ∈ q.moves.queue, y.tag = m.tag ∧ y.picked = true ∧ (y.phase = .toPlace ∨ y.phase = .atPlace))
          ∧ (∀ b i, x.place = .onBed b i → p.shaped → b < 4 →
              let left := (p.bed b).slots.set i none
              (q.bed b).slots = left
                ∧ (if (p.bed b).state = .detensioned ∧ (∀ o ∈ left, o = none) then
                    (q.bed b).state = .empty ∧ (q.bed b).hold = false ∧ (q.bed b).setpoint = (c.bed b).tf ∧ (q.bed b).db = 0
                  else q.bed b = { p.bed b with slots := left })
                ∧ (∀ j, j ≠ b → q.bed j = p.bed j) ∧ q.pieces.stackTable = p.pieces.stackTable)
          ∧ (∀ l n h, x.place = .inStock l n h → p.shaped → stackIndex l n < 96 →
              (q.stackAt (stackIndex l n)).list = (p.stackAt (stackIndex l n)).list.dropLast
                ∧ (q.stackAt (stackIndex l n)).mark = (p.stackAt (stackIndex l n)).mark
                ∧ (∀ j, j ≠ stackIndex l n → q.stackAt j = p.stackAt j) ∧ q.beds = p.beds)
          ∧ q.hookLoaded = true ∧ q.scan = p.scan ∧ q.maturity = p.maturity ∧ q.travel = p.travel ∧ q.clock = p.clock
          ∧ q.config = p.config ∧ q.run = p.run ∧ p.line.keeps q.line)
    ∧ (m.phase = .toPick → Completes .hookLoaded s fun q =>
        (∃ y ∈ q.moves.queue, y.tag = m.tag ∧ y.phase = .halted ∧ y.halt = some (.toPick, .hookUnexpected))
          ∧ q.moves.target = none ∧ q.hookLoaded = true ∧ q.beds = p.beds ∧ q.heat = p.heat ∧ q.out = p.out)

/-- Hook unloaded in AT_PLACE: the move leaves the queue and its mark the stack; a LIFT's piece stands on top of its stack, and a
DISPATCH's record is removed. In TO_PLACE the move is halted.
Model's choice: a restored LIFT that stands without its reservation is placed all the same (log 32). -/
def Obligations.HookUnloadedPlaces : Prop :=
  ∀ (s : State) (c : Settings) (m : Move),
    let p := s.part
    p.runs c → p.shaped → p.moves.hook.seen = true → p.hookLoaded = true → headMove p = some m →
    (m.phase = .atPlace → Completes .hookUnloaded s fun q =>
      (∀ x ∈ q.moves.queue, x.tag ≠ m.tag) ∧ q.hookLoaded = false ∧ q.beds = p.beds ∧ q.heat = p.heat ∧ q.out = p.out
        ∧ (∀ l n, m.stack = some (l, n) → stackIndex l n < 96 →
            (q.stackAt (stackIndex l n)).list = (p.stackAt (stackIndex l n)).list ++ [m.piece]
              ∧ ∀ x, findPiece p m.piece = some x → ∃ y, findPiece q m.piece = some y ∧ y.tag = none
                  ∧ y.place = .inStock l n ((p.stackAt (stackIndex l n)).list.length + 1))
        ∧ (m.stack = none → ∀ n, findRecord p m.piece = some n → recordAt q n = none)
        ∧ ∀ i, findMark p m.tag = some i → (q.stackAt i).mark = .none)
    ∧ (m.phase = .toPlace → Completes .hookUnloaded s fun q =>
        (∃ y ∈ q.moves.queue, y.tag = m.tag ∧ y.phase = .halted ∧ y.halt = some (.toPlace, .hookUnexpected))
          ∧ q.moves.target = none ∧ q.hookLoaded = false ∧ q.beds = p.beds ∧ q.heat = p.heat ∧ q.out = p.out)

/-- The crane lines: a change of crane-ready, crane-fault or crane-local is accepted; crane-fault and crane-local active halt the head
move. A first acceptance sets the level and sends no CRANE_LINE report. Beds, heat and outputs stand. A tick that ends 10 ms
samples each line, and brings the event of a level that is stable for five samples and not the accepted one.
Model's choices: a command stands for its event, the pin at its level (log 2); five equal samples are 50 ms (log 35). -/
def Obligations.CraneLinesAccepted : Prop :=
  ∀ (s : State) (c : Settings),
    let p := s.part
    let still := fun q : Part => q.beds = p.beds ∧ q.heat = p.heat ∧ q.out = p.out ∧ q.travel = p.travel
      ∧ q.clock = p.clock ∧ q.scan = p.scan ∧ q.maturity = p.maturity ∧ q.config = p.config ∧ q.run = p.run
    p.runs c →
    (∀ v, p.moves.ready.seen = true → p.craneReady ≠ v →
      Completes (.craneReadyChange v) s fun q => q.craneReady = v ∧ q.craneFault = p.craneFault ∧ still q)
    ∧ (∀ v, p.moves.fault.seen = true → p.craneFault ≠ v → Completes (.craneFaultChange v) s fun q =>
        q.craneFault = v ∧ still q ∧ (v = true → q.span.decision = .stop
          ∧ ∀ m, headMove p = some m → m.phase ≠ .halted →
            ∃ y ∈ q.moves.queue, y.tag = m.tag ∧ y.halt = some (m.phase, .craneFault)))
    ∧ (∀ v, p.moves.locl.seen = true → p.craneLocal ≠ v → Completes (.craneLocalChange v) s fun q =>
        q.craneLocal = v ∧ still q ∧ (v = true → q.span.decision = .stop
          ∧ ∀ m, headMove p = some m → m.phase ≠ .halted →
            ∃ y ∈ q.moves.queue, y.tag = m.tag ∧ y.halt = some (m.phase, .craneLocal)))
    ∧ (∀ l v, (p.moves.crane l).seen = false → Completes (.craneLineFirstAcceptance l v) s fun q =>
        (q.moves.crane l).filter.level = v ∧ (q.moves.crane l).seen = true ∧ still q
          ∧ ∀ r ∈ q.line.reports, r.kind = .craneLine → r ∈ p.line.reports)
    ∧ ∀ l, p.clock.endsTen = true →
        let f := (p.moves.crane l).filter
        let v := p.pins.crane l
        let g := ((tickPart p).moves.crane l).filter
        (v = f.last → g = ⟨f.level, v, min 5 (f.count + 1)⟩) ∧ (v ≠ f.last → g = ⟨f.level, v, 1⟩)
          ∧ (craneEvent l v ∈ dueNow p ↔ (p.moves.crane l).seen = true ∧ v = f.last ∧ 4 ≤ f.count ∧ f.level ≠ v)

/-- The timeouts: a head move that has stood in its phase for the configured minutes is halted with its cause. A stage whose time has
come goes on to the next one, with its setpoint. A bed blind for longer than its hold time has no demand. A piece old enough
for its mix passes its age test.
Model's choice: a stage report carries the setpoint of the stage begun (log 16). -/
def Obligations.TimersReached : Prop :=
  (∀ (s : State) (c : Settings) (m : Move) (t : Nat),
    let p := s.part
    p.runs c → headMove p = some m → m.start = some t →
    (m.phase = .toPick ∨ m.phase = .toPlace → c.claimMin * 60 ≤ p.now - t → Completes .claimTimeout s fun q =>
      craneFrame p q ∧ q.moves.target = none
        ∧ ∃ y ∈ q.moves.queue, y.tag = m.tag ∧ y.phase = .halted ∧ y.halt = some (m.phase, .claimTimeout))
    ∧ (m.phase = .atPick ∨ m.phase = .atPlace → c.pickMin * 60 ≤ p.now - t → Completes .pickTimeout s fun q =>
      craneFrame p q ∧ q.moves.target = none
        ∧ ∃ y ∈ q.moves.queue, y.tag = m.tag ∧ y.phase = .halted ∧ y.halt = some (m.phase, .timeout)))
  ∧ (∀ (s : State) (c : Settings) (b : Fin 4) (st : Stage),
    let p := s.part
    let x := p.bed b
    let start := if st = .ramp then max (c.bed b).tf ((p.bedTemp b).tc.getD (c.bed b).tf) else x.rampStart
    p.runs c → p.shaped → c.assigned b = true → x.stageRuns = true →
    nextStage (c.bed b) x.stage x.rampStart (x.elapsed p.now) = some st → nextStage (c.bed b) st start 0 = none →
    Completes (.stageTransition b) s fun q =>
      q.bed b = { x with
        stage := st, stageStart := p.now, rampStart := start, setpoint := stageSetpoint (c.bed b) st start 0 }
        ∧ (∀ j, j ≠ b.val → q.bed j = p.bed j) ∧ q.heat = p.heat ∧ q.out = p.out ∧ heatFrame p q)
  ∧ (∀ (s : State) (c : Settings) (b : Fin 4),
    let p := s.part
    p.runs c → p.shaped → c.assigned b = true → blindTooLong c p b = true →
    Completes (.blindHoldExpiry b) s fun q =>
      q.bed b = { p.bed b with db := 0 } ∧ (∀ j, j ≠ b.val → q.bed j = p.bed j) ∧ heatFrame p q)
  ∧ ∀ (s : State) (c : Settings) (id : Nat) (x : Piece), s.part.runs c → findPiece s.part id = some x →
    ageReached c s.part x = true →
    Completes (.ageTestReached id) s fun q =>
      craneFrame s.part q ∧ ∃ y, findPiece q id = some y ∧ y = { x with ageTest := true, announced := y.announced }

/-- A jack-home input: a change of its accepted level puts a DETENSIONING bed in DETENSIONED when it becomes active, and otherwise
changes the accepted level alone. The other beds, heat and outputs stand. A tick that ends 10 ms brings the event of a level that
is stable for five samples and not the accepted one.
Model's choices: the command sets the pin and fills the filter with its level (log 2); five equal samples are 50 ms (log 35). -/
def Obligations.JackHomeAccepted : Prop :=
  ∀ (s : State) (c : Settings) (b : Fin 4) (v : Bool),
    let p := s.part
    let x := p.bed b
    p.runs c → p.shaped → c.assigned b = true →
    (x.jack.level ≠ v → Completes (.jackHomeChange b v) s fun q =>
      q.bed b = (if v = true ∧ x.state = .detensioning then
          { x with jack := ⟨v, v, 5⟩, state := .detensioned, setpoint := (c.bed b).tf }
        else { x with jack := ⟨v, v, 5⟩ })
        ∧ (v = true → permitRequest q b = false ∨ x.state ≠ .detensioning)
        ∧ (∀ j, j ≠ b.val → q.bed j = p.bed j) ∧ q.heat = p.heat ∧ q.out = p.out ∧ q.scan = p.scan
        ∧ q.maturity = p.maturity ∧ q.travel = p.travel ∧ q.clock = p.clock ∧ q.config = p.config ∧ q.run = p.run
        ∧ q.pins = { p.pins with jhome := p.pins.jhome.set b v } ∧ p.line.keeps q.line ∧ p.mem.keeps q.mem)
    ∧ (p.clock.endsTen = true →
        (Instr.jackHomeChange b v ∈ dueNow p ↔
          p.pins.jhome.getD b false = v ∧ v = x.jack.last ∧ 4 ≤ x.jack.count ∧ x.jack.level ≠ v))

/-! ### Heat share unit (04) -/

/-- The grant: the rows of its table in their order, below the own demand in the last row, at the capacity when no peer is
counted and below it otherwise; the range of the demand, and the capacity in force, which is bytes 7 and 8 of the image.
Model's choice: the settings without a place stand beside the image's bytes (log 6). -/
def Obligations.GrantTable : Prop :=
  ∀ (c : Settings) (p : Part),
    let ds := totalDemand c p
    let t := ds + listDemand p.heat.list
    let g := (shareOf c p).grant
    (shareOf c p).ds = ds
      ∧ (0 < p.heat.listening ∨ p.inClash = true → g = 0)
      ∧ (p.heat.listening = 0 → p.inClash = false → ds = 0 → g = 0)
      ∧ (p.heat.listening = 0 → p.inClash = false → ds ≠ 0 → t ≤ c.capacity → g = ds)
      ∧ (p.heat.listening = 0 → p.inClash = false → ds ≠ 0 → c.capacity < t → g = ds * c.capacity / t ∧ g < ds)
      ∧ (p.heat.listening = 0 → p.inClash = false → c.capacity < ds → p.heat.list = [] → g = c.capacity)
      ∧ (p.heat.listening = 0 → p.inClash = false → c.capacity < ds → 1 ≤ c.capacity → 0 < listDemand p.heat.list →
          g < c.capacity)
      ∧ ((∀ b < 4, (p.bed b).db ≤ 2000) → ds ≤ 8000 ∧ (c.capacity ≤ 60000 → ds * c.capacity ≤ 480000000))
      ∧ ∀ own img d, readImage own img = some d →
          d.capacity = img.raw.capacity ∧ d.capacity = img.field 7 2 ∧ 1 ≤ d.capacity ∧ d.capacity ≤ 60000

/-- The allocations of one computation: each the bed's part of the grant, 0 without a demand, together at most the grant; and the
shed level by its table. -/
def Obligations.AllocationsWithinGrant : Prop :=
  ∀ (c : Settings) (p : Part) (forced : List Nat),
    let q := computeGrant c forced p
    let h := q.heat
    (∀ b < 4, h.alloc.getD b 0 =
        if c.assigned b ∧ totalDemand c p ≠ 0 then (p.bed b).db * h.grant / totalDemand c p else 0)
      ∧ (∀ b < 4, (p.bed b).db = 0 → h.alloc.getD b 0 = 0)
      ∧ h.alloc.sum ≤ h.grant
      ∧ h.grant ≤ totalDemand c p
      ∧ (totalDemand c p = 0 → h.shed = 0)
      ∧ (totalDemand c p ≠ 0 →
          let r := h.grant * 1000 / totalDemand c p
          r ≤ 1000 ∧ (r = 1000 → h.shed = 0) ∧ (750 ≤ r → r < 1000 → h.shed = 1) ∧ (500 ≤ r → r < 750 → h.shed = 2)
            ∧ (250 ≤ r → r < 500 → h.shed = 3) ∧ (r < 250 → h.shed = 4))
      ∧ q.out.lastShed = h.shed ∧ q.beds = p.beds

/-- A HEAT notice: the entry of its source has the announced demand and age 0, and the grant is computed anew exactly when the counted
total rises. A payload without its fields is a sign of life alone.
Model's choice: such a payload is not counted as a payload discard (log 43). -/
def Obligations.HeatNoticeTaken : Prop :=
  ∀ (s : State) (c : Settings) (src target : Byte) (pl : List Byte),
    let p := s.part
    let e : HeatEntry := ⟨src.toNat, num (pl.take 2), 0⟩
    let l := putBy (·.addr) e p.heat.list
    p.runs c → receiving p = true → src.toNat ≠ p.line.own →
    (5 ≤ pl.length → Completes (.heatNoticeReceived src target pl) s fun q =>
      q.heat.list = l ∧ e ∈ q.heat.list ∧ q.heat.heard = true ∧ q.heat.listening = p.heat.listening
        ∧ q.heat.deaf = p.heat.deaf
        ∧ (listDemand p.heat.list < listDemand l →
            q.heat.grant = grantOf (decide (0 < p.heat.listening) || p.inClash) (totalDemand c p)
              (totalDemand c p + listDemand l) c.capacity)
        ∧ (listDemand l ≤ listDemand p.heat.list → q = { heard p with heat := q.heat } ∧ q.heat.grant = p.heat.grant
            ∧ q.heat.alloc = p.heat.alloc ∧ q.heat.shed = p.heat.shed)
        ∧ q.beds = p.beds ∧ heatFrame (heard p) q)
    ∧ (pl.length < 5 → exec (.heatNoticeReceived src target pl) s = .next { s with part := heard p })

/-- A heat period boundary: the listening count falls, the entries age, DEAF follows the heard flag, with its report, stale entries
go when the line was heard and DEAF did not end, the heard flag is cleared, the grant is computed and the HEAT notice waits.
While the shed level stays, the report of DEAF is the only one.
Model's choices: the boundary comes as a command that clears its phase count and its mark (log 8), and a placement ends contention
(log 11). -/
def Obligations.HeatPeriodTurns : Prop :=
  ∀ (s : State) (c : Settings),
    let p := s.part
    let aged := p.heat.list.map fun e => { e with age := min 255 (e.age + 1) }
    p.runs c →
    Completes .heatPeriodBoundary s fun q =>
      q.heat.listening = p.heat.listening - 1 ∧ q.heat.heard = false
        ∧ q.heat.deaf.isSome = !p.heat.heard
        ∧ (p.heat.heard = false → q.heat.deaf = some ((p.heat.deaf.getD 0) + 1))
        ∧ q.heat.list = (if p.heat.heard = true ∧ p.heat.deaf = none then aged.filter fun e => decide (e.age < 6) else aged)
        ∧ q.heat.ds = totalDemand c p
        ∧ q.heat.grant = grantOf (decide (0 < p.heat.listening - 1) || p.inClash) (totalDemand c p)
            (totalDemand c p + listDemand q.heat.list) c.capacity
        ∧ q.line.heatSlot = some ⟨q.heat.ds, q.heat.grant, q.heat.shed⟩
        ∧ (q.heat.shed = p.out.lastShed →
            (p.heat.heard = false → p.heat.deaf = none →
              q.line.reports = (p.line.placeReport (.deaf p.now p.heat.list.length)).reports)
            ∧ (∀ n, p.heat.heard = true → p.heat.deaf = some n →
              q.line.reports = (p.line.placeReport (.deafEnd p.now (n + 1))).reports)
            ∧ (p.heat.heard = p.heat.deaf.isNone → q.line.reports = p.line.takeOffered.reports))
        ∧ q.clock = { p.clock with heatPhase := 0, heatDue := false }
        ∧ q.beds = p.beds ∧ q.scan = p.scan ∧ q.maturity = p.maturity ∧ q.travel = p.travel ∧ q.span = p.span
        ∧ q.pieces = p.pieces ∧ q.moves = p.moves ∧ q.mem = p.mem ∧ q.pins = p.pins ∧ q.run = p.run
        ∧ q.config = p.config ∧ p.line.keeps q.line

/-- Every step keeps the grant law: the grant never exceeds the own demand, and a grant that is not 0, times the counted total, never
exceeds the own demand times the capacity. And every step keeps the law of CLASH: in CLASH the generator of an assigned bed has an
on-time of 0, and nothing but 0 waits for it. -/
def Obligations.GrantLawEveryStep : Prop :=
  (∀ s t : State, GrantInv s.part → step s = .next t → GrantInv t.part)
    ∧ ∀ s t : State, ClashInv s.part → step s = .next t → ClashInv t.part

/-! ### Output matrix (05) -/

/-- The heater pulse generator and the flow input: a period start takes the buffered on-time, or repeats the last; a pulse ends with
its request inactive, which breaks the open flow window; a rising edge adds one to the edge count, up to 65,535. Nothing else
changes.
Model's choices: a pulse end brings the phase to the on-time (log 2), and a rising edge counts also where the last sample read high
(log 29). -/
def Obligations.HeaterPulses : Prop :=
  ∀ (s : State) (c : Settings) (b : Fin 4),
    let p := s.part
    let g := p.gen b
    p.runs c → p.shaped → c.assigned b = true →
    Completes (.heaterPeriodStart b) s (fun q =>
      q.gen b = ⟨0, g.buffer.getD g.onTime, none⟩ ∧ heaterRequest c q b = decide (0 < g.buffer.getD g.onTime)
        ∧ (∀ j, j ≠ b.val → q.gen j = p.gen j ∧ q.flow j = p.flow j)
        ∧ q = { p with out := { p.out with gens := q.out.gens, flows := q.out.flows } })
    ∧ (g.request = true → g.onTime < (c.bed b).period → Completes (.heaterPulseEnd b) s fun q =>
      q.gen b = { g with phase := g.onTime } ∧ heaterRequest c q b = false
        ∧ q.flow b = { p.flow b with broken := true }
        ∧ (∀ j, j ≠ b.val → q.gen j = p.gen j ∧ q.flow j = p.flow j)
        ∧ q = { p with out := { p.out with gens := q.out.gens, flows := q.out.flows } })
    ∧ Completes (.flowRisingEdge b) s fun q =>
      q.flow b = { p.flow b with last := true, edges := min 65535 ((p.flow b).edges + 1) }
        ∧ (∀ j, j ≠ b.val → q.flow j = p.flow j)
        ∧ q = { p with out := { p.out with flows := q.out.flows }, pins := { p.pins with flow := q.pins.flow } }

/-- AUX and CLEAR_FAULT: their checks; the action acts on the commanded value, or on the saved value of a shed line, whose effective
value stays; a cleared flow fault leaves its run count at 0. The shed level sheds and restores the lines with a threshold.
Model's choice: a placement ends contention (log 11). -/
def Obligations.AuxAndFaults : Prop :=
  (∀ (s : State) (c : Settings) (src tag : Byte) (ps : List Byte),
    let p := heard s.part
    let k := par ps 0
    let act := fun v => if par ps 1 = 1 then true else if par ps 1 = 2 then false else !v
    TakesOrders s.part c src → s.part.shaped → 2 ≤ ps.length →
    Completes (.aux src tag ps) s fun q =>
      if 7 < k ∨ par ps 1 < 1 ∨ 3 < par ps 1 then AnsweredOnly p q src tag .range
      else
        Answered q src tag .done []
          ∧ q.auxLine k = (match (p.auxLine k).saved with
              | some v => { p.auxLine k with saved := some (act v) }
              | none => { p.auxLine k with commanded := act (p.auxLine k).commanded })
          ∧ ((p.auxLine k).saved.isSome = true → auxEffective c q k = auxEffective c p k)
          ∧ (∀ j, j ≠ k → q.auxLine j = p.auxLine j)
          ∧ q = { p with out := { p.out with aux := q.out.aux }, line := q.line } ∧ p.line.keeps q.line)
  ∧ (∀ (s : State) (c : Settings) (src tag : Byte) (ps : List Byte),
    let p := heard s.part
    let b := par ps 0
    TakesOrders s.part c src → s.part.shaped → 1 ≤ ps.length → b < 4 →
    Completes (.clearFault src tag ps) s fun q =>
      if c.assigned b = false then AnsweredOnly p q src tag .range
      else
        Answered q src tag .done [] ∧ (q.flow b).fault = false ∧ ((p.flow b).fault = true → (q.flow b).run = 0)
          ∧ ((p.flow b).fault = false → q = { p with line := q.line })
          ∧ (∀ j, j ≠ b → q.bed j = p.bed j) ∧ heatFrame p q)
  ∧ ∀ (c : Settings) (p : Part) (level k : Nat), p.out.aux.length = 8 → k < 8 → level ≠ p.out.lastShed →
      let a := p.auxLine k
      let y := (takeShed c level p).auxLine k
      ((Settings.auxCfg c k).threshold = none → y = a)
        ∧ (∀ t, (Settings.auxCfg c k).threshold = some t → a.saved = none →
            y = if t ≤ level then { a with saved := some a.commanded } else a)
        ∧ (∀ t v, (Settings.auxCfg c k).threshold = some t → a.saved = some v →
            y = if level < t then ⟨v, none⟩ else a)

/-- The travel code on the four sources: the rows of the table, no 11 on the speed lines, never both directions; and after every
reset the decision is stop. -/
def Obligations.TravelCoding : Prop :=
  (∀ (c : Settings) (p : Part),
    let src := fun x => requestedOf c p x
    let is := fun fwd rev s1 s0 =>
      src .travelFwd = fwd ∧ src .travelRev = rev ∧ src .speed1 = s1 ∧ src .speed0 = s0
    (p.span.decision = .stop → is false false false false)
      ∧ (p.span.decision = .go true .creep → is true false false false)
      ∧ (p.span.decision = .go true .slow → is true false false true)
      ∧ (p.span.decision = .go true .fast → is true false true false)
      ∧ (p.span.decision = .go false .creep → is false true false false)
      ∧ (p.span.decision = .go false .slow → is false true false true)
      ∧ (p.span.decision = .go false .fast → is false true true false)
      ∧ ¬(src .speed1 = true ∧ src .speed0 = true) ∧ ¬(src .travelFwd = true ∧ src .travelRev = true))
  ∧ ∀ m sup pins n, (Part.reset m sup pins n).span.decision = .stop

/-- The emergency: accepted, every masked line stands at its emergency level, a DETENSIONING bed is CURING again, the demand of masked
heaters is 0 and their requests are inactive, the head move is halted and travel stops. Released, the other beds' states stand,
a halted head move stays as it is with the whole queue, and lines that are not masked by a supply warning follow their requested
values. A tick that ends 10 ms samples the pin, and brings the event of a level read twice in a row that is not the accepted one.
Model's choices: the demands follow bed by bed (log 18), and the station time at which it began is kept, from which its seconds are
counted (log 31). -/
def Obligations.EmergencyActs : Prop :=
  ∀ (s : State) (c : Settings),
    let p := s.part
    p.runs c → p.shaped →
    (p.out.emergency.accepted = some false → Completes .emergencyAccepted s fun q =>
      q.emergencyActive = true ∧ q.out.emergency.since = p.now
        ∧ (∀ n, (Settings.line c n).mask = true → pinLevel q n = (Settings.line c n).level)
        ∧ (∀ b < 4, c.assigned b = true →
            (q.bed b).state = (if (p.bed b).state = .detensioning then .curing else (p.bed b).state)
              ∧ (q.bed b).releaseReady = (p.bed b).releaseReady ∧ (q.bed b).stage = (p.bed b).stage)
        ∧ (∀ b < 4, c.assigned b = true → heaterMasked c b = true → (q.bed b).db = 0 ∧ heaterRequest c q b = false)
        ∧ (∀ m, headMove p = some m → m.phase ≠ .halted →
            ∃ y ∈ q.moves.queue, y.tag = m.tag ∧ y.phase = .halted ∧ y.halt = some (m.phase, .emergency))
        ∧ q.span.decision = .stop
        ∧ q.clock = p.clock ∧ q.travel = p.travel ∧ q.scan = p.scan ∧ q.maturity = p.maturity ∧ q.supply = p.supply
        ∧ q.config = p.config ∧ q.run = p.run ∧ p.line.keeps q.line ∧ p.mem.keeps q.mem)
    ∧ (p.out.emergency.accepted = some true → Completes .emergencyReleased s fun q =>
      q.emergencyActive = false
        ∧ (∀ n, p.inWarning = false →
            pinLevel q n = (requestedOf c q (Settings.line c n).source != (Settings.line c n).invert))
        ∧ (∀ b < 4, (q.bed b).state = (p.bed b).state)
        ∧ (∀ m ∈ p.moves.queue, m.phase = .halted → ∃ y ∈ q.moves.queue, y.tag = m.tag)
        ∧ (∀ m, headMove p = some m → m.phase = .halted → q.moves.queue = p.moves.queue)
        ∧ q.clock = p.clock ∧ q.travel = p.travel ∧ q.scan = p.scan ∧ q.maturity = p.maturity ∧ q.supply = p.supply
        ∧ q.config = p.config ∧ q.run = p.run ∧ p.line.keeps q.line ∧ p.mem.keeps q.mem)
    ∧ (p.clock.endsTen = true → (tickPart p).out.emergency = { p.out.emergency with last := some p.pins.emgn })
    ∧ (Instr.emergencyAccepted ∈ dueNow p ↔ p.clock.endsTen = true ∧ p.pins.emgn = true
        ∧ p.out.emergency.last = some true ∧ p.out.emergency.accepted ≠ some true)
    ∧ (Instr.emergencyReleased ∈ dueNow p ↔ p.clock.endsTen = true ∧ p.pins.emgn = false
        ∧ p.out.emergency.last = some false ∧ p.out.emergency.accepted ≠ some false)

/-- The supply warning: masked lines stand at their emergency level, the requests of masked heaters are inactive, STATION_READY
is inactive, the head move is halted with cause EMERGENCY, travel stops and no block write begins; flow faults stand, and so do
AUX lines that are not shed. When it ends, STATION_READY is active outside CLASH.
Model's choice: the station time at which it began is kept, from which its seconds are counted (log 31). -/
def Obligations.SupplyMonitored : Prop :=
  ∀ (s : State) (c : Settings),
    let p := s.part
    p.runs c →
    (p.supply.state = .normal → Completes .supplyWarning s fun q =>
      q.supply = ⟨.warning, p.now⟩
        ∧ (∀ n, (Settings.line c n).mask = true → pinLevel q n = (Settings.line c n).level)
        ∧ (∀ b < 4, p.shaped → c.assigned b = true → heaterMasked c b = true →
            (q.bed b).db = 0 ∧ heaterRequest c q b = false)
        ∧ (∀ m, headMove p = some m → m.phase ≠ .halted →
            ∃ y ∈ q.moves.queue, y.tag = m.tag ∧ y.phase = .halted ∧ y.halt = some (m.phase, .emergency))
        ∧ stationReady q = false ∧ q.span.decision = .stop
        ∧ (∀ b, (q.flow b).fault = (p.flow b).fault)
        ∧ (∀ k, (Settings.auxCfg c k).threshold = none → q.auxLine k = p.auxLine k)
        ∧ exec .blockWriteBegin { s with part := q } = .next { s with part := q }
        ∧ q.clock = p.clock ∧ q.travel = p.travel ∧ q.scan = p.scan ∧ q.maturity = p.maturity ∧ q.config = p.config
        ∧ q.run = p.run ∧ p.line.keeps q.line ∧ p.mem.keeps q.mem)
    ∧ (p.supply.state = .warning → Completes .supplyOk s fun q =>
      q.supply.state = .normal ∧ stationReady q = !p.inClash
        ∧ (∀ b, (q.flow b).fault = (p.flow b).fault)
        ∧ (∀ k, (Settings.auxCfg c k).threshold = none → q.auxLine k = p.auxLine k)
        ∧ q.clock = p.clock ∧ q.travel = p.travel ∧ q.scan = p.scan ∧ q.maturity = p.maturity ∧ q.config = p.config
        ∧ q.run = p.run ∧ p.line.keeps q.line ∧ p.mem.keeps q.mem)

/-! ### Travel interpolator (06) -/

/-- The direction decoder: a neighbouring pattern is a step, the held one clears the uniform count, one farther away is a SKIP fault
that makes the position unknown; without a held pattern, and after a STUCK, a pattern is adopted with no direction. A uniform
sample is counted, and the 201st in a row is a STUCK fault. Beds, heat, scan and maturity stand.
Model's choice: TRACK_STUCK brings the uniform count to its value (log 2). -/
def Obligations.TracksDecode : Prop :=
  ∀ (s : State) (c : Settings),
    let p := s.part
    let t := p.travel
    let still := fun q : Part => q.beds = p.beds ∧ q.heat = p.heat ∧ q.out = p.out ∧ q.scan = p.scan
      ∧ q.maturity = p.maturity ∧ q.clock = p.clock ∧ q.config = p.config ∧ q.run = p.run ∧ p.line.keeps q.line
    let stuck := fun q : Part => q.travel.uniform = 201 ∧ q.travel.fault = true ∧ q.travel.cause = some .stuck
      ∧ q.travel.referenced = false ∧ q.span.decision = .stop ∧ q.travel.base = t.base ∧ q.travel.u = t.u
    p.runs c →
    (∀ k i ta tb tc, t.index = some k → k < 6 → t.uniform < 201 → patternIndex ta tb tc = some i →
      Completes (.trackStep ta tb tc) s fun q =>
        q.travel.index = some i ∧ q.travel.uniform = 0 ∧ still q
          ∧ (i = k → q.travel = { t with uniform := 0 })
          ∧ (i = (k + 1) % 6 → q.travel.dir = .forward ∧ q.travel.fault = t.fault
              ∧ q.travel.referenced = t.referenced
              ∧ (t.dir ≠ .forward → q.travel.up = true ∧ q.travel.timer = 0))
          ∧ (i = (k + 5) % 6 → q.travel.dir = .reverse ∧ q.travel.fault = t.fault
              ∧ q.travel.referenced = t.referenced
              ∧ (t.dir ≠ .reverse → q.travel.up = false ∧ q.travel.timer = 0))
          ∧ (i ≠ k → i ≠ (k + 1) % 6 → i ≠ (k + 5) % 6 →
              q.travel.dir = .none ∧ q.travel.fault = true ∧ q.travel.cause = some .skip ∧ q.travel.referenced = false
                ∧ q.span.decision = .stop)
          ∧ q.travel.base = t.base ∧ q.travel.u = t.u)
    ∧ (∀ i ta tb tc, t.index = none ∨ 201 ≤ t.uniform → patternIndex ta tb tc = some i →
      Completes (.trackStep ta tb tc) s fun q =>
        q.travel = { t with index := some i, dir := .none, uniform := 0 } ∧ still q)
    ∧ (∀ ta tb tc, patternIndex ta tb tc = none → t.uniform ≠ 200 → Completes (.trackStep ta tb tc) s fun q =>
        q.travel = { t with uniform := min 201 (t.uniform + 1) } ∧ still q)
    ∧ (∀ ta tb tc, patternIndex ta tb tc = none → t.uniform = 200 →
        Completes (.trackStep ta tb tc) s fun q => stuck q ∧ still q)
    ∧ (t.uniform < 201 → Completes .trackStuck s fun q => stuck q ∧ still q)

/-- Marks: an entry records the direction; the exit in that direction, or in any direction when none was recorded, sets the
position exactly to the mark's value, restarts the timer and the period counter and ends standstill; an exit that is no mark
event moves nothing. Every mark event makes the counter the last mark period, at least 1, or leaves none at 20,001. A known
position is not carried out of its range, at either end: that is a RANGE fault. An unknown one is clamped.
Model's choices: a mark command sets the pin (log 2); an entry command within a mark in progress is an entry too, which records the
direction anew (log 29); the base and u of a clamped mark (log 25). -/
def Obligations.MarksPass : Prop :=
  ∀ (s : State) (c : Settings),
    let p := s.part
    let t := p.travel
    let still := fun q : Part => q.beds = p.beds ∧ q.heat = p.heat ∧ q.out = p.out ∧ q.clock = p.clock
    let timed := fun q : Part => q.travel.counter = 0 ∧ q.travel.standstill = false
      ∧ q.travel.pprev = (if t.counter ≤ 20000 then some (max 1 t.counter) else none)
    let passed := fun q : Part => q.travel.timer = 0 ∧ timed q
      ∧ q.travel.mark = .out ∧ q.travel.referenced = t.referenced ∧ still q
    let beyond := fun q : Part => q.travel.fault = true ∧ q.travel.cause = some .range ∧ q.travel.referenced = false
      ∧ q.travel.base = t.base ∧ q.travel.u = t.u ∧ q.travel.index = t.index ∧ q.travel.dir = t.dir
      ∧ timed q ∧ q.span.decision = .stop ∧ still q
    p.runs c →
    (Completes .markEntry s fun q =>
      q = { p with travel := { t with mark := .entered t.dir }, pins := { p.pins with mark := true } })
    ∧ (t.mark = .entered .forward ∨ t.mark = .entered .none → t.dir = .forward →
        (t.base < 65535 → Completes .markEvent s fun q =>
          q.travel.base = t.base + 1 ∧ q.travel.u = 0 ∧ q.travel.count = (t.base + 1) * 16 ∧ q.travel.up = true
            ∧ passed q)
        ∧ (t.base = 65535 → t.referenced = true → Completes .markEvent s fun q => beyond q)
        ∧ (t.base = 65535 → t.referenced = false → Completes .markEvent s fun q =>
            q.travel.base = 65535 ∧ q.travel.u = 0 ∧ q.travel.up = true ∧ passed q))
    ∧ (t.mark = .entered .reverse ∨ t.mark = .entered .none → t.dir = .reverse →
        (0 < t.base → Completes .markEvent s fun q =>
          q.travel.base = t.base - 1 ∧ q.travel.u = 16 ∧ q.travel.count = t.base * 16 ∧ q.travel.up = false ∧ passed q)
        ∧ (t.base = 0 → t.referenced = true → Completes .markEvent s fun q => beyond q)
        ∧ (t.base = 0 → t.referenced = false → Completes .markEvent s fun q =>
            q.travel.base = 0 ∧ q.travel.u = 16 ∧ q.travel.up = false ∧ passed q))
    ∧ (exitDirection t.mark t.dir = none → Completes .markEvent s fun q =>
        q.travel = { t with mark := .out } ∧ still q)

/-- Microsteps: while they are made, u moves by one in the count direction within the caps of the last mark; they stop when the mark
period counter passes four periods; more than 2 s without a mark is standstill. The timer advances at each tick, and a
microstep falls due when it reaches a sixteenth of the mark period, at least one tick.
Model's choice: the commands bring the mark period counter to the value that times them (log 2). -/
def Obligations.MicrostepsWithinCaps : Prop :=
  ∀ (s : State) (c : Settings),
    let p := s.part
    let t := p.travel
    let still := fun q : Part => q.beds = p.beds ∧ q.heat = p.heat ∧ q.out = p.out ∧ q.scan = p.scan
      ∧ q.maturity = p.maturity ∧ q.clock = p.clock ∧ q.pins = p.pins ∧ p.line.keeps q.line
    p.runs c →
    (t.stepping = true → Completes .microstep s fun q =>
      q.travel.u = (if t.up then (if t.u < t.upperCap then t.u + 1 else t.u)
          else (if t.lowerCap < t.u then t.u - 1 else t.u))
        ∧ q.travel.base = t.base ∧ q.travel.timer = 0 ∧ q.travel.up = t.up ∧ q.travel.referenced = t.referenced
        ∧ still q)
    ∧ (t.stepping = false → Completes .microstep s fun q => q.travel = t ∧ still q)
    ∧ (∀ d, t.pprev = some d → 4 * d < 20001 → Completes .microstepStop s fun q =>
      q.travel.stepping = false ∧ 4 * d < q.travel.counter
        ∧ q.travel = { t with
            counter := q.travel.counter
            standstill := t.standstill || q.travel.counter == 20001 }
        ∧ still q)
    ∧ (t.pprev = none ∨ (∃ d, t.pprev = some d ∧ 20001 ≤ 4 * d) → Completes .microstepStop s fun q =>
      q.travel = t ∧ still q)
    ∧ (Completes .standstill s fun q =>
      q.travel = { t with counter := 20001, standstill := true } ∧ still q)
    ∧ (tickPart p).travel.timer = t.timer + 1
    ∧ (∀ d, t.pprev = some d →
        (Instr.microstep ∈ dueNow p ↔ t.counter ≤ 4 * d ∧ max 1 (d / 16) ≤ t.timer + 1)
          ∧ (Instr.microstepStop ∈ dueNow p ↔ t.counter = 4 * d))
    ∧ (Instr.standstill ∈ dueNow p ↔ t.counter = 20000)

/-- An active edge of the reference switch in forward travel sets the position to Rp, known and without fault, and leaves the mark period
alone; in any other direction it is ignored.
Model's choices: the command sets the pin and the last sample (log 2), and is an edge also where the last sample stood active
(log 29). -/
def Obligations.ReferenceTaken : Prop :=
  ∀ (s : State) (c : Settings),
    let p := s.part
    let t := p.travel
    p.runs c →
    (t.dir = .forward → Completes .referenceEdge s fun q =>
      q.position = some c.refPos ∧ q.travel.base = c.refPos / 16 ∧ q.travel.u = c.refPos % 16 ∧ q.travel.up = true
        ∧ q.travel.lastReverse = false ∧ q.travel.timer = 0 ∧ q.travel.fault = false ∧ q.travel.lastKnown = some c.refPos
        ∧ (∀ d, q.travel.mark ≠ .entered d) ∧ q.travel.pprev = t.pprev ∧ q.travel.counter = t.counter
        ∧ q.travel.standstill = t.standstill ∧ q.travel.occupancy = occupancyAt c c.refPos
        ∧ q.beds = p.beds ∧ q.heat = p.heat ∧ q.out = p.out ∧ q.clock = p.clock)
    ∧ (t.dir ≠ .forward → Completes .referenceEdge s fun q =>
      q = { p with travel := { t with refLast := true }, pins := { p.pins with refsw := c.refHigh } })

/-- Every step keeps the microstep count within its caps: 0..15 after a forward mark or a reference, 1..16 after a reverse mark. -/
def Obligations.CapsEveryStep : Prop :=
  ∀ s t : State, CapsInv s.part → step s = .next t → CapsInv t.part

/-! ### Span unit (07) -/

/-- A SPAN notice replaces the record of its sender, age 0, with its position known only under the referenced flag; the other records
stand. One too short for its fields is not taken; one with a bad entry is a payload discard. One from the address of a silent
record is reported, PEER_HEARD, whatever it contains. Each of its entries, however many they are, is then settled in turn. A new
HELD or OCCUPIED entry for a held span is a double hold: the station yields to OCCUPIED, and without occupying the span itself to a
rank that its own does not beat; it then loses the span, waits out two windows, and stops when the span lay on its stop reach.
Otherwise it keeps the span. Either way a notice is formed and the conflict reported. A better claim contests the own one, which
stays contested while it stands, and a new claim on a span the station claims, holds or occupies makes it form a notice at once.
No other span changes by the notice but those whose release is due, which go when a notice is formed.
Model's choices: a short SPAN payload is not counted (log 43), direction code 3 reads as NONE (log 39), PEER_HEARD comes before the
conflicts, which come in the order of the entries (log 7), what a notice does comes before what follows every event (log 15), and
a placement ends contention (log 11). -/
def Obligations.SpanNoticeTaken : Prop :=
  (∀ (s : State) (c : Settings) (src target : Byte) (pl : List Byte),
    let p := s.part
    p.runs c → receiving p = true → src.toNat ≠ p.line.own →
    (∀ n, readSpan pl = .notice n → Completes (.spanNoticeReceived src target pl) s fun q =>
      q.span.peers = putBy (·.addr) ⟨src.toNat, n.pos, n.referenced, n.half, n.dir, n.speed, n.entries, 0⟩ p.span.peers
        ∧ (n.referenced = false → n.pos = none)
        ∧ q.heat = (heard p).heat ∧ craneFrame (heard p) q
        ∧ q = settle c (takeSpanNotice c src.toNat n (heard p))
        ∧ (let old := p.span.peers.find? (·.addr == src.toNat)
          let fresh := n.entries.filter (isNew ((old.map (·.entries)).getD []))
          let due := fun k => (releaseDue p).spanAt k ≠ p.spanAt k
          (p.line.reports.length ≤ 8 → SendsFirst p q
              ((if old.any (fun x => decide (3000 < x.age)) = true then [.peerHeard src.toNat p.now] else [])
                ++ conflictReports p src.toNat false [] (fresh.filter (·.kind ≠ .claim))))
            ∧ (∀ e ∈ fresh, ∀ own, e.kind ≠ .claim → (p.spanAt e.span).role = .held own →
                e.kind = .occupied ∨ ((p.spanAt e.span).occupied = false ∧ own.better e.rank = false) →
                ¬due e.span ∨ n.entries = [e] →
                (q.spanAt e.span).role = .none ∧ (q.spanAt e.span).retry = some (p.msCount + 2 * c.window))
            ∧ (∀ e ∈ n.entries, ∀ r d contested sn, e.kind = .claim → (p.spanAt e.span).role = .claim r d contested sn →
                e.rank.better r = true → ¬due e.span → claimStands c q e.span = true →
                (q.spanAt e.span).role = .claim r d true sn)
            ∧ ∀ e ∈ fresh,
                (if e.kind = .claim then (p.spanAt e.span).role ≠ .none ∨ (p.spanAt e.span).occupied = true
                  else (p.spanAt e.span).role.isHeld = true) →
                q.span.formed = p.msCount ∧ q.line.spanSlot.isSome = true))
    ∧ (readSpan pl = .short → exec (.spanNoticeReceived src target pl) s = .next { s with part := heard p })
    ∧ (readSpan pl = .bad → Completes (.spanNoticeReceived src target pl) s fun q =>
      q = { heard p with line := { p.line with counters := p.line.counters.addValid.addPayload } }))
  ∧ (∀ (c : Settings) (p : Part) (addr : Nat) (e : Entry) (own : Rank), (p.spanAt e.span).role = .held own →
    let x := p.spanAt e.span
    let q := resolveDouble c addr e p
    let y := q.spanAt e.span
    let yields := e.kind = .occupied ∨ (x.occupied = false ∧ own.better e.rank = false)
    (yields → y.role = .none ∧ y.retry = some (p.msCount + 2 * c.window)
        ∧ q.line.reports.getLast? = some (.spanConflict e.span addr e.kind e.rank own true p.now)
        ∧ (p.span.yieldStop = false → (q.span.yieldStop = true ↔ p.travel.standstill = false
            ∧ ∃ n, p.position = some n
                ∧ intersects (c.spans.getD e.span default) (stretch c n p.span.decision).1 (stretch c n p.span.decision).2 = true)))
      ∧ (¬yields → (x.releasing = false → y = x) ∧ q.span.yieldStop = p.span.yieldStop
        ∧ q.line.reports.getLast? = some (.spanConflict e.span addr e.kind e.rank own false p.now))
      ∧ q.line.spanSlot.isSome = true ∧ q.span.formed = p.msCount)
  ∧ (∀ (p : Part) (e : Entry) (r : Rank) (d : Option Nat) (contested : Bool) (sn : Nat),
    (p.spanAt e.span).role = .claim r d contested sn →
    (e.kind = .claim → contest e p = p.setSpan e.span { p.spanAt e.span with
        role := .claim r d (contested || e.rank.better r) sn })
      ∧ (e.kind ≠ .claim → contest e p = p))
  ∧ (∀ (c : Settings) (p : Part) (addr : Nat) (n : SpanNotice),
    let fresh := n.entries.filter
      (isNew (((p.span.peers.find? (·.addr == addr)).map (·.entries)).getD []))
    let q := takeSpanNotice c addr n p
    let forms := ∃ e ∈ fresh,
      if e.kind = .claim then (p.spanAt e.span).role ≠ .none ∨ (p.spanAt e.span).occupied = true
      else (p.spanAt e.span).role.isHeld = true
    (∀ k, let x := p.spanAt k
      ((releaseDue p).spanAt k = x →
        (x.role = .none → q.spanAt k = x)
        ∧ (∀ own, x.role = .held own →
            let yields := ∃ e ∈ fresh, e.span = k ∧ e.kind ≠ .claim
              ∧ (e.kind = .occupied ∨ (x.occupied = false ∧ own.better e.rank = false))
            (yields → q.spanAt k = { x with role := .none, releasing := false, retry := some (p.msCount + 2 * c.window) })
              ∧ (¬yields → q.spanAt k = x))
        ∧ (∀ r d contested sn, x.role = .claim r d contested sn →
            q.spanAt k = { x with
              role := .claim r d
                (contested || n.entries.any fun e => e.span == k && e.kind == .claim && e.rank.better r) sn }))
      ∧ ((releaseDue p).spanAt k ≠ x → forms → (q.spanAt k).role = .none))
    ∧ (forms → q.span.formed = p.msCount ∧ q.line.spanSlot.isSome = true)
    ∧ (¬forms → q.span.formed = p.span.formed))
  ∧ ∀ (c : Settings) (p : Part), p.span.yieldStop = true →
      travelDecision c p = .stop
        ∧ (settleYield p).span.yieldStop = (!p.travel.standstill && p.travel.referenced)
        ∧ ∀ t, (setTarget t p).span.yieldStop = !(p.moves.target.isSome && t.isNone)

/-- The ages of the peer records: each increases by one, up to 65,535; a record is silent beyond 3000 ms, and a PEER_SILENT command
brings the one it names there. A record that becomes silent is reported with its address, the spans its entries name HELD or
OCCUPIED and station time, PEER_SILENT; one that names no span is not, nor is one that was silent before. Nothing but the crane
side changes.
Model's choices: PEER_SILENT brings the age to 3001 where it stands lower (log 2), a span beyond the own span table is told with the
others (log 27), several records are reported by ascending address (log 7), a report precedes the announcements of what follows
every event (log 15), and a placement ends contention (log 11). -/
def Obligations.PeersAge : Prop :=
  ∀ (s : State) (c : Settings),
    let p := s.part
    p.runs c →
    (p.span.peers.Pairwise (fun x y => x.addr < y.addr) → Completes .peerRecordAgeIncrease s fun q =>
      q.span.peers = p.span.peers.map (fun x => { x with age := min 65535 (x.age + 1) }) ∧ craneFrame p q
        ∧ (p.line.reports.length ≤ 8 → SendsFirst p q
            ((p.span.peers.filter fun x => x.age == 3000 && x.namedSpans != []).map fun x =>
              .peerSilent x.addr x.namedSpans p.now)))
    ∧ (∀ addr x, p.span.peers.find? (·.addr == addr) = some x → Completes (.peerSilent addr) s fun q =>
        (∃ y ∈ q.span.peers, y.addr = addr ∧ y.silent = true ∧ y.entries = x.entries) ∧ craneFrame p q
          ∧ (p.line.reports.length ≤ 8 → SendsFirst p q
              (if x.age ≤ 3000 ∧ x.namedSpans ≠ [] then [.peerSilent addr x.namedSpans p.now] else [])))
    ∧ ∀ (x : Peer) (k : Nat), k ∈ x.namedSpans ↔ k < 32 ∧ ∃ e ∈ x.entries, e.span = k ∧ e.kind ≠ .claim

/-- Claims: a claim opens on the next span of the route when its conditions hold, with the rank of the target's urgency and the
own address, its window pending, and a notice that carries it is formed at once. At the deadline of an open claim it is won when
it is not contested and no peer names its span, and lost with a retry time otherwise; while the same target is held, a won span
on its route stays held. A retry time passes when the count reaches it. A notice is formed at its interval with the station's
own position, half-length, direction, class and entries: the spans occupied, then those held and not occupied, then the span
claimed, each kind ascending. The spans whose release was due go with it, but under crane-local every held span is kept; after
it, the spans held that nothing keeps are those to be released next. SPAN_FREE takes a span from every silent record that names
it.
Model's choices: a timed command brings the millisecond count to its time, but for SPAN_NOTICE_INTERVAL, which forms a notice
whenever it comes (log 2), a claim opens last of what follows an event
(log 15), a notice is known for its claim by a number (log 20), a span is named when HELD or OCCUPIED (log 27), a held span that is
not occupied is entered as HELD whatever its releasing flag, so one that crane-local keeps with the flag set is entered (log 45),
and a placement ends contention (log 11). -/
def Obligations.ClaimsSettle : Prop :=
  (∀ (s : State) (c : Settings) (k d serial : Nat) (r : Rank) (contested : Bool),
    let p := s.part
    p.runs c → claimed p = some k → (p.spanAt k).role = .claim r (some d) contested serial → 0 < c.window →
    Completes .claimDeadline s fun q =>
      q.msCount = max p.msCount d ∧ q.clock.now = p.clock.now ∧ q.beds = p.beds ∧ q.heat = p.heat ∧ q.out = p.out
        ∧ q.travel = p.travel
        ∧ (contested = false → peerPart p k = [] → claimStands c p k = true → q.moves.target = p.moves.target →
            (q.spanAt k).role = .held r ∧ (q.spanAt k).releasing = false)
        ∧ (contested = true ∨ peerPart p k ≠ [] → (q.spanAt k).role = .none
            ∧ (q.spanAt k).retry = some (max p.msCount d + 2 * c.window)))
  ∧ (∀ s : State, openDeadline s.part = none → exec .claimDeadline s = .next s)
  ∧ (∀ (s : State) (c : Settings) (k : Fin 32) (r : Nat),
    let p := s.part
    p.runs c → (p.spanAt k).retry = some r →
    Completes (.retryTimePassed k) s fun q =>
      r ≤ q.msCount ∧ q.clock = { p.clock with ms := q.clock.ms } ∧ q.beds = p.beds ∧ q.heat = p.heat ∧ q.out = p.out
        ∧ q.travel = p.travel ∧ q.span.peers = p.span.peers
        ∧ ∀ pos t j, p.position = some pos → p.moves.target = some t → p.inClash = false → p.craneLocal = false →
            claimed p = none → countBeyond p < 4 → nextSpan c p pos t.pos = some j → j < p.span.spans.length →
            peerPart p j = [] → (∀ x, (p.spanAt j).retry = some x → x ≤ max p.msCount r) →
            max p.msCount r < p.span.formed + 200 → q.moves.target = p.moves.target →
            ∃ n sn, (q.spanAt j).role = .claim ⟨t.urgency, p.line.own⟩ none false sn ∧ claimed q = some j
              ∧ q.line.spanSlot = some n ∧ n.claimSerial = some sn ∧ n.pos = p.position ∧ n.entries = noticeEntries q
              ∧ q.span.formed = q.msCount)
  ∧ (∀ (p : Part) (e : Entry), e ∈ noticeEntries p ↔ e.span < p.span.spans.length ∧
      (match e.kind with
      | .occupied => (p.spanAt e.span).occupied = true ∧ e.rank = ⟨0, 0⟩
      | .held => (p.spanAt e.span).role = .held e.rank ∧ (p.spanAt e.span).occupied = false
      | .claim => ∃ d contested sn, (p.spanAt e.span).role = .claim e.rank d contested sn))
  ∧ (∀ p : Part, (noticeEntries p).Pairwise fun a b => b.kind.place < a.kind.place ∨ (a.kind = b.kind ∧ a.span < b.span))
  ∧ (∀ (s : State) (c : Settings),
    let p := s.part
    p.runs c →
    Completes .spanNoticeInterval s fun q =>
      (∃ n, q.line.spanSlot = some n ∧ n.pos = p.position ∧ n.referenced = p.travel.referenced ∧ n.half = c.half
        ∧ n.dir = p.travel.dir
        ∧ (claimed q = none ∨ claimed q = claimed (releaseDue p) →
            n.entries = noticeEntries (releaseDue p) ∧ n.speed = p.span.decision.speed?)
        ∧ (claimed (releaseDue p) = none → claimed q ≠ none → n.entries = noticeEntries q ∧ n.speed = q.span.decision.speed?))
        ∧ q.span.formed = p.msCount ∧ craneFrame p q
        ∧ (∀ k, (p.spanAt k).releasing = true → p.craneLocal = false ∨ p.position = none →
            (q.spanAt k).role.isHeld = false)
        ∧ (∀ k n, p.craneLocal = true → p.position = some n → (p.spanAt k).role.isHeld = true →
            q.spanAt k = p.spanAt k)
        ∧ ∀ k n, p.craneLocal = false → q.position = some n → (q.spanAt k).role.isHeld = true →
            (q.spanAt k).releasing = !keepsHold c q n k)
  ∧ ∀ (s : State) (c : Settings) (src tag : Byte) (ps : List Byte),
    let p := heard s.part
    let k := par ps 0
    TakesOrders s.part c src → 1 ≤ ps.length →
    Completes (.spanFree src tag ps) s fun q =>
      if c.spans.length ≤ k then AnsweredOnly p q src tag .range
      else if ∀ x ∈ p.span.peers, x.silent = true → x.names k = false then AnsweredOnly p q src tag .badState
      else
        Answered q src tag .done [] ∧ craneFrame p q
          ∧ (∀ x ∈ q.span.peers, x.silent = true → x.names k = false)
          ∧ q.span.peers.map (·.addr) = p.span.peers.map (·.addr)

/-- Every step keeps the travel law: motion is asked for only with the position known, no condition that stops travel, every span of
the extent and stop reach held or occupied, and every envelope ahead the gap away. Every step keeps the claim law: at most one
span is claimed, and its claim stands only while the target's route takes in the span.
Model's choice: the decision is formed after every event, before holds and claims (log 15). -/
def Obligations.TravelLawEveryStep : Prop :=
  (∀ s t : State, TravelInv s.part → step s = .next t → TravelInv t.part)
  ∧ ∀ s t : State, ClaimInv s.part → step s = .next t → ClaimInv t.part

/-! ### Line interface (10) -/

/-- Frames that are not taken: an ANSWER, a REPORT or an ORDER for another station is a sign of life alone; a HEAT or SPAN frame
that comes as OTHER_FRAME_RECEIVED has the effect of its notice; an ORDER for this station that is too short for a code and a
tag is a sign of life and a payload discard, or in CLASH an order discarded in CLASH; one with an unknown code, HOLD form or
query subject, or without the parameter that names them, is answered RANGE and changes nothing else; a frame that fails its
checks is counted by its cause and is no sign of life, and one with a length above 48 makes the receiver wait for an idle line.
The stuck line is kept with its start and ends with it; while it lasts no frame but a RESTART is taken and none is sent.
Model's choices: the order of the checks (log 12), a frame of any kind may come as OTHER_FRAME_RECEIVED and an ORDER too short
in CLASH counts there alone (log 14), a RESTART arrives on a stuck line (log 46), a placement ends contention (log 11), after a
framing error the receiver takes characters at once (log 42), and LINE_STUCK is reported unless the station is unconfigured (log
26). -/
def Obligations.FramesNotTaken : Prop :=
  (∀ (s : State) (c : Settings) (kind src target : Byte) (pl : List Byte), s.part.runs c → receiving s.part = true →
    src.toNat ≠ s.part.line.own → kind ≠ kindHeat → kind ≠ kindSpan → kind ≠ kindOrder ∨ target.toNat ≠ s.part.line.own →
    exec (.otherFrameReceived kind src target pl) s = .next { s with part := heard s.part })
  ∧ (∀ (s : State) (src target : Byte) (pl : List Byte),
      exec (.otherFrameReceived kindHeat src target pl) s = exec (.heatNoticeReceived src target pl) s
        ∧ exec (.otherFrameReceived kindSpan src target pl) s = exec (.spanNoticeReceived src target pl) s)
  ∧ (∀ (s : State) (c : Settings) (src target : Byte) (pl : List Byte), s.part.runs c → receiving s.part = true →
      src.toNat ≠ s.part.line.own → target.toNat = s.part.line.own → pl.length < 2 →
      Completes (.otherFrameReceived kindOrder src target pl) s fun q =>
        let k := (heard s.part).line.counters
        q = { heard s.part with line := { (heard s.part).line with
          counters := if s.part.line.clash.isSome then k.addInClash else k.addPayload } })
  ∧ (∀ (s : State) (c : Settings) (src target code tag : Byte) (ps : List Byte), TakesOrders s.part c src →
      target.toNat = s.part.line.own →
      (code.toNat = 0 ∨ 15 < code.toNat) ∨ (code.toNat = 4 ∧ (ps = [] ∨ 1 < par ps 0))
        ∨ (code.toNat = 14 ∧ (ps = [] ∨ par ps 0 = 0 ∨ 13 < par ps 0)) →
      Completes (.otherFrameReceived kindOrder src target (code :: tag :: ps)) s fun q =>
        AnsweredOnly (heard s.part) q src tag .range)
  ∧ (∀ (s : State) (bytes : List Byte) (framing : Bool) (w : Discard), s.part.run ≠ .inReset →
      s.part.line.waitIdle = false → classify bytes framing = some w →
      Completes (.frameDiscarded bytes framing) s fun q =>
        q = { s.part with line := { s.part.line with
          waitIdle := decide (4 ≤ bytes.length ∧ 48 < (bytes.getD 3 0).toNat)
          counters := match w with
            | .check => s.part.line.counters.addCheck
            | .header => s.part.line.counters.addHeader
            | .framing => s.part.line.counters.addFraming } })
  ∧ (∀ s : State, exec .lineIdle s = .next { s with part := { s.part with line := { s.part.line with waitIdle := false } } })
  ∧ (∀ s : State, s.part.run ≠ .inReset → s.part.line.stuck = none →
      Completes .lineStuck s fun q =>
        q.line = (if s.part.config.isSome = true ∨ s.part.run = .readingConfig then
            ({ s.part.line with stuck := some s.part.clock.ms }).placeReport .lineStuck
          else { s.part.line with stuck := some s.part.clock.ms })
          ∧ maySend q = false ∧ receiving q = false ∧ q = { s.part with line := q.line })
  ∧ ∀ (s : State) (t : Nat), s.part.line.stuck = some t →
      Completes .lineOk s fun q =>
        q.line = (if s.part.config.isSome = true ∨ s.part.run = .readingConfig then
            ({ s.part.line with stuck := none, waitIdle := false }).placeReport (.lineOk (s.part.clock.ms - t))
          else { s.part.line with stuck := none, waitIdle := false })
          ∧ q = { s.part with line := q.line }

/-- CLASH: a frame with the own source address begins it for 10 s, with no grant and no travel, STATION_READY inactive, the head
move halted with cause CRANE_FAULT and the claim withdrawn, its retry time standing; each further one counts and begins the 10 s
again. At its end the grant is computed anew and orders may be taken again.
Model's choice: CLASH_END brings the millisecond count to the clash end (log 2). -/
def Obligations.ClashEpisode : Prop :=
  (∀ (s : State) (c : Settings) (kind target : Byte) (pl : List Byte),
    let p := s.part
    p.runs c → receiving p = true → p.line.own < 256 →
    (p.line.clash = none → Completes (.clashFrame kind target pl) s fun q =>
      q.line.clash = some ⟨p.clock.ms + 10000, p.clock.ms, 1⟩ ∧ q.heat.grant = 0 ∧ q.span.decision = .stop
        ∧ (∀ b < 4, c.assigned b = true → p.out.gens.length = 4 → heaterRequest c q b = false)
        ∧ stationReady q = false
        ∧ (∀ m, headMove p = some m → m.phase ≠ .halted →
            ∃ y ∈ q.moves.queue, y.tag = m.tag ∧ y.phase = .halted ∧ y.halt = some (m.phase, .craneFault))
        ∧ (∀ k, claimed p = some k → (q.spanAt k).role = .none ∧ (q.spanAt k).retry = (p.spanAt k).retry)
        ∧ q.line.counters = p.line.counters.addValid ∧ q.clock = p.clock ∧ q.travel = p.travel ∧ q.beds = p.beds
        ∧ q.scan = p.scan ∧ q.maturity = p.maturity ∧ q.pins = p.pins)
    ∧ (∀ k, p.line.clash = some k → Completes (.clashFrame kind target pl) s fun q =>
      q = { p with line := { p.line with
        counters := p.line.counters.addValid
        clash := some ⟨p.clock.ms + 10000, k.sinceMs, min 255 (k.count + 1)⟩ } }))
  ∧ ∀ (s : State) (c : Settings) (k : Clash),
    let p := s.part
    p.runs c → p.line.clash = some k → Completes .clashEnd s fun q =>
      q.line.clash = none ∧ k.endMs ≤ q.clock.ms
        ∧ q.heat.grant = grantOf (decide (0 < p.heat.listening)) (totalDemand c p)
            (totalDemand c p + listDemand p.heat.list) c.capacity
        ∧ q.clock = { p.clock with ms := q.clock.ms } ∧ q.travel = p.travel ∧ q.beds = p.beds ∧ q.scan = p.scan
        ∧ q.maturity = p.maturity ∧ q.pins = p.pins ∧ q.line.counters = p.line.counters

/-- Transmission: the first waiting frame in slot order is offered; one that loses arbitration stays where it waited, and an answer that
had left its place goes back to the head of its queue, a full queue losing its newest answer, which is counted; a bit
error ends it and counts a report as dropped; a completed one has its dropped count taken off. After either of these the frame
has left its place. A completed notice opens the window of the claim it carries. Counters of answers, discards and orders stand.
Model's choices: a placement during contention takes the offered frame from its place (log 11), the own frame read back is no
frame received (log 13), and a notice is known for its claim by a number (log 20). -/
def Obligations.Transmission : Prop :=
  (∀ (s : State) (fr : TxFrame), maySend s.part = true → firstWaiting s.part.line = some fr →
    exec .transmitOffer s =
      .next { s with part := { s.part with line := { s.part.line with tx := some ⟨fr, true, true⟩ } } })
  ∧ (∀ (s : State) (fr : TxFrame), s.part.line.tx = some ⟨fr, true, true⟩ →
    exec .arbitrationLost s = .next { s with part := { s.part with line := { s.part.line with
      tx := none, counters := s.part.line.counters.addLost } } })
  ∧ (∀ (s : State) (a : Answer), s.part.line.tx = some ⟨.answer a, true, false⟩ → s.part.line.answers.length ≤ 4 →
    Completes .arbitrationLost s fun q =>
      q = { s.part with line := q.line } ∧ q.line.tx = none
        ∧ (s.part.line.answers.length < 4 →
            q.line.answers = a :: s.part.line.answers ∧ q.line.counters = s.part.line.counters.addLost
              ∧ q.line.restart = s.part.line.restart)
        ∧ (∀ l b, s.part.line.answers = l ++ [b] → l.length = 3 →
            q.line.answers = a :: l
              ∧ q.line.counters = { s.part.line.counters.addLost with
                  answersDropped := min 65535 (s.part.line.counters.answersDropped + 1) }
              ∧ (∀ r, b.restart = true → s.part.line.restart = some r → q.line.restart = some { r with ended := true })
              ∧ (b.restart = false → q.line.restart = s.part.line.restart)))
  ∧ (∀ (s : State) (fr : TxFrame) (cont inPlace : Bool), s.part.line.tx = some ⟨fr, cont, inPlace⟩ →
    Completes .bitError s fun q =>
      q.line.tx = none ∧ q.line.counters = s.part.line.counters.addBitError
        ∧ q.line.dropped = (match fr with | .report _ _ => min 255 (s.part.line.dropped + 1) | _ => s.part.line.dropped)
        ∧ q = { s.part with line := q.line }
        ∧ (∀ n, inPlace = true → fr = .heat n → q.line.heatSlot = none)
        ∧ (∀ n, inPlace = true → fr = .span n → q.line.spanSlot = none)
        ∧ (∀ r d, inPlace = true → fr = .report r d → q.line.reports = s.part.line.reports.drop 1)
        ∧ (∀ a, inPlace = true → fr = .answer a → q.line.answers = s.part.line.answers.drop 1))
  ∧ ∀ (s : State) (fr : TxFrame) (cont inPlace : Bool), s.part.line.tx = some ⟨fr, cont, inPlace⟩ →
    Completes .transmissionComplete s fun q =>
      q.line.tx = none ∧ q.line.counters = s.part.line.counters.addSent
        ∧ q.line.dropped = (match fr with | .report _ d => s.part.line.dropped - d | _ => s.part.line.dropped)
        ∧ q = { s.part with line := q.line, span := q.span }
        ∧ (∀ n, inPlace = true → fr = .heat n → q.line.heatSlot = none)
        ∧ (∀ n, inPlace = true → fr = .span n → q.line.spanSlot = none)
        ∧ (∀ r d, inPlace = true → fr = .report r d → q.line.reports = s.part.line.reports.drop 1)
        ∧ (∀ a, inPlace = true → fr = .answer a → q.line.answers = s.part.line.answers.drop 1)
        ∧ (∀ c n k r contested sn, s.part.runs c → fr = .span n → claimed s.part = some k →
            (s.part.spanAt k).role = .claim r none contested sn → n.claimSerial = some sn →
            (q.spanAt k).role = .claim r (some (s.part.msCount + c.window)) contested sn)

/-- Every step keeps the bounds of the line interface, and a station without a configuration has only answers to send once its image
has been read. -/
def Obligations.LineBoundsEveryStep : Prop :=
  ∀ s t : State, RunInv s.part → LineInv s.part → step s = .next t → RunInv t.part ∧ LineInv t.part

/-! ### Memory port (11) -/

/-- Block writes: an idle port takes the first dirty block of the round with its present contents; the last page leaves those contents in
the record memory; a page not done in time leaves the block dirty, sets the fault flag with its report, and leaves in that
block, whatever the free value, one of the old contents, the new contents or a failing check. A round ends with its move queue
write, or where the port passes to an earlier block, and then the fault flag is cleared when no write of the round failed.
Model's choice: a failed write leaves old contents, new contents or a failing check, as a free value decides (log 9), and where a
round ends (log 10). -/
def Obligations.BlockWrites : Prop :=
  (∀ (s : State) (c : Settings) (b : Block) (rest : List Block),
    let p := s.part
    p.runs c → p.mem.writing = none → p.mem.ahead = b :: rest → p.inWarning = false →
    Completes .blockWriteBegin s fun q =>
      q.mem.writing = some ⟨b, contents c p b⟩ ∧ b ∉ q.mem.dirty ∧ (∀ x ∈ p.mem.dirty, x ≠ b → x ∈ q.mem.dirty)
        ∧ q.mem.round = b.round + 1 ∧ q.mem.mem = p.mem.mem
        ∧ q.mem.fault = (p.mem.fault && (decide (p.mem.round ≤ b.round) || p.mem.roundFailed))
        ∧ q = { p with mem := q.mem })
  ∧ (∀ (s : State) (c : Settings) (w : WriteRun),
    let p := s.part
    p.runs c → p.mem.writing = some w →
    exec (.pageWriteDone false) s = .next s
      ∧ Completes (.pageWriteDone true) s fun q =>
        q.mem.writing = none ∧ q.mem.mem = p.mem.mem.store w.copy ∧ q.mem.dirty = p.mem.dirty
          ∧ q.mem.round = (if w.block = .moves then 0 else p.mem.round)
          ∧ q.mem.fault = (p.mem.fault && (decide (w.block ≠ .moves) || p.mem.roundFailed))
          ∧ q = { p with mem := q.mem })
  ∧ ∀ (s : State) (c : Settings) (w : WriteRun),
    let p := s.part
    p.runs c → p.mem.writing = some w →
    Completes .pageWriteTimeout s fun q =>
      q.mem.writing = none ∧ w.block ∈ q.mem.dirty ∧ q.mem.fault = true
        ∧ (q.mem.mem = p.mem.mem ∨ q.mem.mem = p.mem.mem.store w.copy ∨ q.mem.mem = p.mem.mem.spoil w.block)
        ∧ q.line = (if p.mem.fault then p.line else p.line.placeReport (.memoryFault w.block p.now))
        ∧ q = { p with mem := q.mem, line := q.line, freeCount := p.freeCount + 1 }

/-! ### Invariants -/

/-- Every step keeps the sizes of the tables of the part, of the record memory, of the write in flight and of the writes of a
flush. -/
def Obligations.ShapeEveryStep : Prop :=
  ∀ s t : State, ShapeInv s.part → step s = .next t → ShapeInv t.part

/-- The invariants hold at reset. -/
def Obligations.InvariantsAtReset : Prop :=
  let p := State.reset.part
  ShapeInv p ∧ RunInv p ∧ LineInv p ∧ GrantInv p ∧ ClashInv p ∧ CapsInv p ∧ TravelInv p ∧ ClaimInv p
end

