-- ==== Sys2Proof/Laws/State.lean ====
section
/-! SUPPORT. One lemma per field and update of the part: what each update leaves and what it sets. -/
namespace Sys2Proof.Machine
open Sys2Proof

@[simp] theorem onPart_part (s : State) (f : Part → Part) : (s.onPart f).part = f s.part := rfl
@[simp] theorem onPart_pending (s : State) (f : Part → Part) : (s.onPart f).pending = s.pending := rfl

@[simp] theorem report_run (p : Part) (r : Report) : (p.report r).run = p.run := rfl
@[simp] theorem report_config (p : Part) (r : Report) : (p.report r).config = p.config := rfl
@[simp] theorem report_clock (p : Part) (r : Report) : (p.report r).clock = p.clock := rfl
@[simp] theorem report_scan (p : Part) (r : Report) : (p.report r).scan = p.scan := rfl
@[simp] theorem report_maturity (p : Part) (r : Report) : (p.report r).maturity = p.maturity := rfl
@[simp] theorem report_beds (p : Part) (r : Report) : (p.report r).beds = p.beds := rfl
@[simp] theorem report_heat (p : Part) (r : Report) : (p.report r).heat = p.heat := rfl
@[simp] theorem report_out (p : Part) (r : Report) : (p.report r).out = p.out := rfl
@[simp] theorem report_travel (p : Part) (r : Report) : (p.report r).travel = p.travel := rfl
@[simp] theorem report_span (p : Part) (r : Report) : (p.report r).span = p.span := rfl
@[simp] theorem report_pieces (p : Part) (r : Report) : (p.report r).pieces = p.pieces := rfl
@[simp] theorem report_moves (p : Part) (r : Report) : (p.report r).moves = p.moves := rfl
@[simp] theorem report_line (p : Part) (r : Report) : (p.report r).line = p.line.placeReport r := rfl
@[simp] theorem report_mem (p : Part) (r : Report) : (p.report r).mem = p.mem := rfl
@[simp] theorem report_supply (p : Part) (r : Report) : (p.report r).supply = p.supply := rfl
@[simp] theorem report_pins (p : Part) (r : Report) : (p.report r).pins = p.pins := rfl
@[simp] theorem report_freeCount (p : Part) (r : Report) : (p.report r).freeCount = p.freeCount := rfl

@[simp] theorem markDirty_run (p : Part) (b : Block) : (p.markDirty b).run = p.run := rfl
@[simp] theorem markDirty_config (p : Part) (b : Block) : (p.markDirty b).config = p.config := rfl
@[simp] theorem markDirty_clock (p : Part) (b : Block) : (p.markDirty b).clock = p.clock := rfl
@[simp] theorem markDirty_scan (p : Part) (b : Block) : (p.markDirty b).scan = p.scan := rfl
@[simp] theorem markDirty_maturity (p : Part) (b : Block) : (p.markDirty b).maturity = p.maturity := rfl
@[simp] theorem markDirty_beds (p : Part) (b : Block) : (p.markDirty b).beds = p.beds := rfl
@[simp] theorem markDirty_heat (p : Part) (b : Block) : (p.markDirty b).heat = p.heat := rfl
@[simp] theorem markDirty_out (p : Part) (b : Block) : (p.markDirty b).out = p.out := rfl
@[simp] theorem markDirty_travel (p : Part) (b : Block) : (p.markDirty b).travel = p.travel := rfl
@[simp] theorem markDirty_span (p : Part) (b : Block) : (p.markDirty b).span = p.span := rfl
@[simp] theorem markDirty_pieces (p : Part) (b : Block) : (p.markDirty b).pieces = p.pieces := rfl
@[simp] theorem markDirty_moves (p : Part) (b : Block) : (p.markDirty b).moves = p.moves := rfl
@[simp] theorem markDirty_line (p : Part) (b : Block) : (p.markDirty b).line = p.line := rfl
@[simp] theorem markDirty_mem (p : Part) (b : Block) : (p.markDirty b).mem = { p.mem with dirty := putBy Block.round b p.mem.dirty } := rfl
@[simp] theorem markDirty_supply (p : Part) (b : Block) : (p.markDirty b).supply = p.supply := rfl
@[simp] theorem markDirty_pins (p : Part) (b : Block) : (p.markDirty b).pins = p.pins := rfl
@[simp] theorem markDirty_freeCount (p : Part) (b : Block) : (p.markDirty b).freeCount = p.freeCount := rfl

@[simp] theorem setBedTemp_run (p : Part) (b : Nat) (x : BedTemp) : (p.setBedTemp b x).run = p.run := rfl
@[simp] theorem setBedTemp_config (p : Part) (b : Nat) (x : BedTemp) : (p.setBedTemp b x).config = p.config := rfl
@[simp] theorem setBedTemp_clock (p : Part) (b : Nat) (x : BedTemp) : (p.setBedTemp b x).clock = p.clock := rfl
@[simp] theorem setBedTemp_scan (p : Part) (b : Nat) (x : BedTemp) : (p.setBedTemp b x).scan = { p.scan with beds := p.scan.beds.set b x } := rfl
@[simp] theorem setBedTemp_maturity (p : Part) (b : Nat) (x : BedTemp) : (p.setBedTemp b x).maturity = p.maturity := rfl
@[simp] theorem setBedTemp_beds (p : Part) (b : Nat) (x : BedTemp) : (p.setBedTemp b x).beds = p.beds := rfl
@[simp] theorem setBedTemp_heat (p : Part) (b : Nat) (x : BedTemp) : (p.setBedTemp b x).heat = p.heat := rfl
@[simp] theorem setBedTemp_out (p : Part) (b : Nat) (x : BedTemp) : (p.setBedTemp b x).out = p.out := rfl
@[simp] theorem setBedTemp_travel (p : Part) (b : Nat) (x : BedTemp) : (p.setBedTemp b x).travel = p.travel := rfl
@[simp] theorem setBedTemp_span (p : Part) (b : Nat) (x : BedTemp) : (p.setBedTemp b x).span = p.span := rfl
@[simp] theorem setBedTemp_pieces (p : Part) (b : Nat) (x : BedTemp) : (p.setBedTemp b x).pieces = p.pieces := rfl
@[simp] theorem setBedTemp_moves (p : Part) (b : Nat) (x : BedTemp) : (p.setBedTemp b x).moves = p.moves := rfl
@[simp] theorem setBedTemp_line (p : Part) (b : Nat) (x : BedTemp) : (p.setBedTemp b x).line = p.line := rfl
@[simp] theorem setBedTemp_mem (p : Part) (b : Nat) (x : BedTemp) : (p.setBedTemp b x).mem = p.mem := rfl
@[simp] theorem setBedTemp_supply (p : Part) (b : Nat) (x : BedTemp) : (p.setBedTemp b x).supply = p.supply := rfl
@[simp] theorem setBedTemp_pins (p : Part) (b : Nat) (x : BedTemp) : (p.setBedTemp b x).pins = p.pins := rfl
@[simp] theorem setBedTemp_freeCount (p : Part) (b : Nat) (x : BedTemp) : (p.setBedTemp b x).freeCount = p.freeCount := rfl

@[simp] theorem setFlow_run (p : Part) (b : Nat) (x : Flow) : (p.setFlow b x).run = p.run := rfl
@[simp] theorem setFlow_config (p : Part) (b : Nat) (x : Flow) : (p.setFlow b x).config = p.config := rfl
@[simp] theorem setFlow_clock (p : Part) (b : Nat) (x : Flow) : (p.setFlow b x).clock = p.clock := rfl
@[simp] theorem setFlow_scan (p : Part) (b : Nat) (x : Flow) : (p.setFlow b x).scan = p.scan := rfl
@[simp] theorem setFlow_maturity (p : Part) (b : Nat) (x : Flow) : (p.setFlow b x).maturity = p.maturity := rfl
@[simp] theorem setFlow_beds (p : Part) (b : Nat) (x : Flow) : (p.setFlow b x).beds = p.beds := rfl
@[simp] theorem setFlow_heat (p : Part) (b : Nat) (x : Flow) : (p.setFlow b x).heat = p.heat := rfl
@[simp] theorem setFlow_out (p : Part) (b : Nat) (x : Flow) : (p.setFlow b x).out = { p.out with flows := p.out.flows.set b x } := rfl
@[simp] theorem setFlow_travel (p : Part) (b : Nat) (x : Flow) : (p.setFlow b x).travel = p.travel := rfl
@[simp] theorem setFlow_span (p : Part) (b : Nat) (x : Flow) : (p.setFlow b x).span = p.span := rfl
@[simp] theorem setFlow_pieces (p : Part) (b : Nat) (x : Flow) : (p.setFlow b x).pieces = p.pieces := rfl
@[simp] theorem setFlow_moves (p : Part) (b : Nat) (x : Flow) : (p.setFlow b x).moves = p.moves := rfl
@[simp] theorem setFlow_line (p : Part) (b : Nat) (x : Flow) : (p.setFlow b x).line = p.line := rfl
@[simp] theorem setFlow_mem (p : Part) (b : Nat) (x : Flow) : (p.setFlow b x).mem = p.mem := rfl
@[simp] theorem setFlow_supply (p : Part) (b : Nat) (x : Flow) : (p.setFlow b x).supply = p.supply := rfl
@[simp] theorem setFlow_pins (p : Part) (b : Nat) (x : Flow) : (p.setFlow b x).pins = p.pins := rfl
@[simp] theorem setFlow_freeCount (p : Part) (b : Nat) (x : Flow) : (p.setFlow b x).freeCount = p.freeCount := rfl

@[simp] theorem setSpan_run (p : Part) (k : Nat) (x : Span) : (p.setSpan k x).run = p.run := rfl
@[simp] theorem setSpan_config (p : Part) (k : Nat) (x : Span) : (p.setSpan k x).config = p.config := rfl
@[simp] theorem setSpan_clock (p : Part) (k : Nat) (x : Span) : (p.setSpan k x).clock = p.clock := rfl
@[simp] theorem setSpan_scan (p : Part) (k : Nat) (x : Span) : (p.setSpan k x).scan = p.scan := rfl
@[simp] theorem setSpan_maturity (p : Part) (k : Nat) (x : Span) : (p.setSpan k x).maturity = p.maturity := rfl
@[simp] theorem setSpan_beds (p : Part) (k : Nat) (x : Span) : (p.setSpan k x).beds = p.beds := rfl
@[simp] theorem setSpan_heat (p : Part) (k : Nat) (x : Span) : (p.setSpan k x).heat = p.heat := rfl
@[simp] theorem setSpan_out (p : Part) (k : Nat) (x : Span) : (p.setSpan k x).out = p.out := rfl
@[simp] theorem setSpan_travel (p : Part) (k : Nat) (x : Span) : (p.setSpan k x).travel = p.travel := rfl
@[simp] theorem setSpan_span (p : Part) (k : Nat) (x : Span) : (p.setSpan k x).span = { p.span with spans := p.span.spans.set k x } := rfl
@[simp] theorem setSpan_pieces (p : Part) (k : Nat) (x : Span) : (p.setSpan k x).pieces = p.pieces := rfl
@[simp] theorem setSpan_moves (p : Part) (k : Nat) (x : Span) : (p.setSpan k x).moves = p.moves := rfl
@[simp] theorem setSpan_line (p : Part) (k : Nat) (x : Span) : (p.setSpan k x).line = p.line := rfl
@[simp] theorem setSpan_mem (p : Part) (k : Nat) (x : Span) : (p.setSpan k x).mem = p.mem := rfl
@[simp] theorem setSpan_supply (p : Part) (k : Nat) (x : Span) : (p.setSpan k x).supply = p.supply := rfl
@[simp] theorem setSpan_pins (p : Part) (k : Nat) (x : Span) : (p.setSpan k x).pins = p.pins := rfl
@[simp] theorem setSpan_freeCount (p : Part) (k : Nat) (x : Span) : (p.setSpan k x).freeCount = p.freeCount := rfl

@[simp] theorem setTarget_run (p : Part) (x : Option Target) : (setTarget x p).run = p.run := rfl
@[simp] theorem setTarget_config (p : Part) (x : Option Target) : (setTarget x p).config = p.config := rfl
@[simp] theorem setTarget_clock (p : Part) (x : Option Target) : (setTarget x p).clock = p.clock := rfl
@[simp] theorem setTarget_scan (p : Part) (x : Option Target) : (setTarget x p).scan = p.scan := rfl
@[simp] theorem setTarget_maturity (p : Part) (x : Option Target) : (setTarget x p).maturity = p.maturity := rfl
@[simp] theorem setTarget_beds (p : Part) (x : Option Target) : (setTarget x p).beds = p.beds := rfl
@[simp] theorem setTarget_heat (p : Part) (x : Option Target) : (setTarget x p).heat = p.heat := rfl
@[simp] theorem setTarget_out (p : Part) (x : Option Target) : (setTarget x p).out = p.out := rfl
@[simp] theorem setTarget_travel (p : Part) (x : Option Target) : (setTarget x p).travel = p.travel := rfl
@[simp] theorem setTarget_span (p : Part) (x : Option Target) : (setTarget x p).span = { p.span with yieldStop := p.span.yieldStop && !(p.moves.target.isSome && x.isNone) } := rfl
@[simp] theorem setTarget_pieces (p : Part) (x : Option Target) : (setTarget x p).pieces = p.pieces := rfl
@[simp] theorem setTarget_moves (p : Part) (x : Option Target) : (setTarget x p).moves = { p.moves with target := x } := rfl
@[simp] theorem setTarget_line (p : Part) (x : Option Target) : (setTarget x p).line = p.line := rfl
@[simp] theorem setTarget_mem (p : Part) (x : Option Target) : (setTarget x p).mem = p.mem := rfl
@[simp] theorem setTarget_supply (p : Part) (x : Option Target) : (setTarget x p).supply = p.supply := rfl
@[simp] theorem setTarget_pins (p : Part) (x : Option Target) : (setTarget x p).pins = p.pins := rfl
@[simp] theorem setTarget_freeCount (p : Part) (x : Option Target) : (setTarget x p).freeCount = p.freeCount := rfl

@[simp] theorem mapPieces_run (p : Part) (f : Piece → Piece) : (p.mapPieces f).run = p.run := rfl
@[simp] theorem mapPieces_config (p : Part) (f : Piece → Piece) : (p.mapPieces f).config = p.config := rfl
@[simp] theorem mapPieces_clock (p : Part) (f : Piece → Piece) : (p.mapPieces f).clock = p.clock := rfl
@[simp] theorem mapPieces_scan (p : Part) (f : Piece → Piece) : (p.mapPieces f).scan = p.scan := rfl
@[simp] theorem mapPieces_maturity (p : Part) (f : Piece → Piece) : (p.mapPieces f).maturity = p.maturity := rfl
@[simp] theorem mapPieces_beds (p : Part) (f : Piece → Piece) : (p.mapPieces f).beds = p.beds := rfl
@[simp] theorem mapPieces_heat (p : Part) (f : Piece → Piece) : (p.mapPieces f).heat = p.heat := rfl
@[simp] theorem mapPieces_out (p : Part) (f : Piece → Piece) : (p.mapPieces f).out = p.out := rfl
@[simp] theorem mapPieces_travel (p : Part) (f : Piece → Piece) : (p.mapPieces f).travel = p.travel := rfl
@[simp] theorem mapPieces_span (p : Part) (f : Piece → Piece) : (p.mapPieces f).span = p.span := rfl
@[simp] theorem mapPieces_pieces (p : Part) (f : Piece → Piece) : (p.mapPieces f).pieces = { p.pieces with register := p.pieces.register.map (Option.map f) } := rfl
@[simp] theorem mapPieces_moves (p : Part) (f : Piece → Piece) : (p.mapPieces f).moves = p.moves := rfl
@[simp] theorem mapPieces_line (p : Part) (f : Piece → Piece) : (p.mapPieces f).line = p.line := rfl
@[simp] theorem mapPieces_mem (p : Part) (f : Piece → Piece) : (p.mapPieces f).mem = p.mem := rfl
@[simp] theorem mapPieces_supply (p : Part) (f : Piece → Piece) : (p.mapPieces f).supply = p.supply := rfl
@[simp] theorem mapPieces_pins (p : Part) (f : Piece → Piece) : (p.mapPieces f).pins = p.pins := rfl
@[simp] theorem mapPieces_freeCount (p : Part) (f : Piece → Piece) : (p.mapPieces f).freeCount = p.freeCount := rfl

@[simp] theorem count_run (p : Part) (f : Counters → Counters) : (p.count f).run = p.run := rfl
@[simp] theorem count_config (p : Part) (f : Counters → Counters) : (p.count f).config = p.config := rfl
@[simp] theorem count_clock (p : Part) (f : Counters → Counters) : (p.count f).clock = p.clock := rfl
@[simp] theorem count_scan (p : Part) (f : Counters → Counters) : (p.count f).scan = p.scan := rfl
@[simp] theorem count_maturity (p : Part) (f : Counters → Counters) : (p.count f).maturity = p.maturity := rfl
@[simp] theorem count_beds (p : Part) (f : Counters → Counters) : (p.count f).beds = p.beds := rfl
@[simp] theorem count_heat (p : Part) (f : Counters → Counters) : (p.count f).heat = p.heat := rfl
@[simp] theorem count_out (p : Part) (f : Counters → Counters) : (p.count f).out = p.out := rfl
@[simp] theorem count_travel (p : Part) (f : Counters → Counters) : (p.count f).travel = p.travel := rfl
@[simp] theorem count_span (p : Part) (f : Counters → Counters) : (p.count f).span = p.span := rfl
@[simp] theorem count_pieces (p : Part) (f : Counters → Counters) : (p.count f).pieces = p.pieces := rfl
@[simp] theorem count_moves (p : Part) (f : Counters → Counters) : (p.count f).moves = p.moves := rfl
@[simp] theorem count_line (p : Part) (f : Counters → Counters) : (p.count f).line = { p.line with counters := f p.line.counters } := rfl
@[simp] theorem count_mem (p : Part) (f : Counters → Counters) : (p.count f).mem = p.mem := rfl
@[simp] theorem count_supply (p : Part) (f : Counters → Counters) : (p.count f).supply = p.supply := rfl
@[simp] theorem count_pins (p : Part) (f : Counters → Counters) : (p.count f).pins = p.pins := rfl
@[simp] theorem count_freeCount (p : Part) (f : Counters → Counters) : (p.count f).freeCount = p.freeCount := rfl

@[simp] theorem reachCount_run (p : Part) (n : Nat) : (p.reachCount n).run = p.run := rfl
@[simp] theorem reachCount_config (p : Part) (n : Nat) : (p.reachCount n).config = p.config := rfl
@[simp] theorem reachCount_clock (p : Part) (n : Nat) : (p.reachCount n).clock = { p.clock with ms := max p.clock.ms (p.clock.startMs + n) } := rfl
@[simp] theorem reachCount_scan (p : Part) (n : Nat) : (p.reachCount n).scan = p.scan := rfl
@[simp] theorem reachCount_maturity (p : Part) (n : Nat) : (p.reachCount n).maturity = p.maturity := rfl
@[simp] theorem reachCount_beds (p : Part) (n : Nat) : (p.reachCount n).beds = p.beds := rfl
@[simp] theorem reachCount_heat (p : Part) (n : Nat) : (p.reachCount n).heat = p.heat := rfl
@[simp] theorem reachCount_out (p : Part) (n : Nat) : (p.reachCount n).out = p.out := rfl
@[simp] theorem reachCount_travel (p : Part) (n : Nat) : (p.reachCount n).travel = p.travel := rfl
@[simp] theorem reachCount_span (p : Part) (n : Nat) : (p.reachCount n).span = p.span := rfl
@[simp] theorem reachCount_pieces (p : Part) (n : Nat) : (p.reachCount n).pieces = p.pieces := rfl
@[simp] theorem reachCount_moves (p : Part) (n : Nat) : (p.reachCount n).moves = p.moves := rfl
@[simp] theorem reachCount_line (p : Part) (n : Nat) : (p.reachCount n).line = p.line := rfl
@[simp] theorem reachCount_mem (p : Part) (n : Nat) : (p.reachCount n).mem = p.mem := rfl
@[simp] theorem reachCount_supply (p : Part) (n : Nat) : (p.reachCount n).supply = p.supply := rfl
@[simp] theorem reachCount_pins (p : Part) (n : Nat) : (p.reachCount n).pins = p.pins := rfl
@[simp] theorem reachCount_freeCount (p : Part) (n : Nat) : (p.reachCount n).freeCount = p.freeCount := rfl

@[simp] theorem markIf_run (p : Part) (v : Bool) (b : Block) : (p.markIf v b).run = p.run := by cases v <;> rfl
@[simp] theorem markIf_config (p : Part) (v : Bool) (b : Block) : (p.markIf v b).config = p.config := by cases v <;> rfl
@[simp] theorem markIf_clock (p : Part) (v : Bool) (b : Block) : (p.markIf v b).clock = p.clock := by cases v <;> rfl
@[simp] theorem markIf_scan (p : Part) (v : Bool) (b : Block) : (p.markIf v b).scan = p.scan := by cases v <;> rfl
@[simp] theorem markIf_maturity (p : Part) (v : Bool) (b : Block) : (p.markIf v b).maturity = p.maturity := by cases v <;> rfl
@[simp] theorem markIf_beds (p : Part) (v : Bool) (b : Block) : (p.markIf v b).beds = p.beds := by cases v <;> rfl
@[simp] theorem markIf_heat (p : Part) (v : Bool) (b : Block) : (p.markIf v b).heat = p.heat := by cases v <;> rfl
@[simp] theorem markIf_out (p : Part) (v : Bool) (b : Block) : (p.markIf v b).out = p.out := by cases v <;> rfl
@[simp] theorem markIf_travel (p : Part) (v : Bool) (b : Block) : (p.markIf v b).travel = p.travel := by cases v <;> rfl
@[simp] theorem markIf_span (p : Part) (v : Bool) (b : Block) : (p.markIf v b).span = p.span := by cases v <;> rfl
@[simp] theorem markIf_pieces (p : Part) (v : Bool) (b : Block) : (p.markIf v b).pieces = p.pieces := by cases v <;> rfl
@[simp] theorem markIf_moves (p : Part) (v : Bool) (b : Block) : (p.markIf v b).moves = p.moves := by cases v <;> rfl
@[simp] theorem markIf_line (p : Part) (v : Bool) (b : Block) : (p.markIf v b).line = p.line := by cases v <;> rfl
@[simp] theorem markIf_supply (p : Part) (v : Bool) (b : Block) : (p.markIf v b).supply = p.supply := by cases v <;> rfl
@[simp] theorem markIf_pins (p : Part) (v : Bool) (b : Block) : (p.markIf v b).pins = p.pins := by cases v <;> rfl
@[simp] theorem markIf_freeCount (p : Part) (v : Bool) (b : Block) : (p.markIf v b).freeCount = p.freeCount := by cases v <;> rfl

@[simp] theorem reportIf_run (p : Part) (v : Bool) (r : Report) : (p.reportIf v r).run = p.run := by cases v <;> rfl
@[simp] theorem reportIf_config (p : Part) (v : Bool) (r : Report) : (p.reportIf v r).config = p.config := by cases v <;> rfl
@[simp] theorem reportIf_clock (p : Part) (v : Bool) (r : Report) : (p.reportIf v r).clock = p.clock := by cases v <;> rfl
@[simp] theorem reportIf_scan (p : Part) (v : Bool) (r : Report) : (p.reportIf v r).scan = p.scan := by cases v <;> rfl
@[simp] theorem reportIf_maturity (p : Part) (v : Bool) (r : Report) : (p.reportIf v r).maturity = p.maturity := by cases v <;> rfl
@[simp] theorem reportIf_beds (p : Part) (v : Bool) (r : Report) : (p.reportIf v r).beds = p.beds := by cases v <;> rfl
@[simp] theorem reportIf_heat (p : Part) (v : Bool) (r : Report) : (p.reportIf v r).heat = p.heat := by cases v <;> rfl
@[simp] theorem reportIf_out (p : Part) (v : Bool) (r : Report) : (p.reportIf v r).out = p.out := by cases v <;> rfl
@[simp] theorem reportIf_travel (p : Part) (v : Bool) (r : Report) : (p.reportIf v r).travel = p.travel := by cases v <;> rfl
@[simp] theorem reportIf_span (p : Part) (v : Bool) (r : Report) : (p.reportIf v r).span = p.span := by cases v <;> rfl
@[simp] theorem reportIf_pieces (p : Part) (v : Bool) (r : Report) : (p.reportIf v r).pieces = p.pieces := by cases v <;> rfl
@[simp] theorem reportIf_moves (p : Part) (v : Bool) (r : Report) : (p.reportIf v r).moves = p.moves := by cases v <;> rfl
@[simp] theorem reportIf_mem (p : Part) (v : Bool) (r : Report) : (p.reportIf v r).mem = p.mem := by cases v <;> rfl
@[simp] theorem reportIf_supply (p : Part) (v : Bool) (r : Report) : (p.reportIf v r).supply = p.supply := by cases v <;> rfl
@[simp] theorem reportIf_pins (p : Part) (v : Bool) (r : Report) : (p.reportIf v r).pins = p.pins := by cases v <;> rfl
@[simp] theorem reportIf_freeCount (p : Part) (v : Bool) (r : Report) : (p.reportIf v r).freeCount = p.freeCount := by cases v <;> rfl

end Sys2Proof.Machine
end

