-- ==== Sys2Proof/Laws/Acts.lean ====
section
/-! SUPPORT. What a block can do: relations between the part before and after an operation, and one lemma per shared operation
that says everything it may change. Provers cite these in place of unfolding the operations. -/
namespace Sys2Proof.Machine
open Sys2Proof

/-! ### The relations -/

/-- The line interface after any number of placements. -/
inductive Placed : LineUnit → LineUnit → Prop where
  | refl (l : LineUnit) : Placed l l
  | report {l m : LineUnit} (h : Placed l m) (r : Report) : Placed l (m.placeReport r)
  | heat {l m : LineUnit} (h : Placed l m) (n : HeatNotice) : Placed l (m.placeHeat n)
  | span {l m : LineUnit} (h : Placed l m) (n : SpanNotice) : Placed l (m.placeSpan n)

theorem Placed.trans {a b d : LineUnit} (h : Placed a b) (k : Placed b d) : Placed a d := by
  induction k with
  | refl => exact h
  | report _ r ih => exact ih.report r
  | heat _ n ih => exact ih.heat n
  | span _ n ih => exact ih.span n

/-- The grant law for the settings `c`. -/
def GrantOk (c : Settings) (p : Part) : Prop :=
  p.heat.grant ≤ totalDemand c p
    ∧ (p.heat.grant ≠ 0 → p.heat.grant * (totalDemand c p + listDemand p.heat.list) ≤ totalDemand c p * c.capacity)

/-- A block has acted: the run state, the configuration, the supply monitor and the memory's contents stand, the line interface
has only taken placements, tables keep their sizes, and the grant law is kept. -/
structure Acts (c : Settings) (p q : Part) : Prop where
  run : q.run = p.run
  config : q.config = p.config
  supply : q.supply = p.supply
  freeCount : q.freeCount = p.freeCount
  placed : Placed p.line q.line
  mem : p.mem.keeps q.mem
  shape : p.shaped → q.shaped
  grant : GrantOk c p → GrantOk c q

/-- Beside that, the clock, the interpolator and the pins stand. -/
structure Quiet (c : Settings) (p q : Part) : Prop extends Acts c p q where
  clock : q.clock = p.clock
  travel : q.travel = p.travel
  pins : q.pins = p.pins

/-- Beside that, the scan and maturity units stand. -/
structure PlantAct (c : Settings) (p q : Part) : Prop extends Quiet c p q where
  scan : q.scan = p.scan
  maturity : q.maturity = p.maturity

/-- Only the crane side moves: span unit, piece store, move controller. -/
structure CraneAct (c : Settings) (p q : Part) : Prop extends PlantAct c p q where
  beds : q.beds = p.beds
  heat : q.heat = p.heat
  out : q.out = p.out

/-- Only the heat side moves: bed records, heat share unit, output matrix. -/
structure HeatAct (c : Settings) (p q : Part) : Prop extends PlantAct c p q where
  span : q.span = p.span
  pieces : q.pieces = p.pieces
  moves : q.moves = p.moves

theorem MemPort.keeps_refl (u : MemPort) : u.keeps u := rfl
theorem MemPort.keeps_trans {u v w : MemPort} (h : u.keeps v) (k : v.keeps w) : u.keeps w := by
  unfold MemPort.keeps at *; rw [k, h]

theorem Acts.refl (c : Settings) (p : Part) : Acts c p p :=
  ⟨rfl, rfl, rfl, rfl, .refl _, rfl, id, id⟩
theorem Quiet.refl (c : Settings) (p : Part) : Quiet c p p := ⟨.refl c p, rfl, rfl, rfl⟩
theorem PlantAct.refl (c : Settings) (p : Part) : PlantAct c p p := ⟨.refl c p, rfl, rfl⟩
theorem CraneAct.refl (c : Settings) (p : Part) : CraneAct c p p := ⟨.refl c p, rfl, rfl, rfl⟩
theorem HeatAct.refl (c : Settings) (p : Part) : HeatAct c p p := ⟨.refl c p, rfl, rfl, rfl⟩

variable {c : Settings} {p q r : Part}

theorem Acts.trans (h : Acts c p q) (k : Acts c q r) : Acts c p r :=
  ⟨k.run.trans h.run, k.config.trans h.config, k.supply.trans h.supply, k.freeCount.trans h.freeCount,
    h.placed.trans k.placed, MemPort.keeps_trans h.mem k.mem, fun x => k.shape (h.shape x), fun x => k.grant (h.grant x)⟩
theorem Quiet.trans (h : Quiet c p q) (k : Quiet c q r) : Quiet c p r :=
  ⟨h.toActs.trans k.toActs, k.clock.trans h.clock, k.travel.trans h.travel, k.pins.trans h.pins⟩
theorem PlantAct.trans (h : PlantAct c p q) (k : PlantAct c q r) : PlantAct c p r :=
  ⟨h.toQuiet.trans k.toQuiet, k.scan.trans h.scan, k.maturity.trans h.maturity⟩
theorem CraneAct.trans (h : CraneAct c p q) (k : CraneAct c q r) : CraneAct c p r :=
  ⟨h.toPlantAct.trans k.toPlantAct, k.beds.trans h.beds, k.heat.trans h.heat, k.out.trans h.out⟩
theorem HeatAct.trans (h : HeatAct c p q) (k : HeatAct c q r) : HeatAct c p r :=
  ⟨h.toPlantAct.trans k.toPlantAct, k.span.trans h.span, k.pieces.trans h.pieces, k.moves.trans h.moves⟩

/-! ### What placements keep -/

theorem takeOffered_keeps (l : LineUnit) : l.keeps l.takeOffered := by
  unfold LineUnit.takeOffered LineUnit.keeps
  split
  · split <;> rfl
  · rfl

theorem LineUnit.keeps_trans {l m n : LineUnit} (h : l.keeps m) (k : m.keeps n) : l.keeps n := by
  unfold LineUnit.keeps at *; rw [k, h]

theorem placeReport_keeps (l : LineUnit) (r : Report) : l.keeps (l.placeReport r) := by
  refine LineUnit.keeps_trans (takeOffered_keeps l) ?_
  unfold LineUnit.placeReport LineUnit.keeps
  dsimp only
  split <;> rfl

/-- Placements keep all of the line interface but its transmit places. -/
theorem Placed.keeps {l m : LineUnit} (h : Placed l m) : l.keeps m := by
  induction h with
  | refl => rfl
  | report _ r ih => exact LineUnit.keeps_trans ih (placeReport_keeps _ r)
  | heat _ n ih => exact LineUnit.keeps_trans ih (LineUnit.keeps_trans (takeOffered_keeps _) rfl)
  | span _ n ih => exact LineUnit.keeps_trans ih (LineUnit.keeps_trans (takeOffered_keeps _) rfl)

/-- Fields that `keeps` fixes. -/
theorem LineUnit.keeps.own {l m : LineUnit} (h : l.keeps m) : m.own = l.own := by rw [h]
theorem LineUnit.keeps.clash {l m : LineUnit} (h : l.keeps m) : m.clash = l.clash := by rw [h]
theorem LineUnit.keeps.stuck {l m : LineUnit} (h : l.keeps m) : m.stuck = l.stuck := by rw [h]
theorem LineUnit.keeps.waitIdle {l m : LineUnit} (h : l.keeps m) : m.waitIdle = l.waitIdle := by rw [h]
theorem LineUnit.keeps.counters {l m : LineUnit} (h : l.keeps m) : m.counters = l.counters := by rw [h]
theorem LineUnit.keeps.restart {l m : LineUnit} (h : l.keeps m) : m.restart = l.restart := by rw [h]

theorem MemPort.keeps.writing {u v : MemPort} (h : u.keeps v) : v.writing = u.writing := by rw [h]
theorem MemPort.keeps.round {u v : MemPort} (h : u.keeps v) : v.round = u.round := by rw [h]
theorem MemPort.keeps.fault {u v : MemPort} (h : u.keeps v) : v.fault = u.fault := by rw [h]
theorem MemPort.keeps.roundFailed {u v : MemPort} (h : u.keeps v) : v.roundFailed = u.roundFailed := by rw [h]
theorem MemPort.keeps.mem {u v : MemPort} (h : u.keeps v) : v.mem = u.mem := by rw [h]

/-! ### The frames of the statements -/

theorem CraneAct.frame (h : CraneAct c p q) : craneFrame p q := by
  refine ⟨?_, h.placed.keeps, h.mem⟩
  have := h.run; have := h.config; have := h.supply; have := h.freeCount; have := h.clock; have := h.travel
  have := h.pins; have := h.scan; have := h.maturity; have := h.beds; have := h.heat; have := h.out
  cases p; cases q; simp_all

theorem HeatAct.frame (h : HeatAct c p q) : heatFrame p q := by
  refine ⟨?_, h.placed.keeps, h.mem⟩
  have := h.run; have := h.config; have := h.supply; have := h.freeCount; have := h.clock; have := h.travel
  have := h.pins; have := h.scan; have := h.maturity; have := h.span; have := h.pieces; have := h.moves
  cases p; cases q; simp_all

theorem PlantAct.frame (h : PlantAct c p q) : plantFrame p q := by
  refine ⟨?_, h.placed.keeps, h.mem⟩
  have := h.run; have := h.config; have := h.supply; have := h.freeCount; have := h.clock; have := h.travel
  have := h.pins; have := h.scan; have := h.maturity
  cases p; cases q; simp_all

/-! ### Conditions the relations keep -/

theorem Acts.inWarning (h : Acts c p q) : q.inWarning = p.inWarning := by unfold Part.inWarning; rw [h.supply]
theorem Acts.inClash (h : Acts c p q) : q.inClash = p.inClash := by unfold Part.inClash; rw [h.placed.keeps.clash]
theorem Quiet.now (h : Quiet c p q) : q.now = p.now := by unfold Part.now; rw [h.clock]
theorem Quiet.msCount (h : Quiet c p q) : q.msCount = p.msCount := by unfold Part.msCount; rw [h.clock]
theorem Quiet.position (h : Quiet c p q) : q.position = p.position := by unfold Part.position; rw [h.travel]
theorem CraneAct.bed (h : CraneAct c p q) (b : Nat) : q.bed b = p.bed b := by unfold Part.bed; rw [h.beds]
theorem CraneAct.emergencyActive (h : CraneAct c p q) : q.emergencyActive = p.emergencyActive := by
  unfold Part.emergencyActive; rw [h.out]

/-! ### Ways to show the relations -/

/-- The part changes outside the line interface and the heat share unit, with demands and sizes as they were. -/
theorem Acts.of (hr : q.run = p.run) (hc : q.config = p.config) (hs : q.supply = p.supply)
    (hf : q.freeCount = p.freeCount) (hl : q.line = p.line) (hm : p.mem.keeps q.mem) (hsh : p.shaped → q.shaped)
    (hh : q.heat = p.heat) (hd : ∀ b, (q.bed b).db = (p.bed b).db) : Acts c p q := by
  refine ⟨hr, hc, hs, hf, hl ▸ .refl _, hm, hsh, ?_⟩
  have ht : totalDemand c q = totalDemand c p := by unfold totalDemand; simp only [hd]
  unfold GrantOk; rw [hh, ht]; exact id

theorem CraneAct.report (c : Settings) (p : Part) (x : Report) : CraneAct c p (p.report x) :=
  ⟨⟨⟨⟨rfl, rfl, rfl, rfl, .report (.refl _) x, rfl, id, id⟩, rfl, rfl, rfl⟩, rfl, rfl⟩, rfl, rfl, rfl⟩

theorem HeatAct.report (c : Settings) (p : Part) (x : Report) : HeatAct c p (p.report x) :=
  ⟨(CraneAct.report c p x).toPlantAct, rfl, rfl, rfl⟩

theorem CraneAct.reportIf (c : Settings) (p : Part) (v : Bool) (x : Report) : CraneAct c p (p.reportIf v x) := by
  cases v
  · exact .refl c p
  · exact .report c p x

theorem HeatAct.reportIf (c : Settings) (p : Part) (v : Bool) (x : Report) : HeatAct c p (p.reportIf v x) := by
  cases v
  · exact .refl c p
  · exact .report c p x

theorem CraneAct.markDirty (c : Settings) (p : Part) (b : Block) : CraneAct c p (p.markDirty b) :=
  ⟨⟨⟨⟨rfl, rfl, rfl, rfl, .refl _, rfl, id, id⟩, rfl, rfl, rfl⟩, rfl, rfl⟩, rfl, rfl, rfl⟩

theorem HeatAct.markDirty (c : Settings) (p : Part) (b : Block) : HeatAct c p (p.markDirty b) :=
  ⟨(CraneAct.markDirty c p b).toPlantAct, rfl, rfl, rfl⟩

theorem CraneAct.markIf (c : Settings) (p : Part) (v : Bool) (b : Block) : CraneAct c p (p.markIf v b) := by
  cases v
  · exact .refl c p
  · exact .markDirty c p b

theorem HeatAct.markIf (c : Settings) (p : Part) (v : Bool) (b : Block) : HeatAct c p (p.markIf v b) := by
  cases v
  · exact .refl c p
  · exact .markDirty c p b

/-- The crane side changes, with the sizes of the piece store kept. -/
theorem CraneAct.ofSpan (c : Settings) (p : Part) (x : SpanUnit) : CraneAct c p { p with span := x } :=
  ⟨⟨⟨⟨rfl, rfl, rfl, rfl, .refl _, rfl, id, id⟩, rfl, rfl, rfl⟩, rfl, rfl⟩, rfl, rfl, rfl⟩

theorem CraneAct.ofMoves (c : Settings) (p : Part) (x : MoveUnit) : CraneAct c p { p with moves := x } :=
  ⟨⟨⟨⟨rfl, rfl, rfl, rfl, .refl _, rfl, id, id⟩, rfl, rfl, rfl⟩, rfl, rfl⟩, rfl, rfl, rfl⟩

theorem CraneAct.ofPieces (c : Settings) (p : Part) (x : PieceStore) (h1 : x.register.length = p.pieces.register.length)
    (h2 : x.stackTable.length = p.pieces.stackTable.length) : CraneAct c p { p with pieces := x } :=
  ⟨⟨⟨⟨rfl, rfl, rfl, rfl, .refl _, rfl,
    fun ⟨a, b, d, e, f, g, h, i, j, k⟩ => ⟨a, b, d, e, f, g, h, i, h1.trans j, h2.trans k⟩, id⟩, rfl, rfl, rfl⟩,
    rfl, rfl⟩, rfl, rfl, rfl⟩

theorem HeatAct.ofOut (c : Settings) (p : Part) (x : OutputUnit) (h1 : x.gens.length = p.out.gens.length)
    (h2 : x.flows.length = p.out.flows.length) (h3 : x.aux.length = p.out.aux.length) :
    HeatAct c p { p with out := x } :=
  ⟨⟨⟨⟨rfl, rfl, rfl, rfl, .refl _, rfl,
    fun ⟨a, b, d, e, f, g, h, i, j, k⟩ => ⟨a, b, d, e, f, h1.trans g, h2.trans h, h3.trans i, j, k⟩, id⟩,
    rfl, rfl, rfl⟩, rfl, rfl⟩, rfl, rfl, rfl⟩

/-- A bed record read after one of them has been replaced. -/
theorem bed_set_db (p : Part) (b : Nat) (x : Bed) (h : x.db = (p.bed b).db) (k : Nat) :
    ((p.beds.set b x).getD k Bed.reset).db = (p.bed k).db := by
  unfold Part.bed at *
  by_cases hk : b = k
  · subst hk
    by_cases hl : b < p.beds.length
    · simp [List.getD_eq_getElem?_getD, hl] at h ⊢; exact h
    · simp [List.getD_eq_getElem?_getD, List.set_eq_of_length_le (Nat.le_of_not_lt hl)]
  · simp [List.getD_eq_getElem?_getD, List.getElem?_set_ne hk]

/-- Beds change, demands do not. -/
theorem HeatAct.withBed (c : Settings) (p : Part) (b : Nat) (f : Bed → Bed) (h : (f (p.bed b)).db = (p.bed b).db) :
    HeatAct c p (p.withBed b f) := by
  unfold Part.withBed
  dsimp only
  refine HeatAct.trans (q := { p with beds := p.beds.set b (f (p.bed b)) }) ⟨⟨⟨Acts.of rfl rfl rfl rfl rfl rfl ?_ rfl ?_, rfl, rfl, rfl⟩, rfl, rfl⟩, rfl, rfl, rfl⟩ (.markIf c _ _ _)
  · rintro ⟨a, rest⟩
    exact ⟨(List.length_set ..).trans a, rest⟩
  · exact fun k => bed_set_db p b (f (p.bed b)) h k

/-- The scan unit changes, with its sizes kept. -/
theorem Quiet.ofScan (c : Settings) (p : Part) (x : ScanUnit) (h1 : x.beds.length = p.scan.beds.length)
    (h2 : x.channels.length = p.scan.channels.length) : Quiet c p { p with scan := x } :=
  ⟨⟨rfl, rfl, rfl, rfl, .refl _, rfl,
    fun ⟨a, b, d, e, f, g, h, i, j, k⟩ => ⟨a, h1.trans b, h2.trans d, e, f, g, h, i, j, k⟩, id⟩, rfl, rfl, rfl⟩

theorem Quiet.ofMaturity (c : Settings) (p : Part) (x : MaturityUnit) (h1 : x.accs.length = p.maturity.accs.length)
    (h2 : x.credit.length = p.maturity.credit.length) : Quiet c p { p with maturity := x } :=
  ⟨⟨rfl, rfl, rfl, rfl, .refl _, rfl,
    fun ⟨a, b, d, e, f, g, h, i, j, k⟩ => ⟨a, b, d, h1.trans e, h2.trans f, g, h, i, j, k⟩, id⟩, rfl, rfl, rfl⟩

/-- The interpolator, the clock and the pins are of no size that matters. -/
theorem Acts.ofTravel (c : Settings) (p : Part) (x : TravelUnit) : Acts c p { p with travel := x } :=
  ⟨rfl, rfl, rfl, rfl, .refl _, rfl, id, id⟩
theorem Acts.ofClock (c : Settings) (p : Part) (x : Clock) : Acts c p { p with clock := x } :=
  ⟨rfl, rfl, rfl, rfl, .refl _, rfl, id, id⟩
theorem Acts.ofPins (c : Settings) (p : Part) (x : Pins) : Acts c p { p with pins := x } :=
  ⟨rfl, rfl, rfl, rfl, .refl _, rfl, id, id⟩

/-! ### Folds -/

theorem Acts.foldl {α : Type} {f : Part → α → Part} (h : ∀ p x, Acts c p (f p x)) (l : List α) (p : Part) :
    Acts c p (l.foldl f p) := by
  induction l generalizing p with
  | nil => exact .refl c p
  | cons x l ih => exact (h p x).trans (ih _)

theorem Quiet.foldl {α : Type} {f : Part → α → Part} (h : ∀ p x, Quiet c p (f p x)) (l : List α) (p : Part) :
    Quiet c p (l.foldl f p) := by
  induction l generalizing p with
  | nil => exact .refl c p
  | cons x l ih => exact (h p x).trans (ih _)

theorem PlantAct.foldl {α : Type} {f : Part → α → Part} (h : ∀ p x, PlantAct c p (f p x)) (l : List α) (p : Part) :
    PlantAct c p (l.foldl f p) := by
  induction l generalizing p with
  | nil => exact .refl c p
  | cons x l ih => exact (h p x).trans (ih _)

theorem CraneAct.foldl {α : Type} {f : Part → α → Part} (h : ∀ p x, CraneAct c p (f p x)) (l : List α) (p : Part) :
    CraneAct c p (l.foldl f p) := by
  induction l generalizing p with
  | nil => exact .refl c p
  | cons x l ih => exact (h p x).trans (ih _)

theorem HeatAct.foldl {α : Type} {f : Part → α → Part} (h : ∀ p x, HeatAct c p (f p x)) (l : List α) (p : Part) :
    HeatAct c p (l.foldl f p) := by
  induction l generalizing p with
  | nil => exact .refl c p
  | cons x l ih => exact (h p x).trans (ih _)

theorem Quiet.forAssigned {f : Nat → Part → Part} (h : ∀ b p, Quiet c p (f b p)) (p : Part) :
    Quiet c p (p.forAssigned c f) := by
  refine Quiet.foldl (fun q b => ?_) _ p
  dsimp only
  split
  · exact h b q
  · exact .refl c q

theorem PlantAct.forAssigned {f : Nat → Part → Part} (h : ∀ b p, PlantAct c p (f b p)) (p : Part) :
    PlantAct c p (p.forAssigned c f) := by
  refine PlantAct.foldl (fun q b => ?_) _ p
  dsimp only
  split
  · exact h b q
  · exact .refl c q

theorem HeatAct.forAssigned {f : Nat → Part → Part} (h : ∀ b p, HeatAct c p (f b p)) (p : Part) :
    HeatAct c p (p.forAssigned c f) := by
  refine HeatAct.foldl (fun q b => ?_) _ p
  dsimp only
  split
  · exact h b q
  · exact .refl c q

theorem Acts.forAssigned {f : Nat → Part → Part} (h : ∀ b p, Acts c p (f b p)) (p : Part) :
    Acts c p (p.forAssigned c f) := by
  refine Acts.foldl (fun q b => ?_) _ p
  dsimp only
  split
  · exact h b q
  · exact .refl c q

end Sys2Proof.Machine
end

