-- ==== Sys2Proof/Laws/Crane.lean ====
section
/-! SUPPORT. The operations of the piece store, the move controller and the span unit act on the crane side alone. -/
namespace Sys2Proof.Machine
open Sys2Proof

variable (c : Settings) (p : Part)

/-! ### Piece store -/

theorem setRecord_act (n : Nat) (x : Option Piece) : CraneAct c p (p.setRecord n x) := by
  unfold Part.setRecord
  exact CraneAct.trans (q := { p with pieces := { p.pieces with register := p.pieces.register.set n x } })
    (CraneAct.ofPieces c p _ (List.length_set ..) rfl) (.markIf c _ _ _)

theorem setStackAt_act (i : Nat) (x : Stack) : CraneAct c p (p.setStackAt i x) := by
  unfold Part.setStackAt Part.setStacks
  exact CraneAct.trans (q := { p with pieces := { p.pieces with stackTable := p.pieces.stackTable.set i x } })
    (CraneAct.ofPieces c p _ rfl (List.length_set ..)) (.markIf c _ _ _)

theorem mapPieces_act (f : Piece → Piece) : CraneAct c p (p.mapPieces f) :=
  CraneAct.ofPieces c p _ (List.length_map ..) rfl

theorem updatePiece_act (id : Nat) (f : Piece → Piece) : CraneAct c p (updatePiece id f p) := by
  unfold updatePiece
  split
  · exact setRecord_act c p _ _
  · exact .refl c p

theorem removePiece_act (id : Nat) : CraneAct c p (removePiece id p) := by
  unfold removePiece
  split
  · exact setRecord_act c p _ _
  · exact .refl c p

theorem createPiece_act (d : Settings) (b mix t : Nat) (e : PartEntry) : CraneAct c p (createPiece d b mix t e p) := by
  unfold createPiece
  split
  · exact setRecord_act c p _ _
  · exact .refl c p

theorem clearMark_act (tag : Nat) : CraneAct c p (clearMark tag p) := by
  unfold clearMark
  split
  · exact setStackAt_act c p _ _
  · exact .refl c p

theorem releaseMark_act (tag id : Nat) : CraneAct c p (releaseMark tag id p) :=
  (clearMark_act c p tag).trans (updatePiece_act c _ id _)

theorem announceOne_act (d : Settings) (x : Piece) : CraneAct c p (announceOne d p x) := by
  unfold announceOne
  split
  · exact (updatePiece_act c p _ _).trans (.report c _ _)
  · exact .refl c p

theorem announce_act (d : Settings) : CraneAct c p (announce d p) :=
  CraneAct.foldl (announceOne_act c · d) _ p

theorem placeLift_act (tag id lane n : Nat) : CraneAct c p (placeLift tag id lane n p) := by
  unfold placeLift
  exact ((clearMark_act c p tag).trans (setStackAt_act c _ _ _)).trans (updatePiece_act c _ _ _)

theorem placeDispatch_act (d : Settings) (tag id : Nat) : CraneAct c p (placeDispatch d tag id p) := by
  unfold placeDispatch
  dsimp only
  split
  · exact clearMark_act c p tag
  · exact ((clearMark_act c p tag).trans (removePiece_act c _ id)).trans (.report c _ _)

/-! ### Span unit -/

theorem setSpan_act (k : Nat) (x : Span) : CraneAct c p (p.setSpan k x) := CraneAct.ofSpan c p _

theorem releaseDue_act : CraneAct c p (releaseDue p) := CraneAct.ofSpan c p _

/-- A SPAN notice is placed in its slot; nothing of the plant moves. -/
theorem formNotice_act (d : Settings) : CraneAct c p (formNotice d p) := by
  refine (releaseDue_act c p).trans ?_
  exact ⟨⟨⟨⟨rfl, rfl, rfl, rfl, .span (.refl _) _, rfl, id, id⟩, rfl, rfl, rfl⟩, rfl, rfl⟩, rfl, rfl, rfl⟩

theorem noticeIfDue_act (d : Settings) : CraneAct c p (noticeIfDue d p) := by
  unfold noticeIfDue
  split
  · exact formNotice_act c p d
  · exact .refl c p

theorem openClaim_act (d : Settings) : CraneAct c p (openClaim d p) := by
  unfold openClaim
  split
  · split
    · exact .refl c p
    · split
      · exact .refl c p
      · dsimp only
        split <;> split <;> first
          | exact .refl c p
          | exact ((CraneAct.ofSpan c p _).trans (setSpan_act c _ _ _)).trans (formNotice_act c _ d)
  · exact .refl c p

theorem openWindow_act (d : Settings) (n : SpanNotice) : CraneAct c p (openWindow d n p) := by
  unfold openWindow
  split
  · exact .refl c p
  · dsimp only
    split
    · split
      · exact setSpan_act c p _ _
      · exact .refl c p
    · exact .refl c p

theorem decideClaim_act (d : Settings) : CraneAct c p (decideClaim d p) := by
  unfold decideClaim
  split
  · exact .refl c p
  · dsimp only
    split
    · split
      · exact setSpan_act c p _ _
      · exact setSpan_act c p _ _
    · exact .refl c p

theorem withdrawClaims_act (d : Settings) : CraneAct c p (withdrawClaims d p) := by
  unfold withdrawClaims
  split
  · exact .refl c p
  · split
    · exact .refl c p
    · exact setSpan_act c p _ _

theorem settleReleases_act (d : Settings) : CraneAct c p (settleReleases d p) := CraneAct.ofSpan c p _

theorem settleYield_act : CraneAct c p (settleYield p) := CraneAct.ofSpan c p _

theorem settleSpans_act (d : Settings) : CraneAct c p (settleSpans d p) := by
  unfold settleSpans
  dsimp only
  exact (((((withdrawClaims_act c p d).trans (settleYield_act c _)).trans (CraneAct.ofSpan c _ _)).trans
    (settleReleases_act c _ d)).trans (noticeIfDue_act c _ d)).trans (openClaim_act c _ d)

theorem yieldSpan_act (d : Settings) (k : Nat) : CraneAct c p (yieldSpan d k p) :=
  (setSpan_act c p _ _).trans (CraneAct.ofSpan c _ _)

theorem resolveDouble_act (d : Settings) (addr : Nat) (e : Entry) : CraneAct c p (resolveDouble d addr e p) := by
  unfold resolveDouble
  dsimp only
  split
  · refine CraneAct.trans ?_ (.report c _ _)
    split
    · exact (yieldSpan_act c p d _).trans (formNotice_act c _ d)
    · exact formNotice_act c p d
  · exact .refl c p

theorem contest_act (e : Entry) : CraneAct c p (contest e p) := by
  unfold contest
  dsimp only
  split
  · exact setSpan_act c p _ _
  · exact .refl c p

theorem answerClaim_act (d : Settings) (e : Entry) : CraneAct c p (answerClaim d e p) := by
  unfold answerClaim
  dsimp only
  split
  · exact formNotice_act c p d
  · exact .refl c p

theorem recordPeer_act (src : Nat) (n : SpanNotice) : CraneAct c p (recordPeer src n p) :=
  (CraneAct.ofSpan c p _).trans (.reportIf c _ _ _)

theorem takeSpanNotice_act (d : Settings) (src : Nat) (n : SpanNotice) : CraneAct c p (takeSpanNotice d src n p) := by
  unfold takeSpanNotice
  dsimp only
  refine CraneAct.trans (CraneAct.trans (CraneAct.trans (recordPeer_act c p src n)
    (CraneAct.foldl (fun q e => resolveDouble_act c q d src e) _ _))
    (CraneAct.foldl (fun q e => contest_act c q e) _ _))
    (CraneAct.foldl (fun q e => answerClaim_act c q d e) _ _)

theorem agePeer_act (addr age : Nat) : CraneAct c p (agePeer addr age p) := by
  unfold agePeer
  split
  · exact .refl c p
  · dsimp only
    split
    · exact (CraneAct.ofSpan c p _).trans (.report c _ _)
    · exact CraneAct.ofSpan c p _

theorem agePeers_act : CraneAct c p (agePeers p) := CraneAct.foldl (fun q (x : Peer) => agePeer_act c q x.addr (x.age + 1)) _ p

theorem freeSpan_act (k : Nat) : CraneAct c p (freeSpan k p) := by
  unfold freeSpan
  exact (CraneAct.ofSpan c p _).trans (.report c _ _)

/-! ### Move controller -/

theorem setQueue_act (l : List Move) : CraneAct c p (p.setQueue l) :=
  (CraneAct.ofMoves c p _).trans (.markIf c _ _ _)

theorem setNextTag_act (n : Nat) : CraneAct c p (p.setNextTag n) :=
  (CraneAct.ofMoves c p _).trans (.markIf c _ _ _)

theorem updateMove_act (tag : Nat) (f : Move → Move) : CraneAct c p (updateMove tag f p) := setQueue_act c p _

theorem setTarget_act (t : Option Target) : CraneAct c p (setTarget t p) :=
  (CraneAct.ofMoves c p { p.moves with target := t }).trans (CraneAct.ofSpan c _ _)

theorem removeMove_act (m : Move) : CraneAct c p (removeMove m p) :=
  (setQueue_act c p _).trans (updatePiece_act c _ _ _)

theorem enqueue_act (m : Move) : CraneAct c p (enqueue m p) := (setQueue_act c p _).trans (setNextTag_act c _ _)

theorem enterTravel_act (m : Move) (ph : Phase) (pos : Nat) : CraneAct c p (enterTravel m ph pos p) :=
  (updateMove_act c p _ _).trans (setTarget_act c _ _)

theorem startMove_act (m : Move) : CraneAct c p (startMove m p) :=
  (CraneAct.ofMoves c p _).trans (enterTravel_act c _ m _ _)

theorem settleStart_act (d : Settings) : CraneAct c p (settleStart d p) := by
  unfold settleStart
  split
  · split
    · exact startMove_act c p _
    · exact setTarget_act c p _
  · split
    · split
      · exact .refl c p
      · exact setTarget_act c p _
    · exact setTarget_act c p _

theorem settleArrival_act (d : Settings) : CraneAct c p (settleArrival d p) := by
  unfold settleArrival
  split
  · split
    · split
      · exact (updateMove_act c p _ _).trans (setTarget_act c _ _)
      · split
        · exact (updateMove_act c p _ _).trans (setTarget_act c _ _)
        · exact .refl c p
    · split
      · exact (CraneAct.ofMoves c p _).trans (setTarget_act c _ _)
      · exact .refl c p
  · exact .refl c p

/-- `settle` acts on the crane side alone: the plant, the clock, the interpolator, the outputs' own state and the line's
counters stand. -/
theorem settle_act (d : Settings) : CraneAct c p (settle d p) :=
  ((announce_act c p d).trans (settleStart_act c _ d)).trans
    ((settleArrival_act c _ d).trans (settleSpans_act c _ d))

/-- A halt acts on the crane side alone. -/
theorem halt_act (k : HaltCause) : CraneAct c p (halt k p) := by
  unfold halt
  split
  · split
    · exact .refl c p
    · exact ((updateMove_act c p _ _).trans (setTarget_act c _ _)).trans (.report c _ _)
  · exact .refl c p

theorem setReturn_act (d : Settings) : CraneAct c p (setReturn d p) := CraneAct.ofMoves c p _

theorem completeMove_act (d : Settings) (m : Move) (v : Bool) : CraneAct c p (completeMove d m v p) := by
  unfold completeMove
  dsimp only
  refine CraneAct.trans (CraneAct.trans (CraneAct.trans ?_ (removeMove_act c _ m)) (.report c _ _)) (setReturn_act c _ d)
  split
  · exact placeLift_act c p _ _ _ _
  · exact placeDispatch_act c p d _ _

theorem hookUnloads_act (d : Settings) : CraneAct c p (hookUnloads d p) := by
  unfold hookUnloads
  split
  · split
    · exact completeMove_act c p d _ _
    · exact halt_act c p _
    · exact .refl c p
  · exact .refl c p

theorem reportCrane_act : CraneAct c p (reportCrane p) := .report c p _

theorem testTimeout_act (d : Settings) (k : HaltCause) : CraneAct c p (testTimeout d k p) := by
  unfold testTimeout
  split
  · exact halt_act c p k
  · exact .refl c p

end Sys2Proof.Machine
end

