-- ==== Sys2Proof/Laws/Heat.lean ====
section
/-! SUPPORT. The operations of the output matrix, the heat share unit and the bed controller act on the heat side alone, and keep
the grant law. -/
namespace Sys2Proof.Machine
open Sys2Proof

variable (c : Settings) (p : Part)

/-! ### Output matrix -/

theorem setFlow_act (b : Nat) (x : Flow) : HeatAct c p (p.setFlow b x) :=
  HeatAct.ofOut c p _ rfl (List.length_set ..) rfl

theorem withGen_act (b : Nat) (f : Gen → Gen) : HeatAct c p (p.withGen b f) := by
  unfold Part.withGen
  dsimp only
  split
  · exact HeatAct.trans (q := { p with out := { p.out with gens := p.out.gens.set b (f (p.gen b)) } })
      (HeatAct.ofOut c p _ (List.length_set ..) rfl rfl) (setFlow_act c _ _ _)
  · exact HeatAct.ofOut c p _ (List.length_set ..) rfl rfl

theorem takeAllocation_act (d : Settings) (b alloc : Nat) (v : Bool) : HeatAct c p (takeAllocation d b alloc v p) :=
  withGen_act c p b _

theorem withAux_act (d : Settings) (k : Nat) (w : Report.AuxCause) (f : Aux → Aux) :
    HeatAct c p (p.withAux d k w f) := by
  unfold Part.withAux
  exact HeatAct.trans (q := { p with out := { p.out with aux := p.out.aux.set k (f (p.auxLine k)) } })
    (HeatAct.ofOut c p _ rfl rfl (List.length_set ..)) (.reportIf c _ _ _)

theorem shedLine_act (d : Settings) (level k : Nat) : HeatAct c p (shedLine d level p k) := by
  unfold shedLine
  split
  · split
    · exact withAux_act c p _ _ _ _
    · exact .refl c p
  · split
    · exact withAux_act c p _ _ _ _
    · exact .refl c p
  · exact .refl c p

theorem takeShed_act (d : Settings) (level : Nat) : HeatAct c p (takeShed d level p) := by
  unfold takeShed
  split
  · exact .refl c p
  · exact HeatAct.trans (q := { p with out := { p.out with lastShed := level } }) (HeatAct.ofOut c p _ rfl rfl rfl)
      (HeatAct.foldl (fun q k => shedLine_act c q d level k) _ _)

/-! ### Beds and demands are untouched by allocations and shedding -/

theorem withGen_beds (b : Nat) (f : Gen → Gen) : (p.withGen b f).beds = p.beds := by
  unfold Part.withGen Part.setFlow
  dsimp only
  split <;> rfl

theorem withGen_heat (b : Nat) (f : Gen → Gen) : (p.withGen b f).heat = p.heat := by
  unfold Part.withGen Part.setFlow
  dsimp only
  split <;> rfl

theorem withAux_beds (d : Settings) (k : Nat) (w : Report.AuxCause) (f : Aux → Aux) :
    (p.withAux d k w f).beds = p.beds := by
  unfold Part.withAux Part.reportIf
  dsimp only
  split <;> rfl

theorem withAux_heat (d : Settings) (k : Nat) (w : Report.AuxCause) (f : Aux → Aux) :
    (p.withAux d k w f).heat = p.heat := by
  unfold Part.withAux Part.reportIf
  dsimp only
  split <;> rfl

theorem shedLine_beds (d : Settings) (level k : Nat) :
    (shedLine d level p k).beds = p.beds ∧ (shedLine d level p k).heat = p.heat := by
  unfold shedLine
  split
  · split
    · exact ⟨withAux_beds .., withAux_heat ..⟩
    · exact ⟨rfl, rfl⟩
  · split
    · exact ⟨withAux_beds .., withAux_heat ..⟩
    · exact ⟨rfl, rfl⟩
  · exact ⟨rfl, rfl⟩

theorem takeShed_beds (d : Settings) (level : Nat) :
    (takeShed d level p).beds = p.beds ∧ (takeShed d level p).heat = p.heat := by
  have fold : ∀ (l : List Nat) (q : Part), (l.foldl (shedLine d level) q).beds = q.beds
      ∧ (l.foldl (shedLine d level) q).heat = q.heat := by
    intro l
    induction l with
    | nil => exact fun q => ⟨rfl, rfl⟩
    | cons k l ih =>
      intro q
      have h := shedLine_beds q d level k
      exact ⟨(ih _).1.trans h.1, (ih _).2.trans h.2⟩
  unfold takeShed
  split
  · exact ⟨rfl, rfl⟩
  · exact fold _ _

theorem takeAllocations_beds (d : Settings) (f : Nat → Nat) (g : Nat → Bool) :
    (p.forAssigned d fun b x => takeAllocation d b (f b) (g b) x).beds = p.beds
      ∧ (p.forAssigned d fun b x => takeAllocation d b (f b) (g b) x).heat = p.heat := by
  have fold : ∀ (l : List Nat) (q : Part),
      (l.foldl (fun x b => if d.assigned b then takeAllocation d b (f b) (g b) x else x) q).beds = q.beds
      ∧ (l.foldl (fun x b => if d.assigned b then takeAllocation d b (f b) (g b) x else x) q).heat = q.heat := by
    intro l
    induction l with
    | nil => exact fun q => ⟨rfl, rfl⟩
    | cons k l ih =>
      intro q
      refine ⟨(ih _).1.trans ?_, (ih _).2.trans ?_⟩
      · dsimp only; split
        · exact withGen_beds ..
        · rfl
      · dsimp only; split
        · exact withGen_heat ..
        · rfl
  exact fold _ p

/-! ### The grant law -/

/-- The grant never exceeds the demand, and keeps every station's share within the capacity (04 R73). -/
theorem grantOf_law (held : Bool) (ds others cap : Nat) :
    grantOf held ds (ds + others) cap ≤ ds
      ∧ (grantOf held ds (ds + others) cap ≠ 0 → grantOf held ds (ds + others) cap * (ds + others) ≤ ds * cap) := by
  unfold grantOf
  split
  · exact ⟨Nat.zero_le _, fun h => absurd rfl h⟩
  · split
    · exact ⟨Nat.zero_le _, fun h => absurd rfl h⟩
    · split
      · rename_i h
        exact ⟨Nat.le_refl _, fun _ => Nat.mul_le_mul_left _ h⟩
      · rename_i h0 h
        refine ⟨?_, fun _ => Nat.div_mul_le_self _ _⟩
        refine Nat.div_le_of_le_mul ?_
        rw [Nat.mul_comm]
        exact Nat.mul_le_mul_right _ (by omega)

theorem totalDemand_congr {p q : Part} (h : q.beds = p.beds) (d : Settings) : totalDemand d q = totalDemand d p := by
  unfold totalDemand Part.bed; rw [h]

theorem computeGrant_beds (d : Settings) (l : List Nat) : (computeGrant d l p).beds = p.beds := by
  unfold computeGrant
  exact (takeShed_beds _ d _).1.trans (takeAllocations_beds _ d _ _).1

theorem computeGrant_heat (d : Settings) (l : List Nat) : (computeGrant d l p).heat = shareOf d p := by
  unfold computeGrant
  exact (takeShed_beds _ d _).2.trans (takeAllocations_beds _ d _ _).2

/-- One computation of grant, allocations and shed level establishes the grant law. -/
theorem computeGrant_ok (l : List Nat) : GrantOk c (computeGrant c l p) := by
  have hb : totalDemand c (computeGrant c l p) = totalDemand c p := totalDemand_congr (computeGrant_beds p c l) c
  unfold GrantOk
  rw [hb, computeGrant_heat]
  exact grantOf_law _ _ _ _

/-- The grant law holds after the computation whatever stood before, so a change of demand or of the heat list may precede
it. -/
theorem HeatAct.ofGrant {p q : Part} (l : List Nat) (hr : q.run = p.run) (hc : q.config = p.config)
    (hs : q.supply = p.supply) (hf : q.freeCount = p.freeCount) (hl : Placed p.line q.line) (hm : p.mem.keeps q.mem)
    (hsh : p.shaped → q.shaped) (h1 : q.clock = p.clock) (h2 : q.travel = p.travel) (h3 : q.pins = p.pins)
    (h4 : q.scan = p.scan) (h5 : q.maturity = p.maturity) (h6 : q.span = p.span) (h7 : q.pieces = p.pieces)
    (h8 : q.moves = p.moves) : HeatAct c p (computeGrant c l q) := by
  have key : HeatAct c { q with heat := shareOf c q } (computeGrant c l q) := by
    unfold computeGrant
    exact (HeatAct.forAssigned (fun b x => takeAllocation_act c x c b _ _) _).trans (takeShed_act c _ c _)
  exact ⟨⟨⟨⟨key.run.trans hr, key.config.trans hc, key.supply.trans hs, key.freeCount.trans hf, hl.trans key.placed,
    MemPort.keeps_trans hm key.mem, fun h => key.shape (hsh h), fun _ => computeGrant_ok c q l⟩, key.clock.trans h1,
    key.travel.trans h2, key.pins.trans h3⟩, key.scan.trans h4, key.maturity.trans h5⟩, key.span.trans h6,
    key.pieces.trans h7, key.moves.trans h8⟩

theorem computeGrant_act (l : List Nat) : HeatAct c p (computeGrant c l p) :=
  HeatAct.ofGrant c l rfl rfl rfl rfl (.refl _) rfl id rfl rfl rfl rfl rfl rfl rfl rfl

/-- A heat list whose total does not rise keeps the grant law. -/
theorem takeHeatNotice_act (src demand : Nat) : HeatAct c p (takeHeatNotice c src demand p) := by
  unfold takeHeatNotice
  dsimp only
  split
  · exact HeatAct.ofGrant c [] rfl rfl rfl rfl (.refl _) rfl id rfl rfl rfl rfl rfl rfl rfl rfl
  · rename_i h
    refine ⟨⟨⟨⟨rfl, rfl, rfl, rfl, .refl _, rfl, id, ?_⟩, rfl, rfl, rfl⟩, rfl, rfl⟩, rfl, rfl, rfl⟩
    rintro ⟨h1, h2⟩
    exact ⟨h1, fun h0 => Nat.le_trans (Nat.mul_le_mul_left _ (Nat.add_le_add_left (Nat.le_of_not_lt h) _)) (h2 h0)⟩

/-- The DEAF state changes by the line's life alone. -/
theorem settleDeaf_only (q : Part) : ∃ v l, settleDeaf q = { q with heat := { q.heat with deaf := v }, line := l }
    ∧ Placed q.line l := by
  unfold settleDeaf
  split
  · exact ⟨_, _, rfl, .report (.refl _) _⟩
  · exact ⟨q.heat.deaf, q.line, rfl, .refl _⟩
  · exact ⟨_, _, rfl, .refl _⟩
  · exact ⟨_, _, rfl, .report (.refl _) _⟩

theorem placeHeat_act (n : HeatNotice) : HeatAct c p { p with line := p.line.placeHeat n } :=
  ⟨⟨⟨⟨rfl, rfl, rfl, rfl, .heat (.refl _) n, rfl, id, id⟩, rfl, rfl, rfl⟩, rfl, rfl⟩, rfl, rfl, rfl⟩

theorem heatBoundary_act : HeatAct c p (heatBoundary c p) := by
  obtain ⟨v, l, h, hl⟩ := settleDeaf_only { p with heat := p.heat.ageList }
  have key : ∀ x : HeatUnit, HeatAct c p (computeGrant c [] { p with heat := x, line := l }) := fun x =>
    HeatAct.ofGrant c [] rfl rfl rfl rfl hl rfl id rfl rfl rfl rfl rfl rfl rfl rfl
  unfold heatBoundary
  rw [h]
  exact (key _).trans (placeHeat_act c _ _)

/-- What the peers have announced, and the unit's own counts, stand. -/
def HeatUnit.sameLine (g h : HeatUnit) : Prop :=
  h.list = g.list ∧ h.heard = g.heard ∧ h.deaf = g.deaf ∧ h.listening = g.listening

theorem HeatUnit.sameLine_trans {g h k : HeatUnit} (a : g.sameLine h) (b : h.sameLine k) : g.sameLine k :=
  ⟨b.1.trans a.1, b.2.1.trans a.2.1, b.2.2.1.trans a.2.2.1, b.2.2.2.trans a.2.2.2⟩

theorem computeGrant_sameLine (d : Settings) (l : List Nat) : p.heat.sameLine (computeGrant d l p).heat := by
  rw [computeGrant_heat]; exact ⟨rfl, rfl, rfl, rfl⟩

/-! ### Bed controller -/

theorem stageStep_act (d : Settings) (b : Nat) : HeatAct c p (stageStep d b p) := by
  unfold stageStep
  dsimp only
  split
  · exact .refl c p
  · exact (HeatAct.withBed c p b _ rfl).trans (.report c _ _)

theorem evaluateStage_act (d : Settings) (b : Nat) : HeatAct c p (evaluateStage d b p) := by
  unfold evaluateStage
  split
  · exact ((((stageStep_act c p d b).trans (stageStep_act c _ d b)).trans (stageStep_act c _ d b)).trans
      (stageStep_act c _ d b)).trans (HeatAct.withBed c _ b _ rfl)
  · exact .refl c p

theorem quell_act (d : Settings) (b : Nat) : HeatAct c p (quell d b p) := by
  unfold quell
  split
  · exact takeAllocation_act c p d b 0 true
  · exact .refl c p

theorem quell_heat (d : Settings) (b : Nat) : (quell d b p).heat = p.heat := by
  unfold quell takeAllocation
  split
  · exact withGen_heat p b _
  · rfl

/-- A changed demand comes with its computation. -/
theorem formDemand_act (b : Nat) : HeatAct c p (formDemand c b p) := by
  unfold formDemand
  dsimp only
  split
  · exact quell_act c p c b
  · refine HeatAct.ofGrant c _ ?_ ?_ ?_ ?_ ?_ ?_ ?_ ?_ ?_ ?_ ?_ ?_ ?_ ?_ ?_ <;>
      (unfold Part.withBed Part.markIf Part.markDirty; dsimp only; split)
    all_goals first
      | rfl
      | exact .refl _
      | exact fun ⟨a, rest⟩ => ⟨(List.length_set ..).trans a, rest⟩

theorem withBed_heat (b : Nat) (f : Bed → Bed) : (p.withBed b f).heat = p.heat := by
  unfold Part.withBed Part.markIf Part.markDirty; dsimp only; split <;> rfl

theorem formDemand_sameLine (b : Nat) : p.heat.sameLine (formDemand c b p).heat := by
  unfold formDemand
  dsimp only
  split
  · rw [quell_heat]; exact ⟨rfl, rfl, rfl, rfl⟩
  · have h := computeGrant_sameLine (p.withBed b fun x => { x with db := demandOf c p b }) c
      (if demandOf c p b = 0 ∧ forcing c p b = true then [b] else [])
    rw [withBed_heat] at h
    exact h

theorem formDemands_sameLine : p.heat.sameLine (formDemands c p).heat := by
  have fold : ∀ (l : List Nat) (q : Part),
      q.heat.sameLine (l.foldl (fun x b => if c.assigned b then formDemand c b x else x) q).heat := by
    intro l
    induction l with
    | nil => exact fun q => ⟨rfl, rfl, rfl, rfl⟩
    | cons k l ih =>
      intro q
      refine HeatUnit.sameLine_trans ?_ (ih _)
      dsimp only
      split
      · exact formDemand_sameLine c q k
      · exact ⟨rfl, rfl, rfl, rfl⟩
  exact fold _ p

theorem formDemands_act : HeatAct c p (formDemands c p) := HeatAct.forAssigned (fun b x => formDemand_act c x b) p

theorem formFraction_act (d : Settings) (b : Nat) : HeatAct c p (formFraction d b p) := by
  unfold formFraction
  split
  · exact HeatAct.withBed c p b _ rfl
  · exact .refl c p

theorem evaluateRelease_act (b : Nat) : HeatAct c p (evaluateRelease b p) := by
  unfold evaluateRelease
  dsimp only
  split
  · exact (HeatAct.withBed c p b _ rfl).trans (.report c _ _)
  · exact .refl c p

theorem setBedState_act (b : Nat) (st : BedState) (w : BedCause) : HeatAct c p (setBedState b st w p) :=
  (HeatAct.withBed c p b _ rfl).trans (.report c _ _)

theorem enterEmpty_act (b : Nat) (w : BedCause) : HeatAct c p (enterEmpty c b w p) :=
  ((HeatAct.withBed c p b _ rfl).trans (setBedState_act c _ b _ w)).trans (formDemand_act c _ b)

theorem enterDetensioned_act (d : Settings) (b : Nat) : HeatAct c p (enterDetensioned d b p) :=
  (HeatAct.withBed c p b _ rfl).trans (setBedState_act c _ b _ _)

theorem emergencyBed_act (b : Nat) : HeatAct c p (emergencyBed b p) := by
  unfold emergencyBed
  split
  · exact setBedState_act c p b _ _
  · exact .refl c p

theorem closeWindow_act (b : Nat) : HeatAct c p (closeWindow c b p) := by
  unfold closeWindow
  dsimp only
  split
  · exact ((setFlow_act c p b _).trans (.report c _ _)).trans (formDemand_act c _ b)
  · exact setFlow_act c p b _

theorem bedsTake_act : HeatAct c p (bedsTake c p) :=
  ((HeatAct.forAssigned (fun b x => evaluateRelease_act c x b) p).trans
    (HeatAct.forAssigned (fun b x => (formFraction_act c x c b).trans (formDemand_act c _ b)) _)).trans
    (computeGrant_act c _ [])

end Sys2Proof.Machine
end

