-- ==== Sys2Proof/Laws/Plant.lean ====
section
/-! SUPPORT. The operations of the scan and maturity units, of the interpolator, of picks, and of every order: which of the
relations of Laws/Acts.lean each keeps. -/
namespace Sys2Proof.Machine
open Sys2Proof

variable (c : Settings) (p : Part)

/-! ### Scan unit -/

theorem applySample_act (k : Nat) (s : Classified) : Quiet c p (applySample k s p) := by
  unfold applySample
  dsimp only
  split
  · exact Quiet.trans (q := { p with scan := { p.scan with channels := p.scan.channels.set k ((p.channel k).apply s) } })
      (Quiet.ofScan c p _ rfl (List.length_set ..)) (CraneAct.report c _ _).toQuiet
  · exact Quiet.ofScan c p _ rfl (List.length_set ..)

theorem setBedTemp_act (b : Nat) (x : BedTemp) : Quiet c p (p.setBedTemp b x) :=
  Quiet.ofScan c p _ (List.length_set ..) rfl

theorem settleBlind_act (b : Nat) : Quiet c p (settleBlind b p) := by
  unfold settleBlind
  dsimp only
  split
  · exact (setBedTemp_act c p b _).trans (CraneAct.report c _ _).toQuiet
  · exact (setBedTemp_act c p b _).trans (CraneAct.report c _ _).toQuiet
  · exact .refl c p

theorem settleOverheat_act (d : Settings) (b : Nat) : Quiet c p (settleOverheat d b p) := by
  unfold settleOverheat
  dsimp only
  split
  · exact .refl c p
  · split
    · exact (setBedTemp_act c p b _).trans (CraneAct.report c _ _).toQuiet
    · split
      · exact (setBedTemp_act c p b _).trans (CraneAct.report c _ _).toQuiet
      · exact .refl c p

theorem evaluateBed_act (d : Settings) (b : Nat) : Quiet c p (evaluateBed d b p) := by
  unfold evaluateBed
  split
  · exact ((setBedTemp_act c p b _).trans (settleBlind_act c _ b)).trans (settleOverheat_act c _ d b)
  · exact .refl c p

theorem setRetired_act (k : Nat) (v : Bool) : Quiet c p (p.setRetired k v) := by
  unfold Part.setRetired
  exact Quiet.trans
    (q := { p with scan := { p.scan with channels := p.scan.channels.set k { p.channel k with retired := v } } })
    (Quiet.ofScan c p _ rfl (List.length_set ..)) (CraneAct.markDirty c _ _).toQuiet

theorem retireChannel_act (d : Settings) (b k : Nat) : Quiet c p (retireChannel d b k p) :=
  (setRetired_act c p k true).trans (evaluateBed_act c _ d b)

theorem clearRetired_act (k : Nat) : Quiet c p (clearRetired k p) := by
  unfold clearRetired
  dsimp only
  split
  · exact (setRetired_act c p k false).trans (CraneAct.report c _ _).toQuiet
  · exact setRetired_act c p k false

theorem clearBedRetired_act (d : Settings) (b : Nat) : Quiet c p (clearBedRetired d b p) := by
  unfold clearBedRetired
  dsimp only
  split
  · exact .refl c p
  · exact (Quiet.foldl (fun q k => clearRetired_act c q k) _ p).trans (evaluateBed_act c _ d b)

/-! ### Maturity unit -/

theorem advanceAll_act (d : Settings) (x : Sample) : Quiet c p (advanceAll d x p) := by
  unfold advanceAll
  split
  · exact .refl c p
  · dsimp only
    exact Quiet.trans
      (Quiet.ofMaturity c p
        { p.maturity with
          accs := p.maturity.accs.mapIdx fun k a => advanceChannel d p x k a
          ambient := match x.usable.getD 22 none with
            | some t => p.maturity.ambient.advance (product d.t0 t x.interval)
            | none => p.maturity.ambient } (List.length_mapIdx ..) rfl)
      (CraneAct.markIf c _ _ _).toQuiet

theorem formLiftTests_act (d : Settings) (b : Nat) : CraneAct c p (formLiftTests d b p) := mapPieces_act c p _
theorem formShipTests_act (d : Settings) : CraneAct c p (formShipTests d p) := mapPieces_act c p _
theorem formAgeTests_act (d : Settings) : CraneAct c p (formAgeTests d p) := mapPieces_act c p _

theorem computeGoverning_act (d : Settings) (b : Nat) : PlantAct c p (computeGoverning d b p) := by
  unfold computeGoverning
  split
  · exact .refl c p
  · dsimp only
    split
    · exact (HeatAct.withBed c p b _ rfl).toPlantAct
    · exact (HeatAct.withBed c p b _ rfl).toPlantAct.trans (formLiftTests_act c _ d b).toPlantAct

theorem maturityTakes_act (x : Sample) : Quiet c p (maturityTakes c x p) := by
  unfold maturityTakes
  dsimp only
  refine Quiet.trans ?_ (CraneAct.markDirty c _ _).toQuiet
  have h := (advanceAll_act c p c x).trans
    (Quiet.forAssigned (c := c) (fun b y => (computeGoverning_act c y c b).toQuiet) (advanceAll c x p))
  split
  · exact h
  · exact h.trans (formShipTests_act c _ c).toQuiet

theorem zeroBed_act (d : Settings) (b : Nat) : Quiet c p (zeroBed d b p) := by
  unfold zeroBed
  refine Quiet.trans (Quiet.trans (Quiet.trans (Quiet.ofMaturity c p
        { p.maturity with
          accs := p.maturity.accs.mapIdx fun k a => if k ∈ d.bedChannels b then ⟨0, 0⟩ else a
          credit := p.maturity.credit.set b p.now } (List.length_mapIdx ..) (List.length_set ..))
      (CraneAct.markDirty c _ .channels).toQuiet) (HeatAct.withBed c _ b (fun x => { x with mg := 0 }) rfl).toQuiet)
    (computeGoverning_act c _ d b).toQuiet

theorem maturityAtStart_act : PlantAct c p (maturityAtStart c p) := by
  unfold maturityAtStart
  exact (((PlantAct.forAssigned (fun b y => computeGoverning_act c y c b) p).trans
    (PlantAct.forAssigned (fun b y => (formLiftTests_act c y c b).toPlantAct) _)).trans
    (formShipTests_act c _ c).toPlantAct).trans (mapPieces_act c _ _).toPlantAct

theorem recomputeBed_act (d : Settings) (b : Nat) : PlantAct c p (recomputeBed d b p) :=
  (computeGoverning_act c p d b).trans (evaluateRelease_act c _ b).toPlantAct

/-! ### Completed samples -/

theorem handOn_act (interval endTime : Nat) : Quiet c p (handOn c interval endTime p) :=
  (((Quiet.forAssigned (fun b y => evaluateBed_act c y c b) p).trans (maturityTakes_act c _ _)).trans
    (bedsTake_act c _).toQuiet).trans (settle_act c _ c).toQuiet

theorem missAll_act (d : Settings) : Quiet c p (missAll d p) :=
  Quiet.foldl (fun q k => applySample_act c q k (.invalid .missed)) _ p

theorem convertAll_act (d : Settings) (rref : Nat) (codes : List Code) : Quiet c p (convertAll d rref codes p) :=
  Quiet.foldl (fun q k => applySample_act c q k (classifySample (codes.getD k 0).toNat rref
    (if k = 22 then d.ambZ else (d.channel k).z) (if k = 22 then d.ambK else (d.channel k).k))) _ p

theorem applyScan_act (d : Settings) (r1 r2 : Nat) (codes : List Code) : Quiet c p (applyScan d r1 r2 codes p) := by
  unfold applyScan
  split
  · refine Quiet.trans ?_ (convertAll_act c _ d _ codes)
    split
    · exact .refl c p
    · exact Quiet.trans (q := { p with scan := { p.scan with refGood := true } }) (Quiet.ofScan c p _ rfl rfl)
        (CraneAct.report c _ _).toQuiet
  · refine Quiet.trans ?_ (missAll_act c _ d)
    split
    · exact Quiet.trans (q := { p with scan := { p.scan with refGood := false } }) (Quiet.ofScan c p _ rfl rfl)
        (CraneAct.report c _ _).toQuiet
    · exact .refl c p

theorem completeScan_act (run : ScanRun) (r1 r2 : Nat) (codes : List Code) :
    Quiet c p (completeScan c run r1 r2 codes p) := by
  have h1 : Quiet c p { p with scan := { p.scan with run := none, evaluating := true } } := Quiet.ofScan c p _ rfl rfl
  have h2 := (h1.trans (applyScan_act c _ c r1 r2 codes)).trans
    (handOn_act c _ (if run.initial then 0 else c.ts) run.endTime)
  unfold completeScan
  dsimp only at h2 ⊢
  revert h2
  generalize handOn c (if run.initial then 0 else c.ts) run.endTime _ = r
  intro h2
  exact (h2.trans (Quiet.ofScan c r { r.scan with skipped := [] } rfl rfl)).trans
    (Quiet.foldl (fun q t => (missAll_act c q c).trans (handOn_act c _ c.ts t)) _ _)

/-! ### Interpolator -/

theorem handOccupancy_act (occ : List Nat) : Acts c p (handOccupancy occ p) :=
  ⟨rfl, rfl, rfl, rfl, .refl _, rfl, id, id⟩

theorem positionChanged_act (d : Settings) : Acts c p (positionChanged d p) := by
  unfold positionChanged
  split
  · exact .refl c p
  · rename_i q _
    refine Acts.trans (Acts.trans (Acts.trans (Acts.ofTravel c p
      { p.travel with lastKnown := some q, limit := limitOf d q }) (handOccupancy_act c _ _))
      (CraneAct.markIf c _ _ _).toActs) (CraneAct.reportIf c _ _ _).toActs

theorem positionLost_act (d : Settings) : Acts c p (positionLost d p) :=
  (Acts.ofTravel c p { p.travel with referenced := false, limit := .none }).trans (handOccupancy_act c _ _)

theorem faultPosition_act (d : Settings) (k : PosFault) : Acts c p (faultPosition d k p) := by
  unfold faultPosition
  refine Acts.trans ?_ (CraneAct.reportIf c _ _ _).toActs
  dsimp only
  split
  · exact (Acts.ofTravel c p { p.travel with fault := true, cause := some k }).trans (positionLost_act c _ d)
  · exact Acts.ofTravel c p _

theorem sampleTracks_act (d : Settings) (pat : Option Nat) : Acts c p (sampleTracks d pat p) := by
  unfold sampleTracks
  dsimp only
  split
  · split
    · exact (Acts.ofTravel c p _).trans (faultPosition_act c _ d _)
    · exact Acts.ofTravel c p _
  · split
    · exact Acts.ofTravel c p _
    · split
      · exact Acts.ofTravel c p _
      · split
        · exact Acts.ofTravel c p _
        · split
          · exact Acts.ofTravel c p _
          · split
            · exact Acts.ofTravel c p _
            · exact (faultPosition_act c p d _).trans (Acts.ofTravel c _ _)

theorem markPassed_act (d : Settings) (fwd : Bool) : Acts c p (markPassed d fwd p) := by
  cases fwd <;> simp only [markPassed, Bool.false_eq_true, ↓reduceIte] <;> split
  · exact (Acts.ofTravel c p p.travel.period).trans (faultPosition_act c _ d _)
  · exact (Acts.ofTravel c p p.travel.period.atReverse).trans (positionChanged_act c _ d)
  · exact (Acts.ofTravel c p p.travel.period).trans (faultPosition_act c _ d _)
  · exact (Acts.ofTravel c p p.travel.period.atForward).trans (positionChanged_act c _ d)

theorem markFalls_act (d : Settings) : Acts c p (markFalls d p) := by
  unfold markFalls
  dsimp only
  split
  · exact (Acts.ofTravel c p _).trans (markPassed_act c _ d _)
  · exact (Acts.ofTravel c p _).trans (markPassed_act c _ d _)
  · exact Acts.ofTravel c p _

theorem markRises_act : Acts c p (markRises p) := Acts.ofTravel c p _

theorem microstepDue_act (d : Settings) : Acts c p (microstepDue d p) := by
  unfold microstepDue
  split
  · dsimp only
    split
    · exact Acts.ofTravel c p _
    · exact (Acts.ofTravel c p _).trans (positionChanged_act c _ d)
  · exact .refl c p

theorem microstepsStop_act : Acts c p (microstepsStop p) := by
  unfold microstepsStop
  split
  · split
    · exact Acts.ofTravel c p _
    · exact .refl c p
  · exact .refl c p

theorem standstillReached_act : Acts c p (standstillReached p) := Acts.ofTravel c p _

theorem reference_act (d : Settings) : Acts c p (reference d p) := by
  unfold reference
  exact ((Acts.ofTravel c p _).trans (CraneAct.report c _ _).toActs).trans (positionChanged_act c _ d)

theorem afterLoss_act (d : Settings) (before : Part) : CraneAct c p (afterLoss d before p) := by
  unfold afterLoss
  split
  · exact ((halt_act c p _).trans (settle_act c _ d)).trans (formNotice_act c _ d)
  · exact settle_act c p d

/-! ### Picks and crane lines -/

theorem leaveSlot_act (b s : Nat) : HeatAct c p (leaveSlot c b s p) := by
  unfold leaveSlot
  dsimp only
  split
  · exact (HeatAct.withBed c p b _ rfl).trans (enterEmpty_act c _ b _)
  · exact HeatAct.withBed c p b _ rfl

theorem pickPiece_act (id : Nat) : PlantAct c p (pickPiece c id p) := by
  unfold pickPiece
  split
  · exact .refl c p
  · dsimp only
    split
    · exact (updatePiece_act c p _ _).toPlantAct.trans (leaveSlot_act c _ _ _).toPlantAct
    · exact ((setStackAt_act c p _ _).trans (updatePiece_act c _ _ _)).toPlantAct
    · exact .refl c p

theorem hookLoads_act : PlantAct c p (hookLoads c p) := by
  unfold hookLoads
  split
  · split
    · exact ((pickPiece_act c p _).trans (updateMove_act c _ _ _).toPlantAct).trans (enterTravel_act c _ _ _ _).toPlantAct
    · exact (halt_act c p _).toPlantAct
    · exact .refl c p
  · exact .refl c p

theorem craneEffect_act (l : CraneLine) (v : Bool) : PlantAct c p (craneEffect c l v p) := by
  unfold craneEffect
  split
  · exact hookLoads_act c p
  · exact (hookUnloads_act c p c).toPlantAct
  · exact (halt_act c p _).toPlantAct
  · exact (halt_act c p _).toPlantAct
  · exact .refl c p

theorem acceptLevel_act (l : CraneLine) (v : Bool) : Acts c p (acceptLevel l v p) :=
  ⟨rfl, rfl, rfl, rfl, .refl _, rfl, id, id⟩

theorem craneLevel_act (l : CraneLine) (v : Bool) : Acts c p (craneLevel c l v p) := by
  unfold craneLevel
  dsimp only
  split
  · exact (acceptLevel_act c p l v).trans (settle_act c _ c).toActs
  · split
    · exact .refl c p
    · exact (((acceptLevel_act c p l v).trans (reportCrane_act c _).toActs).trans (craneEffect_act c _ l v).toActs).trans
        (settle_act c _ c).toActs

/-! ### Orders: what is done before the answer -/

theorem createPart_act (b : Nat) (es : List PartEntry) : PlantAct c p (createPart c b es p) :=
  PlantAct.foldl (fun q e => (createPiece_act c q c b _ _ e).toPlantAct.trans (HeatAct.withBed c _ b _ rfl).toPlantAct) es p

theorem startCast_act (b mix n : Nat) (es : List PartEntry) : Quiet c p (startCast c b mix n es p) := by
  unfold startCast
  exact (((((HeatAct.withBed c p b _ rfl).trans (setBedState_act c _ b _ _)).toQuiet.trans
    (clearBedRetired_act c _ c b)).trans (zeroBed_act c _ c b)).trans (createPart_act c _ b es).toQuiet).trans
    (formDemand_act c _ b).toQuiet

theorem continueCast_act (b : Nat) (es : List PartEntry) : PlantAct c p (continueCast c b es p) :=
  (createPart_act c p b es).trans (HeatAct.withBed c _ b _ rfl).toPlantAct

theorem orderCastStart_act (ps : List Byte) : Quiet c p (orderCastStart ps c p).part := by
  unfold orderCastStart
  dsimp only
  split
  · exact .refl c p
  · split
    · exact .refl c p
    · split
      · exact .refl c p
      · split
        · exact .refl c p
        · split
          · exact .refl c p
          · split
            · exact .refl c p
            · dsimp only [doneSettled, done]
              refine Quiet.trans ?_ (settle_act c _ c).toQuiet
              split
              · exact startCast_act c p _ _ _ _
              · exact (continueCast_act c p _ _).toQuiet

theorem endCast_act (b : Nat) (f : Bed → Bed) (h : (f (p.bed b)).db = (p.bed b).db) :
    HeatAct c p (evaluateRelease b (evaluateStage c b (setBedState b .curing .order (p.withBed b f)))) :=
  (((HeatAct.withBed c p b f h).trans (setBedState_act c _ b _ _)).trans (evaluateStage_act c _ c b)).trans
    (evaluateRelease_act c _ b)

theorem orderCastEnd_act (ps : List Byte) : PlantAct c p (orderCastEnd ps c p).part := by
  unfold orderCastEnd
  dsimp only
  split
  · exact .refl c p
  · split
    · exact .refl c p
    · dsimp only [doneSettled, done]
      refine PlantAct.trans ?_ (settle_act c _ c).toPlantAct
      refine HeatAct.toPlantAct (endCast_act c p _ _ ?_)
      rfl

theorem orderDetension_act (ps : List Byte) : PlantAct c p (orderDetension ps c p).part := by
  unfold orderDetension
  dsimp only
  repeat' split
  all_goals dsimp only [refuse, done, doneSettled]
  all_goals try with_reducible exact .refl c p
  · refine PlantAct.trans ?_ (settle_act c _ c).toPlantAct
    exact (enterDetensioned_act c p c _).toPlantAct
  · refine PlantAct.trans ?_ (settle_act c _ c).toPlantAct
    exact (setBedState_act c p _ _ _).toPlantAct

theorem orderHoldBed_act (ps : List Byte) : PlantAct c p (orderHoldBed ps c p).part := by
  unfold orderHoldBed
  dsimp only
  repeat' split
  all_goals dsimp only [refuse, done, doneSettled]
  all_goals first
    | with_reducible exact .refl c p
    | with_reducible exact ((HeatAct.withBed c p _ _ (by rfl)).trans (.report c _ _)).toPlantAct

theorem orderHoldPiece_act (ps : List Byte) : CraneAct c p (orderHoldPiece ps c p).part := by
  unfold orderHoldPiece
  dsimp only
  repeat' split
  all_goals dsimp only [refuse, done, doneSettled]
  all_goals first
    | with_reducible exact .refl c p
    | with_reducible exact ((updatePiece_act c p _ _).trans (.report c _ _)).trans (settle_act c _ c)

theorem orderRetire_act (ps : List Byte) : Quiet c p (orderRetire ps c p).part := by
  unfold orderRetire
  dsimp only
  repeat' split
  all_goals dsimp only [refuse, done, doneSettled]
  all_goals first
    | with_reducible exact .refl c p
    | with_reducible exact (((retireChannel_act c p c _ _).trans (recomputeBed_act c _ c _).toQuiet).trans
        (formDemand_act c _ _).toQuiet).trans (settle_act c _ c).toQuiet

theorem cancelMove_act (m : Move) (w : Report.RemoveCause) :
    CraneAct c p ((removeMove m (releaseMark m.tag m.piece p)).report (.moveRemoved m w)) :=
  ((releaseMark_act c p _ _).trans (removeMove_act c _ m)).trans (.report c _ _)

theorem dropQueued_act (m : Move) : CraneAct c p (dropQueued p m) :=
  cancelMove_act c p m .clearBed

theorem clearBed_act (b : Nat) : PlantAct c p (clearBed c b p) := by
  unfold clearBed
  dsimp only
  exact (((CraneAct.foldl (fun q m => dropQueued_act c q m) _ p).trans
    (CraneAct.foldl (fun q i => removePiece_act c q i) _ _)).trans (.reportIf c _ _ _)).toPlantAct.trans
    ((HeatAct.withBed c _ b _ rfl).trans (enterEmpty_act c _ b _)).toPlantAct

theorem orderClearBed_act (ps : List Byte) : PlantAct c p (orderClearBed ps c p).part := by
  unfold orderClearBed
  dsimp only
  repeat' split
  all_goals dsimp only [refuse, done, doneSettled]
  all_goals first
    | with_reducible exact .refl c p
    | with_reducible exact (clearBed_act c p _).trans (settle_act c _ c).toPlantAct

theorem admitLift_act (d : Settings) (x : Piece) (g : StackCfg) (lane n : Nat) :
    CraneAct c p (admitLift d x g lane n p) :=
  ((setStackAt_act c p _ _).trans (updatePiece_act c _ _ _)).trans (enqueue_act c _ _)

theorem admitShip_act (d : Settings) (x : Piece) (lane n : Nat) : CraneAct c p (admitShip d x lane n p) :=
  ((setStackAt_act c p _ _).trans (updatePiece_act c _ _ _)).trans (enqueue_act c _ _)

theorem orderLift_act (ps : List Byte) : CraneAct c p (orderLift ps c p).part := by
  unfold orderLift
  dsimp only
  repeat' split
  all_goals dsimp only [refuse, done, doneSettled]
  all_goals first
    | with_reducible exact .refl c p
    | with_reducible exact (admitLift_act c p c _ _ _ _).trans (settle_act c _ c)

theorem orderShip_act (ps : List Byte) : CraneAct c p (orderShip ps c p).part := by
  unfold orderShip
  dsimp only
  repeat' split
  all_goals dsimp only [refuse, done, doneSettled]
  all_goals first
    | with_reducible exact .refl c p
    | with_reducible exact (admitShip_act c p c _ _ _).trans (settle_act c _ c)

theorem orderCancel_act (ps : List Byte) : CraneAct c p (orderCancel ps c p).part := by
  unfold orderCancel
  dsimp only
  split
  · exact .refl c p
  · split
    · exact .refl c p
    · split
      · exact .refl c p
      · split
        · exact .refl c p
        · dsimp only [doneSettled, done]
          refine CraneAct.trans ?_ (settle_act c _ c)
          split
          · refine CraneAct.trans ?_ (setReturn_act c _ c)
            exact cancelMove_act c p _ .cancel
          · exact cancelMove_act c p _ .cancel

theorem orderResume_act (ps : List Byte) : CraneAct c p (orderResume ps c p).part := by
  unfold orderResume
  dsimp only
  repeat' split
  all_goals dsimp only [refuse, done, doneSettled]
  all_goals try with_reducible exact .refl c p
  · refine CraneAct.trans ?_ (settle_act c _ c)
    exact enterTravel_act c p _ _ _
  · refine CraneAct.trans ?_ (settle_act c _ c)
    exact enterTravel_act c p _ _ _
  · refine CraneAct.trans ?_ (settle_act c _ c)
    exact completeMove_act c p c _ _

theorem orderAux_act (ps : List Byte) : HeatAct c p (orderAux ps c p).part := by
  unfold orderAux
  dsimp only
  repeat' split
  all_goals dsimp only [refuse, done, doneSettled]
  all_goals first
    | with_reducible exact .refl c p
    | with_reducible exact withAux_act c p c _ _ _

theorem orderSpanFree_act (ps : List Byte) : CraneAct c p (orderSpanFree ps c p).part := by
  unfold orderSpanFree
  dsimp only
  repeat' split
  all_goals dsimp only [refuse, done, doneSettled]
  all_goals first
    | with_reducible exact .refl c p
    | with_reducible exact (freeSpan_act c p _).trans (settle_act c _ c)

theorem orderClearFault_act (ps : List Byte) : HeatAct c p (orderClearFault ps c p).part := by
  unfold orderClearFault
  dsimp only
  repeat' split
  all_goals dsimp only [refuse, done, doneSettled]
  all_goals first
    | with_reducible exact .refl c p
    | with_reducible exact ((setFlow_act c p _ _).trans (.report c _ _)).trans (formDemand_act c _ _)

end Sys2Proof.Machine
end

