-- ==== Sys2Proof/Laws/Line.lean ====
section
/-! SUPPORT. What receiving and answering do: one equation per form, cited in place of unfolding the line interface. -/
namespace Sys2Proof.Machine
open Sys2Proof

/-! ### Running stations -/

theorem onRunning_of_runs {p : Part} {c : Settings} (h : p.runs c) (f : Settings → Part → Part) :
    p.onRunning f = f c p := by
  unfold Part.onRunning; rw [h.1, h.2]

/-- A command that acts on the part alone completes with what its action gives. -/
theorem completes_of {i : Instr} {s : State} {q : Part} {post : Part → Prop}
    (h : exec i s = .next { s with part := q }) (k : post q) : Completes i s post := ⟨q, h, k⟩

/-- A command of a running station completes with what its action gives under the settings. -/
theorem completes_running {i : Instr} {s : State} {c : Settings} {f : Settings → Part → Part} {post : Part → Prop}
    (hr : s.part.runs c) (he : exec i s = .next (s.onPart (·.onRunning f))) (k : post (f c s.part)) :
    Completes i s post := by
  refine ⟨f c s.part, ?_, k⟩
  rw [he]; unfold State.onPart; dsimp only; rw [onRunning_of_runs hr]

theorem exec_running {i : Instr} {s : State} {c : Settings} {f : Settings → Part → Part}
    (hr : s.part.runs c) (he : exec i s = .next (s.onPart (·.onRunning f))) :
    exec i s = .next { s with part := f c s.part } := by
  rw [he]; unfold State.onPart; dsimp only; rw [onRunning_of_runs hr]

/-! ### Receiving -/

/-- A frame that arrives at a running, configured station is dispatched after its count and its sign of life. -/
theorem receiveWhen_eq {p : Part} {c : Settings} {src : Byte} {arrives : Bool} (hr : p.runs c) (hv : arrives = true)
    (hs : src.toNat ≠ p.line.own) (f : Part → Part) : receiveWhen arrives src f p = f (heard p) := by
  have h1 : (p.count Counters.addValid).runs c := hr
  unfold receiveWhen hear
  dsimp only
  rw [onRunning_of_runs h1, if_pos hv, if_neg hs, if_pos hr.1]
  rfl

theorem receive_eq {p : Part} {c : Settings} {src : Byte} (hr : p.runs c) (hv : receiving p = true)
    (hs : src.toNat ≠ p.line.own) (f : Part → Part) : receive src f p = f (heard p) := receiveWhen_eq hr hv hs f

theorem runs_of_takesOrders {p : Part} {c : Settings} {src : Byte} (h : TakesOrders p c src) : p.runs c :=
  ⟨h.running, h.configured⟩

theorem receiving_of_takesOrders {p : Part} {c : Settings} {src : Byte} (h : TakesOrders p c src) : receiving p = true := by
  unfold receiving listening; rw [h.running, h.receiving, h.free]; rfl

/-- An order that reaches the station is answered by its block, or RANGE when parameters are missing. -/
theorem takeOrder_eq {p : Part} {c : Settings} {src : Byte} (h : TakesOrders p c src) (tag : Byte) (need : Nat)
    (ps : List Byte) (act : Settings → Part → Reply) :
    takeOrder src tag need ps act p =
      answer src tag false (if ps.length < need then refuse .range (heard p) else act c (heard p)) := by
  unfold takeOrder
  rw [receive_eq (runs_of_takesOrders h) (receiving_of_takesOrders h) h.foreign]
  unfold routeOrder
  have h1 : (heard p).inClash = false := by unfold Part.inClash heard; rw [h.noClash]; rfl
  have h2 : (heard p).line.restart.isSome = false := by unfold heard; rw [h.noRestart]; rfl
  have h3 : (heard p).config = some c := h.configured
  rw [h1, h2, h3]
  rfl

/-- The equation of a command that is an order of the table. -/
theorem exec_order {i : Instr} {o : OrderForm} (h : orderOf i = some o) (s : State) :
    exec i s = .next (s.onPart (takeOrder o.src o.tag o.need o.params o.act)) := by
  cases i <;> simp [orderOf] at h <;> subst h <;> rfl

/-- An order that has been read goes to order routing. -/
theorem routeCommand_order {i : Instr} {o : OrderForm} (h : orderOf i = some o) (p : Part) :
    routeCommand i p = routeOrder o.src o.tag o.need o.params o.act p := by
  cases i <;> simp [orderOf] at h <;> subst h <;> rfl

/-- A frame of another kind than ORDER arrives where frames are received. -/
theorem frameArrives_of_kind {kind src target : Byte} {pl : List Byte} {p : Part} (h : kind ≠ kindOrder) :
    frameArrives kind src target pl p = receiving p := by
  unfold frameArrives forOwn
  rw [decide_eq_false (fun k => h k.1)]

/-- What the code of an ORDER frame names is an order of its sender, or a RESTART. -/
theorem readOrder_names {src : Byte} {pl : List Byte} {i : Instr} (h : readOrder src pl = some i) :
    (∃ o, orderOf i = some o ∧ o.src = src) ∨ ∃ tag ps, i = .restart src tag ps := by
  unfold readOrder readHold readQuery at h
  split at h
  · split at h <;> (try split at h) <;> cases h <;> first | exact .inl ⟨_, rfl, rfl⟩ | exact .inr ⟨_, _, rfl⟩
  · cases h

theorem routeRestart_eq {p : Part} (h1 : p.inClash = false) (h2 : p.line.restart.isSome = false) (src tag : Byte) :
    routeRestart src tag p = answer src tag true (refuse (if p.config.isSome then .done else .unconfigured)
      { p with line := { p.line with restart := some ⟨p.clock.ms, false⟩ } }) := by
  unfold routeRestart
  rw [h1, h2]
  rfl

/-! ### Answers -/

theorem takeOffered_answers_le (l : LineUnit) : l.takeOffered.answers.length ≤ l.answers.length := by
  unfold LineUnit.takeOffered
  split
  · split <;> simp
  · exact Nat.le_refl _

theorem takeOffered_cases (l : LineUnit) :
    (l.takeOffered = l ∧ ∀ fr c, l.tx ≠ some ⟨fr, c, true⟩)
      ∨ ∃ fr c, l.tx = some ⟨fr, c, true⟩ ∧ l.takeOffered.tx = some ⟨fr, c, false⟩ := by
  rcases l with ⟨_, _, _, _, _, _, _, _, tx, _, _, _⟩
  rcases tx with _ | ⟨fr, c, _ | _⟩
  · exact .inl ⟨rfl, fun _ _ => by simp⟩
  · exact .inl ⟨rfl, fun _ _ => by simp⟩
  · refine .inr ⟨fr, c, rfl, ?_⟩
    cases fr <;> rfl

/-- Where no frame stands in its place, a placement takes none out. -/
theorem takeOffered_of_tx {l : LineUnit} (h : ∀ fr c, l.tx ≠ some ⟨fr, c, true⟩) : l.takeOffered = l := by
  rcases takeOffered_cases l with ⟨h', _⟩ | ⟨fr, c, h', _⟩
  · exact h'
  · exact absurd h' (h fr c)

theorem takeOffered_tx (l : LineUnit) : ∀ fr c, l.takeOffered.tx ≠ some ⟨fr, c, true⟩ := by
  rcases takeOffered_cases l with ⟨h', h⟩ | ⟨fr, c, _, h⟩
  · rw [h']; exact h
  · intro fr' c'; rw [h]; simp

theorem takeOffered_idem (l : LineUnit) : l.takeOffered.takeOffered = l.takeOffered :=
  takeOffered_of_tx (takeOffered_tx l)

/-- After a placement no frame stands where it waited. -/
theorem takeOffered_placeReport (l : LineUnit) (r : Report) : (l.placeReport r).takeOffered = l.placeReport r := by
  refine takeOffered_of_tx fun fr c => ?_
  have h := takeOffered_tx l fr c
  unfold LineUnit.placeReport
  dsimp only
  split <;> exact h

theorem placeReport_answers_le (l : LineUnit) (r : Report) : (l.placeReport r).answers.length ≤ l.answers.length := by
  refine Nat.le_trans ?_ (takeOffered_answers_le l)
  unfold LineUnit.placeReport
  dsimp only
  split <;> exact Nat.le_refl _

theorem Placed.answers_le {l m : LineUnit} (h : Placed l m) : m.answers.length ≤ l.answers.length := by
  induction h with
  | refl => exact Nat.le_refl _
  | report _ r ih => exact Nat.le_trans (placeReport_answers_le _ r) ih
  | heat _ n ih => exact Nat.le_trans (takeOffered_answers_le _) ih
  | span _ n ih => exact Nat.le_trans (takeOffered_answers_le _) ih

/-- With room in the answer queue an answer stands last, and nothing else of the line changes but its transmit places. -/
theorem placeAnswer_room {l : LineUnit} (a : Answer) (h : l.answers.length < 4) :
    l.placeAnswer a = { l.takeOffered with answers := l.takeOffered.answers ++ [a] } := by
  unfold LineUnit.placeAnswer
  rw [if_pos (Nat.lt_of_le_of_lt (takeOffered_answers_le l) h)]

/-- A full answer queue drops and counts the answer. -/
theorem placeAnswer_full {l : LineUnit} (a : Answer) (h : l.takeOffered.answers.length = 4) :
    l.placeAnswer a = l.takeOffered.dropAnswer a := by
  unfold LineUnit.placeAnswer
  rw [if_neg (by rw [h]; decide)]

/-- An answer with room goes back to the head of its queue. -/
theorem putBack_answer_room {l : LineUnit} (a : Answer) (h : l.answers.length < 4) :
    l.putBack (.answer a) = { l with answers := a :: l.answers } := by
  unfold LineUnit.putBack
  dsimp only
  rw [if_pos h]

/-- A full queue takes an answer back at its head and loses its newest one. -/
theorem putBack_answer_full {l : LineUnit} (a b : Answer) {m : List Answer} (h : l.answers = m ++ [b]) (h3 : m.length = 3) :
    l.putBack (.answer a) = { l with answers := a :: m }.dropAnswer b := by
  unfold LineUnit.putBack
  dsimp only
  rw [if_neg (by simp [h, h3]), h]
  simp

theorem placeAnswer_keeps {l : LineUnit} (a : Answer) (h : l.answers.length < 4) : l.keeps (l.placeAnswer a) := by
  rw [placeAnswer_room a h]
  exact LineUnit.keeps_trans (takeOffered_keeps l) rfl

theorem answered_answer {r : Reply} (src tag : Byte) (h : r.part.line.answers.length < 4) :
    Answered (answer src tag false r) src tag r.result r.data := by
  unfold Answered answer
  rw [placeAnswer_room _ h]
  simp

/-- Where no frame stands in its place, placements keep the transmitter and leave a waiting SPAN notice waiting. -/
theorem Placed.waits {l m : LineUnit} (h : Placed l m) (ht : ∀ fr c, l.tx ≠ some ⟨fr, c, true⟩) :
    m.tx = l.tx ∧ (l.spanSlot.isSome = true → m.spanSlot.isSome = true) := by
  induction h with
  | refl => exact ⟨rfl, id⟩
  | @report m _ r ih =>
    have hm : m.takeOffered = m := takeOffered_of_tx (by rw [ih.1]; exact ht)
    unfold LineUnit.placeReport
    dsimp only
    rw [hm]
    split <;> exact ih
  | @heat m _ n ih =>
    have hm : m.takeOffered = m := takeOffered_of_tx (by rw [ih.1]; exact ht)
    unfold LineUnit.placeHeat
    rw [hm]
    exact ih
  | @span m _ n ih =>
    have hm : m.takeOffered = m := takeOffered_of_tx (by rw [ih.1]; exact ht)
    unfold LineUnit.placeSpan
    rw [hm]
    exact ⟨ih.1, fun _ => rfl⟩

/-- A SPAN notice that has been formed still waits after any further placement. -/
theorem Placed.spanSlot {l m : LineUnit} {n : SpanNotice} (h : Placed (l.placeSpan n) m) : m.spanSlot.isSome = true :=
  (h.waits (takeOffered_tx l)).2 rfl

theorem heard_answers (p : Part) : (heard p).line.answers = p.line.answers := rfl

/-- An order's block has only taken placements, so its answer has room. -/
theorem room_after {p : Part} {c d : Settings} {src : Byte} (h : TakesOrders p c src) {q : Part}
    (k : Acts d (heard p) q) : q.line.answers.length < 4 :=
  Nat.lt_of_le_of_lt k.placed.answers_le h.room

end Sys2Proof.Machine
end

