-- ==== Sys2Proof/Laws/Events.lean ====
section
/-! SUPPORT. What the events do as wholes: the relation each keeps between the part before and after it. -/
namespace Sys2Proof.Machine
open Sys2Proof

variable (c : Settings) (p : Part)

theorem secondWork_act : PlantAct c p (secondWork c p) := by
  unfold secondWork
  refine PlantAct.trans ?_ (testTimeout_act c _ c .timeout).toPlantAct
  refine PlantAct.trans ?_ (testTimeout_act c _ c .claimTimeout).toPlantAct
  refine PlantAct.trans ?_ (formAgeTests_act c _ c).toPlantAct
  exact ((HeatAct.forAssigned (fun b x => closeWindow_act c x b) p).trans
    ((HeatAct.forAssigned (fun b x => evaluateStage_act c x c b) _).trans
      (HeatAct.forAssigned (fun b x => formDemand_act c x b) _))).toPlantAct

theorem emergencyBegins_act : PlantAct c p (emergencyBegins c p) := by
  unfold emergencyBegins
  exact (((HeatAct.report c p _).trans (HeatAct.forAssigned (fun b x => emergencyBed_act c x b) _)).trans
    (formDemands_act c _)).toPlantAct.trans ((halt_act c _ _).trans (settle_act c _ c)).toPlantAct

theorem emergencyEnds_act : PlantAct c p (emergencyEnds c p) :=
  ((HeatAct.report c p _).trans (formDemands_act c _)).toPlantAct.trans (settle_act c _ c).toPlantAct

theorem warningBegins_act : PlantAct c p (warningBegins c p) :=
  ((HeatAct.report c p _).trans (formDemands_act c _)).toPlantAct.trans
    ((halt_act c _ _).trans (settle_act c _ c)).toPlantAct

theorem warningEnds_act (since : Nat) : PlantAct c p (warningEnds since c p) :=
  ((HeatAct.report c p _).trans (formDemands_act c _)).toPlantAct.trans (settle_act c _ c).toPlantAct

theorem enterClash_act : PlantAct c p (enterClash c p) :=
  (computeGrant_act c p []).toPlantAct.trans ((halt_act c _ _).trans (settle_act c _ c)).toPlantAct

theorem spansAtStart_act : CraneAct c p (spansAtStart c p) := CraneAct.ofSpan c p _

theorem travelAtStart_act : Acts c p (travelAtStart c p) := by
  unfold travelAtStart
  exact (Acts.ofTravel c p _).trans (handOccupancy_act c _ _)

/-! ### The travel decision -/

/-- Forming a notice or opening a claim leaves the decision. -/
theorem formNotice_decision : (formNotice c p).span.decision = p.span.decision := rfl

theorem noticeIfDue_decision : (noticeIfDue c p).span.decision = p.span.decision := by
  unfold noticeIfDue
  split <;> rfl

theorem openClaim_decision : (openClaim c p).span.decision = p.span.decision := by
  unfold openClaim
  split
  · split
    · rfl
    · split
      · rfl
      · dsimp only
        split <;> split <;> rfl
  · rfl

/-- After `settle` the decision is the one of the state that `settle` reaches before its last steps; those steps change spans and
notices alone. -/
theorem settle_decision : ∃ q, CraneAct c p q ∧ (settle c p).span.decision = travelDecision c q := by
  refine ⟨settleYield (withdrawClaims c (settleArrival c (settleStart c (announce c p)))), ?_, ?_⟩
  · exact (((announce_act c p c).trans (settleStart_act c _ c)).trans (settleArrival_act c _ c)).trans
      ((withdrawClaims_act c _ c).trans (settleYield_act c _))
  · unfold settle settleSpans
    rw [openClaim_decision, noticeIfDue_decision]
    rfl

/-- With the position unknown, or with emergency, supply warning or CLASH, travel stops. -/
theorem settle_stops (h : p.position = none ∨ p.emergencyActive = true ∨ p.inWarning = true ∨ p.inClash = true) :
    (settle c p).span.decision = .stop := by
  obtain ⟨q, hq, e⟩ := settle_decision c p
  rw [e]
  unfold travelDecision
  rw [hq.position]
  split
  · rename_i h1 _
    have : mustStop q = true := by
      unfold mustStop
      rw [hq.emergencyActive, hq.inWarning, hq.inClash]
      rcases h with h | h | h | h
      · rw [h] at h1; cases h1
      · simp [h]
      · simp [h]
      · simp [h]
    rw [if_pos this]
  · rfl

end Sys2Proof.Machine
end

