-- ==== Sys2Proof/Laws/Settle.lean ====
section
/-! SUPPORT. What `settle` may change, part by part: announcements touch the register alone, starts and arrivals the move controller,
the span unit's work its spans and its notices. -/
namespace Sys2Proof.Machine
open Sys2Proof

variable (c : Settings) (p : Part)

/-! ### The register -/

theorem recordAt_setRecord (n k : Nat) (x : Option Piece) :
    recordAt (p.setRecord n x) k = if n = k ∧ n < p.pieces.register.length then x else recordAt p k := by
  have h : (p.setRecord n x).pieces.register = p.pieces.register.set n x := by
    unfold Part.setRecord Part.markIf Part.markDirty; dsimp only; split <;> rfl
  unfold recordAt
  rw [h, List.getD_eq_getElem?_getD, List.getD_eq_getElem?_getD, List.getElem?_set]
  by_cases hn : n = k
  · subst hn
    by_cases hl : n < p.pieces.register.length
    · simp [hl]
    · simp [hl]
  · simp [hn]

theorem setRecord_register (n : Nat) (x : Option Piece) : (p.setRecord n x).pieces.register = p.pieces.register.set n x := by
  unfold Part.setRecord Part.markIf Part.markDirty; dsimp only; split <;> rfl

/-- A record found by an id stands at its block and carries that id; no lower block does. -/
theorem findRecord_spec {p : Part} {id n : Nat} (h : findRecord p id = some n) :
    n < p.pieces.register.length ∧ (∃ x, recordAt p n = some x ∧ x.id = id)
      ∧ ∀ k < n, ∀ x, recordAt p k = some x → x.id ≠ id := by
  unfold findRecord at h
  rw [List.findIdx?_eq_some_iff_getElem] at h
  obtain ⟨hl, h1, h2⟩ := h
  refine ⟨hl, ?_, ?_⟩
  · unfold recordAt
    rw [List.getD_eq_getElem?_getD, List.getElem?_eq_getElem hl]
    cases hx : p.pieces.register[n] with
    | none => simp [hx] at h1
    | some x => exact ⟨x, rfl, by simpa [hx] using h1⟩
  · intro k hk x hx hid
    have := h2 k hk
    unfold recordAt at hx
    rw [List.getD_eq_getElem?_getD, List.getElem?_eq_getElem (by omega)] at hx
    simp at hx
    rw [hx] at this
    simp [hid] at this

/-- Updating a record in place, its id kept, leaves every id where it was found. -/
theorem findRecord_update (id : Nat) (f : Piece → Piece) (hf : ∀ x, (f x).id = x.id) (j : Nat) :
    findRecord (updatePiece id f p) j = findRecord p j := by
  unfold updatePiece
  split
  · rename_i n hn
    obtain ⟨hl, ⟨x, hx, hid⟩, hlow⟩ := findRecord_spec hn
    unfold findRecord
    rw [setRecord_register, hx]
    have hget : p.pieces.register[n]'hl = some x := by
      unfold recordAt at hx
      rw [List.getD_eq_getElem?_getD, List.getElem?_eq_getElem hl] at hx
      exact hx
    have : (p.pieces.register.set n ((some x).map f)).map (fun o => o.map Piece.id)
        = p.pieces.register.map (fun o => o.map Piece.id) := by
      rw [List.map_set]
      apply List.ext_getElem
      · simp
      · intro k h1 h2
        rw [List.getElem_set]
        split
        · rename_i hk; subst hk; simp [hget, hf]
        · rfl
    have e : ∀ l : List (Option Piece), (l.findIdx? fun o => o.any fun x => x.id == j)
        = (l.map (fun o => o.map Piece.id)).findIdx? fun o => o.any fun i => i == j := by
      intro l
      rw [List.findIdx?_map]
      congr 1
      funext o
      cases o <;> rfl
    rw [e, e, this]
  · rfl

/-- The record found after an update. -/
theorem findPiece_update (id : Nat) (f : Piece → Piece) (hf : ∀ x, (f x).id = x.id) (j : Nat) :
    findPiece (updatePiece id f p) j = (findPiece p j).map fun x => if j = id then f x else x := by
  unfold findPiece
  rw [findRecord_update p id f hf]
  cases hj : findRecord p j with
  | none => rfl
  | some k =>
    show recordAt _ k = (recordAt p k).map _
    obtain ⟨hk, ⟨x, hx, hxid⟩, _⟩ := findRecord_spec hj
    unfold updatePiece
    cases hi : findRecord p id with
    | none =>
      have : j ≠ id := fun e => by rw [e, hi] at hj; cases hj
      simp [this]
    | some n =>
      dsimp only
      rw [recordAt_setRecord]
      obtain ⟨hn, ⟨y, hy, hyid⟩, _⟩ := findRecord_spec hi
      by_cases hnk : n = k
      · subst hnk
        have : j = id := by rw [hx] at hy; injection hy with hy; rw [← hxid, ← hyid, hy]
        simp [hn, this]
      · have : j ≠ id := fun e => hnk (by rw [e, hi] at hj; exact Option.some.inj hj)
        simp [hnk, this]

/-! ### Announcements -/

/-- Announcements set announced marks and place reports; nothing else. -/
structure Announced (p q : Part) : Prop where
  rest : q = { p with pieces := q.pieces, line := q.line, mem := q.mem }
  stackTable : q.pieces.stackTable = p.pieces.stackTable
  pieces : ∀ id x, findPiece p id = some x → ∃ v, findPiece q id = some { x with announced := v }

theorem Announced.refl (p : Part) : Announced p p := ⟨rfl, rfl, fun _ x h => ⟨x.announced, h⟩⟩
theorem Announced.trans {p q r : Part} (h : Announced p q) (k : Announced q r) : Announced p r := by
  refine ⟨?_, k.stackTable.trans h.stackTable, fun id x hx => ?_⟩
  · rw [k.rest, h.rest]
  · obtain ⟨v, hv⟩ := h.pieces id x hx
    obtain ⟨w, hw⟩ := k.pieces id _ hv
    exact ⟨w, hw⟩

theorem updatePiece_rest (id : Nat) (f : Piece → Piece) :
    updatePiece id f p = { p with pieces := (updatePiece id f p).pieces, mem := (updatePiece id f p).mem }
      ∧ (updatePiece id f p).pieces.stackTable = p.pieces.stackTable := by
  unfold updatePiece
  split
  · unfold Part.setRecord Part.markIf Part.markDirty; dsimp only; split <;> exact ⟨rfl, rfl⟩
  · exact ⟨rfl, rfl⟩

theorem findPiece_report (r : Report) (id : Nat) : findPiece (p.report r) id = findPiece p id := rfl

theorem announceOne_announced (x : Piece) : Announced p (announceOne c p x) := by
  unfold announceOne
  split
  · have h := updatePiece_rest p x.id fun y => { y with announced := true }
    refine ⟨?_, h.2, fun id y hy => ?_⟩
    · unfold Part.report; rw [h.1]
    · rw [findPiece_report, findPiece_update p x.id (fun y => { y with announced := true }) (fun _ => rfl), hy]
      by_cases hid : id = x.id
      · exact ⟨true, by simp [hid]⟩
      · exact ⟨y.announced, by simp [hid]⟩
  · exact .refl p

theorem announce_announced : Announced p (announce c p) := by
  have : ∀ (l : List Piece) (q : Part), Announced q (l.foldl (announceOne c) q) := by
    intro l
    induction l with
    | nil => exact .refl
    | cons x l ih => exact fun q => (announceOne_announced c q x).trans (ih _)
  exact this _ p

/-! ### Starts and arrivals -/

/-- A move keeps its tag, kind, piece, places, stack and picked flag. -/
def Move.same (m x : Move) : Prop := x = { m with phase := x.phase, start := x.start, halt := x.halt }

theorem Move.same.then {m x y : Move} (h : Move.same m x) (k : Move.same x y) : Move.same m y := by
  unfold Move.same at *
  rw [k, h]

/-- Starts and arrivals change the phases of moves, the target with the yield stop, and the return flag; nothing else. -/
structure Moved (p q : Part) : Prop where
  rest : q = { p with span := { p.span with yieldStop := q.span.yieldStop }, moves := q.moves, mem := q.mem }
  lines : q.moves = { p.moves with queue := q.moves.queue, returning := q.moves.returning, target := q.moves.target }
  queue : ∃ f : Move → Move, q.moves.queue = p.moves.queue.map f ∧ ∀ m, Move.same m (f m)
  /-- a head move keeps its place, and moves but from travel to arrival -/
  head : ∀ h, headMove p = some h → ∃ f : Move → Move, q.moves.queue = p.moves.queue.map f ∧ (∀ m, Move.same m (f m)) ∧
    (∀ m, m.tag ≠ h.tag → f m = m) ∧ ∀ m, (f m).halt = m.halt ∧ ((f m).phase = m.phase
      ∨ (h.phase = .toPick ∧ (f m).phase = .atPick) ∨ (h.phase = .toPlace ∧ (f m).phase = .atPlace))

theorem Moved.refl (p : Part) : Moved p p :=
  ⟨rfl, rfl, ⟨id, by simp, fun _ => rfl⟩, fun _ _ => ⟨id, by simp, fun _ => rfl, fun _ _ => rfl, fun _ => ⟨rfl, .inl rfl⟩⟩⟩

theorem setTarget_moved (t : Option Target) : Moved p (setTarget t p) :=
  ⟨rfl, rfl, ⟨id, by simp [setTarget], fun _ => rfl⟩,
    fun _ _ => ⟨id, by simp [setTarget], fun _ => rfl, fun _ _ => rfl, fun _ => ⟨rfl, .inl rfl⟩⟩⟩

theorem setReturning_moved (v : Bool) : Moved p { p with moves := { p.moves with returning := v } } :=
  ⟨rfl, rfl, ⟨id, by simp, fun _ => rfl⟩, fun _ _ => ⟨id, by simp, fun _ => rfl, fun _ _ => rfl, fun _ => ⟨rfl, .inl rfl⟩⟩⟩

theorem updateMove_rest (tag : Nat) (f : Move → Move) :
    updateMove tag f p = { p with moves := { p.moves with queue := p.moves.queue.map fun m => if m.tag = tag then f m else m },
                                   mem := (updateMove tag f p).mem } := by
  unfold updateMove Part.setQueue Part.markIf Part.markDirty; dsimp only; split <;> rfl

theorem settleStart_moved : Moved p (settleStart c p) := by
  unfold settleStart
  split
  · rename_i hm
    have hn : headMove p = none := by
      unfold mayStart at hm
      simp only [Bool.and_eq_true] at hm
      exact Option.isNone_iff_eq_none.mp hm.1.1.1.1.1.1.1.1
    split
    · rename_i m _
      have h := updateMove_rest { p with moves := { p.moves with returning := false } } m.tag
        (fun x => { x with phase := .toPick, start := some p.now, halt := none })
      have e : startMove m p = setTarget (some ⟨m.pick, m.urgency⟩) (updateMove m.tag
        (fun x => { x with phase := .toPick, start := some p.now, halt := none })
          { p with moves := { p.moves with returning := false } }) := rfl
      rw [e, h]
      refine ⟨rfl, rfl, ⟨_, rfl, fun x => ?_⟩, fun _ k => ?_⟩
      · unfold Move.same; split <;> rfl
      · rw [hn] at k; cases k
    · exact setTarget_moved p _
  · split
    · split
      · exact .refl p
      · exact setTarget_moved p _
    · exact setTarget_moved p _

theorem settleArrival_moved : Moved p (settleArrival c p) := by
  unfold settleArrival
  split
  · split
    · rename_i m hm
      split
      · rename_i hph
        rw [updateMove_rest]
        refine ⟨rfl, rfl, ⟨_, rfl, fun x => ?_⟩, fun h k => ⟨_, rfl, fun x => ?_, fun x hx => ?_, fun x => ?_⟩⟩
        · unfold Move.same; split <;> rfl
        · unfold Move.same; split <;> rfl
        · rw [hm] at k; injection k with k; subst k; exact if_neg hx
        · rw [hm] at k; injection k with k; subst k
          split
          · exact ⟨rfl, .inr (.inl ⟨hph, rfl⟩)⟩
          · exact ⟨rfl, .inl rfl⟩
      · split
        · rename_i hph
          rw [updateMove_rest]
          refine ⟨rfl, rfl, ⟨_, rfl, fun x => ?_⟩, fun h k => ⟨_, rfl, fun x => ?_, fun x hx => ?_, fun x => ?_⟩⟩
          · unfold Move.same; split <;> rfl
          · unfold Move.same; split <;> rfl
          · rw [hm] at k; injection k with k; subst k; exact if_neg hx
          · rw [hm] at k; injection k with k; subst k
            split
            · exact ⟨rfl, .inr (.inr ⟨hph, rfl⟩)⟩
            · exact ⟨rfl, .inl rfl⟩
        · exact .refl p
    · split
      · exact ⟨rfl, rfl, ⟨id, by simp [setTarget], fun _ => rfl⟩,
          fun _ _ => ⟨id, by simp [setTarget], fun _ => rfl, fun _ _ => rfl, fun _ => ⟨rfl, .inl rfl⟩⟩⟩
      · exact .refl p
  · exact .refl p

/-! ### The span unit's part -/

/-- The span unit changes itself and the line's transmit places, its peers and the pieces of nobody. -/
structure Spanned (p q : Part) : Prop where
  rest : q = { p with span := q.span, line := q.line }
  peers : q.span.peers = p.span.peers

theorem Spanned.refl (p : Part) : Spanned p p := ⟨rfl, rfl⟩
theorem Spanned.trans {p q r : Part} (h : Spanned p q) (k : Spanned q r) : Spanned p r :=
  ⟨by rw [k.rest, h.rest], k.peers.trans h.peers⟩

theorem formNotice_spanned : Spanned p (formNotice c p) := ⟨rfl, rfl⟩

theorem noticeIfDue_spanned : Spanned p (noticeIfDue c p) := by
  unfold noticeIfDue
  split
  · exact formNotice_spanned c p
  · exact .refl p

theorem openClaim_spanned : Spanned p (openClaim c p) := by
  unfold openClaim
  split
  · split
    · exact .refl p
    · split
      · exact .refl p
      · dsimp only
        split <;> split <;> exact ⟨rfl, rfl⟩
  · exact .refl p

theorem withdrawClaims_spanned : Spanned p (withdrawClaims c p) := by
  unfold withdrawClaims
  split
  · exact .refl p
  · split <;> exact ⟨rfl, rfl⟩

theorem settleSpans_spanned : Spanned p (settleSpans c p) := by
  unfold settleSpans
  dsimp only
  refine .trans (.trans ?_ (noticeIfDue_spanned c _)) (openClaim_spanned c _)
  exact .trans (withdrawClaims_spanned c p) ⟨rfl, rfl⟩

/-! ### settle -/

/-- What `settle` leaves: peers, crane lines and stacks as they were; piece records but for their announced marks; the moves of the
queue but for their phases. -/
structure Settled (p q : Part) : Prop where
  peers : q.span.peers = p.span.peers
  lines : q.moves = { p.moves with queue := q.moves.queue, returning := q.moves.returning, target := q.moves.target }
  stackTable : q.pieces.stackTable = p.pieces.stackTable
  pieces : ∀ id x, findPiece p id = some x → ∃ v, findPiece q id = some { x with announced := v }
  queue : ∃ f : Move → Move, q.moves.queue = p.moves.queue.map f ∧ ∀ m, Move.same m (f m)

theorem settle_settled : Settled p (settle c p) := by
  have a := announce_announced c p
  have b := settleStart_moved c (announce c p)
  have d := settleArrival_moved c (settleStart c (announce c p))
  have e := settleSpans_spanned c (settleArrival c (settleStart c (announce c p)))
  have e' : settle c p = settleSpans c (settleArrival c (settleStart c (announce c p))) := rfl
  have hp : ∀ q r : Part, q.pieces = r.pieces → ∀ id, findPiece q id = findPiece r id := by
    intro q r h id; unfold findPiece findRecord recordAt; rw [h]
  have pieces : (settle c p).pieces = (announce c p).pieces := by rw [e', e.rest, d.rest, b.rest]
  have am : (announce c p).moves = p.moves := by rw [a.rest]
  refine ⟨?_, ?_, ?_, ?_, ?_⟩
  · rw [e', e.peers, d.rest, b.rest, a.rest]
  · have h1 : (settle c p).moves = (settleArrival c (settleStart c (announce c p))).moves := by rw [e', e.rest]
    rw [h1, d.lines, b.lines, am]
  · rw [pieces, a.stackTable]
  · intro id x hx
    rw [hp _ _ pieces]
    exact a.pieces id x hx
  · obtain ⟨f, hf, hs⟩ := b.queue
    obtain ⟨g, hg, ht⟩ := d.queue
    refine ⟨g ∘ f, ?_, fun m => ?_⟩
    · have h1 : (settle c p).moves = (settleArrival c (settleStart c (announce c p))).moves := by rw [e', e.rest]
      rw [h1, hg, hf, am, List.map_map]
    · exact (hs m).then (ht (f m))

theorem headMove_of_moves {p q : Part} (h : q.moves = p.moves) : headMove q = headMove p := by unfold headMove; rw [h]

/-- With a head move, starts change no move, and arrivals only moves of the head's tag. -/
theorem settle_head {h : Move} (hh : headMove p = some h) :
    ∃ f : Move → Move, (settle c p).moves.queue = p.moves.queue.map f ∧ (∀ m, Move.same m (f m))
      ∧ (∀ m, m.tag ≠ h.tag → f m = m) ∧ ∀ m, (f m).halt = m.halt ∧ ((f m).phase = m.phase
        ∨ (h.phase = .toPick ∧ (f m).phase = .atPick) ∨ (h.phase = .toPlace ∧ (f m).phase = .atPlace)) := by
  have am : (announce c p).moves = p.moves := by rw [(announce_announced c p).rest]
  have hns : mayStart (announce c p) = false := by
    unfold mayStart; rw [headMove_of_moves am, hh]; rfl
  have hq : (settleStart c (announce c p)).moves.queue = p.moves.queue := by
    unfold settleStart
    rw [hns, headMove_of_moves am, hh]
    simp only [Bool.false_eq_true, if_false]
    split
    · exact congrArg MoveUnit.queue am
    · show (announce c p).moves.queue = p.moves.queue
      exact congrArg MoveUnit.queue am
  have hh' : headMove (settleStart c (announce c p)) = some h := by unfold headMove; rw [hq]; exact hh
  have e : (settle c p).moves = (settleArrival c (settleStart c (announce c p))).moves := by
    show (settleSpans c _).moves = _
    rw [(settleSpans_spanned c _).rest]
  obtain ⟨f, h1, h2⟩ := (settleArrival_moved c (settleStart c (announce c p))).head h hh'
  exact ⟨f, by rw [e, h1, hq], h2⟩

/-- With a head move that is halted or stands at its place, no target is held. -/
theorem settle_noTarget {h : Move} (hh : headMove p = some h) (h1 : h.phase ≠ .toPick) (h2 : h.phase ≠ .toPlace) :
    (settle c p).moves.target = none := by
  have am : (announce c p).moves = p.moves := by rw [(announce_announced c p).rest]
  have hns : mayStart (announce c p) = false := by
    unfold mayStart; rw [headMove_of_moves am, hh]; rfl
  have hs : settleStart c (announce c p) = setTarget none (announce c p) := by
    unfold settleStart
    rw [hns, headMove_of_moves am, hh]
    simp [h1, h2]
  have e : (settle c p).moves = (settleArrival c (settleStart c (announce c p))).moves := by
    show (settleSpans c _).moves = _
    rw [(settleSpans_spanned c _).rest]
  rw [e, hs]
  unfold settleArrival
  have : windowState c (setTarget none (announce c p)) = .none := by
    unfold windowState setTarget; dsimp only; split
    · rename_i h; simp at h
    · rfl
  rw [this]
  simp [setTarget]

end Sys2Proof.Machine
end

