-- ==== Sys2Proof/Laws/Spans.lean ====
section
/-! SUPPORT. What the span unit's operations leave of one span: one equation per operation, cited in place of unfolding it. -/
namespace Sys2Proof.Machine
open Sys2Proof

variable {p : Part} {e : Entry}

/-! ### Reading a span -/

theorem spanAt_setSpan (p : Part) (k j : Nat) (x : Span) :
    (p.setSpan k x).spanAt j = if k = j ∧ k < p.span.spans.length then x else p.spanAt j := by
  unfold Part.setSpan Part.spanAt
  dsimp only
  rw [List.getD_eq_getElem?_getD, List.getD_eq_getElem?_getD, List.getElem?_set]
  by_cases hk : k = j
  · subst hk
    by_cases hl : k < p.span.spans.length <;> simp [hl]
  · simp [hk]

theorem spanAt_map (p : Part) (f : Span → Span) (k : Nat) (h : f ⟨.none, false, none, false⟩ = ⟨.none, false, none, false⟩) :
    (p.span.spans.map f).getD k ⟨.none, false, none, false⟩ = f (p.spanAt k) := by
  unfold Part.spanAt
  rw [List.getD_eq_getElem?_getD, List.getD_eq_getElem?_getD, List.getElem?_map]
  cases p.span.spans[k]? with
  | none => exact h.symm
  | some x => rfl

/-- A span that is held, claimed or marked stands in the table. -/
theorem lt_of_spanAt_ne {k : Nat} (h : p.spanAt k ≠ ⟨.none, false, none, false⟩) : k < p.span.spans.length := by
  refine Nat.lt_of_not_le fun hl => h ?_
  unfold Part.spanAt
  rw [List.getD_eq_getElem?_getD, List.getElem?_eq_none hl]
  rfl

theorem lt_of_role_ne {k : Nat} (h : (p.spanAt k).role ≠ .none) : k < p.span.spans.length :=
  lt_of_spanAt_ne fun he => h (by rw [he])

/-- The releases that fall due take the role of each span whose releasing flag is set, but for a crane under local control whose
position is known. -/
theorem releaseDue_spanAt (p : Part) (k : Nat) : (releaseDue p).spanAt k =
    if (p.craneLocal && p.position.isSome) = false ∧ (p.spanAt k).releasing = true then (p.spanAt k).dropRole else p.spanAt k := by
  unfold releaseDue Part.spanAt
  dsimp only
  cases h : (p.craneLocal && p.position.isSome)
  · simp only [Bool.false_eq_true, if_false, true_and]
    exact spanAt_map p (fun x => if x.releasing = true then x.dropRole else x) k rfl
  · simp

theorem formNotice_spanAt (c : Settings) (p : Part) (k : Nat) : (formNotice c p).spanAt k = (releaseDue p).spanAt k := rfl

/-- A release is due of the same spans where a span, the crane-local line and the position are the same. -/
theorem releaseDue_congr {p q : Part} {k : Nat} (hl : q.craneLocal = p.craneLocal) (hp : q.position = p.position)
    (hs : q.spanAt k = p.spanAt k) : (releaseDue q).spanAt k = (releaseDue p).spanAt k := by
  rw [releaseDue_spanAt, releaseDue_spanAt, hl, hp, hs]

/-- A span that a forming takes has no role after it. -/
theorem releaseDue_role {k : Nat} (h : (releaseDue p).spanAt k ≠ p.spanAt k) : ((releaseDue p).spanAt k).role = .none := by
  rw [releaseDue_spanAt] at h ⊢
  split
  · rfl
  · rename_i hn; exact absurd (if_neg hn) h

/-! ### Entries of a notice -/

theorem resolveDouble_held (c : Settings) (addr : Nat) {own : Rank} (h : (p.spanAt e.span).role = .held own) :
    resolveDouble c addr e p =
      (formNotice c (if yieldsTo (p.spanAt e.span) own e = true then yieldSpan c e.span p else p)).report
        (.spanConflict e.span addr e.kind e.rank own (yieldsTo (p.spanAt e.span) own e) p.now) := by
  unfold resolveDouble
  dsimp only
  rw [h]

theorem resolveDouble_free (c : Settings) (addr : Nat) (h : (p.spanAt e.span).role.isHeld = false) :
    resolveDouble c addr e p = p := by
  unfold resolveDouble
  dsimp only
  split
  · rename_i hr; rw [hr] at h; cases h
  · rfl

theorem yieldSpan_spanAt (c : Settings) (p : Part) (k j : Nat) : (yieldSpan c k p).spanAt j =
    if k = j ∧ k < p.span.spans.length then { (p.spanAt k).dropRole with retry := some (p.msCount + 2 * c.window) }
    else p.spanAt j := spanAt_setSpan p k j _

/-- Every span after a double hold: the yielded one has lost its role, and a release that was due has gone with the notice. -/
theorem resolveDouble_spanAt (c : Settings) (addr : Nat) {own : Rank} (h : (p.spanAt e.span).role = .held own) (j : Nat) :
    (resolveDouble c addr e p).spanAt j =
      if e.span = j ∧ yieldsTo (p.spanAt j) own e = true then
        { (p.spanAt j).dropRole with retry := some (p.msCount + 2 * c.window) }
      else (releaseDue p).spanAt j := by
  have hl : e.span < p.span.spans.length := lt_of_role_ne (by rw [h]; exact nofun)
  rw [resolveDouble_held c addr h]
  show (formNotice c _).spanAt j = _
  rw [formNotice_spanAt]
  by_cases hy : yieldsTo (p.spanAt e.span) own e = true
  · rw [if_pos hy]
    by_cases hj : e.span = j
    · subst hj
      have hs : (yieldSpan c e.span p).spanAt e.span
          = { (p.spanAt e.span).dropRole with retry := some (p.msCount + 2 * c.window) } := by
        rw [yieldSpan_spanAt, if_pos ⟨rfl, hl⟩]
      rw [if_pos ⟨rfl, hy⟩, releaseDue_spanAt, hs, if_neg (by rintro ⟨_, k⟩; cases k)]
    · have hs : (yieldSpan c e.span p).spanAt j = p.spanAt j := by rw [yieldSpan_spanAt, if_neg fun k => hj k.1]
      rw [if_neg fun k => hj k.1]
      exact releaseDue_congr rfl rfl hs
  · rw [if_neg hy, if_neg]
    rintro ⟨rfl, k⟩
    exact hy k

/-- Every span after a CLAIM entry: a better rank contests the claim on its own span; another entry contests nothing. -/
theorem contest_spanAt (p : Part) (e : Entry) (j : Nat) : (contest e p).spanAt j =
    match (p.spanAt j).role with
    | .claim r d contested sn =>
      { p.spanAt j with role := .claim r d (contested || (e.span == j && e.kind == .claim && e.rank.better r)) sn }
    | _ => p.spanAt j := by
  by_cases hj : e.span = j
  · subst hj
    unfold contest
    dsimp only
    cases hr : (p.spanAt e.span).role with
    | claim r d contested sn =>
      have hl : e.span < p.span.spans.length := lt_of_role_ne (by rw [hr]; exact nofun)
      cases hk : e.kind with
      | claim => dsimp only; rw [spanAt_setSpan, if_pos ⟨rfl, hl⟩]; simp
      | held => simp [show (EntryKind.held == EntryKind.claim) = false from rfl, ← hr]
      | occupied => simp [show (EntryKind.occupied == EntryKind.claim) = false from rfl, ← hr]
    | none => cases e.kind <;> rfl
    | held _ => cases e.kind <;> rfl
  · have hs : (contest e p).spanAt j = p.spanAt j := by
      unfold contest
      dsimp only
      split
      · rw [spanAt_setSpan, if_neg fun k => hj k.1]
      · rfl
    rw [hs]
    cases hr : (p.spanAt j).role with
    | claim r d contested sn =>
      have : (e.span == j) = false := beq_eq_false_iff_ne.mpr hj
      simp [this, ← hr]
    | none => rfl
    | held _ => rfl

/-! ### What the entries leave alone -/

/-- Of a span without a role nothing but a releasing flag can change, and its role does not come back. -/
theorem releaseDue_none {k : Nat} (h : (p.spanAt k).role = .none) : ((releaseDue p).spanAt k).role = .none := by
  rw [releaseDue_spanAt]; split
  · rfl
  · exact h

theorem resolveDouble_spanned (c : Settings) (addr : Nat) (e : Entry) (p : Part) : Spanned p (resolveDouble c addr e p) := by
  unfold resolveDouble
  dsimp only
  split
  · split <;> exact ⟨rfl, rfl⟩
  · exact .refl p

theorem contest_spanned (e : Entry) (p : Part) : Spanned p (contest e p) := by
  unfold contest
  dsimp only
  split
  · exact ⟨rfl, rfl⟩
  · exact .refl p

theorem answerClaim_spanned (c : Settings) (e : Entry) (p : Part) : Spanned p (answerClaim c e p) := by
  unfold answerClaim
  dsimp only
  split
  · exact formNotice_spanned c p
  · exact .refl p

theorem answerClaim_spanAt (c : Settings) (e : Entry) (p : Part) (j : Nat) :
    (answerClaim c e p).spanAt j = (releaseDue p).spanAt j ∨ (answerClaim c e p).spanAt j = p.spanAt j := by
  unfold answerClaim
  dsimp only
  split
  · exact .inl rfl
  · exact .inr rfl

theorem Spanned.clock {q : Part} (h : Spanned p q) : q.clock = p.clock := by rw [h.rest]
theorem Spanned.msCount {q : Part} (h : Spanned p q) : q.msCount = p.msCount := by unfold Part.msCount; rw [h.clock]
theorem Spanned.craneLocal {q : Part} (h : Spanned p q) : q.craneLocal = p.craneLocal := by rw [h.rest]; rfl
theorem Spanned.position {q : Part} (h : Spanned p q) : q.position = p.position := by rw [h.rest]; rfl

/-- A span whose release is not due. -/
theorem Spanned.undue {q : Part} {k : Nat} (h : Spanned p q) (hs : q.spanAt k = p.spanAt k)
    (hd : (releaseDue p).spanAt k = p.spanAt k) : (releaseDue q).spanAt k = q.spanAt k := by
  rw [releaseDue_congr h.craneLocal h.position hs, hd, hs]

end Sys2Proof.Machine
end

