-- ==== Sys2Proof/Laws/Reports.lean ====
section
/-! SUPPORT. What the crane side sends: the report queue after a report, a notice, `settle`, and the ages of the peers. -/
namespace Sys2Proof.Machine
open Sys2Proof

variable {p q r : Part}

/-! ### The last eight -/

theorem lastEight_length (l : List Report) : (lastEight l).length ≤ 8 := by
  unfold lastEight; rw [List.length_drop]; omega

theorem lastEight_of_le {l : List Report} (h : l.length ≤ 8) : lastEight l = l := by
  unfold lastEight; rw [Nat.sub_eq_zero_of_le h, List.drop_zero]

/-- What a queue has lost before is not missed when it loses more. -/
theorem lastEight_append (a b : List Report) : lastEight (lastEight a ++ b) = lastEight (a ++ b) := by
  unfold lastEight
  rw [← List.drop_append_of_le_length (Nat.sub_le ..), List.drop_drop]
  simp only [List.length_drop, List.length_append]
  congr 1
  omega

/-! ### Sends -/

theorem Sends.of_waiting (h : q.waiting = p.waiting) (h8 : p.waiting.length ≤ 8) : Sends p q [] := by
  unfold Sends; rw [h, List.append_nil, lastEight_of_le h8]

theorem Sends.le {a : List Report} (h : Sends p q a) : q.waiting.length ≤ 8 := by
  unfold Sends at h; rw [h]; exact lastEight_length _

theorem Sends.trans {a b : List Report} (h : Sends p q a) (k : Sends q r b) : Sends p r (a ++ b) := by
  unfold Sends at *; rw [k, h, lastEight_append, List.append_assoc]

theorem waiting_le (h : p.line.reports.length ≤ 8) : p.waiting.length ≤ 8 := by
  unfold Part.waiting LineUnit.takeOffered
  split
  · split <;> first | exact h | (dsimp only; rw [List.length_drop]; omega)
  · exact h

/-- A frame that is counted and heard leaves the reports that wait. -/
theorem heard_waiting (p : Part) : (heard p).waiting = p.waiting := by
  unfold Part.waiting LineUnit.takeOffered heard
  dsimp only
  split <;> (try split) <;> rfl

theorem heard_sendsFirst {rs : List Report} (h : SendsFirst (heard p) q rs) : SendsFirst p q rs := by
  unfold SendsFirst Sends at *
  rw [heard_waiting] at h
  exact h

/-- A report joins the reports that wait. -/
theorem report_sends (x : Report) (h8 : p.waiting.length ≤ 8) : Sends p (p.report x) [x] := by
  unfold Sends Part.waiting at *
  rw [report_line, takeOffered_placeReport]
  unfold LineUnit.placeReport lastEight
  dsimp only
  split
  · rename_i h
    rw [List.length_append, List.length_singleton, Nat.sub_eq_zero_of_le (by omega), List.drop_zero]
  · rename_i h
    have : p.line.takeOffered.reports.length = 8 := by omega
    rw [List.length_append, List.length_singleton, this, List.drop_append_of_le_length (by omega)]

/-- A SPAN notice placed leaves the reports that wait. -/
theorem formNotice_waiting (c : Settings) (p : Part) : (formNotice c p).waiting = p.waiting := by
  show (LineUnit.placeSpan _ p.line).takeOffered.reports = _
  rw [takeOffered_of_tx (l := LineUnit.placeSpan _ p.line) (takeOffered_tx p.line)]
  rfl

theorem noticeIfDue_waiting (c : Settings) (p : Part) : (noticeIfDue c p).waiting = p.waiting := by
  unfold noticeIfDue
  split
  · exact formNotice_waiting c p
  · rfl

theorem openClaim_waiting (c : Settings) (p : Part) : (openClaim c p).waiting = p.waiting := by
  unfold openClaim
  split
  · split
    · rfl
    · split
      · rfl
      · dsimp only
        split <;> split <;> first | rfl | exact formNotice_waiting c _
  · rfl

theorem settleSpans_waiting (c : Settings) (p : Part) : (settleSpans c p).waiting = p.waiting := by
  unfold settleSpans
  dsimp only
  rw [openClaim_waiting, noticeIfDue_waiting]
  show (withdrawClaims c p).waiting = _
  unfold withdrawClaims
  split
  · rfl
  · split <;> rfl

/-- Starts, arrivals and the span unit's work send nothing. -/
theorem Moved.waiting (h : Moved p q) : q.waiting = p.waiting := by
  unfold Part.waiting; rw [h.rest]

/-- Announcements send SHIPPABLE reports alone. -/
theorem announce_sends (c : Settings) (h8 : p.waiting.length ≤ 8) :
    ∃ more : List Report, (∀ x ∈ more, x.kind = .shippable) ∧ Sends p (announce c p) more := by
  have one : ∀ (q : Part) (x : Piece), q.waiting.length ≤ 8 →
      ∃ more : List Report, (∀ y ∈ more, y.kind = .shippable) ∧ Sends q (announceOne c q x) more := by
    intro q x h
    unfold announceOne
    split
    · have e : (updatePiece x.id (fun y => { y with announced := true }) q).waiting = q.waiting := by
        unfold Part.waiting; rw [(updatePiece_rest q x.id _).1]
      refine ⟨[_], ?_, (Sends.of_waiting e h).trans (report_sends _ (e ▸ h))⟩
      intro y hy; cases List.mem_singleton.mp hy; rfl
    · exact ⟨[], by simp, .of_waiting rfl h⟩
  have all : ∀ (l : List Piece) (q : Part), q.waiting.length ≤ 8 →
      ∃ more : List Report, (∀ y ∈ more, y.kind = .shippable) ∧ Sends q (l.foldl (announceOne c) q) more := by
    intro l
    induction l with
    | nil => exact fun q h => ⟨[], by simp, .of_waiting rfl h⟩
    | cons x l ih =>
      intro q h
      obtain ⟨a, ha, hs⟩ := one q x h
      obtain ⟨b, hb, ht⟩ := ih _ hs.le
      exact ⟨a ++ b, fun y hy => (List.mem_append.mp hy).elim (ha y) (hb y), hs.trans ht⟩
  exact all _ p h8

/-- What an operation sends stands before the announcements of the `settle` that follows it. -/
theorem settle_sendsFirst (c : Settings) {rs : List Report} (h : Sends p q rs) : SendsFirst p (settle c q) rs := by
  obtain ⟨more, hm, hs⟩ := announce_sends (p := q) c h.le
  refine ⟨more, hm, ?_⟩
  have e : (settle c q).waiting = (announce c q).waiting := by
    unfold settle
    rw [settleSpans_waiting, (settleArrival_moved c _).waiting, (settleStart_moved c _).waiting]
  unfold Sends
  rw [e]
  exact h.trans hs

/-! ### Peers -/

/-- A double hold sends its SPAN_CONFLICT. -/
theorem resolveDouble_sends (c : Settings) (addr : Nat) {e : Entry} {own : Rank} (h : (p.spanAt e.span).role = .held own)
    (h8 : p.waiting.length ≤ 8) : Sends p (resolveDouble c addr e p)
      [.spanConflict e.span addr e.kind e.rank own (yieldsTo (p.spanAt e.span) own e) p.now] := by
  have w : ∀ q : Part, q.waiting = p.waiting → (formNotice c q).waiting = p.waiting := fun q hq =>
    (formNotice_waiting c q).trans hq
  rw [resolveDouble_held c addr h]
  have w' := w (if yieldsTo (p.spanAt e.span) own e = true then yieldSpan c e.span p else p) (by split <;> rfl)
  exact (Sends.of_waiting w' h8).trans (report_sends _ (w' ▸ h8))

theorem contest_waiting (e : Entry) (p : Part) : (contest e p).waiting = p.waiting := by
  unfold contest; dsimp only; split <;> rfl

theorem answerClaim_waiting (c : Settings) (e : Entry) (p : Part) : (answerClaim c e p).waiting = p.waiting := by
  unfold answerClaim
  dsimp only
  split
  · exact formNotice_waiting c p
  · rfl

end Sys2Proof.Machine
end

