-- ==== Sys2Proof/Laws/Notices.lean ====
section
/-! SUPPORT. A SPAN notice taken with all its entries (07 R122): what its double holds, its contests and its answers to claims leave
of every span, and what is left of it after `settle`. -/
namespace Sys2Proof.Machine
open Sys2Proof

variable {p q : Part}

/-! ### Folds over the entries -/

theorem Spanned.foldl {f : Part → Entry → Part} (h : ∀ p e, Spanned p (f p e)) (l : List Entry) (p : Part) :
    Spanned p (l.foldl f p) := by
  induction l generalizing p with
  | nil => exact .refl p
  | cons e l ih => exact (h p e).trans (ih _)

/-- The double holds of a notice, in turn. -/
theorem doubles_spanned (c : Settings) (addr : Nat) (l : List Entry) (p : Part) :
    Spanned p (l.foldl (fun q e => resolveDouble c addr e q) p) := .foldl (fun q e => resolveDouble_spanned c addr e q) l p

theorem contests_spanned (l : List Entry) (p : Part) : Spanned p (l.foldl (fun q e => contest e q) p) :=
  .foldl (fun q e => contest_spanned e q) l p

theorem answers_spanned (c : Settings) (l : List Entry) (p : Part) :
    Spanned p (l.foldl (fun q e => answerClaim c e q) p) := .foldl (fun q e => answerClaim_spanned c e q) l p

/-- A held span is lost to the first entry that it yields to, and no other span changes, where no release is due. -/
theorem doubles_spanAt (c : Settings) (addr : Nat) (l : List Entry) (k : Nat) :
    ∀ p : Part, (releaseDue p).spanAt k = p.spanAt k →
      (l.foldl (fun q e => resolveDouble c addr e q) p).spanAt k = match (p.spanAt k).role with
        | .held own =>
          if l.any (fun e => e.span == k && yieldsTo (p.spanAt k) own e) = true then
            { (p.spanAt k).dropRole with retry := some (p.msCount + 2 * c.window) }
          else p.spanAt k
        | _ => p.spanAt k := by
  induction l with
  | nil => intro p _; split <;> simp
  | cons e l ih =>
    intro p hd
    rw [List.foldl_cons]
    have sp := resolveDouble_spanned c addr e p
    cases he : (p.spanAt e.span).role with
    | held own =>
      have hs := resolveDouble_spanAt c addr he k
      by_cases hy : e.span = k ∧ yieldsTo (p.spanAt k) own e = true
      · rw [if_pos hy] at hs
        have hd' : (releaseDue (resolveDouble c addr e p)).spanAt k = (resolveDouble c addr e p).spanAt k := by
          rw [releaseDue_spanAt, hs, if_neg (by rintro ⟨_, h⟩; cases h)]
        rw [ih _ hd', hs]
        obtain ⟨rfl, hy⟩ := hy
        simp [he, hy, Span.dropRole]
      · rw [if_neg hy, hd] at hs
        rw [ih _ (sp.undue hs hd), hs, sp.msCount]
        cases hr : (p.spanAt k).role with
        | held own' =>
          have : (e.span == k && yieldsTo (p.spanAt k) own' e) = false := by
            by_cases hk : e.span = k
            · subst hk
              rw [he] at hr
              injection hr with hr
              rw [← hr]
              simpa using hy
            · simp [hk]
          simp [this]
        | none => rfl
        | claim _ _ _ _ => rfl
    | none | claim _ _ _ _ =>
      rw [resolveDouble_free c addr (by rw [he]; rfl), ih p hd]
      cases hr : (p.spanAt k).role with
      | held own' =>
        have : (e.span == k && yieldsTo (p.spanAt k) own' e) = false := by
          by_cases hk : e.span = k
          · subst hk; rw [he] at hr; cases hr
          · simp [hk]
        simp [this]
      | none => rfl
      | claim _ _ _ _ => rfl

/-- A claim is contested by each better claim on its span, and no other span changes. -/
theorem contests_spanAt (l : List Entry) (k : Nat) : ∀ p : Part,
    (l.foldl (fun q e => contest e q) p).spanAt k = match (p.spanAt k).role with
      | .claim r d contested sn =>
        { p.spanAt k with
          role := .claim r d (contested || l.any fun e => e.span == k && e.kind == .claim && e.rank.better r) sn }
      | _ => p.spanAt k := by
  induction l with
  | nil =>
    intro p
    cases hr : (p.spanAt k).role with
    | claim r d contested sn => simp [← hr]
    | none => rfl
    | held _ => rfl
  | cons e l ih =>
    intro p
    rw [List.foldl_cons, ih, contest_spanAt]
    cases hr : (p.spanAt k).role with
    | claim r d contested sn => simp [Bool.or_assoc]
    | none => simp [hr]
    | held _ => simp [hr]

/-- Answers to claims change no span whose release is not due. -/
theorem answers_spanAt (c : Settings) (l : List Entry) (k : Nat) : ∀ p : Part, (releaseDue p).spanAt k = p.spanAt k →
    (l.foldl (fun q e => answerClaim c e q) p).spanAt k = p.spanAt k := by
  induction l with
  | nil => exact fun _ _ => rfl
  | cons e l ih =>
    intro p hd
    have hs : (answerClaim c e p).spanAt k = p.spanAt k := (answerClaim_spanAt c e p k).elim (·.trans hd) id
    rw [List.foldl_cons, ih _ ((answerClaim_spanned c e p).undue hs hd), hs]

/-! ### The record of the sender -/

/-- Recording a notice changes the peer records and sends PEER_HEARD for a silent one; the spans stand. -/
theorem recordPeer_rest (src : Nat) (n : SpanNotice) (p : Part) :
    recordPeer src n p = { p with
      span := { p.span with peers := (recordPeer src n p).span.peers }
      line := (recordPeer src n p).line } := by
  unfold recordPeer Part.reportIf
  dsimp only
  split <;> rfl

theorem recordPeer_spanAt (src : Nat) (n : SpanNotice) (p : Part) (k : Nat) :
    (recordPeer src n p).spanAt k = p.spanAt k := by rw [recordPeer_rest]; rfl

theorem recordPeer_due (src : Nat) (n : SpanNotice) (p : Part) (k : Nat) :
    (releaseDue (recordPeer src n p)).spanAt k = (releaseDue p).spanAt k :=
  releaseDue_congr (by rw [recordPeer_rest]; rfl) (by rw [recordPeer_rest]; rfl) (recordPeer_spanAt src n p k)

theorem recordPeer_peers (src : Nat) (n : SpanNotice) (p : Part) : (recordPeer src n p).span.peers =
    putBy (·.addr) ⟨src, n.pos, n.referenced, n.half, n.dir, n.speed, n.entries, 0⟩ p.span.peers := by
  unfold recordPeer; simp

theorem recordPeer_sends (src : Nat) (n : SpanNotice) (h8 : p.waiting.length ≤ 8) : Sends p (recordPeer src n p)
    (if ((peerAt p src).map Peer.silent).getD false = true then [.peerHeard src p.now] else []) := by
  unfold recordPeer Part.reportIf
  dsimp only
  split
  · exact report_sends (p := { p with span := { p.span with peers := putBy (·.addr) _ p.span.peers } }) _ h8
  · exact .of_waiting rfl h8

/-! ### Releases that stay not due -/

theorem doubles_undue (c : Settings) (addr : Nat) (l : List Entry) {k : Nat} (h : (releaseDue p).spanAt k = p.spanAt k) :
    (releaseDue (l.foldl (fun q e => resolveDouble c addr e q) p)).spanAt k
      = (l.foldl (fun q e => resolveDouble c addr e q) p).spanAt k := by
  have sp := doubles_spanned c addr l p
  have hs := doubles_spanAt c addr l k p h
  split at hs
  · split at hs
    · rw [releaseDue_spanAt, hs, if_neg]; rintro ⟨_, h⟩; cases h
    · exact sp.undue hs h
  · exact sp.undue hs h

/-- A contest changes of a claim nothing but its contested flag: a role, the occupied flag and a release due stand. -/
theorem contests_same (l : List Entry) (p : Part) (k : Nat) :
    let q := l.foldl (fun q e => contest e q) p
    ((q.spanAt k).role = .none ↔ (p.spanAt k).role = .none) ∧ (q.spanAt k).occupied = (p.spanAt k).occupied
      ∧ ((releaseDue q).spanAt k = q.spanAt k ↔ (releaseDue p).spanAt k = p.spanAt k) := by
  intro q
  have hs : q.spanAt k = _ := contests_spanAt l k p
  have sp : Spanned p q := contests_spanned l p
  have flag : ∀ r : Part, (releaseDue r).spanAt k = r.spanAt k
      ↔ ¬((r.craneLocal && r.position.isSome) = false ∧ (r.spanAt k).releasing = true) := by
    intro r
    rw [releaseDue_spanAt]
    constructor
    · rintro h hc
      rw [if_pos hc] at h
      have := congrArg Span.releasing h
      rw [hc.2] at this
      cases this
    · exact fun h => if_neg h
  rw [flag, flag, sp.craneLocal, sp.position, hs]
  cases hr : (p.spanAt k).role with
  | claim _ _ _ _ => exact ⟨⟨nofun, nofun⟩, rfl, Iff.rfl⟩
  | none => exact ⟨by simp [hr], rfl, Iff.rfl⟩
  | held _ => exact ⟨by simp [hr], rfl, Iff.rfl⟩

/-! ### Lost roles do not come back -/

theorem doubles_none (c : Settings) (addr : Nat) (l : List Entry) (k : Nat) : ∀ p : Part, (p.spanAt k).role = .none →
    ((l.foldl (fun q e => resolveDouble c addr e q) p).spanAt k).role = .none := by
  induction l with
  | nil => exact fun _ h => h
  | cons e l ih =>
    intro p h
    refine ih (resolveDouble c addr e p) ?_
    cases he : (p.spanAt e.span).role with
    | held own =>
      rw [resolveDouble_spanAt c addr he k]
      split
      · rfl
      · exact releaseDue_none h
    | none | claim _ _ _ _ => rw [resolveDouble_free c addr (by rw [he]; rfl)]; exact h

theorem answers_none (c : Settings) (l : List Entry) (k : Nat) : ∀ p : Part, (p.spanAt k).role = .none →
    ((l.foldl (fun q e => answerClaim c e q) p).spanAt k).role = .none := by
  induction l with
  | nil => exact fun _ h => h
  | cons e l ih =>
    intro p h
    refine ih (answerClaim c e p) ?_
    rcases answerClaim_spanAt c e p k with hs | hs <;> rw [hs]
    · exact releaseDue_none h
    · exact h

theorem contests_none (l : List Entry) (k : Nat) (h : (p.spanAt k).role = .none) :
    ((l.foldl (fun q e => contest e q) p).spanAt k).role = .none := by
  rw [contests_spanAt, h]; exact h

/-! ### A notice formed -/

/-- A notice has been formed at this count and waits in its slot, out of contention. -/
structure Noticed (p : Part) : Prop where
  formed : p.span.formed = p.msCount
  waits : p.line.spanSlot.isSome = true
  free : p.line.takeOffered = p.line

theorem formNotice_noticed (c : Settings) (p : Part) : Noticed (formNotice c p) :=
  ⟨rfl, rfl, takeOffered_of_tx (l := LineUnit.placeSpan _ p.line) (takeOffered_tx p.line)⟩

theorem Noticed.report (h : Noticed p) (x : Report) : Noticed (p.report x) := by
  refine ⟨h.formed, ?_, takeOffered_placeReport _ _⟩
  rw [report_line]
  unfold LineUnit.placeReport
  rw [h.free]
  dsimp only
  split <;> exact h.waits

/-- Changes outside the line and the clock keep a notice formed. -/
theorem Noticed.of (h : Noticed p) (h1 : q.span.formed = p.span.formed) (h2 : q.clock = p.clock) (h3 : q.line = p.line) :
    Noticed q := by
  refine ⟨?_, by rw [h3]; exact h.waits, by rw [h3]; exact h.free⟩
  rw [h1, h.formed]; unfold Part.msCount; rw [h2]

theorem resolveDouble_noticed (c : Settings) (addr : Nat) {e : Entry} {own : Rank} (h : (p.spanAt e.span).role = .held own) :
    Noticed (resolveDouble c addr e p) := by
  rw [resolveDouble_held c addr h]
  exact (formNotice_noticed c _).report _

theorem Noticed.resolveDouble (h : Noticed p) (c : Settings) (addr : Nat) (e : Entry) : Noticed (resolveDouble c addr e p) := by
  cases he : (p.spanAt e.span).role with
  | held own => exact resolveDouble_noticed c addr he
  | none | claim _ _ _ _ => rw [resolveDouble_free c addr (by rw [he]; rfl)]; exact h

theorem Noticed.contest (h : Noticed p) (e : Entry) : Noticed (contest e p) := by
  unfold Machine.contest
  dsimp only
  split
  · exact h.of rfl rfl rfl
  · exact h

theorem Noticed.answerClaim (h : Noticed p) (c : Settings) (e : Entry) : Noticed (answerClaim c e p) := by
  unfold Machine.answerClaim
  dsimp only
  split
  · exact formNotice_noticed c p
  · exact h

theorem Noticed.foldl {f : Part → Entry → Part} (h : ∀ p e, Noticed p → Noticed (f p e)) (l : List Entry) :
    ∀ p, Noticed p → Noticed (l.foldl f p) := by
  induction l with
  | nil => exact fun _ h => h
  | cons e l ih => exact fun p hp => ih _ (h p e hp)

/-- A double hold among the entries forms a notice; without one nothing happens. -/
theorem doubles_forms (c : Settings) (addr : Nat) (l : List Entry) (p : Part) :
    (∃ e ∈ l, (p.spanAt e.span).role.isHeld = true) ∧ Noticed (l.foldl (fun q e => resolveDouble c addr e q) p)
        ∧ (∀ k, (releaseDue p).spanAt k ≠ p.spanAt k → ((l.foldl (fun q e => resolveDouble c addr e q) p).spanAt k).role = .none)
      ∨ (∀ e ∈ l, (p.spanAt e.span).role.isHeld = false) ∧ l.foldl (fun q e => resolveDouble c addr e q) p = p := by
  induction l with
  | nil => exact .inr ⟨by simp, rfl⟩
  | cons e l ih =>
    cases he : (p.spanAt e.span).role with
    | held own =>
      refine .inl ⟨⟨e, List.mem_cons_self, by rw [he]; rfl⟩,
        .foldl (fun q e h => h.resolveDouble c addr e) l _ (resolveDouble_noticed c addr he), fun k hk => ?_⟩
      refine doubles_none c addr l k _ ?_
      rw [resolveDouble_spanAt c addr he k]
      split
      · rfl
      · exact releaseDue_role hk
    | none | claim _ _ _ _ =>
      have hh : (p.spanAt e.span).role.isHeld = false := by rw [he]; rfl
      rw [List.foldl_cons, resolveDouble_free c addr hh]
      rcases ih with ⟨⟨x, hx, hr⟩, h⟩ | ⟨hn, h⟩
      · exact .inl ⟨⟨x, List.mem_cons_of_mem _ hx, hr⟩, h⟩
      · refine .inr ⟨fun x hx => ?_, h⟩
        rcases List.mem_cons.mp hx with rfl | hx
        · exact hh
        · exact hn x hx

/-- A claim on a span that the station claims, holds or occupies forms a notice; without one nothing happens. -/
theorem answers_forms (c : Settings) (l : List Entry) (p : Part) :
    (∃ e ∈ l, (p.spanAt e.span).role ≠ .none ∨ (p.spanAt e.span).occupied = true)
        ∧ Noticed (l.foldl (fun q e => answerClaim c e q) p)
        ∧ (∀ k, (releaseDue p).spanAt k ≠ p.spanAt k → ((l.foldl (fun q e => answerClaim c e q) p).spanAt k).role = .none)
      ∨ (∀ e ∈ l, (p.spanAt e.span).role = .none ∧ (p.spanAt e.span).occupied = false)
        ∧ l.foldl (fun q e => answerClaim c e q) p = p := by
  induction l with
  | nil => exact .inr ⟨by simp, rfl⟩
  | cons e l ih =>
    by_cases he : (p.spanAt e.span).role ≠ .none ∨ (p.spanAt e.span).occupied = true
    · have ea : answerClaim c e p = formNotice c p := by
        unfold answerClaim; dsimp only; rw [if_pos (by simpa using he)]
      refine .inl ⟨⟨e, List.mem_cons_self, he⟩, ?_, fun k hk => ?_⟩
      · rw [List.foldl_cons, ea]
        exact .foldl (fun q e h => h.answerClaim c e) l _ (formNotice_noticed c p)
      · rw [List.foldl_cons, ea]
        exact answers_none c l k _ (releaseDue_role hk)
    · have ea : answerClaim c e p = p := by
        unfold answerClaim; dsimp only; rw [if_neg (by simpa using he)]
      rw [List.foldl_cons, ea]
      have hh : (p.spanAt e.span).role = .none ∧ (p.spanAt e.span).occupied = false := by simpa using he
      rcases ih with ⟨⟨x, hx, hr⟩, h⟩ | ⟨hn, h⟩
      · exact .inl ⟨⟨x, List.mem_cons_of_mem _ hx, hr⟩, h⟩
      · refine .inr ⟨fun x hx => ?_, h⟩
        rcases List.mem_cons.mp hx with rfl | hx
        · exact hh
        · exact hn x hx

/-! ### The reports of a notice -/

/-- A forming gives no span its hold back. -/
theorem releaseDue_notHeld {p : Part} {k : Nat} (h : (p.spanAt k).role.isHeld = false) :
    ((releaseDue p).spanAt k).role.isHeld = false := by
  rw [releaseDue_spanAt]; split
  · rfl
  · exact h

/-- Where the fold stands: lost spans and, after a forming, due ones are no longer held; the others are as in `p`. -/
structure Turn (p q : Part) (formed : Bool) (lost : List Nat) : Prop where
  rest : q = { p with span := q.span, line := q.line }
  gone : ∀ k, k ∈ lost ∨ (formed = true ∧ (releaseDue p).spanAt k ≠ p.spanAt k) → (q.spanAt k).role.isHeld = false
  same : ∀ k, ¬(k ∈ lost ∨ (formed = true ∧ (releaseDue p).spanAt k ≠ p.spanAt k)) → q.spanAt k = p.spanAt k

theorem Turn.clock {p q : Part} {f : Bool} {l : List Nat} (t : Turn p q f l) : q.clock = p.clock := by rw [t.rest]
theorem Turn.due {p q : Part} {f : Bool} {l : List Nat} (t : Turn p q f l) {k : Nat} (h : q.spanAt k = p.spanAt k) :
    (releaseDue q).spanAt k = (releaseDue p).spanAt k :=
  releaseDue_congr (by rw [t.rest]; rfl) (by rw [t.rest]; rfl) h

/-- The conflict reports rest on the spans, the releases due and station time alone. -/
theorem conflictReports_congr {p q : Part} (hs : ∀ k, q.spanAt k = p.spanAt k)
    (hd : ∀ k, (releaseDue q).spanAt k = (releaseDue p).spanAt k) (hn : q.now = p.now) (addr : Nat) (l : List Entry) :
    ∀ formed lost, conflictReports q addr formed lost l = conflictReports p addr formed lost l := by
  induction l with
  | nil => exact fun _ _ => rfl
  | cons e l ih => intro formed lost; simp only [conflictReports, hs, hd, hn, ih]

/-- A double hold that is resolved is the next turn. -/
theorem Turn.next {p q : Part} {formed : Bool} {lost : List Nat} (t : Turn p q formed lost) (c : Settings) (addr : Nat) {e : Entry}
    {own : Rank} (hr : (p.spanAt e.span).role = .held own)
    (hg : ¬(e.span ∈ lost ∨ (formed = true ∧ (releaseDue p).spanAt e.span ≠ p.spanAt e.span))) :
    Turn p (resolveDouble c addr e q) true (if yieldsTo (p.spanAt e.span) own e = true then e.span :: lost else lost) := by
  have hs := t.same _ hg
  have hq : (q.spanAt e.span).role = .held own := by rw [hs, hr]
  have stay : ∀ k, k ∈ lost → k ∈ (if yieldsTo (p.spanAt e.span) own e = true then e.span :: lost else lost) := fun k h => by
    split
    · exact List.mem_cons_of_mem _ h
    · exact h
  refine ⟨?_, fun k hk => ?_, fun k hk => ?_⟩
  · rw [(resolveDouble_spanned c addr e q).rest]; rw [t.rest]
  · rw [resolveDouble_spanAt c addr hq k]
    split
    · rfl
    · rename_i hy
      by_cases hold : k ∈ lost ∨ (formed = true ∧ (releaseDue p).spanAt k ≠ p.spanAt k)
      · exact releaseDue_notHeld (t.gone k hold)
      · have hsk := t.same k hold
        rcases hk with hk | ⟨_, hk⟩
        · exfalso
          split at hk
          · rename_i hyy
            rcases List.mem_cons.mp hk with rfl | hk
            · exact hy ⟨rfl, by rw [hsk]; exact hyy⟩
            · exact hold (.inl hk)
          · exact hold (.inl hk)
        · rw [t.due hsk, releaseDue_role hk]; rfl
  · rw [resolveDouble_spanAt c addr hq k]
    have hold : ¬(k ∈ lost ∨ (formed = true ∧ (releaseDue p).spanAt k ≠ p.spanAt k)) := by
      rintro (h | ⟨_, h⟩)
      · exact hk (.inl (stay k h))
      · exact hk (.inr ⟨rfl, h⟩)
    have hd : (releaseDue p).spanAt k = p.spanAt k := by
      by_contra h; exact hk (.inr ⟨rfl, h⟩)
    have hsk := t.same k hold
    rw [if_neg, t.due hsk, hd]
    rintro ⟨rfl, hy⟩
    rw [hsk] at hy
    exact hk (.inl (by rw [if_pos hy]; exact List.mem_cons_self))

theorem conflictReports_held {p : Part} {addr : Nat} {formed : Bool} {lost : List Nat} {e : Entry} {es : List Entry} {own : Rank}
    (hr : (p.spanAt e.span).role = .held own)
    (hg : ¬(e.span ∈ lost ∨ (formed = true ∧ (releaseDue p).spanAt e.span ≠ p.spanAt e.span))) :
    conflictReports p addr formed lost (e :: es) =
      .spanConflict e.span addr e.kind e.rank own (yieldsTo (p.spanAt e.span) own e) p.now
        :: conflictReports p addr true (if yieldsTo (p.spanAt e.span) own e = true then e.span :: lost else lost) es := by
  rw [conflictReports, hr]
  exact if_neg hg

theorem conflictReports_gone {p : Part} {addr : Nat} {formed : Bool} {lost : List Nat} {e : Entry} {es : List Entry}
    (hg : (p.spanAt e.span).role.isHeld = false
      ∨ (e.span ∈ lost ∨ (formed = true ∧ (releaseDue p).spanAt e.span ≠ p.spanAt e.span))) :
    conflictReports p addr formed lost (e :: es) = conflictReports p addr formed lost es := by
  rw [conflictReports]
  split
  · rename_i hr
    exact if_pos (hg.resolve_left (by rw [hr]; exact nofun))
  · rfl

/-- The double holds of a notice send the SPAN_CONFLICT reports of `conflictReports`. -/
theorem doubles_sends (c : Settings) (addr : Nat) (p : Part) (l : List Entry) : ∀ (q : Part) (formed : Bool) (lost : List Nat),
    Turn p q formed lost → q.waiting.length ≤ 8 →
    Sends q (l.foldl (fun q e => resolveDouble c addr e q) q) (conflictReports p addr formed lost l) := by
  induction l with
  | nil => exact fun q _ _ _ h => .of_waiting rfl h
  | cons e l ih =>
    intro q formed lost t h8
    rw [List.foldl_cons]
    by_cases hg : e.span ∈ lost ∨ (formed = true ∧ (releaseDue p).spanAt e.span ≠ p.spanAt e.span)
    · rw [resolveDouble_free c addr (t.gone _ hg), conflictReports_gone (.inr hg)]
      exact ih q formed lost t h8
    · have hs := t.same _ hg
      by_cases hh : (p.spanAt e.span).role.isHeld = false
      · rw [resolveDouble_free c addr (by rw [hs]; exact hh), conflictReports_gone (.inl hh)]
        exact ih q formed lost t h8
      · obtain ⟨own, hr⟩ : ∃ own, (p.spanAt e.span).role = .held own := by
          cases hr : (p.spanAt e.span).role with
          | held own => exact ⟨own, rfl⟩
          | none | claim _ _ _ _ => rw [hr] at hh; exact absurd rfl hh
        have hq : (q.spanAt e.span).role = .held own := by rw [hs, hr]
        have hsend := resolveDouble_sends c addr hq h8
        rw [hs, show q.now = p.now by unfold Part.now; rw [t.clock]] at hsend
        rw [conflictReports_held hr hg]
        exact Sends.trans (a := [_]) hsend (ih _ _ _ (t.next c addr hr hg) hsend.le)

/-- What a notice sends: PEER_HEARD for a silent record, and the SPAN_CONFLICT reports of its double holds. -/
theorem takeSpanNotice_sends (c : Settings) (addr : Nat) (n : SpanNotice) (p : Part) (h8 : p.line.reports.length ≤ 8) :
    Sends p (takeSpanNotice c addr n p)
      ((if (p.span.peers.find? (·.addr == addr)).any (fun x => decide (3000 < x.age)) = true then [.peerHeard addr p.now] else [])
                ++ conflictReports p addr false [] ((n.entries.filter (isNew (((p.span.peers.find? (·.addr == addr)).map (·.entries)).getD []))).filter (·.kind ≠ .claim))) := by
  have h1 := recordPeer_sends addr n (waiting_le h8)
  have e1 : (if ((peerAt p addr).map Peer.silent).getD false = true then [Report.peerHeard addr p.now] else [])
      = (if (p.span.peers.find? (·.addr == addr)).any (fun x => decide (3000 < x.age)) = true then [.peerHeard addr p.now] else []) := by
    unfold peerAt
    cases (p.span.peers.find? (·.addr == addr)) <;> rfl
  rw [e1] at h1
  have t : Turn p (recordPeer addr n p) false [] := ⟨?_, ?_, fun k _ => recordPeer_spanAt addr n p k⟩
  · have h2 := doubles_sends c addr p ((freshEntries p addr n).filter (·.kind != .claim)) _ false [] t h1.le
    have h := h1.trans h2
    have hf : ∀ l : List Entry, l.filter (fun x => x.kind != .claim) = l.filter (fun x => decide (x.kind ≠ .claim)) := by
      intro l; congr 1; funext x; simp [bne]; cases x.kind <;> rfl
    rw [hf] at h
    have w : ∀ (l : List Entry) (r : Part), (l.foldl (fun q e => contest e q) r).waiting = r.waiting := by
      intro l; induction l with
      | nil => exact fun _ => rfl
      | cons e l ih => intro r; rw [List.foldl_cons, ih, contest_waiting]
    have w' : ∀ (l : List Entry) (r : Part), (l.foldl (fun q e => answerClaim c e q) r).waiting = r.waiting := by
      intro l; induction l with
      | nil => exact fun _ => rfl
      | cons e l ih => intro r; rw [List.foldl_cons, ih, answerClaim_waiting]
    unfold Sends at *
    refine Eq.trans ?_ h
    unfold takeSpanNotice
    dsimp only
    rw [w', w, hf]
  · rw [recordPeer_rest]
  · rintro k (h | ⟨h, _⟩) <;> cases h
/-! ### After `settle` -/

theorem announce_span (c : Settings) (p : Part) : (announce c p).span = p.span := by rw [(announce_announced c p).rest]

/-- The spans as `settle` hands them to the span unit. -/
theorem settle_eq (c : Settings) (p : Part) : ∃ q, settle c p = settleSpans c q ∧ CraneAct c p q
    ∧ q.span = { p.span with yieldStop := q.span.yieldStop }
    ∧ (Noticed p → Noticed q) := by
  have a := announce_announced c p
  have b := settleStart_moved c (announce c p)
  have d := settleArrival_moved c (settleStart c (announce c p))
  refine ⟨_, rfl, ((announce_act c p c).trans (settleStart_act c _ c)).trans (settleArrival_act c _ c), ?_, fun h => ?_⟩
  · rw [d.rest, b.rest, a.rest]
  · have h' : Noticed (announce c p) := by
      have : ∀ (l : List Piece) (r : Part), Noticed r → Noticed (l.foldl (announceOne c) r) := by
        intro l
        induction l with
        | nil => exact fun _ h => h
        | cons x l ih =>
          refine fun r hr => ih _ ?_
          unfold announceOne
          split
          · refine Noticed.report (hr.of ?_ ?_ ?_) _ <;> rw [(updatePiece_rest r x.id _).1]
          · exact hr
      exact this _ p h
    refine (h'.of (q := settleStart c (announce c p)) ?_ ?_ ?_).of ?_ ?_ ?_
    · rw [b.rest]
    · rw [b.rest]
    · rw [b.rest]
    · rw [d.rest]
    · rw [d.rest]
    · rw [d.rest]

theorem withdrawClaims_spanAt (c : Settings) (p : Part) (k : Nat)
    (h : (p.spanAt k).role.isClaim = true → claimStands c p k = true) : (withdrawClaims c p).spanAt k = p.spanAt k := by
  unfold withdrawClaims
  split
  · rfl
  · rename_i j hj
    split
    · rfl
    · rename_i hs
      rw [spanAt_setSpan, if_neg]
      rintro ⟨rfl, _⟩
      unfold claimed at hj
      exact hs (h (List.find?_some (p := fun k => (p.spanAt k).role.isClaim) hj))

/-- A span that is not held has no releasing flag after the releases are settled, and is else as it was. -/
theorem settleReleases_spanAt (c : Settings) (p : Part) (k : Nat) (h : (p.spanAt k).role.isHeld = false)
    (hr : (p.spanAt k).releasing = false) : (settleReleases c p).spanAt k = p.spanAt k := by
  unfold Part.spanAt at *
  unfold settleReleases
  dsimp only
  rw [List.getD_eq_getElem?_getD, List.getElem?_mapIdx] at *
  rw [List.getD_eq_getElem?_getD] at *
  cases hx : p.span.spans[k]? with
  | none => rfl
  | some x =>
    rw [hx] at h hr
    have h' : x.role.isHeld = false := h
    have hr' : x.releasing = false := hr
    simp only [Option.map_some, Option.getD_some, h', Bool.false_eq_true, if_false]
    rcases x with ⟨_, _, _, _⟩
    cases hr'
    rfl

theorem noticeIfDue_spanAt (c : Settings) (p : Part) (k : Nat) (hr : (p.spanAt k).releasing = false) :
    (noticeIfDue c p).spanAt k = p.spanAt k := by
  unfold noticeIfDue
  split
  · rw [formNotice_spanAt, releaseDue_spanAt, if_neg (by rw [hr]; rintro ⟨_, h⟩; cases h)]
  · rfl

/-- A claim opens on no span that has a role or that a peer names. -/
theorem openClaim_spanAt (c : Settings) (p : Part) (k : Nat) (hr : (p.spanAt k).releasing = false)
    (h : (p.spanAt k).role ≠ .none ∨ peerPart p k ≠ []) : (openClaim c p).spanAt k = p.spanAt k := by
  unfold openClaim
  split
  · split
    · rfl
    · split
      · rfl
      · rename_i j hj
        dsimp only
        have hjk : peerPart p j = [] → j ≠ k := by
          rintro hp rfl
          rcases h with h | h
          · have := List.find?_some hj
            simp only [Bool.and_eq_true, beq_iff_eq] at this
            exact h this.1
          · exact h hp
        have opened : ∀ (u : SpanUnit) (y : Span), u.spans = p.span.spans → j ≠ k →
            (formNotice c (({ p with span := u } : Part).setSpan j y)).spanAt k = p.spanAt k := by
          intro u y hu hne
          have e : (({ p with span := u } : Part).setSpan j y).spanAt k = p.spanAt k := by
            rw [spanAt_setSpan, if_neg fun h => hne h.1]; unfold Part.spanAt; rw [hu]
          rw [formNotice_spanAt, releaseDue_spanAt, e, if_neg (by rw [hr]; rintro ⟨_, h⟩; cases h)]
        split
        · split
          · rfl
          · rename_i hn
            simp only [Bool.or_eq_true, not_or, bne_iff_ne, ne_eq, not_not] at hn
            exact opened _ _ rfl (hjk hn.1)
        · split
          · rfl
          · rename_i hn
            simp only [Bool.or_eq_true, not_or, bne_iff_ne, ne_eq, not_not] at hn
            exact opened _ _ rfl (hjk hn.1)
  · rfl

/-- `settle` leaves a span that is claimed with a claim that stands, or that has no role and is named by a peer. -/
theorem settle_spanAt (c : Settings) (p : Part) (k : Nat) (hr : (p.spanAt k).releasing = false)
    (h : (p.spanAt k).role.isClaim = true ∧ claimStands c (settle c p) k = true
      ∨ (p.spanAt k).role = .none ∧ peerPart p k ≠ []) : (settle c p).spanAt k = p.spanAt k := by
  obtain ⟨q, e, act, hspan, _⟩ := settle_eq c p
  have sp := settleSpans_spanned c q
  have sact := settleSpans_act c q c
  have hq : q.spanAt k = p.spanAt k := by unfold Part.spanAt; rw [hspan]
  have hpeers : q.span.peers = p.span.peers := by rw [hspan]
  have hst : claimStands c (settle c p) k = claimStands c q k := by
    rw [e]
    unfold claimStands
    rw [sp.position, sp.craneLocal, sact.inClash, show (settleSpans c q).moves = q.moves by rw [sp.rest]]
  rw [e, ← hq]
  have hr' : (q.spanAt k).releasing = false := by rw [hq]; exact hr
  have nh : (q.spanAt k).role.isHeld = false := by
    rw [hq]
    rcases h with ⟨h, _⟩ | ⟨h, _⟩
    · cases hx : (p.spanAt k).role <;> rw [hx] at h <;> first | rfl | cases h
    · rw [h]; rfl
  have h1 : (withdrawClaims c q).spanAt k = q.spanAt k := by
    refine withdrawClaims_spanAt c q k fun hc => ?_
    rcases h with ⟨_, h⟩ | ⟨h, _⟩
    · rw [← hst]; exact h
    · rw [hq, h] at hc; cases hc
  unfold settleSpans
  dsimp only
  have h2 : ∀ u : SpanUnit, u.spans = (withdrawClaims c q).span.spans → ∀ r : Part,
      ({ r with span := u } : Part).spanAt k = q.spanAt k := by
    intro u hu r; rw [← h1]; unfold Part.spanAt; rw [hu]
  have h3 : (settleReleases c { settleYield (withdrawClaims c q) with span :=
      { (settleYield (withdrawClaims c q)).span with
        decision := travelDecision c (settleYield (withdrawClaims c q)) } }).spanAt k = q.spanAt k := by
    have := h2 { (settleYield (withdrawClaims c q)).span with
        decision := travelDecision c (settleYield (withdrawClaims c q)) } rfl (settleYield (withdrawClaims c q))
    rw [settleReleases_spanAt c _ k (by rw [this]; exact nh) (by rw [this]; exact hr'), this]
  have h4 := noticeIfDue_spanAt c _ k (by rw [h3]; exact hr')
  rw [h3] at h4
  refine (openClaim_spanAt c _ k (by rw [h4]; exact hr') ?_).trans h4
  rw [h4]
  rcases h with ⟨hc, _⟩ | ⟨_, hp⟩
  · left; rw [hq]; intro hn; rw [hn] at hc; cases hc
  · right
    have : (noticeIfDue c (settleReleases c { settleYield (withdrawClaims c q) with span :=
      { (settleYield (withdrawClaims c q)).span with
        decision := travelDecision c (settleYield (withdrawClaims c q)) } })).span.peers = p.span.peers := by
      rw [(noticeIfDue_spanned c _).peers, ← hpeers]
      exact (withdrawClaims_spanned c q).peers
    unfold peerPart
    rw [this]
    exact hp

/-- A notice formed stays formed through `settle`, at whose end another may have been formed at the same count. -/
theorem Noticed.settle (h : Noticed p) (c : Settings) : Noticed (settle c p) := by
  obtain ⟨q, e, _, _, hn⟩ := settle_eq c p
  rw [e]
  have due : ∀ r : Part, Noticed r → Noticed (noticeIfDue c r) := by
    intro r hr
    unfold noticeIfDue
    split
    · exact formNotice_noticed c r
    · exact hr
  have opens : ∀ r : Part, Noticed r → Noticed (openClaim c r) := by
    intro r hr
    unfold openClaim
    split
    · split
      · exact hr
      · split
        · exact hr
        · dsimp only
          split <;> split <;> first | exact hr | exact formNotice_noticed c _
    · exact hr
  unfold settleSpans
  dsimp only
  refine opens _ (due _ ((hn h).of ?_ ?_ ?_))
  · show (withdrawClaims c q).span.formed = _
    unfold withdrawClaims; split <;> (try split) <;> rfl
  · show (withdrawClaims c q).clock = _
    rw [(withdrawClaims_spanned c q).rest]
  · show (withdrawClaims c q).line = _
    unfold withdrawClaims; split <;> (try split) <;> rfl

end Sys2Proof.Machine
end

