-- ==== Sys2Proof/Laws/Restore.lean ====
section
/-! SUPPORT. The reconciliation of a restore: its steps act on the crane side alone, but for the slot lists of the beds. -/
namespace Sys2Proof.Machine
open Sys2Proof

variable (c : Settings) (p : Part)

/-! ### Lost blocks -/

theorem lostReport_act (lost : List Block) (k : Nat) : CraneAct c p (lostReport lost k p) := by
  unfold lostReport
  split
  · exact .refl c p
  · exact .report c p _

theorem announceLost_act (lost : List Block) : CraneAct c p (announceLost lost p) :=
  (CraneAct.foldl (fun q b => CraneAct.markDirty c q b) lost p).trans
    (CraneAct.foldl (fun q k => lostReport_act c q lost k) _ _)

/-! ### Records -/

theorem mapRecords_act (f : Piece → Piece) : CraneAct c p (mapRecords f p) :=
  CraneAct.foldl (fun q n => by
    split
    · exact setRecord_act c q n _
    · exact .refl c q) _ p

theorem dropRecord_act (n : Nat) : CraneAct c p (dropRecord n p) := by
  unfold dropRecord
  split
  · exact (setRecord_act c p n none).trans (.report c _ _)
  · exact .refl c p

theorem dropRecords_act (bad : Part → Nat → Piece → Bool) : CraneAct c p (dropRecords bad p) :=
  CraneAct.foldl (fun q n => by
    split
    · split
      · exact dropRecord_act c q n
      · exact .refl c q
    · exact .refl c q) _ p

/-! ### Slot lists -/

theorem cleanSlots_act (d : Settings) (keep : Part → Nat → Nat → Nat → Bool) (b : Nat) :
    PlantAct c p (cleanSlots d keep b p) := by
  unfold cleanSlots
  dsimp only
  have h (l : List (Option Nat)) : HeatAct c p (p.withBed b fun x => { x with slots := l }) := HeatAct.withBed c p b _ rfl
  split
  · unfold emptiedAtRestore setBedState
    exact (((h _).trans (HeatAct.withBed c _ b _ rfl)).trans (HeatAct.withBed c _ b _ rfl)).toPlantAct.trans
      (HeatAct.report c _ _).toPlantAct
  · exact (h _).toPlantAct

/-! ### Stacks -/

theorem retier_act (lane n : Nat) (l : List Nat) : CraneAct c p (retier lane n l p) := by
  unfold retier
  exact CraneAct.foldl (fun q (e : Nat × Nat) => updatePiece_act c q e.1 _) _ p

theorem closeStack_act (lane n : Nat) : CraneAct c p (closeStack lane n p) :=
  (setStackAt_act c p _ _).trans (retier_act c _ lane n _)

theorem trimStack_act (g : StackCfg) (i fuel : Nat) : CraneAct c p (trimStack g i fuel p) := by
  induction fuel generalizing p with
  | zero => exact .refl c p
  | succ k ih =>
    unfold trimStack
    dsimp only
    split
    · refine CraneAct.trans ?_ (ih _)
      split
      · exact (setStackAt_act c p i _).trans (dropRecord_act c _ _)
      · exact setStackAt_act c p i _
    · exact .refl c p

theorem trimStacks_act (d : Settings) : CraneAct c p (trimStacks d p) :=
  CraneAct.foldl (fun q ln => by
    split
    · exact trimStack_act c q _ _ _
    · exact setStackAt_act c q _ _) _ p

/-- Steps 1 to 3 of 08 R154. -/
theorem reconcilePlaces_act : PlantAct c p (reconcilePlaces c p) := by
  have h1 := dropRecords_act c p isDuplicate
  have h2 := h1.trans (dropRecords_act c _ fun q _ x => !onItsBed c q x)
  have h3 := h2.toPlantAct.trans (PlantAct.forAssigned (fun b q => cleanSlots_act c q c slotAgrees b) _)
  have h4 := h3.trans (CraneAct.foldl (fun q (ln : Nat × Nat) => closeStack_act c q ln.1 ln.2) stackNumbers _).toPlantAct
  have h5 := h4.trans (dropRecords_act c _ fun q _ x => !inItsStack c q x).toPlantAct
  exact h5.trans (trimStacks_act c _ c).toPlantAct

/-! ### Moves -/

theorem dropMove_act (m : Move) : CraneAct c p (dropMove m p) :=
  ((releaseMark_act c p m.tag m.piece).trans (removeMove_act c _ m)).trans (.report c _ _)

theorem alignMove_act (d : Settings) (m : Move) : CraneAct c p (alignMove d p m) := by
  unfold alignMove
  split
  · exact updateMove_act c p m.tag _
  · exact dropMove_act c p m

theorem settleMark_act (d : Settings) (ln : Nat × Nat) : CraneAct c p (settleMark d p ln) := by
  unfold settleMark
  split
  · exact .refl c p
  · dsimp only
    split
    · exact ((releaseMark_act c p _ _).trans (removeMove_act c _ _)).trans (.report c _ _)
    · exact releaseMark_act c p _ _

/-- The reservation of a LIFT is made again, or nothing happens. -/
theorem reserveAgain_act (d : Settings) (m : Move) : CraneAct c p (reserveAgain d p m) := by
  unfold reserveAgain
  split
  · exact .refl c p
  · split
    · dsimp only
      split
      · exact setStackAt_act c p _ _
      · exact .refl c p
    · exact .refl c p

/-- Every move is kept, and nothing of the piece store changes but a mark. -/
theorem reserveAgain_keeps (d : Settings) (m : Move) :
    (reserveAgain d p m).moves = p.moves ∧ (reserveAgain d p m).pieces.register = p.pieces.register := by
  unfold reserveAgain
  split
  · exact ⟨rfl, rfl⟩
  · split
    · dsimp only
      split
      · unfold Part.setStackAt Part.setStacks Part.markIf Part.markDirty
        split <;> exact ⟨rfl, rfl⟩
      · exact ⟨rfl, rfl⟩
    · exact ⟨rfl, rfl⟩

theorem haltRestored_act (m : Move) : CraneAct c p (haltRestored m p) :=
  (updateMove_act c p m.tag _).trans (.report c _ _)

theorem settlePicked_act (m : Move) : CraneAct c p (settlePicked p m) := by
  unfold settlePicked
  split
  · exact haltRestored_act c p m
  · exact dropMove_act c p m

/-- Step 4 of 08 R154, with 09 R176. -/
theorem reconcileMoves_act (d : Settings) : CraneAct c p (reconcileMoves d p) := by
  unfold reconcileMoves haltHeads
  refine CraneAct.trans ?_ (CraneAct.foldl (fun q m => settlePicked_act c q m) _ _)
  refine CraneAct.trans ?_ (CraneAct.foldl (fun q m => haltRestored_act c q m) _ _)
  refine CraneAct.trans ?_ (CraneAct.foldl (fun q m => reserveAgain_act c q d m) _ _)
  exact (CraneAct.foldl (fun q m => alignMove_act c q d m) _ p).trans
    (CraneAct.foldl (fun q ln => settleMark_act c q d ln) stackNumbers _)

/-- Step 5 of 08 R154. -/
theorem reconcileHook_act : CraneAct c p (reconcileHook p) :=
  (dropRecords_act c p _).trans (mapRecords_act c _ _)

/-- The whole reconciliation: nothing but the slot lists and states of the beds, the piece store and the move controller moves, beside
reports and dirty marks. -/
theorem reconcile_act : PlantAct c p (reconcileHook (reconcileMoves c (reconcilePlaces c p))) :=
  (reconcilePlaces_act c p).trans ((reconcileMoves_act c _ c).trans (reconcileHook_act c _)).toPlantAct

/-! ### A LIFT and its reservation -/

/-- A LIFT that has its reservation is left as it stands. -/
theorem reserveAgain_of_has {d : Settings} {m : Move} (h : hasReservation p m = true) : reserveAgain d p m = p := by
  simp [reserveAgain, h]

/-- A DISPATCH needs no reservation. -/
theorem reserveAgain_dispatch {d : Settings} {m : Move} (h : m.kind = .dispatch) : reserveAgain d p m = p :=
  reserveAgain_of_has p (by simp [hasReservation, h])

end Sys2Proof.Machine
end

