-- ==== Sys2Proof/Laws/Tick.lean ====
section
/-! SUPPORT. What a tick does: the commands that can fall due in each part of it, and the fields that its sampling changes. -/
namespace Sys2Proof.Machine
open Sys2Proof

variable {p : Part} {c : Settings} {i : Instr}

/-! ### Commands that fall due -/

theorem mem_dueTravel : i ∈ dueTravel p ↔ (i = .standstill ∧ p.travel.counter = 20000)
    ∨ ∃ d, p.travel.pprev = some d ∧ ((i = .microstep ∧ p.travel.stepping = true ∧ spacing d ≤ p.travel.timer + 1)
        ∨ (i = .microstepStop ∧ p.travel.counter = 4 * d)) := by
  unfold dueTravel
  dsimp only
  generalize p.travel.pprev = o
  cases o <;> simp only [List.mem_append] <;> grind

theorem mem_dueGen {b : Fin 4} (h : i ∈ dueGen c p b) : i = .heaterPeriodStart b ∨ i = .heaterPulseEnd b := by
  unfold dueGen at h; grind

theorem mem_dueRelease (h : i ∈ dueRelease p) : i = .resetRelease p.pins.adr := by
  unfold dueRelease at h; grind

theorem mem_dueSupply (h : i ∈ dueSupply p) :
    i = .supplyReset ∨ i = .supplyWarning ∨ i = .supplyOk ∨ i = .resetRelease p.pins.adr := by
  unfold dueSupply at h
  have := @mem_dueRelease p i
  split at h <;> grind

theorem mem_dueLine (h : i ∈ dueLine p) : i = .clashEnd ∨ i = .restartReset [] := by
  unfold dueLine at h; grind

theorem mem_dueEmergency : i ∈ dueEmergency p ↔ p.clock.endsTen = true ∧ p.out.emergency.last = some p.pins.emgn
    ∧ p.out.emergency.accepted ≠ some p.pins.emgn
    ∧ i = if p.pins.emgn then .emergencyAccepted else .emergencyReleased := by
  unfold dueEmergency; grind

theorem mem_dueBoundaries : i ∈ dueBoundaries p ↔ (i = .sampleIntervalBoundary ∧ p.clock.sampleDue = true)
    ∨ (i = .heatPeriodBoundary ∧ p.clock.heatDue = true) := by
  unfold dueBoundaries; grind

theorem mem_dueTracks (h : i ∈ dueTracks p) :
    i = .trackStuck ∨ i = .trackStep p.pins.trkA p.pins.trkB p.pins.trkC := by
  unfold dueTracks at h; grind

theorem mem_dueMark (h : i ∈ dueMark p) : i = .markEntry ∨ i = .markEvent := by
  unfold dueMark at h; grind

theorem mem_dueReference (h : i ∈ dueReference c p) : i = .referenceEdge := by
  unfold dueReference at h; grind

theorem mem_dueFlow {b : Fin 4} (h : i ∈ dueFlow c p b) : i = .flowRisingEdge b := by
  unfold dueFlow at h; grind

theorem mem_dueScan (h : i ∈ dueScan c p) : ∃ r1 r2 l, i = .scanCompletion r1 r2 l := by
  unfold dueScan at h; grind

theorem mem_dueWrite (h : i ∈ dueWrite p) : i = .blockWriteBegin := by
  unfold dueWrite at h; grind

theorem mem_dueJack {b : Fin 4} : i ∈ dueJack c p b ↔ c.assigned b = true
    ∧ (p.bed b).jack.stable (p.pins.jhome.getD b false) = true
    ∧ (p.bed b).jack.level ≠ p.pins.jhome.getD b false ∧ i = .jackHomeChange b (p.pins.jhome.getD b false) := by
  unfold dueJack; grind

theorem mem_dueCrane {l : CraneLine} : i ∈ dueCrane p l ↔ (p.moves.crane l).filter.stable (p.pins.crane l) = true
    ∧ (((p.moves.crane l).seen = false ∧ i = .craneLineFirstAcceptance l (p.pins.crane l))
      ∨ ((p.moves.crane l).seen = true ∧ (p.moves.crane l).filter.level ≠ p.pins.crane l
          ∧ i = craneEvent l (p.pins.crane l))) := by
  unfold dueCrane; grind

/-- The commands of the millisecond counters; the second event among them comes at the thousandth millisecond. -/
theorem mem_dueMs (h : i ∈ dueMs p) : (i = .secondEvent ∧ 999 ≤ p.clock.msPhase) ∨ i = .peerRecordAgeIncrease
    ∨ i = .claimDeadline ∨ (∃ k, i = .retryTimePassed k) ∨ i = .spanNoticeInterval := by
  unfold dueMs at h
  simp only [List.mem_append, List.mem_map] at h
  grind

theorem secondEvent_mem_dueMs (h : 999 ≤ p.clock.msPhase) : .secondEvent ∈ dueMs p := by
  unfold dueMs; grind

/-- Every command that falls due while a configured station runs. -/
theorem dueNow_running (h : p.runs c) :
    dueNow p = dueCounters c p ++ dueSupply p ++ dueLine p ++ dueEmergency p ++ dueRunning c p := by
  unfold dueNow Part.whenRunning dueStart
  rw [h.1, h.2]
  simp

theorem mem_dueNow (h : p.runs c) : i ∈ dueNow p ↔ i ∈ dueTravel p ∨ (p.clock.endsTen = true ∧ ∃ b, i ∈ dueGen c p b)
    ∨ i ∈ dueSupply p ∨ i ∈ dueLine p ∨ i ∈ dueEmergency p ∨ i ∈ dueBoundaries p ∨ i ∈ dueTracks p ∨ i ∈ dueMark p
    ∨ i ∈ dueReference c p ∨ (∃ b, i ∈ dueFlow c p b) ∨ i ∈ dueScan c p ∨ (p.clock.endsMs = true ∧ i ∈ dueMs p)
    ∨ (p.clock.endsTen = true ∧ ((∃ b, i ∈ dueJack c p b) ∨ ∃ l, i ∈ dueCrane p l)) ∨ i ∈ dueWrite p := by
  have hb : ∀ b : Fin 4, b ∈ fourBeds := by decide
  have hl : ∀ l : CraneLine, l ∈ craneLines := by intro l; cases l <;> decide
  have hi : ∀ (v : Bool) (l : List Instr), (i ∈ if v then l else []) ↔ v = true ∧ i ∈ l := by
    intro v l; cases v <;> simp
  rw [dueNow_running h]
  simp only [dueCounters, dueRunning, List.mem_append, hi, List.mem_flatMap, hb, hl, true_and, or_assoc]

end Sys2Proof.Machine
end

