-- ==== Sys2Proof/Tests/Slice0.lean ====
section
/-! SUPPORT. Tests: ill-formed commands, states that meet the hypotheses of the statements, and single commands on a small
station. -/
namespace Sys2Proof.Tests
open Sys2Proof Sys2Proof.Machine

/-! ### Ill-formed commands, one for each check -/

theorem test_source_zero : (Instr.castEnd 0 1 [0]).wellFormed = false := by decide
theorem test_source_high : (Instr.restart 33 1 []).wellFormed = false := by decide
theorem test_order_long : (Instr.aux 5 1 (List.replicate 47 0)).wellFormed = false := by decide
theorem test_hold_long : (Instr.holdBed 5 1 (List.replicate 46 0)).wellFormed = false := by decide
theorem test_query_long : (Instr.queryMoves 5 1 (List.replicate 46 0)).wellFormed = false := by decide
theorem test_notice_target : (Instr.heatNoticeReceived 5 33 []).wellFormed = false := by decide
theorem test_notice_long : (Instr.spanNoticeReceived 5 0 (List.replicate 49 0)).wellFormed = false := by decide
theorem test_other_kind : (Instr.otherFrameReceived 0x11 5 0 []).wellFormed = false := by decide
theorem test_clash_kind : (Instr.clashFrame 0 0 []).wellFormed = false := by decide
theorem test_clash_long : (Instr.clashFrame 0x50 0 (List.replicate 49 0)).wellFormed = false := by decide
theorem test_discard_long : (Instr.frameDiscarded (List.replicate 55 0) true).wellFormed = false := by decide
theorem test_scan_codes : (Instr.scanCompletion 2048 2048 (List.replicate 22 0)).wellFormed = false := by decide
theorem test_age_zero : (Instr.ageTestReached 0).wellFormed = false := by decide
theorem test_age_high : (Instr.ageTestReached 16777216).wellFormed = false := by decide
theorem test_peer_zero : (Instr.peerSilent 0).wellFormed = false := by decide
theorem test_peer_high : (Instr.peerSilent 33).wellFormed = false := by decide
theorem test_well_formed : (Instr.castStart 5 1 [0, 0, 1, 1]).wellFormed = true := by decide

/-! ### A small station -/

def chan (b : Option Nat) : ChannelCfg := ⟨b.isSome, b, 400, 1000⟩

def bed0 : BedCfg :=
  { assigned := true, tf := 50, th := 600, tmax := 700, presetMin := 60, rampRate := 200, holdMin := 60, coolRate := 200,
    gain := 100, pmax := 500, blindMin := 10, picks := [20000, 21000], period := 1000, flowCheck := true, fmin := 5,
    fmax := 50 }

def curve0 : Curve := ⟨[(1000, 10), (2000, 100)], 20, 20, 50, 10⟩

/-- The image of the station, in millimetres. -/
def settings : Settings :=
  { ts := 60, thp := 10, t0 := -100, capacity := 1000
    channels := [chan (some 0), chan (some 0)] ++ List.replicate 20 (chan none)
    ambZ := 400, ambK := 1000
    beds := bed0 :: List.replicate 3 default
    curves := [some curve0, none, none, none]
    lines := [⟨.heater 0, false, true, false⟩, ⟨.travelFwd, true, true, true⟩, ⟨.permit 0, false, false, false⟩]
      ++ List.replicate 29 ⟨.constLow, false, false, false⟩
    aux := ⟨some 2, false⟩ :: List.replicate 7 ⟨none, false⟩
    lm := 250, half := 1000, refPos := 50125, refHigh := true, limLo := 2000, limHi := 100000, tol := 100
    spans := [⟨0, 60000, 32⟩, ⟨60000, 120000, 5⟩]
    window := 100, vmax := 1000, gap := 1000, stopCreep := 100, stopSlow := 500, stopFast := 2000
    claimMin := 5, pickMin := 5, dispatch := 30000, park := some 10000
    lanes := [⟨40000, 4, 20000⟩] :: List.replicate 7 [] }

def pad (n : Nat) : List Byte := List.replicate n 0

/-- The bytes of the image before its check. -/
def body : List Byte :=
  be 2 0x0B24 ++ be 2 60 ++ [10] ++ be 2 0xFF9C ++ be 2 1000 ++ [1] ++ pad 6
    ++ (List.replicate 23 ([1] ++ be 2 400 ++ be 2 1000)).flatten ++ pad (0x450 - 131)
    ++ be 4 0 ++ be 4 60000 ++ [32] ++ be 4 60000 ++ be 4 120000 ++ [5] ++ pad (0x120 - 18)
    ++ [1] ++ pad 7 ++ be 4 40000 ++ [4] ++ be 2 20000 ++ pad (0xFFE - 0x57F)

def image : Image := ⟨body ++ be 2 (crc body).toNat, settings⟩

/-- The settings in force. -/
def cfg : Settings := inSteps settings

/-- The station after a start, idle: position 3208 known, standing. -/
def part : Part :=
  { Part.reset RecMem.blank ⟨.normal, 0⟩ Pins.rest 0 with
    run := .running
    config := some cfg
    clock := { Clock.reset with now := 100000 }
    travel := { TravelUnit.reset with referenced := true, base := 200, u := 8, index := some 0 }
    span := { SpanUnit.reset with spans := [⟨.held ⟨0, 32⟩, false, none, true⟩, ⟨.none, false, none, false⟩] }
    moves := { MoveUnit.reset with
      hook := ⟨⟨false, false, 5⟩, true⟩, ready := ⟨⟨true, true, 5⟩, true⟩, fault := ⟨⟨false, false, 5⟩, true⟩,
      locl := ⟨⟨false, false, 5⟩, true⟩ }
    out := { OutputUnit.reset with emergency := ⟨some false, some false, 0⟩ } }

def piece7 : Piece :=
  { id := 7, mark := 1, mass := 300, mix := 0, castTime := 50000, place := .onBed 0 0, capture := none, hold := false,
    announced := false, tag := none, liftTest := false, shipTest := false, ageTest := false }

def bedWith (st : BedState) : Bed := { Bed.reset with state := st, slots := [some 7, none], received := 1, expected := 1 }

/-- The station with a bed 0, a piece record, and moves. -/
def stationWith (x : Bed) (pieces : List Piece) (queue : List Move) : Part :=
  { part with
    beds := x :: List.replicate 3 Bed.reset
    pieces := { part.pieces with
      register := pieces.map some ++ List.replicate (256 - pieces.length) none
      stackTable := ⟨[8], .none⟩ :: List.replicate 95 ⟨[], .none⟩ }
    moves := { part.moves with queue := queue, nextTag := 3 } }

def lift7 (ph : Phase) (picked : Bool) : Move :=
  { tag := 1, kind := .lift, piece := 7, pick := 1280, place := 2560, stack := some (0, 0), phase := ph, start := some 90000,
    halt := none, picked := picked }

def piece8 : Piece := { piece7 with id := 8, place := .inStock 0 0 1, capture := some ⟨0, 0, 0⟩ }

def at_ (p : Part) : State := ⟨p, []⟩

/-- The part after a command. -/
def after (i : Instr) (p : Part) : Part :=
  match exec i (at_ p) with
  | .next t => t.part
  | _ => p

theorem body_length : body.length = 0xFFE := by decide +kernel

theorem num_be2 (n : Nat) (h : n < 65536) : num (be 2 n) = n := by
  simp [num, be, byte]; omega

theorem test_image_check : imageCheck image.bytes = true := by
  have h : (crc body).toNat < 65536 := (crc body).isLt
  have hl : (be 2 (crc body).toNat).length = 2 := rfl
  simp [imageCheck, image, imageBytes, body_length, hl, num_be2 _ h, List.take_append_of_le_length (Nat.le_of_eq body_length.symm),
    List.take_of_length_le (Nat.le_of_eq body_length)]

theorem test_image_passes : (image.field 0 2 == 0x0B24 && okSettings 32 image.raw) = true := by decide +kernel

theorem test_image_read : readImage 32 image = some cfg := by
  have h : inSteps image.raw = cfg := by decide +kernel
  have k := test_image_passes
  rw [Bool.and_eq_true] at k
  simp [readImage, imagePasses, test_image_check, k.1, k.2, h]

/-- The same bytes beside another capacity. -/
def otherwise : Image := { image with settings := { settings with capacity := 5 } }

/-- The capacity in force is that of the bytes. -/
theorem test_image_beside : readImage 32 otherwise = some cfg := by
  have h : otherwise.raw = image.raw := rfl
  have k := test_image_read
  simp only [readImage, imagePasses, h] at k ⊢
  exact k

theorem test_hyp_StepRunsFrontCommand : State.reset.pending = [] := rfl
theorem test_runs : part.runs cfg := ⟨rfl, rfl⟩
theorem test_shaped : part.shaped :=
  ⟨rfl, rfl, rfl, rfl, rfl, rfl, rfl, rfl, List.length_replicate, List.length_replicate⟩

theorem takes (x : Bed) (l : List Piece) (q : List Move) : TakesOrders (stationWith x l q) cfg 5 :=
  ⟨rfl, rfl, rfl, rfl, (by decide : (5 : Byte).toNat ≠ 32), rfl, rfl, (by decide : 0 < 4)⟩

theorem shaped_with (x : Bed) (l : List Piece) (q : List Move) (h : l.length ≤ 256) : (stationWith x l q).shaped :=
  ⟨rfl, rfl, rfl, rfl, rfl, rfl, rfl, rfl, by simp [stationWith]; omega, by simp [stationWith]⟩

/-! ### The hypotheses of the statements are met, each clause at a boundary value of its range -/

theorem test_hyp_PowerAndSupplyReset : Instr.powerOnReset ∈ [Instr.powerOnReset, Instr.supplyReset]
    ∧ Instr.supplyReset ∈ [Instr.powerOnReset, Instr.supplyReset] := by decide

def restarting : Part :=
  { part with line := { part.line with restart := some ⟨0, false⟩ }, mem := { part.mem with dirty := [.moves] } }

/-- The flush of the reset that follows. -/
def flushing : Part := after (.restartReset []) restarting

/-- The station on a stuck line. -/
def stuckPart : Part := { part with line := { part.line with stuck := some 0 } }

theorem test_hyp_RestartRuns_stuck : stuckPart.run = .running ∧ stuckPart.line.waitIdle = false
    ∧ (5 : Byte).toNat ≠ stuckPart.line.own ∧ stuckPart.line.clash = none ∧ stuckPart.line.restart = none
    ∧ stuckPart.line.answers.length < 4 ∧ stuckPart.line.stuck.isSome = true ∧ restarting.run ≠ .inReset := by decide

theorem test_hyp_RestartRuns :
    (part.run = .running ∧ receiving part = true ∧ part.line.waitIdle = false ∧ (5 : Byte).toNat ≠ part.line.own ∧ part.line.clash = none
      ∧ part.line.restart = none ∧ part.line.answers.length < 4)
    ∧ (restarting.run = .running ∧ restarting.config = some cfg ∧ receiving restarting = true
      ∧ (5 : Byte).toNat ≠ restarting.line.own ∧ restarting.line.clash = none
      ∧ restarting.line.restart = some ⟨0, false⟩ ∧ restarting.inWarning = false ∧ Block.moves ∈ restarting.mem.dirty)
    ∧ { restarting with supply := ⟨.warning, 0⟩ }.inWarning = true ∧ { restarting with config := none }.config = none
    ∧ (orderOf (.castEnd 5 1 [0])).isSome = true
    ∧ flushing.run = .inReset ∧ flushing.mem.writing = none ∧ flushing.mem.flush = [⟨⟨.moves, .moves ⟨[], 1⟩⟩, false⟩]
    ∧ (after (.restartReset [.moves]) restarting).run = .inReset
    ∧ (after (.restartReset [.moves]) restarting).mem.writing = none
    ∧ (after (.restartReset [.moves]) restarting).mem.flush = [⟨⟨.moves, .moves ⟨[], 1⟩⟩, true⟩]
    ∧ (after .blockWriteBegin flushing).run = .inReset
    ∧ (after .blockWriteBegin flushing).mem.writing = some ⟨.moves, .moves ⟨[], 1⟩⟩ := by decide +kernel

theorem test_hyp_StartSequence :
    State.reset.part.run = .inReset ∧ State.reset.part.mem.writing = none ∧ State.reset.part.mem.flush = []
      ∧ { State.reset.part with run := .readingConfig }.run = .readingConfig
      ∧ readImage 32 image = some cfg ∧ readImage 32 ⟨[], settings⟩ = none
      ∧ ([] : List Byte).length ≠ 4096 ∧ crc [] ≠ BitVec.ofNat 16 (num []) ∧ num ([] : List Byte) ≠ 0x0B24
      ∧ okRunway (inSteps ({ image with settings := { settings with refPos := 50000 } }).raw) = false :=
  ⟨rfl, rfl, rfl, rfl, test_image_read, by decide, by decide, by decide, by decide, by decide +kernel⟩

theorem test_hyp_DistancesConverted : 0 < 1 ∧ 0 < 250 ∧ readImage 32 image = some cfg :=
  ⟨by decide, by decide, test_image_read⟩

/-- The works where a queued LIFT's piece block was written before its admission. -/
def torn : Part := stationWith (bedWith .detensioned) [piece7] [lift7 .queued false]

/-- The piece's record takes the tag of the move that carries it, and a second LIFT of it finds that tag. -/
theorem test_restored_tag : (findPiece (reconcileHook torn) 7).map (·.tag) = some (some 1)
    ∧ checkLift cfg (reconcileHook torn) 7 0 0 = .error .badState := by decide +kernel

/-- A record memory with a LIFT under way, beside a given mark of its stack. -/
def written (mark : PendMark) (m : Move) : RecMem :=
  { clock := some ⟨99000, ⟨70, 0⟩, some (3208, 250)⟩
    beds := some (bedWith .detensioned) :: List.replicate 3 (some Bed.reset)
    channels := some ⟨List.replicate 22 ⟨60, 0⟩, List.replicate 4 50000, true :: List.replicate 21 false⟩
    pieces := some (some piece7) :: some (some { piece8 with capture := some ⟨10, 90, 30⟩ }) :: List.replicate 254 (some none)
    stackTable := some (⟨[8], mark⟩ :: List.replicate 95 ⟨[], .none⟩)
    moves := some ⟨[m], 3⟩ }

/-- The part before it reads a record memory. -/
def reading (m : RecMem) : Part :=
  { State.reset.part with run := .readingRecords, config := some cfg, mem := .reset m }

/-- The stored reservation of the LIFT. -/
def reserved7 : PendMark := .reservation 1 7 300

theorem records_meet {p : Part} {P : Nat → Piece → Bool}
    (h : (p.pieces.register.zipIdx.all fun e => e.1.all (P e.2)) = true) (n : Nat) (x : Piece) (hn : recordAt p n = some x) :
    P n x = true := by
  simp only [recordAt, List.getD_eq_getElem?_getD] at hn
  cases hk : p.pieces.register[n]? with
  | none => simp [hk] at hn
  | some o =>
    rw [hk] at hn
    have hm : (o, n) ∈ p.pieces.register.zipIdx := by
      rw [List.mem_zipIdx_iff_getElem?]; exact hk
    have := List.all_eq_true.mp h _ hm
    simp only [Option.getD_some] at hn
    simpa [hn] using this

/-- The part as it takes the records with a given mark and move; and with a reservation that stands. -/
def takenWith (mark : PendMark) (m : Move) : Part := takeBlocks cfg (written mark m) (reading (written mark m))
def taken : Part := takenWith reserved7 (lift7 .toPick false)
def halted7 (ph : Phase) (cause : HaltCause) : Move := { lift7 .halted false with start := none, halt := some (ph, cause) }

theorem taken_slots (b : Nat) (hb : b < 4) (ha : cfg.assigned b = true) :
    (taken.bed b).slots.length = (cfg.bed b).picks.length
      ∧ ∀ i id, (taken.bed b).slots.getD i none = some id → slotAgrees taken b i id = true := by
  obtain rfl : b = 0 := by
    revert b; decide
  refine ⟨by decide, fun i id h => ?_⟩
  have hs : (taken.bed 0).slots = [some 7, none] := by decide
  rw [hs] at h
  match i with
  | 0 => obtain rfl : 7 = id := by simpa using h
         decide +kernel
  | 1 => simp at h
  | i + 2 => simp at h

theorem test_coherent : Coherent cfg taken where
  ids := fun n x h => of_decide_eq_true
    (records_meet (P := fun n x => decide (findRecord taken x.id = some n)) (by decide +kernel) n x h)
  onBeds := records_meet (P := fun _ x => onItsBed cfg taken x) (by decide +kernel)
  slotCount := fun b hb ha => (taken_slots b hb ha).1
  slots := fun b hb ha => (taken_slots b hb ha).2
  stacked := records_meet (P := fun _ x => inItsStack cfg taken x) (by decide +kernel)
  entries := fun l n h => (by decide +kernel : ∀ ln ∈ stackNumbers,
    ∀ e ∈ (taken.stackAt (stackIndex ln.1 ln.2)).list.zipIdx 1, entryAgrees taken ln.1 ln.2 e.2 e.1 = true) (l, n) h
  limits := fun l n h => by
    have key := (by decide +kernel : ∀ ln ∈ stackNumbers,
      (match cfg.stack? ln.1 ln.2 with
        | some g => decide ((taken.stackAt (stackIndex ln.1 ln.2)).list.length ≤ g.tiers
            ∧ loadOf taken (taken.stackAt (stackIndex ln.1 ln.2)).list ≤ g.load)
        | none => decide ((taken.stackAt (stackIndex ln.1 ln.2)).list = [])) = true) (l, n) h
    cases hg : cfg.stack? l n <;> simpa [hg] using key
  marks := fun l n h => (by decide +kernel : ∀ ln ∈ stackNumbers, markStands cfg taken ln.1 ln.2 = true) (l, n) h
  tags := by decide
  aligned := by decide +kernel
  reserved := by decide +kernel
  notPicked := by decide
  hooks := records_meet (P := fun _ x => onItsHook taken x) (by decide +kernel)

theorem test_hyp_RecordsRead : (reading RecMem.blank).run = .readingRecords ∧ (reading RecMem.blank).config = some cfg
    ∧ cfg.assigned 0 = true ∧ cfg.assigned 3 = false ∧ RecMem.blank.isLost .moves = true ∧ RecMem.blank.channels = none
    ∧ (written reserved7 (lift7 .toPick false)).clock ≠ none ∧ (reading RecMem.blank).shaped
    ∧ (bedWith .detensioning).state = .detensioning ∧ (bedWith .detensioned).state = .detensioned
    ∧ Bed.reset.state ≠ .detensioning ∧ Bed.reset.state ≠ .detensioned ∧ (taken.bed 0).slots.getD 0 none = some 7
    ∧ recordAt (reconcileHook taken) 0 = some { piece7 with tag := some 1 } :=
  ⟨rfl, rfl, by decide, by decide, by decide, by decide, by decide,
    ⟨rfl, rfl, rfl, rfl, rfl, rfl, rfl, rfl, List.length_replicate, List.length_replicate⟩, by decide +kernel⟩

/-- What agrees comes back whole, with the move halted, and Alift at most A. -/
theorem test_restore_whole : (reconcileMoves cfg taken).pieces = taken.pieces
    ∧ (reconcileMoves cfg taken).moves.queue
      = [{ lift7 .halted false with start := none, halt := some (.toPick, .restored) }]
    ∧ ((recordAt (restoreMaturity false taken) 1).bind (·.capture)) = some ⟨10, 70, 30⟩
    ∧ taken.travel.lastKnown = some 3208 := by decide +kernel

/-- The halted phase of a restored move is the phase it was restored in, which may be HALTED (09 R176). -/
theorem test_restore_halted :
    (reconcileMoves cfg (takenWith reserved7 (halted7 .atPick .timeout))).moves.queue = [halted7 .halted .restored] := by
  decide +kernel

/-- A LIFT whose reservation was not written is kept: with the reservation made again where it fits, without it elsewhere. -/
theorem test_restore_reserves :
    ((reconcileMoves cfg (takenWith .none (lift7 .queued false))).stackAt 0).mark = reserved7
    ∧ (reconcileMoves cfg (takenWith .none (lift7 .queued false))).moves.queue = [lift7 .queued false]
    ∧ (reconcileMoves { cfg with lanes := [[⟨2560, 1, 20000⟩]] } (takenWith .none (lift7 .queued false))).moves.queue
      = [lift7 .queued false]
    ∧ ((reconcileMoves { cfg with lanes := [[⟨2560, 1, 20000⟩]] } (takenWith .none (lift7 .queued false))).stackAt 0).mark
      = .none := by
  decide +kernel

/-- The records have been read, and the emergency filter holds a level. -/
def restored : Part :=
  { State.reset.part with
    run := .restored, config := some cfg, out := { OutputUnit.reset with emergency := ⟨some false, some false, 0⟩ } }

theorem test_hyp_StartCompletes : restored.run = .restored ∧ restored.config = some cfg
    ∧ restored.out.emergency.accepted ≠ none ∧ { restored with config := none }.config = none
    ∧ State.reset.part.out.emergency.accepted = none := by decide

def flowing (edges run : Nat) : Part :=
  { part with out := { part.out with flows := ⟨false, edges, false, false, run, 0⟩ :: List.replicate 3 Flow.reset } }

theorem test_hyp_ClockEventsTurn : part.runs cfg ∧ part.shaped ∧ part.scan.run = none
    ∧ cfg.ts ≤ { part.clock with samplePhase := 59 }.samplePhase + 1
    ∧ ¬cfg.ts ≤ { part.clock with samplePhase := 58 }.samplePhase + 1
    ∧ cfg.thp ≤ { part.clock with heatPhase := 9 }.heatPhase + 1
    ∧ cfg.assigned 0 = true ∧ (part.flow 0).run < 3 ∧ (part.flow 0).broken = true
    ∧ ((flowing 5 2).flow 0).broken = false ∧ (cfg.bed 0).flowCheck = true ∧ ((flowing 5 2).flow 0).fault = false
    ∧ (cfg.bed 0).fmin ≤ ((flowing 5 2).flow 0).edges ∧ ((flowing 50 2).flow 0).edges ≤ (cfg.bed 0).fmax
    ∧ ((flowing 4 2).flow 0).edges < (cfg.bed 0).fmin ∧ (cfg.bed 0).fmax < ((flowing 51 1).flow 0).edges
    ∧ ((flowing 51 1).flow 0).run < 2 ∧ ((flowing 4 2).flow 0).run = 2 :=
  ⟨test_runs, test_shaped, by decide⟩

/-- Bed 0 in a stage that began at a time, or blind since then. -/
def staged (st : Stage) (since : Nat) : Part := stationWith { bedWith .curing with stage := st, stageStart := since } [piece7] []

def withHead (m : Move) : Part := stationWith (bedWith .detensioned) [piece7] [m]

theorem test_hyp_ClockEventsTurn_timers : ClashInv part ∧ (staged .preset 96401).runs cfg
    ∧ ((staged .preset 96401).bed 0).stageRuns = true ∧ (part.bed 0).stageRuns = false
    ∧ nextStage (cfg.bed 0) .preset 0 (((staged .preset 96401).bed 0).elapsed 100001) = some .ramp
    ∧ nextStage (cfg.bed 0) .preset 0 (((staged .preset 96402).bed 0).elapsed 100001) = none
    ∧ nextStage (cfg.bed 0) .ramp 50 0 = none
    ∧ recordAt (staged .preset 0) 0 = some piece7 ∧ ageReached cfg (staged .preset 0) piece7 = true
    ∧ headMove (withHead (lift7 .toPick false)) = some (lift7 .toPick false) ∧ (lift7 .toPick false).start = some 90000
    ∧ cfg.claimMin * 60 ≤ 100001 - 90000 ∧ cfg.pickMin * 60 ≤ 100001 - 90000 ∧ (lift7 .atPick false).phase = .atPick :=
  ⟨fun _ _ h => absurd h (by decide), ⟨rfl, rfl⟩, by decide +kernel⟩

theorem test_second_timers : ((after .secondEvent (staged .preset 96401)).bed 0).stage = .ramp
    ∧ ((after .secondEvent (staged .preset 96402)).bed 0).stage = .preset
    ∧ ((after .secondEvent (withHead (lift7 .toPick false))).moves.queue.map (·.halt)) = [some (.toPick, .claimTimeout)]
    ∧ ((after .secondEvent (withHead (lift7 .atPick false))).moves.queue.map (·.halt)) = [some (.atPick, .timeout)]
    ∧ ((findPiece (after .secondEvent (staged .preset 0)) 7).map (·.ageTest)) = some true := by decide +kernel

def scanning : Part := { part with scan := { part.scan with run := some ⟨false, 100000, [], 0⟩ } }

theorem test_hyp_ScanCompletes : scanning.runs cfg ∧ scanning.shaped ∧ scanning.scan.run = some ⟨false, 100000, [], 0⟩
    ∧ 22 ∈ channelsInUse cfg ∧ 21 ∉ channelsInUse cfg ∧ scanning.scan.skipped = [] ∧ cfg.assigned 0 = true
    ∧ 0 = min (conversions cfg) (0 / 6) ∧ conversions cfg = 5 ∧ 4 = min (conversions cfg) (25 / 6) ∧ conversions cfg * 6 ≤ 25 + 5 :=
  ⟨⟨rfl, rfl⟩, test_shaped, by decide⟩

def heldAt (n : Nat) : Part := { part with scan := { part.scan with channels := [⟨.held, n, none, none, false⟩] } }

theorem test_hyp_SamplesApplied : 0 < (heldAt 1).scan.channels.length ∧ ((heldAt 1).channel 0).validity = .held
    ∧ ((heldAt 1).channel 0).held = 1 ∧ ((heldAt 2).channel 0).held = 2 ∧ ((heldAt 3).channel 0).held = 3
    ∧ (part.channel 22).validity = .valid ∧ 22 < part.scan.channels.length
    ∧ ({ part with scan := { part.scan with channels := [⟨.faulted, 0, none, none, false⟩] } }.channel 0).validity
        = .faulted := by decide

theorem test_hyp_StrengthOfCurve : okCurve curve0 = true ∧ 1000 ≤ (curve0.points.getD 0 (0, 0)).1
    ∧ 0 + 1 < curve0.points.length ∧ (curve0.points.getD 0 (0, 0)).1 < 1001 ∧ 2000 ≤ (curve0.points.getD 1 (0, 0)).1
    ∧ (curve0.points.getLastD (0, 0)).1 < 2001 := by decide

def wetBed : Bed := { Bed.reset with state := .casting }
def sample60 : Sample := ⟨some 200 :: List.replicate 22 none, 60, 100060⟩

theorem test_hyp_SampleAdvancesMaturity :
    (⟨maxMaturity - 1, 359⟩ : Acc).residue < 360 ∧ (maxMaturity - 1) * 360 + 359 + 360 < (maxMaturity + 1) * 360
      ∧ (maxMaturity + 1) * 360 ≤ (maxMaturity - 1) * 360 + 359 + 361
      ∧ 0 < (stationWith wetBed [] []).maturity.accs.length ∧ sample60.interval ≠ 0 ∧ (cfg.channel 0).enabled = true
      ∧ (cfg.channel 0).bed = some 0 ∧ cfg.assigned 0 = true ∧ ((stationWith wetBed [] []).bed 0).state ≠ .empty
      ∧ sample60.usable.getD 0 none = some 200 ∧ sample60.usable.getD 1 none = none
      ∧ (cfg.channel 21).enabled = false ∧ (part.bed 0).state = .empty ∧ sample60.usable.getD 22 none = none
      ∧ (⟨List.replicate 22 none ++ [some 200], 60, 100060⟩ : Sample).usable.getD 22 none = some 200
      ∧ ({ sample60 with interval := 0 }).interval = 0 := by decide

theorem test_hyp_OrdersReachTheirBlock : TakesOrders (stationWith wetBed [] []) cfg 5
    ∧ (orderOf (.castEnd 5 1 [0])).isSome = true
    ∧ readOrder 5 [0x07, 1, 0, 0, 7, 0, 0] = some (.lift 5 1 [0, 0, 7, 0, 0])
    ∧ readOrder 5 [0x0F, 1] = some (.restart 5 1 []) ∧ (32 : Byte).toNat = part.line.own :=
  ⟨takes .., by decide⟩

def clashing : Part := { part with line := { part.line with clash := some ⟨10000, 0, 1⟩ } }
def fullQueue : Part :=
  { part with line := { part.line with answers := List.replicate 4 ⟨1, 5, .done, [], false⟩ } }

theorem test_hyp_OrdersTurnedAway :
    (clashing.run = .running ∧ receiving clashing = true ∧ (5 : Byte).toNat ≠ clashing.line.own
      ∧ clashing.line.clash.isSome = true)
    ∧ ({ part with config := none }.run = .running ∧ { part with config := none }.line.answers.length < 4
      ∧ { part with config := none }.line.clash = none)
    ∧ fullQueue.config = some cfg ∧ fullQueue.line.answers.length = 4 ∧ fullQueue.line.tx = none
    ∧ fullQueue.line.restart = none ∧ fullQueue.line.clash = none := by decide

/-- A bed with a cast in progress, one piece on it and one in stock. -/
def works : Part := stationWith (bedWith .casting) [piece7, piece8] []

theorem test_hyp_QueriesTell : TakesOrders works cfg 5
    ∧ 1 ≤ par [32] 0 ∧ par [32] 0 ≤ 32 ∧ par [1] 0 < cfg.spans.length
    ∧ findPiece (heard works) (par3 [0, 0, 7] 0) = some piece7 ∧ cfg.assigned (par [0] 0) = true
    ∧ par [0, 1] 1 < (cfg.bed (par [0, 1] 0)).picks.length ∧ par [22] 0 ∈ channelsInUse cfg ∧ par [1] 0 ∈ channelsInUse cfg
    ∧ (cfg.stack? (par [0, 0] 0) (par [0, 0] 1)).isSome = true ∧ par3 [0, 0, 1] 0 ≠ 0 ∧ par [15] 0 ≤ 15
    ∧ par [0] 0 = 0 ∧ 32 < par [33] 0 ∧ cfg.spans.length ≤ par [2] 0 ∧ findPiece (heard works) (par3 [0, 0, 1] 0) = none
    ∧ cfg.assigned (par [1] 0) = false ∧ (cfg.bed (par [0, 2] 0)).picks.length ≤ par [0, 2] 1
    ∧ par [21] 0 ∉ channelsInUse cfg ∧ cfg.stack? (par [0, 1] 0) (par [0, 1] 1) = none ∧ par3 [0, 0, 0] 0 = 0
    ∧ 15 < par [16] 0 :=
  ⟨takes .., by decide +kernel⟩

/-! Bed orders -/

def castFirst : List Byte := [0, 0, 1, 1, 0, 0, 9, 0, 2, 1, 1, 44]
def castLater : List Byte := [0, 0, 2, 2, 0, 0, 9, 0, 2, 1, 1, 44]
def entry9 : PartEntry := ⟨9, 2, 1, 300⟩
def midCast : Part := stationWith { bedWith .casting with expected := 2 } [piece7] []

theorem test_hyp_CastStartFirstPart :
    TakesOrders (stationWith Bed.reset [] []) cfg 5 ∧ (stationWith Bed.reset [] []).shaped ∧ par castFirst 0 < 4
      ∧ 4 ≤ castFirst.length ∧ par castFirst 2 = 1 ∧ readPartEntries 6 (castFirst.drop 4) = some [entry9]
      ∧ cfg.assigned 0 = true ∧ (cfg.curve 0).isSome = true ∧ entriesInRange (cfg.bed 0).picks.length [entry9] = true
      ∧ ((heard (stationWith Bed.reset [] [])).bed 0).state = .empty
      ∧ entriesNew (heard (stationWith Bed.reset [] [])) [entry9] = true
      ∧ 1 ≤ freeRecords (heard (stationWith Bed.reset [] [])) :=
  ⟨takes .., shaped_with _ _ _ (by decide), by decide +kernel⟩

theorem test_hyp_CastStartLaterPart :
    TakesOrders midCast cfg 5 ∧ midCast.shaped ∧ par castLater 0 < 4 ∧ 4 ≤ castLater.length ∧ 2 ≤ par castLater 2
      ∧ par castLater 2 ≤ par castLater 3 ∧ par castLater 3 ≤ 5 ∧ readPartEntries 6 (castLater.drop 4) = some [entry9]
      ∧ entriesInRange (cfg.bed 0).picks.length [entry9] = true ∧ ((heard midCast).bed 0).state = .casting
      ∧ par castLater 3 = ((heard midCast).bed 0).expected ∧ par castLater 1 = ((heard midCast).bed 0).mix
      ∧ par castLater 2 = ((heard midCast).bed 0).received + 1
      ∧ ((heard midCast).bed 0).slots.length = (cfg.bed 0).picks.length ∧ entriesNew (heard midCast) [entry9] = true
      ∧ slotsFree ((heard midCast).bed 0) [entry9] = true ∧ 1 ≤ freeRecords (heard midCast)
      ∧ (∀ e ∈ [entry9], e.slot ≠ 0) ∧ recordAt (heard midCast) 0 = some piece7 :=
  ⟨takes .., shaped_with _ _ _ (by decide), by decide +kernel⟩

theorem test_hyp_CastStartRefused :
    readPartEntries 6 (([0, 0, 1, 1, 9] : List Byte).drop 4) = none
      ∧ entriesInRange (cfg.bed 0).picks.length [{ entry9 with slot := 2 }] = false
      ∧ partFits ((heard midCast).bed 0) 0 3 3 = false ∧ partFits ((heard midCast).bed 0) 0 2 2 = true
      ∧ entriesNew (heard midCast) [{ entry9 with id := 7 }] = false
      ∧ slotsFree ((heard midCast).bed 0) [{ entry9 with slot := 0 }] = false
      ∧ freeRecords (heard (stationWith Bed.reset (List.replicate 256 piece7) [])) < 1 := by
  refine ⟨by decide, by decide, by decide, by decide, by decide +kernel, by decide, by decide +kernel⟩

theorem test_hyp_CastEndChecked : TakesOrders works cfg 5 ∧ works.shaped ∧ par [0] 0 < 4 ∧ par [3] 0 < 4
    ∧ cfg.assigned 0 = true ∧ cfg.assigned 3 = false ∧ ((heard works).bed 0).state = .casting
    ∧ ¬((heard works).bed 0).received < ((heard works).bed 0).expected ∧ 0 < (cfg.bed 0).presetMin
    ∧ ((heard midCast).bed 0).received < ((heard midCast).bed 0).expected :=
  ⟨takes .., shaped_with _ _ _ (by decide), by decide +kernel⟩

def ripe (jack : Bool) : Part :=
  stationWith { bedWith .curing with releaseReady := true, jack := ⟨jack, jack, 5⟩ } [piece7] []

theorem test_hyp_DetensionChecked : TakesOrders (ripe true) cfg 5 ∧ (ripe true).shaped
    ∧ ((heard (ripe true)).bed 0).releaseReady = true ∧ ((heard (ripe true)).bed 0).hold = false
    ∧ (heard (ripe true)).emergencyActive = false ∧ ((heard (ripe false)).bed 0).jack.level = false
    ∧ ((heard works).bed 0).state ≠ .curing :=
  ⟨takes .., shaped_with _ _ _ (by decide), by decide +kernel⟩

theorem test_hyp_HoldChecked : TakesOrders works cfg 5 ∧ works.shaped ∧ par [1, 3] 1 < 4 ∧ 1 < par [2, 0] 0
    ∧ ((heard works).bed 0).state ≠ .empty ∧ findPiece (heard works) (par3 [1, 0, 0, 7] 1) = some piece7
    ∧ findPiece (heard works) (par3 [1, 0, 0, 9] 1) = none :=
  ⟨takes .., shaped_with _ _ _ (by decide), by decide +kernel⟩

theorem test_hyp_RetireChecked : TakesOrders works cfg 5 ∧ works.shaped ∧ 1 ∈ cfg.bedChannels 0 ∧ 2 ∉ cfg.bedChannels 0
    ∧ ((heard works).channel 0).retired = false
    ∧ ((heard (after (.retire 5 1 [0, 0]) works)).channel 0).retired = true :=
  ⟨takes .., shaped_with _ _ _ (by decide), by decide +kernel⟩

theorem test_hyp_ClearBedChecked : TakesOrders works cfg 5 ∧ works.shaped ∧ ((heard works).bed 0).state = .casting
    ∧ (∃ m ∈ (heard (stationWith (bedWith .detensioned) [piece7] [lift7 .toPick false])).moves.queue,
        m.phase ≠ .queued ∧ m.piece ∈ slotIds (heard (stationWith (bedWith .detensioned) [piece7] [lift7 .toPick false])) 0)
    ∧ (¬∃ m ∈ (heard works).moves.queue, m.phase ≠ .queued ∧ m.piece ∈ slotIds (heard works) 0)
    ∧ 7 ∈ slotIds (heard works) 0 ∧ findRecord (heard works) 7 = some 0 ∧ recordAt (heard works) 1 = some piece8
    ∧ 8 ∉ slotIds (heard works) 0 :=
  ⟨takes .., shaped_with _ _ _ (by decide), by decide +kernel⟩

/-! Moves -/

/-- The works with other contents of stack 0 of lane 0. -/
def stacked (l : List Nat) (k : PendMark) : Part := works.setStackAt 0 ⟨l, k⟩

/-- The settings with another load limit of that stack. -/
def cfgLoad (n : Nat) : Settings := { cfg with lanes := [⟨2560, 4, n⟩] :: List.replicate 7 [] }

theorem test_hyp_MovesAdmitted : TakesOrders works cfg 5 ∧ works.shaped
    ∧ (∃ g, checkLift cfg (heard works) 7 0 0 = .ok (piece7, g)) ∧ stackIndex 0 0 < 96 ∧ par3 [0, 0, 7, 0, 0] 0 = 7
    ∧ (∃ r, checkLift cfg (heard works) 7 1 0 = .error r) ∧ checkShip (heard works) 8 = .ok (piece8, 0, 0)
    ∧ (∃ r, checkShip (heard works) 7 = .error r)
    ∧ 16 ≤ (heard (stationWith wetBed [] (List.replicate 16 (lift7 .queued false)))).moves.queue.length :=
  ⟨takes .., shaped_with _ _ _ (by decide), ⟨_, rfl⟩, by decide, by decide, ⟨_, rfl⟩, rfl, ⟨_, rfl⟩, by decide⟩

/-- The rows of the checks of LIFT and SHIP, each met by a stack, a mark or a record. -/
theorem test_hyp_MovesAdmitted_rows : cfg.stack? 0 1 = none ∧ cfg.stack? 8 0 = none ∧ cfg.stack? 0 0 = some ⟨2560, 4, 20000⟩
    ∧ findPiece works 9 = none ∧ findPiece works 7 = some piece7 ∧ piece7.place = .onBed 0 0 ∧ piece7.tag = none
    ∧ piece8.place = .inStock 0 0 1 ∧ (works.stackAt 0).mark = .none ∧ (works.stackAt 0).list.getLast? = some 8
    ∧ checkLift cfg (stacked [8] (.reservation 1 7 300)) 7 0 0 = .error .stackBusy
    ∧ checkLift cfg (stacked [8, 8, 8, 8] .none) 7 0 0 = .error .full
    ∧ checkLift cfg (stacked [8, 8, 8] .none) 7 0 0 = .ok (piece7, ⟨2560, 4, 20000⟩)
    ∧ checkLift (cfgLoad 599) works 7 0 0 = .error .overload
    ∧ (∃ g, checkLift (cfgLoad 600) works 7 0 0 = .ok (piece7, g)) ∧ checkLift cfg works 8 0 0 = .error .badState
    ∧ checkShip (stacked [8, 7] .none) 8 = .error .badState ∧ checkShip (stacked [8] (.dispatch 1 8)) 8 = .error .stackBusy
    ∧ checkShip (stationWith wetBed [{ piece8 with hold := true }] []) 8 = .error .held
    ∧ checkShip works 7 = .error .badState := by
  refine ⟨rfl, rfl, by decide +kernel, by decide +kernel, by decide +kernel, rfl, rfl, rfl, by decide +kernel,
    by decide +kernel, by rfl, by rfl, by rfl, by rfl, ⟨_, by rfl⟩, by rfl, by rfl, by rfl, by rfl, by rfl⟩

theorem test_hyp_NextTagIsFree :
    (stationWith wetBed [] (List.replicate 15 (lift7 .queued false))).moves.queue.length < 16
      ∧ 1 ≤ { lift7 .queued false with tag := 255 }.tag ∧ { lift7 .queued false with tag := 255 }.tag ≤ 255 := by decide

def withMove (m : Move) : Part := stationWith (bedWith .detensioned) [piece7, piece8] [m]
def halted (picked : Bool) : Move := { lift7 .halted picked with start := none, halt := some (.toPlace, .timeout) }

/-- A LIFT with its reservation and its piece's move tag. -/
def reservedMove (ph : Phase) : Part :=
  { withMove (lift7 ph false) with
    pieces := { register := [some { piece7 with tag := some 1 }, some piece8], stackTable := [⟨[8], reserved7⟩] } }

/-- The output state answer holds the 46 bytes that an answer may have. -/
theorem test_output_state_length : (encodeValues (queryOutputState cfg works).data).length = 46 := by decide +kernel

theorem test_hyp_CancelChecked_mark : TakesOrders (reservedMove .queued) cfg 5 :=
  ⟨rfl, rfl, rfl, rfl, (by decide : (5 : Byte).toNat ≠ 32), rfl, rfl, (by decide : 0 < 4)⟩

theorem test_cancel_releases : ((after (.cancel 5 1 [1]) (reservedMove .queued)).stackAt 0) = ⟨[8], .none⟩
    ∧ recordAt (after (.cancel 5 1 [1]) (reservedMove .queued)) 0 = some piece7
    ∧ (after (.cancel 5 1 [1]) (reservedMove .queued)).moves.queue = [] := by decide +kernel

theorem test_hyp_CancelChecked : TakesOrders (withMove (halted false)) cfg 5 ∧ par [0] 0 = 0 ∧ par [1] 0 ≠ 0
    ∧ findMark (heard (reservedMove .queued)) 1 = some 0 ∧ findMove (heard (reservedMove .queued)) 1 = some (lift7 .queued false)
    ∧ recordAt (heard (reservedMove .queued)) 0 = some { piece7 with tag := some 1 }
    ∧ findRecord (heard (reservedMove .queued)) 7 = some 0
    ∧ findMove (heard (withMove (halted false))) 1 = some (halted false)
    ∧ findMove (heard (withMove (halted false))) 2 = none
    ∧ findMove (heard (withMove (lift7 .toPick false))) 1 = some (lift7 .toPick false)
    ∧ (halted true).phase = .halted ∧ (halted true).picked = true
    ∧ (heard (withMove (halted false))).moves.queue = [halted false]
    ∧ ({ part with moves := { part.moves with ready := ⟨⟨false, false, 5⟩, true⟩ } }).craneReady = false
    ∧ cfg.park = some 640 ∧ (heard (withMove (halted false))).position = some 3208 ∧ windowOf cfg 3208 640 ≠ .inside
    ∧ mayStart { heard (withMove (halted false)) with
        moves := { (heard (withMove (halted false))).moves with queue := [] } } = true :=
  ⟨takes .., by decide⟩

def onHook (p : Part) : Part := { p with moves := { p.moves with hook := ⟨⟨true, true, 5⟩, true⟩ } }

/-- The crane stands at the place of the move. -/
def atPlacePart (m : Move) : Part :=
  { withMove m with travel := { part.travel with base := 160, u := 0 } }

theorem test_hyp_ResumeChecked :
    TakesOrders (onHook (withMove (halted true))) cfg 5
      ∧ findMove (heard (onHook (withMove (halted true)))) (par [1] 0) = some (halted true)
      ∧ mayResume (heard (onHook (withMove (halted true)))) = true
      ∧ (halted true).picked = (heard (onHook (withMove (halted true)))).hookLoaded
      ∧ (halted false).picked = (heard (withMove (halted false))).hookLoaded
      ∧ mayResume { heard part with travel := { part.travel with referenced := false } } = false
      ∧ (heard (onHook (withMove (halted false)))).hookLoaded = true
      ∧ inPlaceWindow cfg (heard (withMove (halted true))) 2560 = false
      ∧ inPlaceWindow cfg (heard (atPlacePart (halted true))) 2560 = true
      ∧ (lift7 .queued false).phase ≠ .halted
      ∧ par [0] 0 = 0 ∧ findMove (heard (withMove (halted false))) (par [2] 0) = none
      ∧ headMove (heard (withMove (halted false))) = some (halted false) :=
  ⟨⟨rfl, rfl, rfl, rfl, by decide, rfl, rfl, (by decide : 0 < 4)⟩, by decide⟩

/-- A DISPATCH of the piece in stock, waiting for its pick. -/
def dispatch8AtPick : Move := { lift7 .atPick false with kind := .dispatch, piece := 8, stack := none }

theorem test_hyp_HookLoadedPicks : (withMove (lift7 .atPick false)).runs cfg
    ∧ (withMove (lift7 .atPick false)).moves.hook.seen = true ∧ (withMove (lift7 .atPick false)).hookLoaded = false
    ∧ headMove (withMove (lift7 .atPick false)) = some (lift7 .atPick false)
    ∧ findPiece (withMove (lift7 .atPick false)) 7 = some piece7 ∧ piece7.place ≠ .onHook
    ∧ headMove (withMove (lift7 .toPick false)) = some (lift7 .toPick false) ∧ (withMove (lift7 .atPick false)).shaped
    ∧ piece7.place = .onBed 0 0 ∧ ((withMove (lift7 .atPick false)).bed 0).state = .detensioned
    ∧ (∀ o ∈ ((withMove (lift7 .atPick false)).bed 0).slots.set 0 none, o = none)
    ∧ headMove (withMove dispatch8AtPick) = some dispatch8AtPick ∧ findPiece (withMove dispatch8AtPick) 8 = some piece8
    ∧ piece8.place = .inStock 0 0 1 ∧ stackIndex 0 0 < 96 :=
  ⟨⟨rfl, rfl⟩, by decide +kernel, by decide +kernel, by decide +kernel, by decide +kernel, by decide, by decide +kernel,
    shaped_with _ _ _ (by decide), rfl, by decide, by decide, by decide +kernel, by decide +kernel, rfl, by decide⟩

def dispatch8 : Move := { lift7 .atPlace true with kind := .dispatch, piece := 8, stack := none }

/-- The stack the piece came from carries the mark of the move. -/
def withMark (p : Part) : Part :=
  { p with pieces := { p.pieces with stackTable := ⟨[], .dispatch 1 8⟩ :: List.replicate 95 ⟨[], .none⟩ } }

theorem test_hyp_HookUnloadedPlaces : (onHook (withMove (lift7 .atPlace true))).runs cfg
    ∧ (onHook (withMove (lift7 .atPlace true))).shaped
    ∧ (onHook (withMove (lift7 .atPlace true))).moves.hook.seen = true
    ∧ (onHook (withMove (lift7 .atPlace true))).hookLoaded = true
    ∧ headMove (onHook (withMove (lift7 .atPlace true))) = some (lift7 .atPlace true)
    ∧ (lift7 .atPlace true).stack = some (0, 0) ∧ stackIndex 0 0 < 96
    ∧ headMove (onHook (withMove (lift7 .toPlace true))) = some (lift7 .toPlace true)
    ∧ findPiece (onHook (withMove (lift7 .atPlace true))) 7 = some piece7
    ∧ headMove (onHook (withMove dispatch8)) = some dispatch8 ∧ dispatch8.phase = .atPlace ∧ dispatch8.stack = none
    ∧ findRecord (onHook (withMove dispatch8)) 8 = some 1 ∧ findMark (withMark (withMove dispatch8)) 1 = some 0 :=
  ⟨⟨rfl, rfl⟩, shaped_with (bedWith .detensioned) [piece7, piece8] [lift7 .atPlace true] (by decide), by decide +kernel⟩

theorem test_hyp_CraneLinesAccepted : (withMove (lift7 .toPick false)).runs cfg
    ∧ (withMove (lift7 .toPick false)).moves.ready.seen = true ∧ (withMove (lift7 .toPick false)).craneReady ≠ false
    ∧ (withMove (lift7 .toPick false)).moves.fault.seen = true ∧ (withMove (lift7 .toPick false)).craneFault ≠ true
    ∧ (withMove (lift7 .toPick false)).moves.locl.seen = true ∧ (withMove (lift7 .toPick false)).craneLocal ≠ true
    ∧ headMove (withMove (lift7 .toPick false)) = some (lift7 .toPick false)
    ∧ ({ part with moves := MoveUnit.reset }.moves.crane .hook).seen = false
    ∧ ({ part.clock with tick := 99 }).endsTen = true :=
  ⟨⟨rfl, rfl⟩, by decide⟩

/-- A bed that has been in PRESET for an hour, blind for more than ten minutes. -/
def presetDone : Part :=
  { stationWith { bedWith .curing with stageStart := 96400 } [] [] with
    scan := { part.scan with beds := ⟨none, some 99399, false⟩ :: List.replicate 3 ⟨none, none, false⟩ } }

theorem test_hyp_TimersReached :
    (withMove (lift7 .toPlace true)).runs cfg ∧ headMove (withMove (lift7 .toPlace true)) = some (lift7 .toPlace true)
      ∧ cfg.claimMin * 60 ≤ (withMove { lift7 .toPlace true with start := some 99700 }).now - 99700
      ∧ cfg.pickMin * 60 ≤ (withMove { lift7 .atPick false with start := some 99700 }).now - 99700
      ∧ presetDone.shaped ∧ cfg.assigned 0 = true ∧ (presetDone.bed 0).stageRuns = true
      ∧ nextStage (cfg.bed 0) .preset 0 ((presetDone.bed 0).elapsed presetDone.now) = some .ramp
      ∧ nextStage (cfg.bed 0) .ramp 50 0 = none ∧ blindTooLong cfg presetDone 0 = true
      ∧ findPiece works 7 = some piece7 ∧ ageReached cfg works piece7 = true :=
  ⟨⟨rfl, rfl⟩, by decide, by decide, by decide, shaped_with { bedWith .curing with stageStart := 96400 } [] [] (by decide), by decide +kernel⟩

theorem test_hyp_JackHomeAccepted : works.runs cfg ∧ works.shaped ∧ cfg.assigned 0 = true
    ∧ (works.bed 0).jack.level ≠ true ∧ ((stationWith (bedWith .detensioning) [] []).bed 0).state = .detensioning
    ∧ ({ works.clock with tick := 99 }).endsTen = true :=
  ⟨⟨rfl, rfl⟩, shaped_with _ _ _ (by decide), by decide⟩

/-! Heat and outputs -/

def heating (db : Nat) (l : List HeatEntry) : Part :=
  { stationWith { wetBed with db := db } [] [] with heat := { HeatUnit.reset with list := l } }

theorem test_hyp_GrantTable :
    0 < { part.heat with listening := 1 }.listening ∧ clashing.inClash = true ∧ (heating 0 []).heat.listening = 0
      ∧ (heating 0 []).inClash = false ∧ totalDemand cfg (heating 0 []) = 0 ∧ totalDemand cfg (heating 1000 []) = cfg.capacity
      ∧ cfg.capacity < totalDemand cfg (heating 1001 []) ∧ (heating 1001 []).heat.list = [] ∧ 1 ≤ cfg.capacity
      ∧ 0 < listDemand (heating 1001 [⟨3, 1, 0⟩]).heat.list ∧ readImage 32 image = some cfg
      ∧ readImage 32 otherwise = some cfg ∧ otherwise.settings.capacity ≠ cfg.capacity
      ∧ ∀ b < 4, ((heating 1001 []).bed b).db ≤ 2000 := by
  refine ⟨by decide, by decide, by decide, by decide, by decide, by decide, by decide, by decide, by decide, by decide,
    test_image_read, test_image_beside, by decide, by decide⟩

theorem test_hyp_AllocationsWithinGrant : totalDemand cfg (heating 0 []) = 0 ∧ totalDemand cfg (heating 1 []) ≠ 0
    ∧ ((heating 1 []).bed 1).db = 0 ∧ cfg.assigned 0 = true ∧ (shareOf cfg (heating 1000 [⟨3, 334, 0⟩])).grant * 1000 / 1000 = 749
    ∧ (shareOf cfg (heating 1000 [⟨3, 333, 0⟩])).grant * 1000 / 1000 = 750 := by decide

theorem test_hyp_HeatNoticeTaken : (heating 100 [⟨5, 10, 2⟩]).runs cfg ∧ receiving (heating 100 [⟨5, 10, 2⟩]) = true
    ∧ (5 : Byte).toNat ≠ (heating 100 [⟨5, 10, 2⟩]).line.own
    ∧ listDemand [⟨5, 10, 2⟩] < listDemand (putBy (·.addr) ⟨5, 11, 0⟩ [⟨5, 10, 2⟩])
    ∧ listDemand (putBy (·.addr) ⟨5, 10, 0⟩ [⟨5, 10, 2⟩]) ≤ listDemand [⟨5, 10, 2⟩] :=
  ⟨⟨rfl, rfl⟩, by decide⟩

theorem test_hyp_HeatPeriodTurns : (heating 100 []).runs cfg ∧ (heating 100 []).heat.heard = false
    ∧ { (heating 100 []).heat with heard := true }.deaf = none
    ∧ { (heating 100 []).heat with heard := true, deaf := some 3 }.deaf = some 3
    ∧ (after .heatPeriodBoundary (heating 100 [])).heat.shed = (heating 100 []).out.lastShed :=
  ⟨⟨rfl, rfl⟩, by decide⟩

theorem test_hyp_GrantLawEveryStep : GrantInv part ∧ (∃ t, step ⟨part, [.heatPeriodBoundary]⟩ = .next t)
    ∧ ClashInv clashing ∧ clashing.runs cfg ∧ clashing.inClash = true ∧ ∃ t, step ⟨clashing, [.heatPeriodBoundary]⟩ = .next t :=
  ⟨⟨fun _ => rfl, fun _ _ => ⟨Nat.zero_le _, fun k => absurd rfl k⟩⟩, ⟨_, rfl⟩,
    fun c hc _ => by
      obtain rfl : cfg = c := Option.some.inj hc.2
      exact (by decide : ∀ b < 4, cfg.assigned b = true →
        (clashing.gen b).onTime = 0 ∧ ((clashing.gen b).buffer = none ∨ (clashing.gen b).buffer = some 0)),
    ⟨rfl, rfl⟩, rfl, _, rfl⟩

def pulsing : Part := { part with out := { part.out with gens := ⟨10, 600, some 1000⟩ :: List.replicate 3 ⟨0, 0, none⟩ } }

theorem test_hyp_HeaterPulses : pulsing.runs cfg ∧ pulsing.shaped ∧ cfg.assigned 0 = true ∧ (pulsing.gen 0).request = true
    ∧ (pulsing.gen 0).onTime < (cfg.bed 0).period :=
  ⟨⟨rfl, rfl⟩, ⟨rfl, rfl, rfl, rfl, rfl, rfl, rfl, rfl, List.length_replicate, List.length_replicate⟩, by decide⟩

theorem test_hyp_AuxAndFaults : TakesOrders works cfg 5 ∧ works.shaped ∧ 7 < par [8, 1] 0 ∧ par [7, 3] 0 ≤ 7
    ∧ (works.auxLine 0).saved = none ∧ ({ works with out := { works.out with aux := [⟨false, some true⟩] } }.auxLine 0).saved = some true
    ∧ (Settings.auxCfg cfg 0).threshold = some 2 ∧ (Settings.auxCfg cfg 7).threshold = none ∧ works.out.aux.length = 8
    ∧ 2 ≠ works.out.lastShed ∧ (works.flow 0).fault = false
    ∧ ({ works with out := { works.out with flows := [⟨false, 0, true, true, 0, 0⟩] } }.flow 0).fault = true :=
  ⟨takes .., shaped_with _ _ _ (by decide), by decide⟩

theorem test_hyp_TravelCoding :
    { part.span with decision := .go true .fast }.decision = .go true .fast ∧ part.span.decision = .stop := by decide

theorem test_hyp_EmergencyActs : (withMove (lift7 .toPick false)).runs cfg ∧ (withMove (lift7 .toPick false)).shaped
    ∧ (withMove (lift7 .toPick false)).out.emergency.accepted = some false ∧ heaterMasked cfg 0 = true
    ∧ (Settings.line cfg 0).mask = true ∧ headMove (withMove (lift7 .toPick false)) = some (lift7 .toPick false)
    ∧ (after .emergencyAccepted part).out.emergency.accepted = some true ∧ part.inWarning = false
    ∧ halted true ∈ (withMove (halted true)).moves.queue ∧ (halted true).phase = .halted
    ∧ headMove (withMove (halted true)) = some (halted true) ∧ ({ part.clock with tick := 99 }).endsTen = true
    ∧ cfg.assigned 0 = true :=
  ⟨⟨rfl, rfl⟩, shaped_with _ _ _ (by decide), by decide +kernel⟩

theorem test_hyp_SupplyMonitored : part.runs cfg ∧ part.supply.state = .normal
    ∧ { part with supply := ⟨.warning, 0⟩ }.supply.state = .warning ∧ (Settings.line cfg 1).mask = true
    ∧ cfg.assigned 0 = true ∧ heaterMasked cfg 0 = true ∧ (Settings.auxCfg cfg 7).threshold = none ∧ part.shaped
    ∧ (withMove (lift7 .toPick false)).runs cfg ∧ (withMove (lift7 .toPick false)).supply.state = .normal
    ∧ headMove (withMove (lift7 .toPick false)) = some (lift7 .toPick false) :=
  ⟨test_runs, by decide, by decide, by decide, by decide, by decide, by decide, test_shaped, ⟨rfl, rfl⟩, by decide⟩

/-! Runway, spans, line, memory -/

theorem test_hyp_TracksDecode : part.runs cfg ∧ part.travel.index = some 0 ∧ part.travel.uniform < 201
    ∧ patternIndex false true false = some 0 ∧ patternIndex true true false = some ((0 + 1) % 6)
    ∧ patternIndex false true true = some ((0 + 5) % 6) ∧ patternIndex true false false = some 2
    ∧ part.travel.dir ≠ .forward ∧ part.travel.dir ≠ .reverse ∧ TravelUnit.reset.index = none
    ∧ 201 ≤ { part.travel with uniform := 201 }.uniform ∧ patternIndex true true true = none
    ∧ part.travel.uniform ≠ 200 ∧ { part.travel with uniform := 200 }.uniform = 200 :=
  ⟨test_runs, by decide⟩

def marked (d : Dir) (base : Nat) : Part :=
  { part with travel := { part.travel with mark := .entered d, dir := d, base := base } }

theorem test_hyp_MarksPass : (marked .forward 65534).runs cfg ∧ (marked .forward 65534).travel.base < 65535
    ∧ 0 < (marked .reverse 1).travel.base ∧ (marked .forward 65534).travel.mark = .entered .forward
    ∧ exitDirection (.entered .forward) .reverse = none ∧ (marked .forward 65535).travel.base = 65535
    ∧ (marked .forward 65535).travel.referenced = true ∧ (marked .reverse 0).travel.base = 0
    ∧ (marked .reverse 0).travel.mark = .entered .reverse ∧ (marked .reverse 0).travel.dir = .reverse
    ∧ { part.travel with mark := .entered .none }.mark = .entered .none ∧ part.travel.counter = 20001
    ∧ { part.travel with counter := 0 }.counter ≤ 20000
    ∧ { (marked .reverse 0).travel with referenced := false }.referenced = false :=
  ⟨⟨rfl, rfl⟩, by decide⟩

def moving : Part := { part with travel := { part.travel with pprev := some 5000, counter := 20000 } }

theorem test_hyp_MicrostepsWithinCaps : moving.runs cfg ∧ moving.travel.stepping = true ∧ moving.travel.pprev = some 5000
    ∧ 4 * 5000 < 20001 ∧ 20001 ≤ 4 * 5001 ∧ part.travel.stepping = false ∧ part.travel.pprev = none :=
  ⟨⟨rfl, rfl⟩, by decide⟩

theorem test_hyp_ReferenceTaken : (marked .forward 200).runs cfg ∧ (marked .forward 200).travel.dir = .forward
    ∧ part.travel.dir ≠ .forward :=
  ⟨⟨rfl, rfl⟩, by decide⟩

theorem test_hyp_CapsEveryStep : CapsInv part ∧ ∃ t, step ⟨part, [.microstep]⟩ = .next t :=
  ⟨by unfold CapsInv; decide, _, rfl⟩

def spanPay : List Byte := [0, 12, 136, 1, 0, 64, 1, 1, 2, 1, 5]

def claimPay : List Byte := [0, 12, 136, 1, 0, 64, 1, 1, 1, 1, 5]

/-- Span 1 is held, without being occupied. -/
def holding (r : Rank) : Part :=
  { part with span := { part.span with
    spans := [⟨.held ⟨0, 32⟩, false, none, true⟩, ⟨.held r, false, none, false⟩], decision := .go true .fast } }

theorem test_hyp_SpanNoticeTaken : part.runs cfg ∧ receiving part = true ∧ (5 : Byte).toNat ≠ part.line.own
    ∧ readSpan spanPay = .notice ⟨some 3208, true, 64, .none, none, [⟨1, .held, ⟨1, 5⟩⟩], none⟩
    ∧ readSpan (spanPay.take 6) = .short ∧ readSpan (spanPay.take 6 ++ [9]) = .bad
    ∧ isNew [] ⟨1, .held, ⟨1, 5⟩⟩ = true ∧ EntryKind.held ≠ .claim ∧ ((holding ⟨1, 32⟩).spanAt 1).role = .held ⟨1, 32⟩
    ∧ 0 < cfg.window ∧ ((holding ⟨1, 32⟩).spanAt 1).occupied = false ∧ (⟨1, 32⟩ : Rank).better ⟨1, 5⟩ = false
    ∧ readSpan claimPay = .notice ⟨some 3208, true, 64, .none, none, [⟨1, .claim, ⟨1, 5⟩⟩], none⟩
    ∧ ((holding ⟨1, 32⟩).spanAt 1).role ≠ .none ∧ (part.spanAt 0).occupied = true
    ∧ (⟨0, 32⟩ : Rank).better ⟨1, 5⟩ = true ∧ ((holding ⟨0, 32⟩).spanAt 1).releasing = false
    ∧ { part.span with yieldStop := true }.yieldStop = true ∧ part.span.yieldStop = false :=
  ⟨test_runs, by decide⟩

/-- Span 1 HELD and a claim on span 0, in one notice. -/
def bothPay : List Byte := [0, 12, 136, 1, 0, 64, 2, 1, 2, 1, 5, 0, 1, 0, 5]

def bothNotice : SpanNotice := ⟨some 3208, true, 64, .none, none, [⟨1, .held, ⟨1, 5⟩⟩, ⟨0, .claim, ⟨0, 5⟩⟩], none⟩

/-- `holding`, with a silent record of station 5 that named nothing. -/
def unheard : Part :=
  { holding ⟨1, 32⟩ with span := { (holding ⟨1, 32⟩).span with peers := [⟨5, none, false, 64, .none, none, [], 3001⟩] } }

/-- `holding`, with the release of span 1 due. -/
def releasing : Part :=
  { part with span := { part.span with
    spans := [⟨.held ⟨0, 32⟩, false, none, true⟩, ⟨.held ⟨1, 32⟩, true, none, false⟩, ⟨.none, false, some 9, false⟩] } }

theorem test_hyp_SpanNoticeTaken_entries : unheard.runs cfg ∧ receiving unheard = true
    ∧ (5 : Byte).toNat ≠ unheard.line.own ∧ readSpan bothPay = .notice bothNotice ∧ unheard.line.reports.length ≤ 8
    ∧ (unheard.span.peers.find? (·.addr == 5)).any (fun x => decide (3000 < x.age)) = true
    ∧ bothNotice.entries.filter (isNew []) = bothNotice.entries
    ∧ (releaseDue unheard).spanAt 1 = unheard.spanAt 1 ∧ (unheard.spanAt 1).role = .held ⟨1, 32⟩
    ∧ (releaseDue releasing).spanAt 1 ≠ releasing.spanAt 1 ∧ (releasing.spanAt 0).occupied = true
    ∧ (releaseDue releasing).spanAt 2 = releasing.spanAt 2 ∧ (releasing.spanAt 2).role = .none
    ∧ ¬(∃ e ∈ ([] : List Entry), (unheard.spanAt e.span).role.isHeld = true) :=
  ⟨⟨rfl, rfl⟩, by decide⟩

def peered (age : Nat) : Part :=
  { part with span := { part.span with
    peers := [⟨5, some 4000, true, 64, .none, none, [⟨1, .held, ⟨1, 5⟩⟩], age⟩, ⟨6, none, false, 64, .none, none, [], 65535⟩] } }

theorem test_hyp_PeersAge : (peered 3000).runs cfg
    ∧ (peered 3000).span.peers.Pairwise (fun x y => x.addr < y.addr)
    ∧ ((peered 3000).span.peers.find? (·.addr == 5)).isSome = true ∧ (peered 3000).line.reports.length ≤ 8
    ∧ (peered 3000).span.peers.map (fun x => (x.age, x.namedSpans)) = [(3000, [1]), (65535, [])] :=
  ⟨⟨rfl, rfl⟩, by decide⟩

/-- The crane travels to a place in span 1, which it claims. -/
def claiming (contested : Bool) : Part :=
  { part with
    moves := { part.moves with
      queue := [{ lift7 .toPlace true with place := 5000 }], target := some ⟨5000, 1⟩
      hook := ⟨⟨true, true, 5⟩, true⟩ }
    span := { part.span with
      spans := [⟨.held ⟨0, 32⟩, false, none, true⟩, ⟨.claim ⟨1, 32⟩ (some 100) contested 1, false, none, false⟩] } }

/-- The same travel before the claim, with a retry time on the span to claim. -/
def opening : Part :=
  { claiming false with span := { part.span with
      spans := [⟨.held ⟨0, 32⟩, false, none, true⟩, ⟨.none, false, some 199, false⟩] } }

theorem test_hyp_SpanNoticeTaken_contest : (claiming false).runs cfg ∧ receiving (claiming false) = true
    ∧ readSpan claimPay = .notice ⟨some 3208, true, 64, .none, none, [⟨1, .claim, ⟨1, 5⟩⟩], none⟩
    ∧ ((claiming false).spanAt 1).role = .claim ⟨1, 32⟩ (some 100) false 1 ∧ (⟨1, 5⟩ : Rank).better ⟨1, 32⟩ = true
    ∧ (releaseDue (claiming false)).spanAt 1 = (claiming false).spanAt 1
    ∧ claimStands cfg (after (.spanNoticeReceived 5 0 claimPay) (claiming false)) 1 = true
    ∧ ((after (.spanNoticeReceived 5 0 claimPay) (claiming false)).spanAt 1).role = .claim ⟨1, 32⟩ (some 100) true 1 :=
  ⟨⟨rfl, rfl⟩, by decide +kernel⟩

theorem test_hyp_ClaimsSettle_opens : opening.runs cfg ∧ (opening.spanAt 1).retry = some 199 ∧ opening.position = some 3208
    ∧ opening.moves.target = some ⟨5000, 1⟩ ∧ opening.inClash = false ∧ opening.craneLocal = false ∧ claimed opening = none
    ∧ countBeyond opening < 4 ∧ nextSpan cfg opening 3208 5000 = some 1 ∧ 1 < opening.span.spans.length
    ∧ peerPart opening 1 = [] ∧ max opening.msCount 199 < opening.span.formed + 200
    ∧ (after (.retryTimePassed 1) opening).moves.target = opening.moves.target
    ∧ ((after (.retryTimePassed 1) opening).spanAt 1).role = .claim ⟨1, 32⟩ none false 1 :=
  ⟨⟨rfl, rfl⟩, by decide +kernel⟩

theorem test_hyp_ClaimsSettle_entries : claimed (after .spanNoticeInterval part) = none
    ∧ claimed (releaseDue opening) = none ∧ claimed (after .spanNoticeInterval (claiming false)) = some 1
    ∧ claimed (releaseDue (claiming false)) = some 1
    ∧ (noticeEntries (claiming false)).map (·.kind) = [.occupied, .claim] := by decide +kernel

theorem test_hyp_ClaimsSettle : (claiming true).runs cfg ∧ claimed (claiming true) = some 1
    ∧ ((claiming true).spanAt 1).role = .claim ⟨1, 32⟩ (some 100) true 1 ∧ claimStands cfg (claiming true) 1 = true
    ∧ 0 < cfg.window ∧ claimed (claiming false) = some 1 ∧ peerPart (claiming false) 1 = []
    ∧ claimStands cfg (claiming false) 1 = true
    ∧ (after .claimDeadline (claiming false)).moves.target = (claiming false).moves.target
    ∧ peerPart (peered 0) 1 ≠ [] ∧ openDeadline part = none
    ∧ ({ part with span := { part.span with spans := [⟨.none, false, some 200, false⟩] } }.spanAt 0).retry = some 200
    ∧ ({ part with span := { part.span with spans := [⟨.held ⟨0, 32⟩, true, none, false⟩] } }.spanAt 0).releasing = true
    ∧ part.craneLocal = false ∧ part.position = some 3208 ∧ (part.spanAt 0).role.isHeld = true
    ∧ ({ part with moves := { part.moves with locl := ⟨⟨true, true, 5⟩, true⟩ } }).craneLocal = true
    ∧ TakesOrders (peered 3001) cfg 5 ∧ cfg.spans.length ≤ par [2] 0 ∧ par [1] 0 < cfg.spans.length
    ∧ ¬∀ x ∈ (heard (peered 3001)).span.peers, x.silent = true → x.names 1 = false := by
  refine ⟨⟨rfl, rfl⟩, by decide, by decide, by decide, by decide, by decide, by decide, by decide, by decide +kernel,
    by decide, by decide, by decide, by decide, by decide, by decide, by decide, by decide,
    ⟨rfl, rfl, rfl, rfl, by decide, rfl, rfl, (by decide : 0 < 4)⟩, by decide⟩

theorem test_hyp_TravelLawEveryStep : TravelInv part ∧ ClaimInv (claiming false)
    ∧ ∃ t, step ⟨part, [.standstill]⟩ = .next t := by
  refine ⟨fun _ _ h => by simp [part, SpanUnit.reset] at h, fun c hc k hk => ?_, _, rfl⟩
  obtain rfl : cfg = c := Option.some.inj hc.2
  match k with
  | 0 => exact absurd hk (by decide)
  | 1 => decide
  | k + 2 => exact absurd hk (by simp [Part.spanAt, claiming, Role.isClaim])

theorem test_hyp_FramesNotTaken : part.runs cfg ∧ receiving part = true ∧ kindAnswer ≠ kindOrder
    ∧ kindAnswer ≠ kindHeat ∧ kindAnswer ≠ kindSpan
    ∧ classify [0x30, 5, 32, 49] true = some .header ∧ classify [0x30, 5, 32] false = some .framing
    ∧ classify [0x20, 5, 0, 0, 0, 0] false = some .check ∧ part.run ≠ .inReset ∧ part.line.waitIdle = false
    ∧ part.line.stuck = none
    ∧ part.config.isSome = true ∧ { part.line with stuck := some 3 }.stuck = some 3
    ∧ TakesOrders works cfg 5 ∧ (32 : Byte).toNat = works.line.own ∧ ([1] : List Byte).length < 2
    ∧ 15 < (16 : Byte).toNat ∧ 1 < par [2] 0 ∧ par [0] 0 = 0 ∧ 13 < par [14] 0 ∧ clashing.line.clash.isSome = true :=
  ⟨test_runs, by decide, by decide, by decide, by decide, by decide +kernel, by decide +kernel, by decide +kernel, by decide,
    by decide, by decide,
    by decide, by decide, takes .., by decide⟩

theorem test_hyp_ClashEpisode : part.runs cfg ∧ receiving part = true ∧ part.line.own < 256 ∧ part.line.clash = none
    ∧ part.out.gens.length = 4 ∧ clashing.runs cfg ∧ clashing.line.clash = some ⟨10000, 0, 1⟩
    ∧ (claiming false).runs cfg ∧ receiving (claiming false) = true ∧ (claiming false).line.clash = none
    ∧ claimed (claiming false) = some 1 ∧ (headMove (claiming false)).map (·.phase) = some .toPlace :=
  ⟨test_runs, by decide, by decide, by decide, by decide, ⟨rfl, rfl⟩, by decide, ⟨rfl, rfl⟩, by decide⟩

theorem test_clash_entry : ((after (.clashFrame 0x50 0 []) (claiming false)).spanAt 1).role = .none
    ∧ (headMove (after (.clashFrame 0x50 0 []) (claiming false))).map (·.halt) = some (some (.toPlace, .craneFault)) := by
  decide +kernel

def notice1 : SpanNotice := ⟨none, false, 64, .none, none, [], some 1⟩

def sending (fr : TxFrame) : Part :=
  { claiming false with
    span := { part.span with
      spans := [⟨.held ⟨0, 32⟩, false, none, true⟩, ⟨.claim ⟨1, 32⟩ none false 1, false, none, false⟩] }
    line := { part.line with tx := some ⟨fr, true, true⟩ } }

theorem test_hyp_Transmission :
    maySend part = true ∧ firstWaiting { part.line with heatSlot := some ⟨1, 1, 0⟩ } = some (.heat ⟨1, 1, 0⟩)
      ∧ (sending (.span notice1)).line.tx = some ⟨.span notice1, true, true⟩ ∧ claimed (sending (.span notice1)) = some 1
      ∧ ((sending (.span notice1)).spanAt 1).role = .claim ⟨1, 32⟩ none false 1 ∧ notice1.claimSerial = some 1
      ∧ (sending (.report .lineStuck 0)).line.tx = some ⟨.report .lineStuck 0, true, true⟩
      ∧ (sending (.answer ⟨1, 5, .done, [], false⟩)).line.tx = some ⟨.answer ⟨1, 5, .done, [], false⟩, true, true⟩ := by
  decide

def answerTo (tag : Byte) (restart : Bool) : Answer := ⟨tag, 5, .done, [], restart⟩

/-- A station that lost its place for an answer in contention while others joined the queue, a RESTART's the newest of them. -/
def refilled : Part :=
  { restarting with line := { restarting.line with
      answers := [answerTo 2 false, answerTo 3 false, answerTo 4 false] ++ [answerTo 5 true]
      tx := some ⟨.answer (answerTo 1 false), true, false⟩ } }

theorem test_hyp_Transmission_refilled :
    refilled.line.tx = some ⟨.answer (answerTo 1 false), true, false⟩ ∧ refilled.line.answers.length ≤ 4
      ∧ refilled.line.restart = some ⟨0, false⟩ ∧ (answerTo 5 true).restart = true ∧ (answerTo 5 false).restart = false := by
  decide

theorem test_refilled : (after .arbitrationLost refilled).line.answers.map (·.tag) = [1, 2, 3, 4]
    ∧ (after .arbitrationLost refilled).line.counters.answersDropped = 1
    ∧ (after .arbitrationLost refilled).line.restart = some ⟨0, true⟩ := by decide

theorem test_hyp_LineBoundsEveryStep : RunInv part ∧ LineInv part ∧ ∃ t, step ⟨part, [.lineStuck]⟩ = .next t :=
  ⟨⟨by decide, by decide⟩, ⟨by unfold LineUnit.bounded; decide, fun h => (nomatch (show some cfg = none from h))⟩, _, rfl⟩

def writing : Part := { part with mem := { part.mem with writing := some ⟨.clock, .clock ⟨0, ⟨0, 0⟩, none⟩⟩ } }

theorem test_hyp_BlockWrites : restarting.runs cfg ∧ restarting.mem.writing = none ∧ restarting.mem.ahead = [.moves]
    ∧ restarting.inWarning = false ∧ writing.runs cfg
    ∧ writing.mem.writing = some ⟨.clock, .clock ⟨0, ⟨0, 0⟩, none⟩⟩ :=
  ⟨⟨rfl, rfl⟩, by decide, by decide, by decide, ⟨rfl, rfl⟩, by decide⟩

theorem test_hyp_ShapeEveryStep : ShapeInv part ∧ ∃ t, step ⟨part, [.secondEvent]⟩ = .next t :=
  ⟨⟨test_shaped, ⟨rfl, List.length_replicate, fun x h => (nomatch (show none = some x from h)),
    fun l h => (nomatch (show none = some l from h))⟩, fun w h => (nomatch (show none = some w from h)),
    fun w h => (nomatch (show w ∈ [] from h))⟩, _, rfl⟩

/-! ### The worked cases of the spec -/

theorem test_worked_conversion : accepted 2050 2046 = true ∧ classifySample 1400 2048 1024 820 = .valid 458
    ∧ classifySample 1000 2048 1024 820 = .valid (-30) ∧ classifySample 40 2048 1024 820 = .invalid .short := by decide

theorem test_worked_carry : (⟨0, 300⟩ : Acc).advance (product (-100) 458 60) = ⟨93, 300⟩
    ∧ (⟨17, 130⟩ : Acc).advance 15000 = ⟨59, 10⟩ ∧ (⟨9999950, 200⟩ : Acc).advance 33720 = ⟨10000000, 0⟩
    ∧ credited 60 50040 50015 = 25 := by decide

def curveOfSpec : Curve := ⟨[(50000, 40), (150000, 150), (250000, 280), (500000, 400)], 180, 200, 300, 72⟩

theorem test_worked_curve : [30000, 150000, 179950, 291667, 600000].map (curveStrength curveOfSpec) = [24, 150, 188, 300, 400]
    ∧ [173076, 173077, 188461, 188462, 291666].map (curveStrength curveOfSpec) = [179, 180, 199, 200, 299] := by decide

theorem test_worked_demand : fractionOf 200 447 412 = 700 ∧ fractionOf 200 600 575 = 500 ∧ fractionOf 200 50 21 = 580 := by
  decide

theorem test_worked_grant : grantOf false 1200 3500 3000 = 1028 ∧ grantOf false 1200 4000 3000 = 900
    ∧ grantOf false 1200 3000 3000 = 1200 ∧ allocationOf 700 1028 1200 = 599 ∧ allocationOf 500 1028 1200 = 428 := by decide

/-- The crane of the worked case beside a standing peer. -/
def approach (q age : Nat) : Decision :=
  let c := { cfg with tol := 7, gap := 192, vmax := 800, stopCreep := 26, stopSlow := 96, stopFast := 256, limHi := 60000,
                      spans := [⟨18000, 20000, 1⟩, ⟨20000, 22000, 2⟩] }
  travelDecision c { part with
    travel := { part.travel with base := q / 16, u := q % 16 }
    moves := { part.moves with target := some ⟨19400, 1⟩ }
    span := { part.span with
      spans := [⟨.none, false, none, true⟩, ⟨.none, false, none, false⟩]
      peers := [⟨12, some 20000, true, 64, .none, none, [⟨0, .occupied, ⟨0, 0⟩⟩, ⟨1, .occupied, ⟨0, 0⟩⟩], age⟩] } }

theorem test_worked_approach : approach 18700 300 = .go true .fast ∧ approach 19100 1100 = .go true .fast
    ∧ approach 19180 1900 = .go true .slow ∧ approach 19330 0 = .go true .creep ∧ approach 19393 630 = .stop
    ∧ approach 18700 3001 = .stop := by decide

/-! ### Single commands -/

theorem test_crc : (crc [0x31, 0x32, 0x33, 0x34, 0x35, 0x36, 0x37, 0x38, 0x39]).toNat = 0x29B1 := by decide +kernel

theorem test_frame_valid : classify (frameBytes 0x40 5 0 [0, 10, 0, 5, 0]) false = none := by decide +kernel

theorem test_castStart : (after (.castStart 5 1 castFirst) (stationWith Bed.reset [] [])).line.answers
      = [⟨1, 5, .done, [], false⟩]
    ∧ ((after (.castStart 5 1 castFirst) (stationWith Bed.reset [] [])).bed 0).state = .casting
    ∧ ((findPiece (after (.castStart 5 1 castFirst) (stationWith Bed.reset [] [])) 9).map (·.place)) = some (.onBed 0 1) := by
  decide +kernel

theorem test_detension : ((after (.detension 5 1 [0]) (ripe true)).bed 0).state = .detensioned
    ∧ ((after (.detension 5 1 [0]) (ripe false)).bed 0).state = .detensioning
    ∧ pinLevel (after (.detension 5 1 [0]) (ripe false)) 2 = true := by decide +kernel

theorem test_lift : (after (.lift 5 9 [0, 0, 7, 0, 0]) works).line.answers = [⟨9, 5, .accepted, [.b1 3], false⟩]
    ∧ (after (.lift 5 9 [0, 0, 7, 0, 0]) works).moves.nextTag = 4
    ∧ ((after (.lift 5 9 [0, 0, 7, 0, 0]) works).stackAt 0).mark = .reservation 3 7 300 := by decide +kernel

/-- A whole ORDER frame that names a LIFT for this station is taken as the LIFT, a HEAT or SPAN frame as its notice; on a stuck line a RESTART alone is taken. -/
theorem test_whole_frames :
    (after (.otherFrameReceived kindOrder 5 32 [0x07, 9, 0, 0, 7, 0, 0]) works).line.answers
        = [⟨9, 5, .accepted, [.b1 3], false⟩]
      ∧ (after (.otherFrameReceived kindHeat 5 0 [0, 10, 0, 5, 0]) part).heat.list = [⟨5, 10, 0⟩]
      ∧ (after (.otherFrameReceived kindSpan 5 0 spanPay) part).span.peers.map (·.addr) = [5]
      ∧ (after (.otherFrameReceived kindOrder 5 32 [0x0F, 1]) stuckPart).line.restart = some ⟨0, false⟩
      ∧ (after (.otherFrameReceived kindOrder 5 32 [0x07, 9, 0, 0, 7, 0, 0]) stuckPart).line.answers = [] := by
  decide +kernel

theorem test_pick : ((findPiece (after .hookLoaded (withMove (lift7 .atPick false))) 7).map (·.place)) = some .onHook
    ∧ ((after .hookLoaded (withMove (lift7 .atPick false))).bed 0).state = .empty
    ∧ (after .hookLoaded (withMove (lift7 .atPick false))).moves.target = some ⟨2560, 1⟩ := by decide +kernel

theorem test_place : ((after .hookUnloaded (onHook (withMove (lift7 .atPlace true)))).stackAt 0).list = [8, 7]
    ∧ (after .hookUnloaded (onHook (withMove (lift7 .atPlace true)))).moves.queue = [] := by decide +kernel

theorem test_emergency : pinLevel (after .emergencyAccepted pulsing) 0 = false ∧ pinLevel pulsing 0 = true
    ∧ pinLevel (after .emergencyAccepted pulsing) 1 = true := by decide +kernel

theorem test_skip : (after (.trackStep true false false) part).position = none
    ∧ (after (.trackStep true false false) part).travel.cause = some .skip := by decide +kernel

theorem test_reference : (after .referenceEdge (marked .forward 300)).position = some 3208 := by decide +kernel

theorem test_peer_notice : (after (.spanNoticeReceived 5 0 spanPay) part).span.peers.map (·.addr) = [5]
    ∧ viewOf (after (.spanNoticeReceived 5 0 spanPay) part) 1 = .peerHeld 5 ⟨1, 5⟩ 0 := by decide +kernel

/-- A notice of two entries from a silent station: it is heard, span 1 is yielded, and the claim on the occupied span is answered. -/
theorem test_two_entries : (after (.spanNoticeReceived 5 0 bothPay) unheard).line.reports
      = [.peerHeard 5 100000, .spanConflict 1 5 .held ⟨1, 5⟩ ⟨1, 32⟩ true 100000]
    ∧ ((after (.spanNoticeReceived 5 0 bothPay) unheard).spanAt 1).retry = some 200
    ∧ (after (.spanNoticeReceived 5 0 bothPay) unheard).line.spanSlot.isSome = true := by decide +kernel

/-- A record that becomes silent is reported with its spans; one that names none, or was silent before, is not. -/
theorem test_peer_silent : (after .peerRecordAgeIncrease (peered 3000)).line.reports = [.peerSilent 5 [1] 100000]
    ∧ (after (.peerSilent 5) (peered 12)).line.reports = [.peerSilent 5 [1] 100000]
    ∧ (after (.peerSilent 6) (peered 12)).line.reports = [] := by decide +kernel

/-- Free records and those IN_STOCK are counted in 2 bytes, those ON_BED, ON_HOOK and ship-ready in 1 (10 10.6). -/
theorem test_register_counts : (encodeValues (queryRegister [0, 0, 1] cfg works).data).take 7 = [0, 254, 1, 0, 0, 1, 0] := by
  decide +kernel

/-- The bed of a channel, and 0xFF for AM. -/
theorem test_channel_bed : (queryChannel [1] cfg works).data.head? = some (.b1 0)
    ∧ (queryChannel [22] cfg works).data.head? = some (.b1 255) := by decide +kernel

theorem test_claim_won : ((after .claimDeadline (claiming false)).spanAt 1).role = .held ⟨1, 32⟩
    ∧ ((after .claimDeadline (claiming true)).spanAt 1).retry = some 300 := by decide +kernel

theorem test_heat_boundary : (after .heatPeriodBoundary (heating 1200 [⟨3, 800, 0⟩])).line.heatSlot = some ⟨1200, 600, 2⟩ := by
  decide +kernel

theorem test_write : (after (.pageWriteDone true) (after .blockWriteBegin restarting)).mem.mem.moves = some ⟨[], 1⟩ := by
  decide +kernel

theorem test_restart : (after (.restart 5 1 []) part).line.answers = [⟨1, 5, .done, [], true⟩]
    ∧ (after (.restartReset []) restarting).run = .inReset
    ∧ (after (.pageWriteDone true) (after .blockWriteBegin flushing)).mem.mem.moves = some ⟨[], 1⟩
    ∧ (after (.resetRelease 0) flushing).run = .inReset
    ∧ (after (.resetRelease 0) (after (.pageWriteDone true) (after .blockWriteBegin flushing))).run = .readingConfig := by
  decide +kernel

theorem test_start : (after .startComplete restored).run = .running ∧ pinLevel (after .startComplete restored) 0 = false
    ∧ (after .startComplete { restored with out := OutputUnit.reset }).run = .restored := by decide +kernel

theorem test_overheat_quells : heaterRequest cfg { pulsing with scan := { pulsing.scan with
      beds := ⟨some 701, none, true⟩ :: List.replicate 3 ⟨none, none, false⟩ } } 0 = true
    ∧ heaterRequest cfg (formDemand cfg 0 { pulsing with scan := { pulsing.scan with
      beds := ⟨some 701, none, true⟩ :: List.replicate 3 ⟨none, none, false⟩ } }) 0 = false := by decide +kernel

theorem test_flow_fault : ((after .secondEvent (flowing 4 2)).flow 0).fault = true
    ∧ ((after .secondEvent (flowing 4 1)).flow 0).run = 2 ∧ ((after .secondEvent (flowing 5 2)).flow 0).run = 0 := by
  decide +kernel

theorem test_double_hold : ((after (.spanNoticeReceived 5 0 spanPay) (holding ⟨1, 32⟩)).spanAt 1).role = .none
    ∧ ((resolveDouble cfg 5 ⟨1, .held, ⟨1, 5⟩⟩ (holding ⟨0, 32⟩)).spanAt 1).role = .held ⟨0, 32⟩ := by decide +kernel

end Sys2Proof.Tests
end

