-- ==== Sys2Proof/Proofs/Samples.lean ====
section
/-! Samples on a channel record (01 R8, R9): one equation per kind of sample and validity state, the report of a sample, and what
`applySample` sets and leaves in the part. -/
namespace Sys2Proof.Machine
open Sys2Proof

/-! ### The channel record -/

@[simp] theorem Channel.apply_valid (x : Channel) (t : Int) :
    x.apply (.valid t) = ⟨.valid, 0, some t, none, x.retired⟩ := rfl

/-- An invalid sample writes the cause, the validity state and the held count of its record, and nothing else. -/
theorem Channel.apply_invalid_eq (x : Channel) (w : SampleCause) :
    x.apply (.invalid w) = { x with
      validity := (x.apply (.invalid w)).validity, held := (x.apply (.invalid w)).held, cause := some w } := by
  obtain ⟨validity, held, last, cause, retired⟩ := x
  cases validity with
  | valid => rfl
  | held => by_cases room : held < 3 <;> simp [Channel.apply, room]
  | faulted => rfl

theorem Channel.apply_invalid_of_valid {x : Channel} (w : SampleCause) (h : x.validity = .valid) :
    x.apply (.invalid w) = { x with validity := .held, held := 1, cause := some w } := by
  simp [Channel.apply, h]

theorem Channel.apply_invalid_of_held_lt {x : Channel} (w : SampleCause) (h : x.validity = .held) (room : x.held < 3) :
    x.apply (.invalid w) = { x with held := x.held + 1, cause := some w } := by
  simp [Channel.apply, h, room]

theorem Channel.apply_invalid_of_held_ge {x : Channel} (w : SampleCause) (h : x.validity = .held) (full : 3 ≤ x.held) :
    x.apply (.invalid w) = { x with validity := .faulted, held := 0, cause := some w } := by
  simp [Channel.apply, h, full]

theorem Channel.apply_invalid_of_faulted {x : Channel} (w : SampleCause) (h : x.validity = .faulted) :
    x.apply (.invalid w) = { x with cause := some w } := by
  simp [Channel.apply, h]

/-! ### The report of a sample -/

theorem Channel.sampleReport_valid (k : Nat) (x : Channel) (t : Int) :
    x.sampleReport k (.valid t)
      = if x.validity = .faulted ∧ x.retired = false then some (.sensorOk k t) else none := by
  cases hr : x.retired with
  | true => simp [Channel.sampleReport, hr]
  | false => cases hv : x.validity <;> simp [Channel.sampleReport, hr, hv]

theorem Channel.sampleReport_invalid (k : Nat) (x : Channel) (w : SampleCause) :
    x.sampleReport k (.invalid w)
      = if x.validity = .held ∧ (x.apply (.invalid w)).validity = .faulted ∧ x.retired = false
        then some (.sensorFault k w x.last) else none := by
  cases hr : x.retired with
  | true => simp [Channel.sampleReport, hr]
  | false =>
    cases hv : x.validity with
    | valid => simp [Channel.sampleReport, hr, hv]
    | held => cases hy : (x.apply (.invalid w)).validity <;> simp [Channel.sampleReport, hr, hv, hy]
    | faulted => simp [Channel.sampleReport, hr, hv]

/-! ### The part -/

theorem applySample_channels (k : Nat) (s : Classified) (p : Part) :
    (applySample k s p).scan.channels = p.scan.channels.set k ((p.channel k).apply s) := by
  unfold applySample
  dsimp only
  cases (p.channel k).sampleReport k s <;> rfl

theorem applySample_line (k : Nat) (s : Classified) (p : Part) :
    (applySample k s p).line = ((p.channel k).sampleReport k s).elim p.line p.line.placeReport := by
  unfold applySample
  dsimp only
  cases (p.channel k).sampleReport k s <;> rfl

theorem applySample_channel_self {k : Nat} {p : Part} (s : Classified) (hk : k < p.scan.channels.length) :
    (applySample k s p).channel k = (p.channel k).apply s := by
  rw [Part.channel, applySample_channels]
  simp [hk]

theorem applySample_channel_ne {j k : Nat} (s : Classified) (p : Part) (hj : j ≠ k) :
    (applySample k s p).channel j = p.channel j := by
  rw [Part.channel, applySample_channels]
  simp [Part.channel, hj.symm]

theorem applySample_valid_line (k : Nat) (t : Int) (p : Part) :
    (applySample k (.valid t) p).line
      = if (p.channel k).validity = .faulted ∧ (p.channel k).retired = false
        then p.line.placeReport (.sensorOk k t) else p.line := by
  rw [applySample_line, Channel.sampleReport_valid]
  split <;> rfl

theorem applySample_invalid_line (k : Nat) (w : SampleCause) (p : Part) :
    (applySample k (.invalid w) p).line
      = if (p.channel k).validity = .held ∧ ((p.channel k).apply (.invalid w)).validity = .faulted
          ∧ (p.channel k).retired = false
        then p.line.placeReport (.sensorFault k w (p.channel k).last) else p.line := by
  rw [applySample_line, Channel.sampleReport_invalid]
  split <;> rfl

/-- Settles O12: the equations of the record give the rows of R8 and R9, those of the report its two conditions. -/
theorem samplesApplied : Obligations.SamplesApplied := by
  unfold Obligations.SamplesApplied
  dsimp only
  constructor
  · intro p k t hk
    exact ⟨applySample_channel_self _ hk, fun _ hj => applySample_channel_ne _ p hj, applySample_valid_line k t p⟩
  · intro p k w hk
    rw [applySample_channel_self _ hk]
    have written := (p.channel k).apply_invalid_eq w
    refine ⟨by rw [written], by rw [written], by rw [written], fun h => ?fromValid, fun h one => ?secondHeld,
      fun h two => ?thirdHeld, fun h three => ?intoFaulted, fun h => ?staysFaulted,
      fun _ hj => applySample_channel_ne _ p hj, applySample_invalid_line k w p⟩
    case fromValid => simp [Channel.apply_invalid_of_valid w h]
    case secondHeld => simp [Channel.apply_invalid_of_held_lt w h (by omega), h, one]
    case thirdHeld => simp [Channel.apply_invalid_of_held_lt w h (by omega), h, two]
    case intoFaulted => simp [Channel.apply_invalid_of_held_ge w h (by omega)]
    case staysFaulted => simp [Channel.apply_invalid_of_faulted w h, h]

end Sys2Proof.Machine
end

