-- ==== Sys2Proof/Proofs/Strength.lean ====
section
/-! Strength curves (02 R33, R34). The first row of R34 is a segment that begins at the origin, so that `curveStrength` is
`segments` begun at the point (0, 0), and each fact is one induction over the points beyond a point. -/
namespace Sys2Proof.Machine
open Sys2Proof

/-! ### The points of a curve -/

/-- A point and one that stands later in a curve (02 R33). -/
def Rises (p q : Nat × Nat) : Prop := p.1 < q.1 ∧ p.2 ≤ q.2

theorem Rises.trans {p q r : Nat × Nat} (h : Rises p q) (h' : Rises q r) : Rises p r :=
  ⟨h.1.trans h'.1, h.2.trans h'.2⟩

/-- What 02 R33 checks of neighbouring points holds from the origin on. -/
theorem okPoints_isChain {l : List (Nat × Nat)} (ok : okPoints l = true) : ((0, 0) :: l).IsChain Rises := by
  fun_induction okPoints l with
  | case1 m1 s1 m2 s2 rest ih =>
    simp only [Bool.and_eq_true, within, decide_eq_true_eq] at ok
    obtain ⟨⟨⟨hm, hs⟩, hr⟩, htail⟩ := ok
    have later := (List.isChain_cons_cons.mp (ih htail)).2
    exact .cons_cons ⟨hm.1, hs.1⟩ (.cons_cons hr later)
  | case2 m s =>
    simp only [Bool.and_eq_true, within, decide_eq_true_eq] at ok
    exact .cons_cons ⟨ok.1.1, ok.2.1⟩ (.singleton _)
  | case3 => exact .singleton _

theorem okPoints_pairwise {l : List (Nat × Nat)} (ok : okPoints l = true) : ((0, 0) :: l).Pairwise Rises :=
  haveI : IsTrans _ Rises := ⟨fun _ _ _ => Rises.trans⟩
  (okPoints_isChain ok).pairwise

theorem okCurve_points {k : Curve} (ok : okCurve k = true) : k.points ≠ [] ∧ okPoints k.points = true := by
  simp only [okCurve, within, Bool.and_eq_true, decide_eq_true_eq] at ok
  exact ⟨List.ne_nil_of_length_pos (by omega), ok.1.1.2⟩

/-- No point that stands beyond `p` lies before it. -/
theorem fst_le_of_mem {p q : Nat × Nat} {l : List (Nat × Nat)} (rising : (p :: l).Pairwise Rises) (hq : q ∈ p :: l) :
    p.1 ≤ q.1 := by
  rcases List.mem_cons.mp hq with rfl | later
  · exact le_rfl
  · exact (List.rel_of_pairwise_cons rising later).1.le

/-! ### One segment -/

/-- The middle row of 02 R34, between two points. -/
def rowStrength (p q : Nat × Nat) (m : Nat) : Nat := p.2 + (q.2 - p.2) * (m - p.1) / (q.1 - p.1)

theorem le_rowStrength (p q : Nat × Nat) (m : Nat) : p.2 ≤ rowStrength p q m := Nat.le_add_right _ _

theorem rowStrength_right {p q : Nat × Nat} (h : Rises p q) : rowStrength p q q.1 = q.2 := by
  rw [rowStrength, Nat.mul_div_cancel _ (Nat.sub_pos_of_lt h.1), Nat.add_sub_cancel' h.2]

theorem rowStrength_mono (p q : Nat × Nat) {m n : Nat} (h : m ≤ n) : rowStrength p q m ≤ rowStrength p q n := by
  unfold rowStrength
  gcongr

theorem rowStrength_le {p q : Nat × Nat} {m : Nat} (h : Rises p q) (hm : m ≤ q.1) : rowStrength p q m ≤ q.2 :=
  (rowStrength_mono p q hm).trans_eq (rowStrength_right h)

/-! ### The segments beyond a point -/

theorem segments_cons (p q : Nat × Nat) (l : List (Nat × Nat)) (m : Nat) :
    segments p.1 p.2 (q :: l) m = if m ≤ q.1 then rowStrength p q m else segments q.1 q.2 l m := rfl

theorem segments_cons_of_le {p q : Nat × Nat} {l : List (Nat × Nat)} {m : Nat} (h : m ≤ q.1) :
    segments p.1 p.2 (q :: l) m = rowStrength p q m := by
  rw [segments_cons, if_pos h]

theorem segments_cons_of_lt {p q : Nat × Nat} {l : List (Nat × Nat)} {m : Nat} (h : q.1 < m) :
    segments p.1 p.2 (q :: l) m = segments q.1 q.2 l m := by
  rw [segments_cons, if_neg h.not_ge]

theorem segments_row {p : Nat × Nat} {l : List (Nat × Nat)} (rising : (p :: l).Pairwise Rises) {i m : Nat}
    (hi : i < l.length) (above : ((p :: l).getD i (0, 0)).1 < m) (upTo : m ≤ (l.getD i (0, 0)).1) :
    segments p.1 p.2 l m = rowStrength ((p :: l).getD i (0, 0)) (l.getD i (0, 0)) m := by
  induction l generalizing p i with
  | nil => simp at hi
  | cons q l ih =>
    cases i with
    | zero => exact segments_cons_of_le upTo
    | succ i =>
      rw [List.length_cons, Nat.add_lt_add_iff_right] at hi
      rw [List.getD_cons_succ] at above upTo ⊢
      have mem : (q :: l).getD i (0, 0) ∈ q :: l := by
        rw [List.getD_eq_getElem _ _ (by simp; omega)]
        exact List.getElem_mem _
      rw [segments_cons_of_lt ((fst_le_of_mem rising.of_cons mem).trans_lt above)]
      exact ih rising.of_cons hi above upTo

theorem segments_of_last_lt {p : Nat × Nat} {l : List (Nat × Nat)} (rising : (p :: l).Pairwise Rises) {m : Nat}
    (beyond : (l.getLastD p).1 < m) : segments p.1 p.2 l m = (l.getLastD p).2 := by
  induction l generalizing p with
  | nil => rfl
  | cons q l ih =>
    rw [List.getLastD_cons] at beyond ⊢
    have hq : q.1 < m := (fst_le_of_mem rising.of_cons (List.getLastD_mem_cons ..)).trans_lt beyond
    rw [segments_cons_of_lt hq]
    exact ih rising.of_cons beyond

theorem le_segments {p : Nat × Nat} {l : List (Nat × Nat)} (rising : (p :: l).Pairwise Rises) (m : Nat) :
    p.2 ≤ segments p.1 p.2 l m := by
  induction l generalizing p with
  | nil => exact le_rfl
  | cons q l ih =>
    rcases le_or_gt m q.1 with inside | after
    · rw [segments_cons_of_le inside]
      exact le_rowStrength p q m
    · rw [segments_cons_of_lt after]
      exact (List.rel_of_pairwise_cons rising List.mem_cons_self).2.trans (ih rising.of_cons)

/-- Within a segment the row rises, and at its end it meets the strength from which the later segments begin. -/
theorem segments_mono {p : Nat × Nat} {l : List (Nat × Nat)} (rising : (p :: l).Pairwise Rises) {m n : Nat}
    (h : m ≤ n) : segments p.1 p.2 l m ≤ segments p.1 p.2 l n := by
  induction l generalizing p with
  | nil => exact le_rfl
  | cons q l ih =>
    rcases le_or_gt n q.1 with nInside | nAfter
    · rw [segments_cons_of_le (h.trans nInside), segments_cons_of_le nInside]
      exact rowStrength_mono p q h
    · rw [segments_cons_of_lt nAfter]
      rcases le_or_gt m q.1 with mInside | mAfter
      · rw [segments_cons_of_le mInside]
        exact (rowStrength_le (List.rel_of_pairwise_cons rising List.mem_cons_self) mInside).trans
          (le_segments rising.of_cons n)
      · rw [segments_cons_of_lt mAfter]
        exact ih rising.of_cons

theorem segments_le_last {p : Nat × Nat} {l : List (Nat × Nat)} (rising : (p :: l).Pairwise Rises) (m : Nat) :
    segments p.1 p.2 l m ≤ (l.getLastD p).2 :=
  calc segments p.1 p.2 l m
    _ ≤ segments p.1 p.2 l (max m ((l.getLastD p).1 + 1)) := segments_mono rising (le_max_left ..)
    _ = (l.getLastD p).2 := segments_of_last_lt rising (by omega)

/-! ### The curve -/

theorem curveStrength_eq_segments (k : Curve) (m : Nat) : curveStrength k m = segments 0 0 k.points m := by
  unfold curveStrength
  cases k.points with
  | nil => rfl
  | cons q l => simp [segments]

theorem curveStrength_firstRow {k : Curve} {m : Nat} (nonempty : k.points ≠ []) (h : m ≤ (k.points.getD 0 (0, 0)).1) :
    curveStrength k m = (k.points.getD 0 (0, 0)).2 * m / (k.points.getD 0 (0, 0)).1 := by
  unfold curveStrength
  cases hp : k.points with
  | nil => exact absurd hp nonempty
  | cons q l =>
    rw [hp] at h
    exact if_pos h

theorem curveStrength_middleRow {k : Curve} (rising : ((0, 0) :: k.points).Pairwise Rises) {i m : Nat}
    (hi : i + 1 < k.points.length) (above : (k.points.getD i (0, 0)).1 < m)
    (upTo : m ≤ (k.points.getD (i + 1) (0, 0)).1) :
    curveStrength k m = rowStrength (k.points.getD i (0, 0)) (k.points.getD (i + 1) (0, 0)) m := by
  rw [curveStrength_eq_segments]
  exact segments_row (i := i + 1) rising hi above upTo

/-- Every point is the end of a segment, the first one of the segment that begins at the origin. -/
theorem curveStrength_at_point {k : Curve} (rising : ((0, 0) :: k.points).Pairwise Rises) {i : Nat}
    (hi : i < k.points.length) : curveStrength k (k.points.getD i (0, 0)).1 = (k.points.getD i (0, 0)).2 := by
  have step : Rises (((0, 0) :: k.points).getD i (0, 0)) (k.points.getD i (0, 0)) := by
    have h := List.pairwise_iff_getElem.mp rising i (i + 1) (by simp; omega) (by simpa) (by omega)
    rwa [List.getD_eq_getElem _ _ hi, List.getD_eq_getElem _ _ (by simp; omega)]
  rw [curveStrength_eq_segments]
  exact (segments_row rising hi step.1 le_rfl).trans (rowStrength_right step)

/-- Settles O13: the rows of R34 are the segments begun at the origin, of which each is exact at its end, and which together
never fall. -/
theorem strengthOfCurve : Obligations.StrengthOfCurve := by
  intro k ok
  obtain ⟨nonempty, okp⟩ := okCurve_points ok
  have rising := okPoints_pairwise okp
  refine ⟨fun m => curveStrength_firstRow nonempty, fun i m => curveStrength_middleRow rising, fun m beyond => ?lastRow,
    fun i => curveStrength_at_point rising, fun m => ?bound, fun m n h => ?mono⟩
  case lastRow =>
    rw [curveStrength_eq_segments]
    exact segments_of_last_lt rising beyond
  case bound =>
    rw [curveStrength_eq_segments]
    exact segments_le_last rising m
  case mono =>
    simp only [curveStrength_eq_segments]
    exact segments_mono rising h

end Sys2Proof.Machine
end

