-- ==== Sys2Proof/Proofs/Distances.lean ====
section
/-! Runway distances (06 R102): the conversion is Mathlib's ceiling division, so that it is left adjoint to multiplication by the
mark spacing; and what an image in force holds, its distances converted and its joint checks met. -/
namespace Sys2Proof.Machine
open Sys2Proof

/-! ### The conversion -/

/-- The model's rounding up is the library's. -/
theorem ceilDiv_eq (a b : Nat) : ceilDiv a b = a ⌈/⌉ b := rfl

/-- A count of microsteps reaches a distance just when the conversion does not exceed it. -/
theorem toSteps_le_iff {lm d n : Nat} (hlm : 0 < lm) : toSteps lm d ≤ n ↔ d * 16 ≤ n * lm := by
  rw [toSteps, ceilDiv_eq, ceilDiv_le_iff_le_mul hlm, Nat.mul_comm lm]

theorem le_toSteps_mul {lm : Nat} (d : Nat) (hlm : 0 < lm) : d * 16 ≤ toSteps lm d * lm :=
  (toSteps_le_iff hlm).mp le_rfl

/-! ### The tables in microsteps -/

theorem inSteps_picks (r : Settings) :
    (inSteps r).beds.map (·.picks) = r.beds.map fun b => b.picks.map (toSteps r.lm) := by
  simp [inSteps, Function.comp_def]

theorem inSteps_spans (r : Settings) :
    (inSteps r).spans.map (fun x => (x.lo, x.hi)) = r.spans.map fun x => (toSteps r.lm x.lo, toSteps r.lm x.hi) := by
  simp [inSteps, Function.comp_def]

theorem inSteps_lanes (r : Settings) :
    (inSteps r).lanes.map (·.map (·.place)) = r.lanes.map (·.map fun x => toSteps r.lm x.place) := by
  simp [inSteps, Function.comp_def]

/-! ### The image in force -/

theorem readImage_eq_some_iff {own : Nat} {img : Image} {c : Settings} :
    readImage own img = some c ↔ imagePasses own img = true ∧ inSteps img.raw = c := by
  simp [readImage]

theorem imagePasses_okRunway {own : Nat} {img : Image} (h : imagePasses own img = true) :
    okRunway (inSteps img.raw) = true := by
  simp only [imagePasses, okSettings, Bool.and_eq_true] at h
  obtain ⟨_, ⟨⟨_, runway⟩, _spans⟩, _places⟩ := h
  exact runway

theorem okRunway_iff (c : Settings) :
    okRunway c = true ↔ 4 ≤ c.refPos % 16 ∧ c.refPos % 16 ≤ 12 ∧ c.half + 32 ≤ c.limLo ∧ c.limHi + c.half ≤ 1048543
      ∧ c.limLo < c.refPos ∧ c.refPos < c.limHi ∧ c.limLo + 2 * c.half < c.limHi := by
  simp only [okRunway, within, Bool.and_eq_true, decide_eq_true_eq, and_assoc]

/-- Settles O7: the conversion is least by the adjunction, and the settings in force are those of the image in microsteps, which
have passed the joint checks. -/
theorem distancesConverted : Obligations.DistancesConverted := by
  refine ⟨fun lm d hlm => ⟨le_toSteps_mul d hlm, fun n => (toSteps_le_iff hlm).mpr⟩, by decide, by decide, ?inForce⟩
  case inForce =>
    intro own img c hread
    obtain ⟨passes, rfl⟩ := readImage_eq_some_iff.mp hread
    exact ⟨⟨rfl, rfl, rfl, rfl, rfl, rfl, rfl, rfl, rfl, rfl, rfl, inSteps_picks _, inSteps_spans _, inSteps_lanes _⟩,
      (okRunway_iff _).mp (imagePasses_okRunway passes)⟩

end Sys2Proof.Machine
end

