-- ==== Sys2Proof/Proofs/Generators.lean ====
section
/-! PROOFS. What leaves a generator at rest, and what brings it there (04 R77). -/
namespace Sys2Proof.Machine
open Sys2Proof

/-! ### Generators at rest -/

/-- A generator gives no heat, and none waits for it. -/
def Gen.Rests (g : Gen) : Prop := g.onTime = 0 ∧ (g.buffer = none ∨ g.buffer = some 0)

/-- Every generator of an assigned bed is at rest. -/
def GensRest (c : Settings) (p : Part) : Prop := ∀ b < 4, c.assigned b = true → (p.gen b).Rests

theorem gen_withGen (p : Part) (b k : Nat) (f : Gen → Gen) :
    (p.withGen b f).gen k = if b = k ∧ b < p.out.gens.length then f (p.gen b) else p.gen k := by
  have h : (p.withGen b f).out.gens = p.out.gens.set b (f (p.gen b)) := by
    unfold Part.withGen
    dsimp only
    split <;> rfl
  unfold Part.gen at *
  rw [h, List.getD_eq_getElem?_getD, List.getElem?_set]
  by_cases hb : b = k
  · subst hb
    by_cases hl : b < p.out.gens.length <;> simp [hl]
  · simp [hb]

theorem rests_withGen {p : Part} {b k : Nat} {f : Gen → Gen} (h : (p.gen k).Rests) (hf : ∀ g : Gen, g.Rests → (f g).Rests) :
    ((p.withGen b f).gen k).Rests := by
  rw [gen_withGen]
  split
  · rename_i hb
    exact hf _ (hb.1 ▸ h)
  · exact h

theorem withGen_emergency (p : Part) (b : Nat) (f : Gen → Gen) : (p.withGen b f).out.emergency = p.out.emergency := by
  unfold Part.withGen
  dsimp only
  split <;> rfl

theorem withAux_gens (p : Part) (d : Settings) (k : Nat) (w : Report.AuxCause) (f : Aux → Aux) :
    (p.withAux d k w f).out.gens = p.out.gens ∧ (p.withAux d k w f).out.emergency = p.out.emergency := by
  unfold Part.withAux
  simp

theorem shedLine_gens (p : Part) (d : Settings) (level k : Nat) :
    (shedLine d level p k).out.gens = p.out.gens ∧ (shedLine d level p k).out.emergency = p.out.emergency := by
  unfold shedLine
  split
  · split
    · exact withAux_gens ..
    · exact ⟨rfl, rfl⟩
  · split
    · exact withAux_gens ..
    · exact ⟨rfl, rfl⟩
  · exact ⟨rfl, rfl⟩

theorem takeShed_gens (p : Part) (d : Settings) (level : Nat) :
    (takeShed d level p).out.gens = p.out.gens ∧ (takeShed d level p).out.emergency = p.out.emergency := by
  have fold : ∀ (l : List Nat) (q : Part), (l.foldl (shedLine d level) q).out.gens = q.out.gens
      ∧ (l.foldl (shedLine d level) q).out.emergency = q.out.emergency := by
    intro l
    induction l with
    | nil => exact fun q => ⟨rfl, rfl⟩
    | cons k l ih =>
      intro q
      obtain ⟨gens, emergency⟩ := shedLine_gens q d level k
      exact ⟨(ih _).1.trans gens, (ih _).2.trans emergency⟩
  unfold takeShed
  split
  · exact ⟨rfl, rfl⟩
  · exact fold _ _

/-- A forced allocation leaves its own generator at rest, and any other that was. -/
theorem rests_forced {c : Settings} {p : Part} {b k a : Nat} (h : b = k ∨ (p.gen k).Rests) :
    ((takeAllocation c b a true p).gen k).Rests := by
  unfold takeAllocation
  rw [gen_withGen]
  split
  · exact ⟨rfl, .inr rfl⟩
  · rename_i hb
    obtain rfl | h := h
    · have : p.out.gens.length ≤ b := Nat.le_of_not_lt fun hl => hb ⟨rfl, hl⟩
      unfold Part.gen
      rw [List.getD_eq_getElem?_getD, List.getElem?_eq_none this]
      exact ⟨rfl, .inl rfl⟩
    · exact h

/-- In CLASH the computation forces every allocation, so every generator of an assigned bed comes to rest (04 R77). -/
theorem computeGrant_rests {c : Settings} {p : Part} (l : List Nat) (h : p.inClash = true) : GensRest c (computeGrant c l p) := by
  have fold : ∀ (a : Nat → Nat) (v : Nat → Bool) (bs : List Nat) (q : Part), (∀ b, v b = true) → ∀ k,
      c.assigned k = true → (k ∈ bs ∨ (q.gen k).Rests) →
      ((bs.foldl (fun x b => if c.assigned b then takeAllocation c b (a b) (v b) x else x) q).gen k).Rests := by
    intro a v bs
    induction bs with
    | nil => exact fun q _ k _ hk => hk.resolve_left (by simp)
    | cons b bs ih =>
      intro q hv k hk hq
      refine ih _ hv k hk ?_
      dsimp only
      rw [List.mem_cons, or_assoc] at hq
      obtain rfl | hm | hr := hq
      · rw [hk, if_pos rfl, hv]
        exact .inr (rests_forced (.inl rfl))
      · exact .inl hm
      · refine .inr ?_
        split
        · rw [hv]; exact rests_forced (.inr hr)
        · exact hr
  intro b hb ha
  unfold computeGrant Part.gen
  dsimp only
  rw [(takeShed_gens _ _ _).1]
  exact fold _ _ _ _ (fun _ => Bool.or_eq_true_iff.mpr (.inr h)) b ha (.inl (List.mem_range.mpr hb))

theorem computeGrant_emergency (c : Settings) (l : List Nat) (p : Part) :
    (computeGrant c l p).out.emergency = p.out.emergency := by
  have fold : ∀ (a : Nat → Nat) (v : Nat → Bool) (bs : List Nat) (q : Part),
      (bs.foldl (fun x b => if c.assigned b then takeAllocation c b (a b) (v b) x else x) q).out.emergency
        = q.out.emergency := by
    intro a v bs
    induction bs with
    | nil => exact fun q => rfl
    | cons b bs ih =>
      intro q
      refine (ih _).trans ?_
      dsimp only
      split
      · exact withGen_emergency ..
      · rfl
  unfold computeGrant
  dsimp only
  rw [(takeShed_gens _ _ _).2]
  exact fold _ _ _ _
end Sys2Proof.Machine
end

