-- ==== Sys2Proof/Proofs/Preparing.lean ====
section
/-! PROOFS. What the blocks of a running station do before `settle`: one lemma per operation. -/
namespace Sys2Proof.Machine
open Sys2Proof

/-! ### Work done before `settle` -/

/-- What the blocks of a running station do before `settle`: beside `Acts`, the law of the microstep count and that of CLASH are
kept, the emergency stands, and no claim opens. -/
structure Prepares (c : Settings) (p q : Part) : Prop extends Acts c p q where
  caps : CapsInv p → CapsInv q
  rests : p.inClash = true → GensRest c p → GensRest c q
  emergency : q.out.emergency = p.out.emergency
  claims : ∀ k, (q.spanAt k).role.isClaim = true → (p.spanAt k).role.isClaim = true

variable {c : Settings} {p q r : Part}

theorem Prepares.refl (c : Settings) (p : Part) : Prepares c p p := ⟨.refl c p, id, fun _ => id, rfl, fun _ => id⟩

theorem Prepares.trans (h : Prepares c p q) (k : Prepares c q r) : Prepares c p r :=
  ⟨h.toActs.trans k.toActs, fun x => k.caps (h.caps x), fun x y => k.rests (h.inClash.trans x) (h.rests x y),
    k.emergency.trans h.emergency, fun j x => h.claims j (k.claims j x)⟩

theorem CapsInv.of_travel (h : q.travel = p.travel) (k : CapsInv p) : CapsInv q := by unfold CapsInv at *; rwa [h]
theorem GensRest.of_gens (h : q.out.gens = p.out.gens) (k : GensRest c p) : GensRest c q := by
  unfold GensRest Part.gen at *; rwa [h]
theorem GensRest.of_out (h : q.out = p.out) (k : GensRest c p) : GensRest c q := k.of_gens (by rw [h])

theorem claims_of_spans (h : q.span.spans = p.span.spans) (k : Nat) (hk : (q.spanAt k).role.isClaim = true) :
    (p.spanAt k).role.isClaim = true := by unfold Part.spanAt at *; rwa [h] at hk

/-- Work outside the interpolator, the output matrix and the span table. -/
theorem Acts.prepares (h : Acts c p q) (ht : q.travel = p.travel) (ho : q.out = p.out) (hs : q.span.spans = p.span.spans) :
    Prepares c p q :=
  ⟨h, .of_travel ht, fun _ => .of_gens (congrArg OutputUnit.gens ho), congrArg OutputUnit.emergency ho, claims_of_spans hs⟩

/-- Work of the crane side that leaves the span table. -/
theorem CraneAct.prepares (h : CraneAct c p q) (hs : q.span.spans = p.span.spans) : Prepares c p q :=
  h.toActs.prepares h.travel h.out hs

/-- Work of the crane side under which no claim opens. -/
theorem CraneAct.preparesClaims (h : CraneAct c p q)
    (hs : ∀ k, (q.spanAt k).role.isClaim = true → (p.spanAt k).role.isClaim = true) : Prepares c p q :=
  ⟨h.toActs, .of_travel h.travel, fun _ => .of_gens (congrArg OutputUnit.gens h.out), congrArg OutputUnit.emergency h.out, hs⟩

/-- Work of the heat side under which generators stay at rest in CLASH. -/
theorem HeatAct.prepares (h : HeatAct c p q) (he : q.out.emergency = p.out.emergency)
    (hr : p.inClash = true → GensRest c p → GensRest c q) : Prepares c p q :=
  ⟨h.toActs, .of_travel h.travel, hr, he, claims_of_spans (congrArg SpanUnit.spans h.span)⟩

theorem Prepares.foldl {α : Type} {f : Part → α → Part} (h : ∀ p x, Prepares c p (f p x)) (l : List α) (p : Part) :
    Prepares c p (l.foldl f p) := by
  induction l generalizing p with
  | nil => exact .refl c p
  | cons x l ih => exact (h p x).trans (ih _)

theorem Prepares.forAssigned {f : Nat → Part → Part} (h : ∀ b p, Prepares c p (f b p)) (p : Part) :
    Prepares c p (p.forAssigned c f) := by
  refine Prepares.foldl (fun q b => ?_) _ p
  dsimp only
  split
  · exact h b q
  · exact .refl c q

variable (c p)

/-! ### Output matrix, heat share unit and bed controller -/

theorem report_prepares (x : Report) : Prepares c p (p.report x) := (CraneAct.report c p x).prepares rfl
theorem reportIf_prepares (v : Bool) (x : Report) : Prepares c p (p.reportIf v x) := (CraneAct.reportIf c p v x).prepares (by simp)

theorem withBed_out (b : Nat) (f : Bed → Bed) : (p.withBed b f).out = p.out := by unfold Part.withBed; simp

theorem withBed_prepares (b : Nat) (f : Bed → Bed) (h : (f (p.bed b)).db = (p.bed b).db) : Prepares c p (p.withBed b f) :=
  (HeatAct.withBed c p b f h).prepares (congrArg _ (withBed_out p b f)) fun _ => .of_gens (congrArg _ (withBed_out p b f))

theorem setFlow_prepares (b : Nat) (x : Flow) : Prepares c p (p.setFlow b x) :=
  (setFlow_act c p b x).prepares rfl fun _ => .of_gens rfl

theorem withGen_prepares (b : Nat) {f : Gen → Gen} (h : ∀ g : Gen, g.Rests → (f g).Rests) : Prepares c p (p.withGen b f) :=
  (withGen_act c p b f).prepares (withGen_emergency p b f) fun _ hr k hk ha => rests_withGen (hr k hk ha) h

theorem withAux_prepares (d : Settings) (k : Nat) (w : Report.AuxCause) (f : Aux → Aux) : Prepares c p (p.withAux d k w f) :=
  (withAux_act c p d k w f).prepares (withAux_gens p d k w f).2 fun _ => .of_gens (withAux_gens p d k w f).1

theorem computeGrant_prepares (l : List Nat) : Prepares c p (computeGrant c l p) :=
  (computeGrant_act c p l).prepares (computeGrant_emergency c l p) fun h _ => computeGrant_rests l h

theorem stageStep_prepares (b : Nat) : Prepares c p (stageStep c b p) := by
  unfold stageStep
  dsimp only
  split
  · exact .refl c p
  · exact (withBed_prepares c p b _ rfl).trans (report_prepares c _ _)

theorem evaluateStage_prepares (b : Nat) : Prepares c p (evaluateStage c b p) := by
  unfold evaluateStage
  split
  · exact ((((stageStep_prepares c p b).trans (stageStep_prepares c _ b)).trans (stageStep_prepares c _ b)).trans
      (stageStep_prepares c _ b)).trans (withBed_prepares c _ b _ rfl)
  · exact .refl c p

theorem quell_prepares (b : Nat) : Prepares c p (quell c b p) := by
  unfold quell
  split
  · exact withGen_prepares c p b fun _ _ => ⟨rfl, .inr rfl⟩
  · exact .refl c p

/-- A demand that changes comes with the computation of the grant. -/
theorem formDemand_prepares (b : Nat) : Prepares c p (formDemand c b p) := by
  have acts := formDemand_act c p b
  unfold formDemand at acts ⊢
  dsimp only at acts ⊢
  split at acts
  · rename_i same
    rw [if_pos same]
    exact quell_prepares c p b
  · rename_i new
    rw [if_neg new]
    refine acts.prepares ((computeGrant_emergency ..).trans (congrArg _ (withBed_out p b _))) fun h _ => computeGrant_rests _ ?_
    unfold Part.inClash Part.withBed at *
    simpa using h

theorem formDemands_prepares : Prepares c p (formDemands c p) := .forAssigned (fun b x => formDemand_prepares c x b) p

theorem formFraction_prepares (b : Nat) : Prepares c p (formFraction c b p) := by
  unfold formFraction
  split
  · exact withBed_prepares c p b _ rfl
  · exact .refl c p

theorem evaluateRelease_prepares (b : Nat) : Prepares c p (evaluateRelease b p) := by
  unfold evaluateRelease
  dsimp only
  split
  · exact (withBed_prepares c p b _ rfl).trans (report_prepares c _ _)
  · exact .refl c p

theorem setBedState_prepares (b : Nat) (st : BedState) (w : BedCause) : Prepares c p (setBedState b st w p) :=
  (withBed_prepares c p b _ rfl).trans (report_prepares c _ _)

theorem enterEmpty_prepares (b : Nat) (w : BedCause) : Prepares c p (enterEmpty c b w p) :=
  ((withBed_prepares c p b _ rfl).trans (setBedState_prepares c _ b _ w)).trans (formDemand_prepares c _ b)

theorem enterDetensioned_prepares (b : Nat) : Prepares c p (enterDetensioned c b p) :=
  (withBed_prepares c p b _ rfl).trans (setBedState_prepares c _ b _ _)

theorem emergencyBed_prepares (b : Nat) : Prepares c p (emergencyBed b p) := by
  unfold emergencyBed
  split
  · exact setBedState_prepares c p b _ _
  · exact .refl c p

theorem closeWindow_prepares (b : Nat) : Prepares c p (closeWindow c b p) := by
  unfold closeWindow
  dsimp only
  split
  · exact ((setFlow_prepares c p b _).trans (report_prepares c _ _)).trans (formDemand_prepares c _ b)
  · exact setFlow_prepares c p b _

theorem bedsTake_prepares : Prepares c p (bedsTake c p) :=
  ((Prepares.forAssigned (fun b x => evaluateRelease_prepares c x b) p).trans
    (.forAssigned (fun b x => (formFraction_prepares c x b).trans (formDemand_prepares c _ b)) _)).trans
    (computeGrant_prepares c _ [])

theorem takeHeatNotice_prepares (src demand : Nat) : Prepares c p (takeHeatNotice c src demand p) := by
  have acts := takeHeatNotice_act c p src demand
  unfold takeHeatNotice at acts ⊢
  dsimp only at acts ⊢
  split at acts
  · rename_i rises
    rw [if_pos rises]
    exact acts.prepares (computeGrant_emergency ..) fun h _ => computeGrant_rests _ h
  · rename_i rises
    rw [if_neg rises]
    exact acts.prepares rfl fun _ => .of_gens rfl

theorem placeHeat_prepares (n : HeatNotice) : Prepares c p { p with line := p.line.placeHeat n } :=
  (placeHeat_act c p n).prepares rfl fun _ => .of_gens rfl

theorem heatBoundary_prepares : Prepares c p (heatBoundary c p) := by
  obtain ⟨v, l, same, placed⟩ := settleDeaf_only { p with heat := p.heat.ageList }
  have computed (x : HeatUnit) : Prepares c p (computeGrant c [] { p with heat := x, line := l }) := by
    refine HeatAct.prepares (HeatAct.ofGrant c [] rfl rfl rfl rfl placed rfl id rfl rfl rfl rfl rfl rfl rfl rfl)
      (computeGrant_emergency ..) fun h _ => computeGrant_rests [] ?_
    unfold Part.inClash at *
    rwa [placed.keeps.clash]
  unfold heatBoundary
  rw [same]
  exact (computed _).trans (placeHeat_prepares c _ _)

end Sys2Proof.Machine

namespace Sys2Proof.Machine
open Sys2Proof

variable (c : Settings) (p : Part)

/-! ### Piece store and move controller: the span table stands -/

theorem markDirty_prepares (b : Block) : Prepares c p (p.markDirty b) := (CraneAct.markDirty c p b).prepares rfl
theorem markIf_prepares (v : Bool) (b : Block) : Prepares c p (p.markIf v b) := (CraneAct.markIf c p v b).prepares (by simp)

@[simp] theorem setRecord_span (n : Nat) (x : Option Piece) : (p.setRecord n x).span = p.span := by
  unfold Part.setRecord; simp
@[simp] theorem setStackAt_span (i : Nat) (x : Stack) : (p.setStackAt i x).span = p.span := by
  unfold Part.setStackAt Part.setStacks; simp
@[simp] theorem setQueue_span (l : List Move) : (p.setQueue l).span = p.span := by unfold Part.setQueue; simp
@[simp] theorem setNextTag_span (n : Nat) : (p.setNextTag n).span = p.span := by unfold Part.setNextTag; simp

theorem setRecord_prepares (n : Nat) (x : Option Piece) : Prepares c p (p.setRecord n x) :=
  (setRecord_act c p n x).prepares (by simp)
theorem setStackAt_prepares (i : Nat) (x : Stack) : Prepares c p (p.setStackAt i x) :=
  (setStackAt_act c p i x).prepares (by simp)
theorem setQueue_prepares (l : List Move) : Prepares c p (p.setQueue l) := (setQueue_act c p l).prepares (by simp)
theorem setNextTag_prepares (n : Nat) : Prepares c p (p.setNextTag n) := (setNextTag_act c p n).prepares (by simp)
theorem mapPieces_prepares (f : Piece → Piece) : Prepares c p (p.mapPieces f) := (mapPieces_act c p f).prepares rfl

theorem updatePiece_prepares (id : Nat) (f : Piece → Piece) : Prepares c p (updatePiece id f p) := by
  unfold updatePiece
  split
  · exact setRecord_prepares c p _ _
  · exact .refl c p

theorem removePiece_prepares (id : Nat) : Prepares c p (removePiece id p) := by
  unfold removePiece
  split
  · exact setRecord_prepares c p _ _
  · exact .refl c p

theorem createPiece_prepares (b mix t : Nat) (e : PartEntry) : Prepares c p (createPiece c b mix t e p) := by
  unfold createPiece
  split
  · exact setRecord_prepares c p _ _
  · exact .refl c p

theorem clearMark_prepares (tag : Nat) : Prepares c p (clearMark tag p) := by
  unfold clearMark
  split
  · exact setStackAt_prepares c p _ _
  · exact .refl c p

theorem releaseMark_prepares (tag id : Nat) : Prepares c p (releaseMark tag id p) :=
  (clearMark_prepares c p tag).trans (updatePiece_prepares c _ id _)

theorem placeLift_prepares (tag id lane n : Nat) : Prepares c p (placeLift tag id lane n p) :=
  ((clearMark_prepares c p tag).trans (setStackAt_prepares c _ _ _)).trans (updatePiece_prepares c _ _ _)

theorem placeDispatch_prepares (tag id : Nat) : Prepares c p (placeDispatch c tag id p) := by
  unfold placeDispatch
  dsimp only
  split
  · exact clearMark_prepares c p tag
  · exact ((clearMark_prepares c p tag).trans (removePiece_prepares c _ id)).trans (report_prepares c _ _)

theorem updateMove_prepares (tag : Nat) (f : Move → Move) : Prepares c p (updateMove tag f p) := setQueue_prepares c p _

theorem setTarget_prepares (t : Option Target) : Prepares c p (setTarget t p) := (setTarget_act c p t).prepares rfl

theorem removeMove_prepares (m : Move) : Prepares c p (removeMove m p) :=
  (setQueue_prepares c p _).trans (updatePiece_prepares c _ _ _)

theorem enqueue_prepares (m : Move) : Prepares c p (enqueue m p) :=
  (setQueue_prepares c p _).trans (setNextTag_prepares c _ _)

theorem enterTravel_prepares (m : Move) (ph : Phase) (pos : Nat) : Prepares c p (enterTravel m ph pos p) :=
  (updateMove_prepares c p _ _).trans (setTarget_prepares c _ _)

theorem halt_prepares (k : HaltCause) : Prepares c p (halt k p) := by
  unfold halt
  split
  · split
    · exact .refl c p
    · exact ((updateMove_prepares c p _ _).trans (setTarget_prepares c _ _)).trans (report_prepares c _ _)
  · exact .refl c p

theorem testTimeout_prepares (k : HaltCause) : Prepares c p (testTimeout c k p) := by
  unfold testTimeout
  split
  · exact halt_prepares c p k
  · exact .refl c p

theorem setReturn_prepares : Prepares c p (setReturn c p) := (setReturn_act c p c).prepares rfl

theorem completeMove_prepares (m : Move) (v : Bool) : Prepares c p (completeMove c m v p) := by
  unfold completeMove
  dsimp only
  refine .trans (.trans (.trans ?_ (removeMove_prepares c _ m)) (report_prepares c _ _)) (setReturn_prepares c _)
  split
  · exact placeLift_prepares c p _ _ _ _
  · exact placeDispatch_prepares c p _ _

theorem hookUnloads_prepares : Prepares c p (hookUnloads c p) := by
  unfold hookUnloads
  split
  · split
    · exact completeMove_prepares c p _ _
    · exact halt_prepares c p _
    · exact .refl c p
  · exact .refl c p

theorem leaveSlot_prepares (b s : Nat) : Prepares c p (leaveSlot c b s p) := by
  unfold leaveSlot
  dsimp only
  split
  · exact (withBed_prepares c p b _ rfl).trans (enterEmpty_prepares c _ b _)
  · exact withBed_prepares c p b _ rfl

theorem pickPiece_prepares (id : Nat) : Prepares c p (pickPiece c id p) := by
  unfold pickPiece
  split
  · exact .refl c p
  · dsimp only
    split
    · exact (updatePiece_prepares c p _ _).trans (leaveSlot_prepares c _ _ _)
    · exact (setStackAt_prepares c p _ _).trans (updatePiece_prepares c _ _ _)
    · exact .refl c p

theorem hookLoads_prepares : Prepares c p (hookLoads c p) := by
  unfold hookLoads
  split
  · split
    · exact ((pickPiece_prepares c p _).trans (updateMove_prepares c _ _ _)).trans (enterTravel_prepares c _ _ _ _)
    · exact halt_prepares c p _
    · exact .refl c p
  · exact .refl c p

theorem craneEffect_prepares (l : CraneLine) (v : Bool) : Prepares c p (craneEffect c l v p) := by
  unfold craneEffect
  split
  · exact hookLoads_prepares c p
  · exact hookUnloads_prepares c p
  · exact halt_prepares c p _
  · exact halt_prepares c p _
  · exact .refl c p

theorem acceptLevel_prepares (l : CraneLine) (v : Bool) : Prepares c p (acceptLevel l v p) :=
  (acceptLevel_act c p l v).prepares rfl rfl rfl

/-! ### Scan and maturity units -/

theorem setBedTemp_prepares (b : Nat) (x : BedTemp) : Prepares c p (p.setBedTemp b x) :=
  (setBedTemp_act c p b x).toActs.prepares rfl rfl rfl

theorem settleBlind_prepares (b : Nat) : Prepares c p (settleBlind b p) := by
  unfold settleBlind
  dsimp only
  split
  · exact (setBedTemp_prepares c p b _).trans (report_prepares c _ _)
  · exact (setBedTemp_prepares c p b _).trans (report_prepares c _ _)
  · exact .refl c p

theorem settleOverheat_prepares (b : Nat) : Prepares c p (settleOverheat c b p) := by
  unfold settleOverheat
  dsimp only
  split
  · exact .refl c p
  · split
    · exact (setBedTemp_prepares c p b _).trans (report_prepares c _ _)
    · split
      · exact (setBedTemp_prepares c p b _).trans (report_prepares c _ _)
      · exact .refl c p

theorem evaluateBed_prepares (b : Nat) : Prepares c p (evaluateBed c b p) := by
  unfold evaluateBed
  split
  · exact ((setBedTemp_prepares c p b _).trans (settleBlind_prepares c _ b)).trans (settleOverheat_prepares c _ b)
  · exact .refl c p

theorem setRetired_prepares (k : Nat) (v : Bool) : Prepares c p (p.setRetired k v) :=
  (setRetired_act c p k v).toActs.prepares rfl rfl rfl

theorem retireChannel_prepares (b k : Nat) : Prepares c p (retireChannel c b k p) :=
  (setRetired_prepares c p k true).trans (evaluateBed_prepares c _ b)

theorem clearRetired_prepares (k : Nat) : Prepares c p (clearRetired k p) := by
  unfold clearRetired
  dsimp only
  split
  · exact (setRetired_prepares c p k false).trans (report_prepares c _ _)
  · exact setRetired_prepares c p k false

theorem clearBedRetired_prepares (b : Nat) : Prepares c p (clearBedRetired c b p) := by
  unfold clearBedRetired
  dsimp only
  split
  · exact .refl c p
  · exact (Prepares.foldl (fun q k => clearRetired_prepares c q k) _ p).trans (evaluateBed_prepares c _ b)

theorem applySample_prepares (k : Nat) (s : Classified) : Prepares c p (applySample k s p) := by
  have stands : (applySample k s p).travel = p.travel ∧ (applySample k s p).out = p.out
      ∧ (applySample k s p).span = p.span := by
    unfold applySample
    dsimp only
    split <;> exact ⟨rfl, rfl, rfl⟩
  obtain ⟨travel, out, span⟩ := stands
  exact (applySample_act c p k s).toActs.prepares travel out (congrArg _ span)

theorem missAll_prepares : Prepares c p (missAll c p) := .foldl (fun q k => applySample_prepares c q k _) _ p

theorem convertAll_prepares (rref : Nat) (codes : List Code) : Prepares c p (convertAll c rref codes p) :=
  .foldl (fun q k => applySample_prepares c q k _) _ p

/-- The scan unit changes, with its sizes kept. -/
theorem setScan_prepares (x : ScanUnit) (h1 : x.beds.length = p.scan.beds.length)
    (h2 : x.channels.length = p.scan.channels.length) : Prepares c p { p with scan := x } :=
  (Quiet.ofScan c p x h1 h2).toActs.prepares rfl rfl rfl

theorem applyScan_prepares (r1 r2 : Nat) (codes : List Code) : Prepares c p (applyScan c r1 r2 codes p) := by
  unfold applyScan
  split
  · refine .trans ?_ (convertAll_prepares c _ _ codes)
    split
    · exact .refl c p
    · exact (setScan_prepares c p { p.scan with refGood := true } rfl rfl).trans (report_prepares c _ _)
  · refine .trans ?_ (missAll_prepares c _)
    split
    · exact (setScan_prepares c p { p.scan with refGood := false } rfl rfl).trans (report_prepares c _ _)
    · exact .refl c p

theorem advanceAll_prepares (x : Sample) : Prepares c p (advanceAll c x p) := by
  have stands : (advanceAll c x p).travel = p.travel ∧ (advanceAll c x p).out = p.out ∧ (advanceAll c x p).span = p.span := by
    unfold advanceAll
    split
    · exact ⟨rfl, rfl, rfl⟩
    · simp
  obtain ⟨travel, out, span⟩ := stands
  exact (advanceAll_act c p c x).toActs.prepares travel out (congrArg _ span)

theorem computeGoverning_prepares (b : Nat) : Prepares c p (computeGoverning c b p) := by
  unfold computeGoverning
  split
  · exact .refl c p
  · dsimp only
    split
    · exact withBed_prepares c p b _ rfl
    · exact (withBed_prepares c p b _ rfl).trans (mapPieces_prepares c _ _)

theorem maturityTakes_prepares (x : Sample) : Prepares c p (maturityTakes c x p) := by
  unfold maturityTakes
  dsimp only
  refine .trans ?_ (markDirty_prepares c _ _)
  have governed := (advanceAll_prepares c p x).trans (.forAssigned (fun b y => computeGoverning_prepares c y b) _)
  split
  · exact governed
  · exact governed.trans (mapPieces_prepares c _ _)

theorem zeroBed_prepares (b : Nat) : Prepares c p (zeroBed c b p) := by
  unfold zeroBed
  dsimp only
  refine .trans (.trans (.trans ?_ (markDirty_prepares c _ _)) (withBed_prepares c _ b _ rfl)) (computeGoverning_prepares c _ b)
  exact (Quiet.ofMaturity c p _ (List.length_mapIdx ..) (List.length_set ..)).toActs.prepares rfl rfl rfl

theorem recomputeBed_prepares (b : Nat) : Prepares c p (recomputeBed c b p) :=
  (computeGoverning_prepares c p b).trans (evaluateRelease_prepares c _ b)

theorem maturityAtStart_prepares : Prepares c p (maturityAtStart c p) :=
  (((Prepares.forAssigned (fun b y => computeGoverning_prepares c y b) p).trans
    (.forAssigned (fun _ y => mapPieces_prepares c y _) _)).trans (mapPieces_prepares c _ _)).trans (mapPieces_prepares c _ _)

/-! ### Interpolator -/

/-- The interpolator changes, with its count within the caps. -/
theorem setTravel_prepares (x : TravelUnit) (h : CapsInv p → CapsInv { p with travel := x }) :
    Prepares c p { p with travel := x } :=
  ⟨Acts.ofTravel c p x, h, fun _ => id, rfl, fun _ => id⟩

theorem handOccupancy_claims (occ : List Nat) (k : Nat) :
    ((handOccupancy occ p).spanAt k).role = (p.spanAt k).role := by
  unfold handOccupancy Part.spanAt
  simp only [List.getD_eq_getElem?_getD, List.getElem?_mapIdx]
  cases p.span.spans[k]? <;> rfl

theorem handOccupancy_prepares (occ : List Nat) : Prepares c p (handOccupancy occ p) :=
  ⟨handOccupancy_act c p occ, id, fun _ => id, rfl, fun k h => by rwa [handOccupancy_claims] at h⟩

theorem positionChanged_prepares : Prepares c p (positionChanged c p) := by
  unfold positionChanged
  split
  · exact .refl c p
  · refine .trans (.trans (.trans ?_ (handOccupancy_prepares c _ _)) (markIf_prepares c _ _ _)) (reportIf_prepares c _ _ _)
    exact setTravel_prepares c p _ id

theorem positionLost_prepares : Prepares c p (positionLost c p) := by
  refine .trans ?_ (handOccupancy_prepares c _ _)
  exact setTravel_prepares c p _ id

theorem faultPosition_prepares (k : PosFault) : Prepares c p (faultPosition c k p) := by
  unfold faultPosition
  refine .trans ?_ (reportIf_prepares c _ _ _)
  dsimp only
  split
  · exact (setTravel_prepares c p { p.travel with fault := true, cause := some k } id).trans (positionLost_prepares c _)
  · exact setTravel_prepares c p { p.travel with fault := true, cause := some k } id

/-- A step of the decoder leaves the microstep count and its caps. -/
theorem step_caps (i : Nat) (d : Dir) (h : CapsInv p) : CapsInv { p with travel := p.travel.step i d } := by
  unfold TravelUnit.step
  dsimp only
  split <;> exact h

theorem sampleTracks_prepares (pat : Option Nat) : Prepares c p (sampleTracks c pat p) := by
  unfold sampleTracks
  dsimp only
  split
  · split
    · exact (setTravel_prepares c p { p.travel with uniform := 201 } id).trans (faultPosition_prepares c _ _)
    · exact setTravel_prepares c p { p.travel with uniform := sat 201 (p.travel.uniform + 1) } id
  · split
    · exact setTravel_prepares c p (p.travel.adopt _) id
    · split
      · exact setTravel_prepares c p (p.travel.adopt _) id
      · split
        · exact setTravel_prepares c p { p.travel with uniform := 0 } id
        · split
          · exact setTravel_prepares c p _ (step_caps p _ _)
          · split
            · exact setTravel_prepares c p _ (step_caps p _ _)
            · exact (faultPosition_prepares c p _).trans (setTravel_prepares c _ _ id)

theorem atMark_caps (forward : Bool) (t : TravelUnit) :
    CapsInv { p with travel := if forward then t.atForward else t.atReverse } := by
  cases forward
  · exact ⟨Nat.le_add_left 1 15, Nat.le_refl 16⟩
  · exact Nat.zero_le 15

theorem markPassed_prepares (forward : Bool) : Prepares c p (markPassed c forward p) := by
  unfold markPassed
  extract_lets t beyond
  by_cases range : (beyond && t.referenced) = true
  · rw [if_pos range]
    exact (setTravel_prepares c p t id).trans (faultPosition_prepares c _ _)
  · rw [if_neg range]
    exact (setTravel_prepares c p _ fun _ => atMark_caps p forward t).trans (positionChanged_prepares c _)

theorem markFalls_prepares : Prepares c p (markFalls c p) := by
  have out : Prepares c p { p with travel := { p.travel with mark := .out } } := setTravel_prepares c p _ id
  unfold markFalls
  dsimp only
  split
  · exact out.trans (markPassed_prepares c _ _)
  · exact out.trans (markPassed_prepares c _ _)
  · exact out

/-- A microstep stays within the caps (06 R108). -/
theorem micro_caps (t : TravelUnit) (h : CapsInv { p with travel := t }) : CapsInv { p with travel := t.micro } := by
  unfold CapsInv TravelUnit.micro TravelUnit.upperCap TravelUnit.lowerCap at *
  dsimp only at *
  cases hr : t.lastReverse <;> cases hu : t.up <;> simp only [hr, Bool.false_eq_true, if_true, if_false] at h ⊢ <;>
    split <;> simp_all <;> omega

theorem microstepDue_prepares : Prepares c p (microstepDue c p) := by
  unfold microstepDue
  split
  · dsimp only
    split
    · exact setTravel_prepares c p { p.travel with timer := 0 } id
    · exact (setTravel_prepares c p _ (micro_caps p { p.travel with timer := 0 })).trans (positionChanged_prepares c _)
  · exact .refl c p

theorem microstepsStop_prepares : Prepares c p (microstepsStop p) := by
  unfold microstepsStop
  split
  · split
    · exact setTravel_prepares c p _ id
    · exact .refl c p
  · exact .refl c p

theorem reference_prepares : Prepares c p (reference c p) := by
  unfold reference
  dsimp only
  refine .trans (.trans (setTravel_prepares c p _ fun _ => ?_) (report_prepares c _ _)) (positionChanged_prepares c _)
  exact Nat.le_of_lt_succ (Nat.mod_lt _ (by decide))

/-! ### Span unit -/

theorem claims_setSpan {p : Part} {k : Nat} {x : Span} (h : x.role.isClaim = true → (p.spanAt k).role.isClaim = true) (j : Nat)
    (hj : ((p.setSpan k x).spanAt j).role.isClaim = true) : (p.spanAt j).role.isClaim = true := by
  rw [spanAt_setSpan] at hj
  split at hj
  · rename_i at_k
    exact at_k.1 ▸ h hj
  · exact hj

theorem setSpan_prepares {k : Nat} {x : Span} (h : x.role.isClaim = true → (p.spanAt k).role.isClaim = true) :
    Prepares c p (p.setSpan k x) := (setSpan_act c p k x).preparesClaims (claims_setSpan h)

theorem formNotice_prepares : Prepares c p (formNotice c p) := by
  refine (formNotice_act c p c).preparesClaims fun k h => ?_
  rw [formNotice_spanAt, releaseDue_spanAt] at h
  split at h
  · cases h
  · exact h

theorem openWindow_prepares (n : SpanNotice) : Prepares c p (openWindow c n p) := by
  unfold openWindow
  split
  · exact .refl c p
  · dsimp only
    split
    · rename_i role
      split
      · exact setSpan_prepares c p fun _ => by rw [role]; rfl
      · exact .refl c p
    · exact .refl c p

theorem decideClaim_prepares : Prepares c p (decideClaim c p) := by
  unfold decideClaim
  split
  · exact .refl c p
  · dsimp only
    split
    · split
      · exact setSpan_prepares c p fun h => nomatch h
      · exact setSpan_prepares c p fun h => nomatch h
    · exact .refl c p

/-- The span unit's other fields change. -/
theorem setSpanUnit_prepares (x : SpanUnit) (h : x.spans = p.span.spans) : Prepares c p { p with span := x } :=
  (CraneAct.ofSpan c p x).prepares h

theorem yieldSpan_prepares (k : Nat) : Prepares c p (yieldSpan c k p) := by
  refine .trans ?_ (setSpanUnit_prepares c _ _ rfl)
  exact setSpan_prepares c p fun h => nomatch h

theorem resolveDouble_prepares (addr : Nat) (e : Entry) : Prepares c p (resolveDouble c addr e p) := by
  unfold resolveDouble
  dsimp only
  split
  · refine .trans ?_ (report_prepares c _ _)
    split
    · exact (yieldSpan_prepares c p _).trans (formNotice_prepares c _)
    · exact formNotice_prepares c p
  · exact .refl c p

theorem contest_prepares (e : Entry) : Prepares c p (contest e p) := by
  unfold contest
  dsimp only
  split
  · rename_i role
    exact setSpan_prepares c p fun _ => by rw [role]; rfl
  · exact .refl c p

theorem answerClaim_prepares (e : Entry) : Prepares c p (answerClaim c e p) := by
  unfold answerClaim
  dsimp only
  split
  · exact formNotice_prepares c p
  · exact .refl c p

theorem takeSpanNotice_prepares (src : Nat) (n : SpanNotice) : Prepares c p (takeSpanNotice c src n p) := by
  unfold takeSpanNotice
  dsimp only
  refine .trans (.trans (.trans ?record (.foldl (fun q e => resolveDouble_prepares c q src e) _ _))
    (.foldl (fun q e => contest_prepares c q e) _ _)) (.foldl (fun q e => answerClaim_prepares c q e) _ _)
  refine .trans ?_ (reportIf_prepares c _ _ _)
  exact setSpanUnit_prepares c p _ rfl

theorem agePeer_prepares (addr age : Nat) : Prepares c p (agePeer addr age p) := by
  unfold agePeer
  split
  · exact .refl c p
  · dsimp only
    split
    · refine .trans ?_ (report_prepares c _ _)
      exact setSpanUnit_prepares c p _ rfl
    · exact setSpanUnit_prepares c p _ rfl

theorem agePeers_prepares : Prepares c p (agePeers p) := .foldl (fun q (x : Peer) => agePeer_prepares c q x.addr (x.age + 1)) _ p

theorem freeSpan_prepares (k : Nat) : Prepares c p (freeSpan k p) := by
  refine .trans ?_ (report_prepares c _ _)
  exact setSpanUnit_prepares c p _ rfl

end Sys2Proof.Machine
end

