-- ==== Sys2Proof/Proofs/TravelLaw.lean ====
section
/-! PROOFS. The claim law and the travel law after `settle` (07 R124, R126, R134). -/
namespace Sys2Proof.Machine
open Sys2Proof

variable {c : Settings} {p q : Part} {k : Nat}

/-! ### The claim that stands -/

/-- At most one span is claimed. -/
def OneClaim (p : Part) : Prop :=
  ∀ j k, (p.spanAt j).role.isClaim = true → (p.spanAt k).role.isClaim = true → j = k

/-- The claim law of a running station. -/
def ClaimOk (c : Settings) (p : Part) : Prop :=
  ∀ k, (p.spanAt k).role.isClaim = true → claimStands c p k = true ∧ claimed p = some k

theorem claimed_isClaim (h : claimed p = some k) : (p.spanAt k).role.isClaim = true := by
  unfold claimed at h
  exact List.find?_some (p := fun k => (p.spanAt k).role.isClaim) h

theorem isClaim_false_of_claimed (h : claimed p = none) (k : Nat) : (p.spanAt k).role.isClaim = false := by
  refine Bool.eq_false_iff.mpr fun hk => ?_
  have inTable : k < p.span.spans.length := lt_of_role_ne fun none => by rw [none] at hk; cases hk
  exact List.find?_eq_none.mp h k (List.mem_range.mpr inTable) hk

theorem claimed_eq (one : OneClaim p) (hk : (p.spanAt k).role.isClaim = true) : claimed p = some k := by
  cases h : claimed p with
  | none => rw [isClaim_false_of_claimed h] at hk; cases hk
  | some j => rw [one j k (claimed_isClaim h) hk]

theorem ClaimOk.oneClaim (h : ClaimOk c p) : OneClaim p := fun j k hj hk =>
  Option.some.inj ((h j hj).2.symm.trans (h k hk).2)

theorem OneClaim.of (h : OneClaim p) (f : ∀ k, (q.spanAt k).role.isClaim = true → (p.spanAt k).role.isClaim = true) : OneClaim q :=
  fun j k hj hk => h j k (f j hj) (f k hk)

/-- What decides whether a claim on a span stands. -/
structure SameRoute (p q : Part) : Prop where
  position : q.position = p.position
  target : q.moves.target = p.moves.target
  craneLocal : q.craneLocal = p.craneLocal
  inClash : q.inClash = p.inClash

theorem SameRoute.refl (p : Part) : SameRoute p p := ⟨rfl, rfl, rfl, rfl⟩
theorem SameRoute.trans {r : Part} (h : SameRoute p q) (k : SameRoute q r) : SameRoute p r :=
  ⟨k.position.trans h.position, k.target.trans h.target, k.craneLocal.trans h.craneLocal, k.inClash.trans h.inClash⟩

theorem SameRoute.claimStands (h : SameRoute p q) (k : Nat) : claimStands c q k = claimStands c p k := by
  unfold Machine.claimStands
  rw [h.position, h.target, h.craneLocal, h.inClash]

/-- A claim that stands still stands where no claim opens and the route is the same. -/
theorem ClaimOk.of (h : ClaimOk c p) (r : SameRoute p q)
    (f : ∀ k, (q.spanAt k).role.isClaim = true → (p.spanAt k).role.isClaim = true) : ClaimOk c q := fun k hk =>
  ⟨(r.claimStands k).trans (h k (f k hk)).1, claimed_eq (h.oneClaim.of f) hk⟩

theorem CraneAct.sameRoute (h : CraneAct c p q) (hm : q.moves = p.moves) : SameRoute p q :=
  ⟨h.position, congrArg _ hm, by unfold Part.craneLocal; rw [hm], h.inClash⟩

/-- Withdrawal leaves no claim that does not stand (07 R126). -/
theorem withdrawClaims_claimOk (one : OneClaim p) : ClaimOk c (withdrawClaims c p) := by
  unfold withdrawClaims
  split
  · rename_i none
    exact fun k hk => absurd hk (by rw [isClaim_false_of_claimed none]; exact Bool.false_ne_true)
  · rename_i j is
    split
    · rename_i stands
      intro k hk
      obtain rfl := one k j hk (claimed_isClaim is)
      exact ⟨stands, is⟩
    · intro k hk
      have was : (p.spanAt k).role.isClaim = true := claims_setSpan (x := (p.spanAt j).dropRole) (fun h => nomatch h) k hk
      obtain rfl := one k j was (claimed_isClaim is)
      have inTable : k < p.span.spans.length := lt_of_role_ne fun none => by rw [none] at was; cases was
      rw [spanAt_setSpan, if_pos ⟨rfl, inTable⟩] at hk
      cases hk

theorem settleReleases_role (c : Settings) (p : Part) (k : Nat) : ((settleReleases c p).spanAt k).role = (p.spanAt k).role
    ∧ ((settleReleases c p).spanAt k).occupied = (p.spanAt k).occupied := by
  unfold settleReleases Part.spanAt
  simp only [List.getD_eq_getElem?_getD, List.getElem?_mapIdx]
  cases p.span.spans[k]? with
  | none => exact ⟨rfl, rfl⟩
  | some x =>
    simp only [Option.map_some, Option.getD_some]
    split
    · split
      · exact ⟨rfl, rfl⟩
      · split <;> exact ⟨rfl, rfl⟩
    · exact ⟨rfl, rfl⟩

theorem formNotice_claimOk (h : ClaimOk c p) : ClaimOk c (formNotice c p) :=
  h.of ((formNotice_act c p c).sameRoute rfl) (formNotice_prepares c p).claims

theorem noticeIfDue_claimOk (h : ClaimOk c p) : ClaimOk c (noticeIfDue c p) := by
  unfold noticeIfDue
  split
  · exact formNotice_claimOk h
  · exact h

/-- The next span lies on the route. -/
theorem nextSpan_spec {q t : Nat} (h : nextSpan c p q t = some k) :
    intersects (c.spans.getD k default) (route c q t).1 (route c q t).2 = true ∧ (p.spanAt k).role = .none := by
  unfold nextSpan at h
  dsimp only at h
  have role := List.find?_some h
  have listed := List.mem_of_find?_eq_some h
  have onRoute : k ∈ spansIn c (route c q t).1 (route c q t).2 := by
    split at listed
    · exact listed
    · split at listed
      · exact List.mem_reverse.mp listed
      · cases listed
  unfold spansIn at onRoute
  simp only [Bool.and_eq_true, beq_iff_eq] at role
  exact ⟨(List.mem_filter.mp onRoute).2, role.1⟩

/-- The next span is claimed, its window pending, under the serial number that comes next. -/
def claimOpened (t : Target) (k : Nat) (p : Part) : Part :=
  { p with span := { p.span with claimSerial := p.span.claimSerial + 1 } }.setSpan k
    { p.spanAt k with role := .claim ⟨t.urgency, p.line.own⟩ none false (p.span.claimSerial + 1) }

theorem claimOpened_spanAt (t : Target) (k j : Nat) (p : Part) : (claimOpened t k p).spanAt j =
    if k = j ∧ k < p.span.spans.length then
      { p.spanAt k with role := .claim ⟨t.urgency, p.line.own⟩ none false (p.span.claimSerial + 1) }
    else p.spanAt j := spanAt_setSpan _ _ _ _

theorem claimOpened_act (c : Settings) (t : Target) (k : Nat) (p : Part) : CraneAct c p (claimOpened t k p) :=
  (CraneAct.ofSpan c p _).trans (setSpan_act c _ _ _)

/-- The conditions under which a claim opens on a span (07 R124). -/
structure Opens (c : Settings) (p : Part) (q : Nat) (t : Target) (k : Nat) : Prop where
  position : p.position = some q
  target : p.moves.target = some t
  noClash : p.inClash = false
  notLocal : p.craneLocal = false
  noClaim : claimed p = none
  room : countBeyond p < 4
  next : nextSpan c p q t.pos = some k
  unnamed : peerPart p k = []
  retried : ∀ r, (p.spanAt k).retry = some r → r ≤ p.msCount

/-- A claim opens with its notice, or nothing happens. -/
theorem openClaim_cases (c : Settings) (p : Part) :
    openClaim c p = p ∨ ∃ q t k, Opens c p q t k ∧ openClaim c p = formNotice c (claimOpened t k p) := by
  unfold openClaim
  split
  · rename_i q t position target
    split
    · exact .inl rfl
    · rename_i free
      simp only [Bool.or_eq_true, decide_eq_true_eq, not_or, Bool.not_eq_true, Option.isSome_eq_false_iff,
        Option.isNone_iff_eq_none, Nat.not_le] at free
      obtain ⟨⟨⟨noClash, notLocal⟩, noClaim⟩, room⟩ := free
      split
      · exact .inl rfl
      · rename_i k next
        dsimp only
        split_ifs with may
        · exact .inl rfl
        · simp only [Bool.or_eq_true, not_or, Bool.not_eq_true, bne_eq_false_iff_eq] at may
          obtain ⟨unnamed, retry⟩ := may
          refine .inr ⟨q, t, k, ⟨position, target, noClash, notLocal, noClaim, room, next, unnamed, fun r hr => ?_⟩, rfl⟩
          rw [hr] at retry
          exact Nat.le_of_not_lt (of_decide_eq_false retry)
  · exact .inl rfl

theorem openClaim_claimOk (h : ClaimOk c p) : ClaimOk c (openClaim c p) := by
  obtain same | ⟨q, t, k, opens, eq⟩ := openClaim_cases c p
  · rwa [same]
  · rw [eq]
    have only (j : Nat) (hj : ((claimOpened t k p).spanAt j).role.isClaim = true) : j = k := by
      by_contra other
      rw [claimOpened_spanAt, if_neg fun e => other e.1.symm, isClaim_false_of_claimed opens.noClaim] at hj
      cases hj
    refine formNotice_claimOk fun j hj => ⟨?_, claimed_eq (fun i l hi hl => (only i hi).trans (only l hl).symm) hj⟩
    have stands : claimStands c p k = true := by
      unfold claimStands
      rw [opens.position, opens.target]
      dsimp only
      rw [opens.notLocal, opens.noClash, (nextSpan_spec opens.next).1]
      rfl
    rw [only j hj, ← stands]
    exact ((claimOpened_act c t k p).sameRoute rfl).claimStands k

/-- After `settle` the claim law holds, if at most one span was claimed. -/
theorem settle_claimOk (c : Settings) {p : Part} (one : OneClaim p) : ClaimOk c (settle c p) := by
  obtain ⟨q, eq, _, span, _⟩ := settle_eq c p
  have one' : OneClaim q := one.of (claims_of_spans (by rw [span]))
  rw [eq]
  unfold settleSpans
  refine openClaim_claimOk (noticeIfDue_claimOk ?_)
  exact (withdrawClaims_claimOk one').of ⟨rfl, rfl, rfl, rfl⟩ fun k hk => by rwa [(settleReleases_role c _ k).1] at hk

/-! ### The travel law -/

/-- The travel law of a running station. -/
def TravelOk (c : Settings) (p : Part) : Prop :=
  ∀ fwd v, p.span.decision = .go fwd v → ∃ q, p.position = some q ∧ mustStop p = false ∧ permitted c p q fwd v = true

/-- What the travel law reads beside the spans. -/
structure SameTravel (p q : Part) : Prop where
  decision : q.span.decision = p.span.decision
  peers : q.span.peers = p.span.peers
  position : q.position = p.position
  mustStop : mustStop q = mustStop p

/-- The travel law is kept where a span of the stretch that was held or occupied still is. -/
theorem TravelOk.of (h : TravelOk c p) (same : SameTravel p q)
    (own : ∀ fwd v x, p.span.decision = .go fwd v → p.position = some x → mustStop p = false →
      ∀ k, intersects (c.spans.getD k default) (stretch c x (.go fwd v)).1 (stretch c x (.go fwd v)).2 = true →
        ((p.spanAt k).occupied || (p.spanAt k).role.isHeld) = true →
        ((q.spanAt k).occupied || (q.spanAt k).role.isHeld) = true) : TravelOk c q := by
  intro fwd v hd
  rw [same.decision] at hd
  obtain ⟨x, position, free, allowed⟩ := h fwd v hd
  refine ⟨x, same.position.trans position, same.mustStop.trans free, ?_⟩
  unfold permitted spansOwn envelopes at *
  rw [same.peers]
  simp only [Bool.and_eq_true, List.all_eq_true] at allowed ⊢
  exact ⟨fun k hk => own fwd v x hd position free k (List.mem_filter.mp hk).2 (allowed.1 k hk), allowed.2⟩

/-- The crane side acts without its moves, the decision, the peers and the yield stop. -/
theorem CraneAct.sameTravel (h : CraneAct c p q) (moves : q.moves = p.moves) (decision : q.span.decision = p.span.decision)
    (peers : q.span.peers = p.span.peers) (yieldStop : q.span.yieldStop = p.span.yieldStop) : SameTravel p q := by
  refine ⟨decision, peers, h.position, ?_⟩
  unfold mustStop Part.craneFault Part.craneReady Part.craneLocal
  rw [h.emergencyActive, h.inWarning, h.inClash, moves, yieldStop]

theorem formNotice_sameTravel (c : Settings) (p : Part) : SameTravel p (formNotice c p) :=
  (formNotice_act c p c).sameTravel rfl rfl rfl rfl

/-- The decision of 07 R134 meets the travel law. -/
theorem travelDecision_travelOk (c : Settings) (p : Part) :
    TravelOk c { p with span := { p.span with decision := travelDecision c p } } := by
  intro fwd v hd
  replace hd : travelDecision c p = .go fwd v := hd
  unfold travelDecision at hd
  split at hd
  · rename_i x t position target
    split at hd
    · cases hd
    · rename_i free
      refine ⟨x, position, Bool.eq_false_iff.mpr free, ?_⟩
      split at hd
      · cases hd
      · cases hd
      · dsimp only at hd
        split at hd
        · rename_i found
          cases hd
          have chosen := List.find?_some found
          rw [Bool.and_eq_true] at chosen
          exact chosen.1
        · cases hd
  · cases hd

/-- No span of the stretch of the decision is being released. -/
def StretchKept (c : Settings) (p : Part) : Prop :=
  ∀ fwd v x, p.span.decision = .go fwd v → p.position = some x → mustStop p = false →
    ∀ k, intersects (c.spans.getD k default) (stretch c x (.go fwd v)).1 (stretch c x (.go fwd v)).2 = true →
      (p.spanAt k).releasing = false

theorem craneLocal_false (h : mustStop p = false) : p.craneLocal = false := by
  unfold mustStop at h
  simp only [Bool.or_eq_false_iff] at h
  exact h.1.2

/-- The releasing flags spare the stretch (07 R127). -/
theorem settleReleases_stretchKept (c : Settings) (p : Part) : StretchKept c (settleReleases c p) := by
  intro fwd v x decision position free k on
  replace decision : p.span.decision = .go fwd v := decision
  replace position : p.position = some x := position
  have notLocal : p.craneLocal = false := craneLocal_false (p := settleReleases c p) free
  have keeps : keepsHold c p x k = true := by
    unfold keepsHold
    dsimp only
    rw [decision, on]
    rfl
  unfold settleReleases Part.spanAt
  simp only [List.getD_eq_getElem?_getD, List.getElem?_mapIdx]
  cases p.span.spans[k]? with
  | none => rfl
  | some y =>
    simp only [Option.map_some, Option.getD_some]
    split
    · simp [position, notLocal, keeps]
    · rfl

theorem formNotice_travelOk (h : TravelOk c p) (kept : StretchKept c p) : TravelOk c (formNotice c p) := by
  refine h.of (formNotice_sameTravel c p) fun fwd v x decision position free k on own => ?_
  rw [formNotice_spanAt, releaseDue_spanAt, if_neg]
  · exact own
  · rw [kept fwd v x decision position free k on]
    exact fun e => Bool.false_ne_true e.2

theorem formNotice_stretchKept (kept : StretchKept c p) : StretchKept c (formNotice c p) := by
  intro fwd v x decision position free k on
  rw [(formNotice_sameTravel c p).mustStop] at free
  rw [formNotice_spanAt, releaseDue_spanAt]
  split
  · rfl
  · exact kept fwd v x decision position free k on

/-- A claim opens on no span that is held or occupied, so the travel law is kept. -/
theorem openClaim_travelOk (h : TravelOk c p) (kept : StretchKept c p) : TravelOk c (openClaim c p) := by
  obtain same | ⟨q, t, k, opens, eq⟩ := openClaim_cases c p
  · rwa [same]
  · rw [eq]
    refine formNotice_travelOk (h.of ⟨rfl, rfl, rfl, rfl⟩ fun fwd v x _ _ _ j _ own => ?_) fun fwd v x decision position free j on => ?_
    · rw [claimOpened_spanAt]
      split
      · rename_i at_k
        rw [← at_k.1, (nextSpan_spec opens.next).2] at own
        rw [show Role.isHeld .none = false from rfl, Bool.or_false] at own
        simp [own]
      · exact own
    · have was := kept fwd v x decision position free j on
      rw [claimOpened_spanAt]
      split
      · rename_i at_k
        rw [at_k.1]
        exact was
      · exact was

/-- After `settle` the travel law holds, whatever stood before. -/
theorem settle_travelOk (c : Settings) (p : Part) : TravelOk c (settle c p) := by
  unfold settle settleSpans
  dsimp only
  generalize settleYield (withdrawClaims c _) = q
  have decided := travelDecision_travelOk c q
  generalize { q with span := { q.span with decision := travelDecision c q } } = r at decided
  have released : TravelOk c (settleReleases c r) := by
    refine decided.of ⟨rfl, rfl, rfl, rfl⟩ fun _ _ _ _ _ _ k _ own => ?_
    obtain ⟨role, occupied⟩ := settleReleases_role c r k
    rwa [role, occupied]
  have kept := settleReleases_stretchKept c r
  unfold noticeIfDue
  split
  · exact openClaim_travelOk (formNotice_travelOk released kept) (formNotice_stretchKept kept)
  · exact openClaim_travelOk released kept

end Sys2Proof.Machine
end

