-- ==== Sys2Proof/Proofs/EventLaws.lean ====
section
/-! PROOFS. Every event and every order of a running station keeps the laws of its blocks. -/
namespace Sys2Proof.Machine
open Sys2Proof

/-! ### Events of a running station -/

/-- What an event does as a whole: beside `Acts`, it keeps the law of the microstep count, that of CLASH, the travel law and the
claim law. -/
structure Event (c : Settings) (p q : Part) : Prop extends Acts c p q where
  caps : CapsInv p → CapsInv q
  rests : p.inClash = true → GensRest c p → GensRest c q
  travelLaw : TravelOk c p → TravelOk c q
  claimLaw : ClaimOk c p → ClaimOk c q

variable {c : Settings} {p q r : Part}

theorem Event.refl (c : Settings) (p : Part) : Event c p p := ⟨.refl c p, id, fun _ => id, id, id⟩

theorem Event.trans (h : Event c p q) (k : Event c q r) : Event c p r :=
  ⟨h.toActs.trans k.toActs, fun x => k.caps (h.caps x), fun x y => k.rests (h.inClash.trans x) (h.rests x y),
    fun x => k.travelLaw (h.travelLaw x), fun x => k.claimLaw (h.claimLaw x)⟩

theorem Event.foldl {α : Type} {f : Part → α → Part} (h : ∀ p x, Event c p (f p x)) (l : List α) (p : Part) :
    Event c p (l.foldl f p) := by
  induction l generalizing p with
  | nil => exact .refl c p
  | cons x l ih => exact (h p x).trans (ih _)

/-- Work that ends in `settle` is an event. -/
theorem Prepares.settle (h : Prepares c p q) : Event c p (settle c q) := by
  have acts := settle_act c q c
  have travelLaw := settle_travelOk c q
  have claimLaw : ClaimOk c p → ClaimOk c (Machine.settle c q) := fun x => settle_claimOk c (x.oneClaim.of h.claims)
  generalize Machine.settle c q = r at *
  exact ⟨h.toActs.trans acts.toActs, fun x => (h.caps x).of_travel acts.travel,
    fun x y => (h.rests x y).of_out acts.out, fun _ => travelLaw, claimLaw⟩

/-- Work that leaves what the travel law and the claim law read is an event. -/
theorem Prepares.calm (h : Prepares c p q) (span : q.span = p.span) (moves : q.moves = p.moves) (position : q.position = p.position) :
    Event c p q := by
  have sameTravel : SameTravel p q := by
    refine ⟨by rw [span], by rw [span], position, ?_⟩
    unfold mustStop Part.emergencyActive Part.craneFault Part.craneReady Part.craneLocal
    rw [h.emergency, h.inWarning, h.inClash, moves, span]
  have sameRoute : SameRoute p q := ⟨position, by rw [moves], by unfold Part.craneLocal; rw [moves], h.inClash⟩
  have spanAt (k : Nat) : q.spanAt k = p.spanAt k := by unfold Part.spanAt; rw [span]
  exact ⟨h.toActs, h.caps, h.rests, fun x => x.of sameTravel fun _ _ _ _ _ _ k _ own => by rwa [spanAt],
    fun x => x.of sameRoute h.claims⟩

theorem HeatAct.event (h : HeatAct c p q) (k : Prepares c p q) : Event c p q := k.calm h.span h.moves h.position

/-- A change of the clock, of the pins or of the scan unit. -/
theorem Acts.event (h : Acts c p q) (travel : q.travel = p.travel) (out : q.out = p.out) (span : q.span = p.span)
    (moves : q.moves = p.moves) : Event c p q :=
  (h.prepares travel out (by rw [span])).calm span moves (by unfold Part.position; rw [travel])

/-- A notice formed once the position is unknown. -/
theorem Event.formNotice (h : Event c p q) (unknown : q.position = none) : Event c p (formNotice c q) := by
  have acts := formNotice_act c q c
  refine ⟨h.toActs.trans acts.toActs, fun x => CapsInv.of_travel acts.travel (h.caps x),
    fun x y => GensRest.of_out acts.out (h.rests x y), fun x => formNotice_travelOk (h.travelLaw x) ?_,
    fun x => formNotice_claimOk (h.claimLaw x)⟩
  intro _ _ _ _ known
  rw [unknown] at known
  cases known

variable (c p)

theorem setClock_prepares (x : Clock) : Prepares c p { p with clock := x } := (Acts.ofClock c p x).prepares rfl rfl rfl
theorem setPins_prepares (x : Pins) : Prepares c p { p with pins := x } := (Acts.ofPins c p x).prepares rfl rfl rfl
theorem setClock_event (x : Clock) : Event c p { p with clock := x } := (Acts.ofClock c p x).event rfl rfl rfl rfl
theorem setPins_event (x : Pins) : Event c p { p with pins := x } := (Acts.ofPins c p x).event rfl rfl rfl rfl

theorem setScan_event (x : ScanUnit) (h1 : x.beds.length = p.scan.beds.length)
    (h2 : x.channels.length = p.scan.channels.length) : Event c p { p with scan := x } :=
  (Quiet.ofScan c p x h1 h2).toActs.event rfl rfl rfl rfl

/-! ### Works clock and scans -/

theorem secondWork_prepares : Prepares c p (secondWork c p) := by
  unfold secondWork
  refine .trans (.trans (.trans ?_ (mapPieces_prepares c _ _)) (testTimeout_prepares c _ _)) (testTimeout_prepares c _ _)
  exact ((Prepares.forAssigned (fun b x => closeWindow_prepares c x b) p).trans
    (.forAssigned (fun b x => evaluateStage_prepares c x b) _)).trans (.forAssigned (fun b x => formDemand_prepares c x b) _)

theorem secondPasses_event : Event c p (secondPasses c p) :=
  ((setClock_prepares c p _).trans (secondWork_prepares c _)).settle

theorem sampleBoundary_event : Event c p (sampleBoundary p) := by
  unfold sampleBoundary
  refine (setClock_event c p { p.clock with samplePhase := 0, sampleDue := false }).trans ?_
  generalize { p with clock := { p.clock with samplePhase := 0, sampleDue := false } } = q
  dsimp only
  split
  · exact setScan_event c q _ rfl rfl
  · split
    · exact setScan_event c q _ rfl rfl
    · exact .refl c q

theorem heatBoundary_event : Event c p (heatBoundary c { p with clock := { p.clock with heatPhase := 0, heatDue := false } }) :=
  (setClock_event c p _).trans ((heatBoundary_act c _).event (heatBoundary_prepares c _))

theorem handOn_event (interval endTime : Nat) {q : Part} (h : Prepares c p q) : Event c p (handOn c interval endTime q) :=
  (((h.trans (.forAssigned (fun b y => evaluateBed_prepares c y b) q)).trans (maturityTakes_prepares c _ _)).trans
    (bedsTake_prepares c _)).settle

theorem completeScan_event (run : ScanRun) (r1 r2 : Nat) (codes : List Code) : Event c p (completeScan c run r1 r2 codes p) := by
  have own := handOn_event c p (if run.initial then 0 else c.ts) run.endTime
    ((setScan_prepares c p { p.scan with run := none, evaluating := true } rfl rfl).trans (applyScan_prepares c _ r1 r2 codes))
  unfold completeScan
  dsimp only at own ⊢
  revert own
  generalize handOn c _ run.endTime _ = r
  intro own
  refine (own.trans (setScan_event c r { r.scan with skipped := [] } rfl rfl)).trans ?_
  exact .foldl (fun q t => handOn_event c q c.ts t (missAll_prepares c q)) _ _

theorem scanEnds_event (r1 r2 : Code) (codes : List Code) : Event c p (scanEnds r1 r2 codes c p) := by
  unfold scanEnds
  split
  · exact .refl c p
  · exact completeScan_event c p _ _ _ _

/-! ### Beds and heaters -/

theorem onAssigned_event {f : Settings → Part → Part} (h : Event c p (f c p)) (b : Nat) : Event c p (onAssigned b f c p) := by
  unfold onAssigned
  split
  · exact h
  · exact .refl c p

theorem evaluateStage_event (b : Nat) : Event c p (evaluateStage c b p) :=
  (evaluateStage_act c p c b).event (evaluateStage_prepares c p b)

theorem formDemand_event (b : Nat) : Event c p (formDemand c b p) := (formDemand_act c p b).event (formDemand_prepares c p b)

theorem formAgeTest_event (id : Nat) : Event c p (settle c (formAgeTest c id p)) := (updatePiece_prepares c p id _).settle

theorem acceptJack_prepares (b : Nat) (v : Bool) : Prepares c p (acceptJack b v p) :=
  (withBed_prepares c p b _ rfl).trans (setPins_prepares c _ _)

theorem jackChanges_event (b : Nat) (v : Bool) : Event c p (jackChanges b v c p) := by
  unfold jackChanges
  split
  · exact .refl c p
  · dsimp only
    refine Prepares.settle (.trans (acceptJack_prepares c p b v) ?_)
    split
    · exact enterDetensioned_prepares c _ b
    · exact .refl c _

theorem withGen_event (b : Nat) {f : Gen → Gen} (h : ∀ g : Gen, g.Rests → (f g).Rests) : Event c p (p.withGen b f) :=
  (withGen_act c p b f).event (withGen_prepares c p b h)

theorem periodStart_rests (g : Gen) (h : g.Rests) : g.periodStart.Rests := by
  obtain ⟨onTime, buffer⟩ := h
  unfold Gen.periodStart Gen.Rests
  obtain buffer | buffer := buffer <;> simp [buffer, onTime]

theorem pulseEnd_rests (period : Nat) (g : Gen) (h : g.Rests) : (g.pulseEnd period).Rests := by
  unfold Gen.pulseEnd
  split <;> exact h

theorem flowRises_event (b : Nat) : Event c p (flowRises b p) :=
  ((setFlow_act c p b _).event (setFlow_prepares c p b _)).trans (setPins_event c _ _)

/-! ### Runway -/

/-- The interpolator changes; its position and its count stand. -/
theorem setTravel_event (x : TravelUnit) (caps : CapsInv p → CapsInv { p with travel := x })
    (position : Part.position { p with travel := x } = p.position) : Event c p { p with travel := x } :=
  (setTravel_prepares c p x caps).calm rfl rfl position

theorem afterLoss_event (before : Part) {q : Part} (h : Prepares c p q) : Event c p (afterLoss c before q) := by
  unfold afterLoss
  split
  · rename_i lost
    rw [Bool.and_eq_true, Bool.not_eq_true'] at lost
    refine (h.trans (halt_prepares c q .positionFault)).settle.formNotice ?_
    rw [((halt_act c q _).trans (settle_act c _ c)).position]
    unfold Part.position
    rw [lost.2]
    rfl
  · exact h.settle

theorem trackSample_event (x y z : Bool) : Event c p (trackSample x y z c p) :=
  afterLoss_event c p p ((setPins_prepares c p _).trans (sampleTracks_prepares c _ _))

theorem trackSticks_event : Event c p (trackSticks c p) := by
  unfold trackSticks
  split
  · exact .refl c p
  · exact afterLoss_event c p p ((setTravel_prepares c p { p.travel with uniform := 200 } id).trans (sampleTracks_prepares c _ _))

theorem markRises_event : Event c p (markRises { p with pins := { p.pins with mark := true } }) :=
  (setPins_event c p _).trans (setTravel_event c _ _ id rfl)

theorem markEvent_event : Event c p (afterLoss c p (markFalls c { p with pins := { p.pins with mark := false } })) :=
  afterLoss_event c p p ((setPins_prepares c p _).trans (markFalls_prepares c _))

theorem referenceEdge_event : Event c p (referenceEdge c p) := by
  have edge : Event c p { p with travel := { p.travel with refLast := true }, pins := { p.pins with refsw := c.refHigh } } :=
    (setTravel_event c p { p.travel with refLast := true } id rfl).trans (setPins_event c _ _)
  unfold referenceEdge
  dsimp only
  split
  · exact edge.trans (reference_prepares c _).settle
  · exact edge

/-! ### Spans -/

theorem deadlinePasses_event : Event c p (deadlinePasses c p) := by
  unfold deadlinePasses
  split
  · exact ((setClock_prepares c p _).trans (decideClaim_prepares c _)).settle
  · exact .refl c p

theorem retryPasses_event (k : Nat) : Event c p (retryPasses k c p) := by
  unfold retryPasses
  split
  · exact (setClock_prepares c p _).settle
  · exact .refl c p

/-- The window of a claim opens; no span but that of the claim changes. -/
theorem openWindow_event (n : SpanNotice) : Event c p (openWindow c n p) := by
  have prepares := openWindow_prepares c p n
  have acts := openWindow_act c p c n
  suffices stands : (openWindow c n p).span = { p.span with spans := (openWindow c n p).span.spans }
      ∧ (openWindow c n p).moves = p.moves ∧ ∀ k, ((p.spanAt k).occupied || (p.spanAt k).role.isHeld) = true →
        (((openWindow c n p).spanAt k).occupied || ((openWindow c n p).spanAt k).role.isHeld) = true by
    obtain ⟨span, moves, own⟩ := stands
    refine ⟨acts.toActs, prepares.caps, prepares.rests, fun x => x.of ?_ fun _ _ _ _ _ _ k _ => own k,
      fun x => x.of (acts.sameRoute moves) prepares.claims⟩
    exact acts.sameTravel moves (by rw [span]) (by rw [span]) (by rw [span])
  unfold openWindow
  split
  · exact ⟨rfl, rfl, fun _ => id⟩
  · rename_i k _
    dsimp only
    split
    · rename_i role
      split
      · refine ⟨rfl, rfl, fun j own => ?_⟩
        rw [spanAt_setSpan]
        split
        · rename_i at_k
          rw [← at_k.1, role, show Role.isHeld (.claim ..) = false from rfl, Bool.or_false] at own
          rw [own]
          rfl
        · exact own
      · exact ⟨rfl, rfl, fun _ => id⟩
    · exact ⟨rfl, rfl, fun _ => id⟩

/-! ### Crane lines -/

theorem craneLevel_event (l : CraneLine) (v : Bool) : Event c p (craneLevel c l v p) := by
  unfold craneLevel
  dsimp only
  split
  · exact (acceptLevel_prepares c p l v).settle
  · split
    · exact .refl c p
    · exact (((acceptLevel_prepares c p l v).trans (report_prepares c _ _)).trans (craneEffect_prepares c _ l v)).settle

theorem firstAcceptance_event (l : CraneLine) (v : Bool) :
    Event c p (if (p.moves.crane l).seen then p else settle c (acceptLevel l v p)) := by
  split
  · exact .refl c p
  · exact (acceptLevel_prepares c p l v).settle

/-! ### Notices -/

theorem takeHeatNotice_event (src demand : Nat) : Event c p (takeHeatNotice c src demand p) :=
  (takeHeatNotice_act c p src demand).event (takeHeatNotice_prepares c p src demand)

end Sys2Proof.Machine

namespace Sys2Proof.Machine
open Sys2Proof

/-! ### Orders as events -/

variable (c : Settings) (p : Part)

/-- A reply that changes nothing. -/
theorem Event.of_eq {q : Part} (h : q = p) : Event c p q := h ▸ .refl c p

theorem refuse_event (r : Result) : Event c p (refuse r p).part := by
  dsimp only [refuse]
  with_reducible exact .refl c p

/-- An order that is carried out and ends in `settle`. -/
theorem Prepares.doneSettled {c : Settings} {p q : Part} (h : Prepares c p q) : Event c p (doneSettled c q).part := by
  dsimp only [Machine.doneSettled, done]
  with_reducible exact h.settle

theorem createPart_prepares (b : Nat) (es : List PartEntry) : Prepares c p (createPart c b es p) :=
  .foldl (fun q e => (createPiece_prepares c q b _ _ e).trans (withBed_prepares c _ b _ rfl)) es p

theorem startCast_prepares (b mix n : Nat) (es : List PartEntry) : Prepares c p (startCast c b mix n es p) :=
  (((((withBed_prepares c p b _ rfl).trans (setBedState_prepares c _ b _ _)).trans (clearBedRetired_prepares c _ b)).trans
    (zeroBed_prepares c _ b)).trans (createPart_prepares c _ b es)).trans (formDemand_prepares c _ b)

theorem continueCast_prepares (b : Nat) (es : List PartEntry) : Prepares c p (continueCast c b es p) :=
  (createPart_prepares c p b es).trans (withBed_prepares c _ b _ rfl)

theorem orderCastStart_event (ps : List Byte) : Event c p (orderCastStart ps c p).part := by
  unfold orderCastStart
  dsimp only
  split
  · exact refuse_event c p _
  · split_ifs
    iterate 5 exact refuse_event c p _
    · exact (startCast_prepares c p _ _ _ _).doneSettled
    · exact (continueCast_prepares c p _ _).doneSettled

theorem orderCastEnd_event (ps : List Byte) : Event c p (orderCastEnd ps c p).part := by
  unfold orderCastEnd
  dsimp only
  split_ifs
  · exact refuse_event c p _
  · exact refuse_event c p _
  · exact ((((withBed_prepares c p _ _ rfl).trans (setBedState_prepares c _ _ _ _)).trans
      (evaluateStage_prepares c _ _)).trans (evaluateRelease_prepares c _ _)).doneSettled

theorem orderDetension_event (ps : List Byte) : Event c p (orderDetension ps c p).part := by
  unfold orderDetension
  dsimp only
  split_ifs
  iterate 5 exact refuse_event c p _
  · exact (enterDetensioned_prepares c p _).doneSettled
  · exact (setBedState_prepares c p _ _ _).doneSettled

theorem orderHoldBed_event (ps : List Byte) : Event c p (orderHoldBed ps c p).part := by
  unfold orderHoldBed
  dsimp only
  split_ifs
  iterate 3 exact refuse_event c p _
  · exact ((HeatAct.withBed c p _ _ rfl).trans (.report c _ _)).event
      ((withBed_prepares c p _ _ rfl).trans (report_prepares c _ _))

theorem orderHoldPiece_event (ps : List Byte) : Event c p (orderHoldPiece ps c p).part := by
  unfold orderHoldPiece
  dsimp only
  split_ifs
  · exact refuse_event c p _
  · split
    · exact refuse_event c p _
    · split_ifs
      · exact refuse_event c p _
      · exact ((updatePiece_prepares c p _ _).trans (report_prepares c _ _)).doneSettled

theorem orderRetire_event (ps : List Byte) : Event c p (orderRetire ps c p).part := by
  unfold orderRetire
  dsimp only
  split_ifs
  iterate 4 exact refuse_event c p _
  · exact (((retireChannel_prepares c p _ _).trans (recomputeBed_prepares c _ _)).trans (formDemand_prepares c _ _)).doneSettled

theorem cancelMove_prepares (m : Move) (w : Report.RemoveCause) :
    Prepares c p ((removeMove m (releaseMark m.tag m.piece p)).report (.moveRemoved m w)) :=
  ((releaseMark_prepares c p _ _).trans (removeMove_prepares c _ m)).trans (report_prepares c _ _)

theorem clearBed_prepares (b : Nat) : Prepares c p (clearBed c b p) := by
  unfold clearBed
  dsimp only
  exact (((Prepares.foldl (fun q m => cancelMove_prepares c q m .clearBed) _ p).trans
    (.foldl (fun q i => removePiece_prepares c q i) _ _)).trans (reportIf_prepares c _ _ _)).trans
    ((withBed_prepares c _ b _ rfl).trans (enterEmpty_prepares c _ b _))

theorem orderClearBed_event (ps : List Byte) : Event c p (orderClearBed ps c p).part := by
  unfold orderClearBed
  dsimp only
  split_ifs
  iterate 3 exact refuse_event c p _
  · exact (clearBed_prepares c p _).doneSettled

theorem admitLift_prepares (x : Piece) (g : StackCfg) (lane n : Nat) : Prepares c p (admitLift c x g lane n p) :=
  ((setStackAt_prepares c p _ _).trans (updatePiece_prepares c _ _ _)).trans (enqueue_prepares c _ _)

theorem admitShip_prepares (x : Piece) (lane n : Nat) : Prepares c p (admitShip c x lane n p) :=
  ((setStackAt_prepares c p _ _).trans (updatePiece_prepares c _ _ _)).trans (enqueue_prepares c _ _)

theorem orderLift_event (ps : List Byte) : Event c p (orderLift ps c p).part := by
  unfold orderLift
  dsimp only
  split_ifs
  · exact refuse_event c p _
  · exact refuse_event c p _
  · split
    · exact refuse_event c p _
    · exact (admitLift_prepares c p _ _ _ _).doneSettled

theorem orderShip_event (ps : List Byte) : Event c p (orderShip ps c p).part := by
  unfold orderShip
  dsimp only
  split_ifs
  · exact refuse_event c p _
  · exact refuse_event c p _
  · split
    · exact refuse_event c p _
    · exact (admitShip_prepares c p _ _ _).doneSettled

theorem orderCancel_event (ps : List Byte) : Event c p (orderCancel ps c p).part := by
  unfold orderCancel
  dsimp only
  split_ifs
  · exact refuse_event c p _
  · split
    · exact refuse_event c p _
    · split_ifs
      · exact refuse_event c p _
      · exact refuse_event c p _
      · exact ((cancelMove_prepares c p _ .cancel).trans (setReturn_prepares c _)).doneSettled
      · exact (cancelMove_prepares c p _ .cancel).doneSettled

theorem orderResume_event (ps : List Byte) : Event c p (orderResume ps c p).part := by
  unfold orderResume
  dsimp only
  split
  · exact refuse_event c p _
  · split
    · exact refuse_event c p _
    · split
      · exact refuse_event c p _
      · split
        · exact refuse_event c p _
        · split
          · exact (enterTravel_prepares c p _ _ _).doneSettled
          · exact refuse_event c p _
          · exact (enterTravel_prepares c p _ _ _).doneSettled
          · split
            · exact (completeMove_prepares c p _ _).doneSettled
            · exact refuse_event c p _

theorem orderAux_event (ps : List Byte) : Event c p (orderAux ps c p).part := by
  unfold orderAux
  dsimp only
  split
  · exact refuse_event c p _
  · split_ifs
    · exact refuse_event c p _
    · exact (withAux_act c p c _ _ _).event (withAux_prepares c p c _ _ _)

theorem orderSpanFree_event (ps : List Byte) : Event c p (orderSpanFree ps c p).part := by
  unfold orderSpanFree
  dsimp only
  split_ifs
  · exact refuse_event c p _
  · exact refuse_event c p _
  · exact (freeSpan_prepares c p _).doneSettled

theorem orderClearFault_event (ps : List Byte) : Event c p (orderClearFault ps c p).part := by
  unfold orderClearFault
  dsimp only
  split_ifs
  · exact refuse_event c p _
  · exact refuse_event c p _
  · exact (((setFlow_act c p _ _).trans (.report c _ _)).trans (formDemand_act c _ _)).event
      (((setFlow_prepares c p _ _).trans (report_prepares c _ _)).trans (formDemand_prepares c _ _))

/-! ### Queries change nothing -/

theorem queryHeatState_part (ps : List Byte) : (queryHeatState ps c p).part = p := by unfold queryHeatState; dsimp only; split_ifs <;> rfl
theorem querySpans_part (ps : List Byte) : (querySpans ps c p).part = p := by unfold querySpans; dsimp only; split_ifs <;> rfl
theorem queryCranes_part (ps : List Byte) : (queryCranes ps c p).part = p := by unfold queryCranes; dsimp only; split_ifs <;> rfl
theorem queryPiece_part (ps : List Byte) : (queryPiece ps c p).part = p := by unfold queryPiece; dsimp only; split <;> rfl
theorem queryBed_part (ps : List Byte) : (queryBed ps c p).part = p := by unfold queryBed; dsimp only; split_ifs <;> rfl
theorem querySlots_part (ps : List Byte) : (querySlots ps c p).part = p := by unfold querySlots; dsimp only; split_ifs <;> rfl
theorem queryChannel_part (ps : List Byte) : (queryChannel ps c p).part = p := by unfold queryChannel; dsimp only; split_ifs <;> rfl
theorem queryStack_part (ps : List Byte) : (queryStack ps c p).part = p := by unfold queryStack; dsimp only; split <;> rfl
theorem queryRegister_part (ps : List Byte) : (queryRegister ps c p).part = p := by unfold queryRegister; dsimp only; split_ifs <;> rfl
theorem queryMoves_part (ps : List Byte) : (queryMoves ps c p).part = p := by unfold queryMoves; dsimp only; split_ifs <;> rfl

/-- Every order is an event of its block. -/
theorem order_event {i : Instr} {o : OrderForm} (h : orderOf i = some o) : Event c p (o.act c p).part := by
  cases i with
  | castStart _ _ ps => cases h; exact orderCastStart_event c p ps
  | castEnd _ _ ps => cases h; exact orderCastEnd_event c p ps
  | detension _ _ ps => cases h; exact orderDetension_event c p ps
  | holdBed _ _ ps => cases h; exact orderHoldBed_event c p ps
  | holdPiece _ _ ps => cases h; exact orderHoldPiece_event c p ps
  | retire _ _ ps => cases h; exact orderRetire_event c p ps
  | clearBed _ _ ps => cases h; exact orderClearBed_event c p ps
  | lift _ _ ps => cases h; exact orderLift_event c p ps
  | ship _ _ ps => cases h; exact orderShip_event c p ps
  | cancel _ _ ps => cases h; exact orderCancel_event c p ps
  | resume _ _ ps => cases h; exact orderResume_event c p ps
  | aux _ _ ps => cases h; exact orderAux_event c p ps
  | spanFree _ _ ps => cases h; exact orderSpanFree_event c p ps
  | clearFault _ _ ps => cases h; exact orderClearFault_event c p ps
  | queryHeatState _ _ ps => cases h; exact .of_eq c p (queryHeatState_part c p ps)
  | queryOutputState _ _ _ => cases h; exact .refl c p
  | queryRunwayPosition _ _ _ => cases h; exact .refl c p
  | querySpans _ _ ps => cases h; exact .of_eq c p (querySpans_part c p ps)
  | queryCranes _ _ ps => cases h; exact .of_eq c p (queryCranes_part c p ps)
  | queryPiece _ _ ps => cases h; exact .of_eq c p (queryPiece_part c p ps)
  | queryBed _ _ ps => cases h; exact .of_eq c p (queryBed_part c p ps)
  | querySlots _ _ ps => cases h; exact .of_eq c p (querySlots_part c p ps)
  | queryChannel _ _ ps => cases h; exact .of_eq c p (queryChannel_part c p ps)
  | queryStack _ _ ps => cases h; exact .of_eq c p (queryStack_part c p ps)
  | queryRegister _ _ ps => cases h; exact .of_eq c p (queryRegister_part c p ps)
  | queryMoves _ _ ps => cases h; exact .of_eq c p (queryMoves_part c p ps)
  | queryLineState _ _ _ => cases h; exact .refl c p
  | _ => cases h

end Sys2Proof.Machine
end

