-- ==== Sys2Proof/Proofs/Keeping.lean ====
section
/-! PROOFS. What a step keeps: every invariant of the part, over work of a running station, of the line interface and of what surrounds the plant. -/
namespace Sys2Proof.Machine
open Sys2Proof

/-! ### What a step keeps -/

/-- Every invariant that `p` has, `q` has too. The run state and the line are bounded together. -/
structure Keeps (p q : Part) : Prop where
  shape : ShapeInv p → ShapeInv q
  line : RunInv p → LineInv p → RunInv q ∧ LineInv q
  grant : GrantInv p → GrantInv q
  clash : ClashInv p → ClashInv q
  caps : CapsInv p → CapsInv q
  travel : TravelInv p → TravelInv q
  claim : ClaimInv p → ClaimInv q

variable {c : Settings} {p q r : Part}

theorem Keeps.refl (p : Part) : Keeps p p := ⟨id, And.intro, id, id, id, id, id⟩

theorem Keeps.trans (h : Keeps p q) (k : Keeps q r) : Keeps p r :=
  ⟨fun x => k.shape (h.shape x), fun x y => k.line (h.line x y).1 (h.line x y).2, fun x => k.grant (h.grant x),
    fun x => k.clash (h.clash x), fun x => k.caps (h.caps x), fun x => k.travel (h.travel x), fun x => k.claim (h.claim x)⟩

/-- What a block does only while the station runs keeps every invariant if it does so there. -/
theorem Keeps.onRunning {f : Settings → Part → Part} (h : ∀ c, p.runs c → Keeps p (f c p)) : Keeps p (p.onRunning f) := by
  unfold Part.onRunning
  split
  · rename_i c run config
    exact h c ⟨run, config⟩
  · exact .refl p

/-! ### The invariants of a running station -/

theorem Part.runs.unique {d : Settings} (h : p.runs c) (k : p.runs d) : d = c := by
  have := k.2
  rw [h.2] at this
  exact (Option.some.inj this).symm

theorem grantInv_iff (h : p.runs c) : GrantInv p ↔ GrantOk c p := by
  constructor
  · exact fun g => g.2 c h.2
  · refine fun g => ⟨fun idle => ?_, fun d hd => h.unique ⟨h.1, hd⟩ ▸ g⟩
    rcases idle with stopped | unconfigured
    · exact absurd h.1 stopped
    · rw [h.2] at unconfigured
      cases unconfigured

theorem clashInv_iff (h : p.runs c) : ClashInv p ↔ (p.inClash = true → GensRest c p) :=
  ⟨fun k => k c h, fun k _ hd => h.unique hd ▸ k⟩

theorem travelInv_iff (h : p.runs c) : TravelInv p ↔ TravelOk c p := by
  constructor
  · intro k fwd v go
    obtain ⟨d, x, runs, position, free, allowed⟩ := k fwd v go
    obtain rfl := h.unique runs
    exact ⟨x, position, free, allowed⟩
  · intro k fwd v go
    obtain ⟨x, position, free, allowed⟩ := k fwd v go
    exact ⟨c, x, h, position, free, allowed⟩

theorem claimInv_iff (h : p.runs c) : ClaimInv p ↔ ClaimOk c p :=
  ⟨fun k => k c h, fun k _ hd => h.unique hd ▸ k⟩

theorem grantInv_idle (g : p.heat.grant = 0) : GrantInv p :=
  ⟨fun _ => g, fun c _ => ⟨by rw [g]; exact Nat.zero_le _, fun n => absurd g n⟩⟩

/-- A station that does not run configured has no grant. -/
theorem grant_of_idle (h : ∀ c, ¬ p.runs c) (g : GrantInv p) : p.heat.grant = 0 := by
  refine g.1 ?_
  by_contra running
  push Not at running
  obtain ⟨c, hc⟩ := Option.ne_none_iff_exists'.mp running.2
  exact h c ⟨running.1, hc⟩

/-- The travel decision of a station that does not run configured is stop. -/
theorem travelInv_idle (h : ∀ c, ¬ p.runs c) : TravelInv p ↔ ∀ fwd k, p.span.decision ≠ .go fwd k :=
  ⟨fun t fwd k go => by
      obtain ⟨c, _, runs, _⟩ := t fwd k go
      exact h c runs,
    fun t fwd k go => absurd go (t fwd k)⟩

/-! ### The line interface -/

/-- The counters keep their limit (10 R192). -/
def Counters.bounded (k : Counters) : Prop :=
  k.valid ≤ 65535 ∧ k.badCheck ≤ 65535 ∧ k.badHeader ≤ 65535 ∧ k.framing ≤ 65535 ∧ k.payload ≤ 65535 ∧ k.lost ≤ 65535
    ∧ k.bitErrors ≤ 65535 ∧ k.answersDropped ≤ 65535 ∧ k.ordersInClash ≤ 65535 ∧ k.sent ≤ 65535

/-- Work of the line interface that keeps its bounds, and puts nothing but answers where there was nothing else. -/
structure Fits (l m : LineUnit) : Prop where
  bounded : l.bounded → m.bounded
  answersOnly : l.answersOnly → m.answersOnly
  noReport : l.answersOnly → l.reports = [] → m.reports = []

theorem Fits.refl (l : LineUnit) : Fits l l := ⟨id, id, fun _ => id⟩

variable {l m n : LineUnit}

theorem Fits.trans (h : Fits l m) (k : Fits m n) : Fits l n :=
  ⟨fun x => k.bounded (h.bounded x), fun x => k.answersOnly (h.answersOnly x),
    fun x y => k.noReport (h.answersOnly x) (h.noReport x y)⟩

/-- A change outside what the bounds speak of. -/
theorem Fits.of_eq (h : m = { l with clash := m.clash, stuck := m.stuck, waitIdle := m.waitIdle, restart := m.restart }) :
    Fits l m := by
  rw [h]
  exact ⟨id, id, fun _ => id⟩

theorem Fits.counters {f : Counters → Counters} (hf : ∀ k : Counters, k.bounded → (f k).bounded) (l : LineUnit) :
    Fits l { l with counters := f l.counters } := by
  refine ⟨fun ⟨answers, reports, dropped, low, high, counters⟩ => ⟨answers, reports, dropped, low, high, hf _ counters⟩, id,
    fun _ => id⟩

theorem Fits.takeOffered (l : LineUnit) : Fits l l.takeOffered := by
  unfold LineUnit.takeOffered
  split
  · rename_i fr contending held
    cases fr with
    | heat _ | span _ => exact ⟨fun ⟨h1, h2⟩ => ⟨h1, h2⟩, fun ⟨_, _, only⟩ => (nomatch only _ held), fun ⟨_, _, only⟩ => (nomatch only _ held)⟩
    | answer a =>
      refine ⟨fun ⟨answers, rest⟩ => ⟨?_, rest⟩, fun ⟨heat, span, only⟩ => ⟨heat, span, fun x hx => ?_⟩, fun _ => id⟩
      · exact Nat.le_trans (List.drop_sublist 1 _).length_le answers
      · cases hx
        exact ⟨a, rfl⟩
    | report _ _ =>
      refine ⟨fun ⟨answers, reports, rest⟩ => ⟨answers, ?_, rest⟩, fun ⟨_, _, only⟩ => (nomatch only _ held),
        fun ⟨_, _, only⟩ => (nomatch only _ held)⟩
      exact Nat.le_trans (List.drop_sublist 1 _).length_le reports
  · exact .refl l

theorem sat_le (lim n : Nat) : sat lim n ≤ lim := Nat.min_le_left _ _

theorem Fits.dropAnswer (a : Answer) (l : LineUnit) : Fits l (l.dropAnswer a) := by
  refine ⟨fun ⟨answers, reports, dropped, low, high, k1, k2, k3, k4, k5, k6, k7, _, k9, k10⟩ =>
    ⟨answers, reports, dropped, low, high, k1, k2, k3, k4, k5, k6, k7, sat_le _ _, k9, k10⟩, id, fun _ => id⟩

theorem Fits.placeAnswer (a : Answer) (l : LineUnit) : Fits l (l.placeAnswer a) := by
  refine (Fits.takeOffered l).trans ?_
  unfold LineUnit.placeAnswer
  dsimp only
  split
  · rename_i room
    refine ⟨fun ⟨_, rest⟩ => ⟨?_, rest⟩, id, fun _ => id⟩
    rw [List.length_append]
    exact room
  · exact .dropAnswer a _

/-- A placement keeps the bounds. -/
theorem placeReport_bounded (r : Report) (h : l.bounded) : (l.placeReport r).bounded := by
  obtain ⟨answers, reports, dropped, rest⟩ := (Fits.takeOffered l).bounded h
  unfold LineUnit.placeReport
  dsimp only
  split
  · rename_i room
    refine ⟨answers, ?_, dropped, rest⟩
    rw [List.length_append]
    exact room
  · refine ⟨answers, ?_, sat_le _ _, rest⟩
    rw [List.length_append, List.length_drop, List.length_singleton]
    omega

theorem Placed.bounded (h : Placed l m) (k : l.bounded) : m.bounded := by
  induction h with
  | refl => exact k
  | report _ r ih => exact placeReport_bounded r ih
  | heat _ _ ih => exact (Fits.takeOffered _).bounded ih
  | span _ _ ih => exact (Fits.takeOffered _).bounded ih

/-- The dropped count keeps its limit whatever becomes of it. -/
theorem Fits.dropped (l : LineUnit) {n : Nat} (h : l.dropped ≤ 255 → n ≤ 255) : Fits l { l with dropped := n } :=
  ⟨fun ⟨answers, reports, dropped, rest⟩ => ⟨answers, reports, h dropped, rest⟩, id, fun _ => id⟩

theorem Fits.txNone (l : LineUnit) : Fits l { l with tx := none } :=
  ⟨id, fun ⟨heat, span, _⟩ => ⟨heat, span, fun _ h => nomatch h⟩, fun _ => id⟩

theorem Fits.restartOver (fr : TxFrame) (l : LineUnit) : Fits l (l.restartOver fr) := by
  unfold LineUnit.restartOver
  split
  · split
    · exact .of_eq rfl
    · exact .refl l
  · exact .refl l

/-- An answer goes back to its queue. -/
theorem Fits.putBack_answer (a : Answer) (l : LineUnit) : Fits l (l.putBack (.answer a)) := by
  unfold LineUnit.putBack
  dsimp only
  split
  · rename_i room
    exact ⟨fun ⟨_, rest⟩ => ⟨room, rest⟩, id, fun _ => id⟩
  · split
    · rename_i b last
      refine Fits.trans (m := { l with answers := a :: l.answers.dropLast }) ?_ (.dropAnswer b _)
      refine ⟨fun ⟨answers, rest⟩ => ⟨?_, rest⟩, id, fun _ => id⟩
      have some : l.answers ≠ [] := by
        intro none
        rw [none] at last
        cases last
      have := List.length_pos_iff.mpr some
      rw [List.length_cons, List.length_dropLast]
      omega
    · exact .refl l

/-- A frame that goes back to its place keeps the bounds. -/
theorem putBack_bounded (fr : TxFrame) (h : l.bounded) : (l.putBack fr).bounded := by
  cases fr with
  | answer a => exact (Fits.putBack_answer a l).bounded h
  | heat n | span n =>
    unfold LineUnit.putBack
    dsimp only
    split
    · exact h
    · exact h
  | report r _ =>
    unfold LineUnit.putBack
    dsimp only
    obtain ⟨answers, reports, dropped, rest⟩ := h
    split
    · rename_i room
      exact ⟨answers, room, dropped, rest⟩
    · exact ⟨answers, reports, sat_le _ _, rest⟩

/-- What the transmitter takes up is a waiting answer, where nothing else waits. -/
theorem firstWaiting_answer (h : l.answersOnly) (k : l.reports = []) {fr : TxFrame} (hf : firstWaiting l = some fr) :
    ∃ a, fr = .answer a := by
  obtain ⟨heat, span, _⟩ := h
  unfold firstWaiting at hf
  rw [heat, span, k] at hf
  cases answers : l.answers with
  | nil => rw [answers] at hf; cases hf
  | cons a _ => rw [answers] at hf; cases hf; exact ⟨a, rfl⟩

end Sys2Proof.Machine

namespace Sys2Proof.Machine
open Sys2Proof

/-! ### Changes outside the plant -/

/-- What surrounds the plant has changed: neither the run state, the demands, the grant, the generators nor the span unit. -/
structure Environ (p q : Part) : Prop where
  run : q.run = p.run
  config : q.config = p.config
  supply : q.supply.state = .reset → p.supply.state = .reset
  shape : ShapeInv p → ShapeInv q
  line : LineInv p → LineInv q
  beds : q.beds = p.beds
  grant : q.heat.grant = p.heat.grant
  list : q.heat.list = p.heat.list
  gens : q.out.gens = p.out.gens
  caps : CapsInv p → CapsInv q
  span : q.span = p.span

/-- Besides, nothing has changed that the travel law and the claim law read. -/
structure Still (p q : Part) : Prop extends Environ p q where
  route : SameRoute p q
  mustStop : mustStop q = mustStop p

variable {c : Settings} {p q r : Part}

theorem Part.runs.of (h : p.runs c) (run : q.run = p.run) (config : q.config = p.config) : q.runs c :=
  ⟨run.trans h.1, config.trans h.2⟩

theorem Environ.runs (h : Environ p q) : q.runs c ↔ p.runs c := by
  unfold Part.runs
  rw [h.run, h.config]

theorem Environ.runInv (h : Environ p q) (k : RunInv p) : RunInv q := by
  unfold RunInv at *
  rw [h.run, h.config]
  exact ⟨k.1, fun x => k.2 (h.supply x)⟩

theorem Environ.grantOk (h : Environ p q) (k : GrantOk c p) : GrantOk c q := by
  unfold GrantOk totalDemand Part.bed at *
  rwa [h.beds, h.grant, h.list]

theorem Environ.grantInv (h : Environ p q) (k : GrantInv p) : GrantInv q := by
  refine ⟨fun idle => ?_, fun c config => h.grantOk (k.2 c (h.config ▸ config))⟩
  rw [h.grant]
  rw [h.run, h.config] at idle
  exact k.1 idle

theorem Environ.spanAt (h : Environ p q) (k : Nat) : q.spanAt k = p.spanAt k := by
  unfold Part.spanAt
  rw [h.span]

/-- A station that does not run keeps every invariant, whatever surrounds it. -/
theorem Environ.keeps_idle (h : Environ p q) (idle : ∀ c, ¬ p.runs c) : Keeps p q := by
  have idle' (c : Settings) : ¬ q.runs c := fun k => idle c (h.runs.mp k)
  refine ⟨h.shape, fun x y => ⟨h.runInv x, h.line y⟩, h.grantInv, fun _ c k => absurd k (idle' c), h.caps, fun x => ?_,
    fun _ c k => absurd k (idle' c)⟩
  rw [travelInv_idle idle', h.span]
  exact (travelInv_idle idle).mp x

/-- After a change outside the plant the blocks of a running station act on it, up to `settle`. -/
theorem Environ.keeps_settle (h : Environ p q) (runs : p.runs c) (acts : Prepares c q r)
    (rests : q.inClash = true → (p.inClash = true → GensRest c q) → GensRest c r) : Keeps p (settle c r) := by
  have event := acts.settle
  have travelLaw := settle_travelOk c r
  have claimLaw : OneClaim r → ClaimOk c (settle c r) := settle_claimOk c
  have quiet := settle_act c r c
  generalize settle c r = x at *
  have runs' : x.runs c := runs.of (event.run.trans h.run) (event.config.trans h.config)
  refine ⟨fun k => ?_, fun k l => ⟨?_, ?_⟩, fun k => ?_, fun k => ?_, fun k => event.caps (h.caps k),
    fun _ => (travelInv_iff runs').mpr travelLaw, fun k => ?_⟩
  · obtain ⟨shaped, mem, writing, flush⟩ := h.shape k
    refine ⟨event.shape shaped, ?_⟩
    rw [event.mem]
    exact ⟨mem, writing, flush⟩
  · have := h.runInv k
    unfold RunInv at *
    rwa [event.run, event.config, event.supply]
  · exact ⟨event.placed.bounded (h.line l).1, fun none => absurd (runs'.2.symm.trans none) (by simp)⟩
  · exact (grantInv_iff runs').mpr (event.grant (h.grantOk ((grantInv_iff runs).mp k)))
  · refine (clashInv_iff runs').mpr fun clash => (rests (event.inClash ▸ clash) fun before => ?_).of_out quiet.out
    exact ((clashInv_iff runs).mp k before).of_gens h.gens
  · refine (claimInv_iff runs').mpr (claimLaw ?_)
    exact ((claimInv_iff runs).mp k).oneClaim.of fun j hj => h.spanAt j ▸ acts.claims j hj

/-- An event of a running station keeps every invariant. -/
theorem Event.keeps (h : Event c p q) (runs : p.runs c) : Keeps p q := by
  have runs' : q.runs c := runs.of h.run h.config
  refine ⟨fun ⟨shaped, mem⟩ => ⟨h.shape shaped, by rwa [h.mem]⟩, fun x y => ⟨?_, ?_⟩, ?_, ?_, h.caps, ?_, ?_⟩
  · unfold RunInv at *
    rwa [h.run, h.config, h.supply]
  · exact ⟨h.placed.bounded y.1, fun none => absurd (runs'.2.symm.trans none) (by simp)⟩
  · rw [grantInv_iff runs, grantInv_iff runs']
    exact h.grant
  · rw [clashInv_iff runs, clashInv_iff runs', h.inClash]
    exact fun x clash => h.rests clash (x clash)
  · rw [travelInv_iff runs, travelInv_iff runs']
    exact h.travelLaw
  · rw [claimInv_iff runs, claimInv_iff runs']
    exact h.claimLaw

/-- Work that touches no invariant. -/
theorem Still.keeps (h : Still p q) : Keeps p q := by
  refine ⟨h.shape, fun x y => ⟨h.runInv x, h.line y⟩, h.grantInv, fun k c runs clash => ?_, h.caps, fun k => ?_, fun k c runs => ?_⟩
  · exact GensRest.of_gens h.gens (k c (h.runs.mp runs) (h.route.inClash ▸ clash))
  · intro fwd v go
    rw [h.span] at go
    obtain ⟨c, x, runs, position, free, allowed⟩ := k fwd v go
    refine ⟨c, x, h.runs.mpr runs, h.route.position.trans position, h.mustStop.trans free, ?_⟩
    unfold permitted spansOwn envelopes Part.spanAt at *
    rwa [h.span]
  · exact ClaimOk.of (k c (h.runs.mp runs)) h.route (claims_of_spans (by rw [h.span]))

end Sys2Proof.Machine

namespace Sys2Proof.Machine
open Sys2Proof

variable {c : Settings} {p q r : Part}

/-- A change outside the plant, on which the blocks of a running station then act. -/
theorem Environ.keeps_onRunning (h : Environ p q) {f : Settings → Part → Part} (k : ∀ c, p.runs c → Keeps p (f c q)) :
    Keeps p (q.onRunning f) := by
  by_cases runs : ∃ c, q.runs c
  · obtain ⟨c, runs⟩ := runs
    rw [onRunning_of_runs runs]
    exact k c (h.runs.mp runs)
  · have idle : q.onRunning f = q := by
      unfold Part.onRunning
      split
      · rename_i c run config
        exact absurd ⟨c, run, config⟩ runs
      · rfl
    rw [idle]
    exact h.keeps_idle fun c hc => runs ⟨c, h.runs.mpr hc⟩

/-! ### The line interface -/

theorem LineInv.of_fits {l : LineUnit} (h : Fits p.line l) (k : LineInv p) : LineInv { p with line := l } :=
  ⟨h.bounded k.1, fun none => ⟨h.answersOnly (k.2 none).1, fun run => h.noReport (k.2 none).1 ((k.2 none).2 run)⟩⟩

/-- Work of the line interface alone. -/
theorem Still.ofLine {l : LineUnit} (h : LineInv p → LineInv { p with line := l }) (clash : l.clash.isSome = p.line.clash.isSome) :
    Still p { p with line := l } := by
  refine ⟨⟨rfl, rfl, id, id, h, rfl, rfl, rfl, rfl, id, rfl⟩, ⟨rfl, rfl, rfl, clash⟩, ?_⟩
  unfold Machine.mustStop Part.inClash
  dsimp only
  rw [clash]
  rfl

theorem Still.ofFits {l : LineUnit} (h : Fits p.line l) (clash : l.clash.isSome = p.line.clash.isSome) :
    Still p { p with line := l } := .ofLine (LineInv.of_fits h) clash

theorem count_still {f : Counters → Counters} (hf : ∀ k : Counters, k.bounded → (f k).bounded) (p : Part) :
    Still p (p.count f) := .ofFits (.counters hf p.line) rfl

theorem addValid_bounded (k : Counters) (h : k.bounded) : k.addValid.bounded := by
  obtain ⟨_, rest⟩ := h
  exact ⟨sat_le _ _, rest⟩
theorem addCheck_bounded (k : Counters) (h : k.bounded) : k.addCheck.bounded := by
  obtain ⟨h1, _, rest⟩ := h
  exact ⟨h1, sat_le _ _, rest⟩
theorem addHeader_bounded (k : Counters) (h : k.bounded) : k.addHeader.bounded := by
  obtain ⟨h1, h2, _, rest⟩ := h
  exact ⟨h1, h2, sat_le _ _, rest⟩
theorem addFraming_bounded (k : Counters) (h : k.bounded) : k.addFraming.bounded := by
  obtain ⟨h1, h2, h3, _, rest⟩ := h
  exact ⟨h1, h2, h3, sat_le _ _, rest⟩
theorem addPayload_bounded (k : Counters) (h : k.bounded) : k.addPayload.bounded := by
  obtain ⟨h1, h2, h3, h4, _, rest⟩ := h
  exact ⟨h1, h2, h3, h4, sat_le _ _, rest⟩
theorem addLost_bounded (k : Counters) (h : k.bounded) : k.addLost.bounded := by
  obtain ⟨h1, h2, h3, h4, h5, _, rest⟩ := h
  exact ⟨h1, h2, h3, h4, h5, sat_le _ _, rest⟩
theorem addBitError_bounded (k : Counters) (h : k.bounded) : k.addBitError.bounded := by
  obtain ⟨h1, h2, h3, h4, h5, h6, _, rest⟩ := h
  exact ⟨h1, h2, h3, h4, h5, h6, sat_le _ _, rest⟩
theorem addInClash_bounded (k : Counters) (h : k.bounded) : k.addInClash.bounded := by
  obtain ⟨h1, h2, h3, h4, h5, h6, h7, h8, _, rest⟩ := h
  exact ⟨h1, h2, h3, h4, h5, h6, h7, h8, sat_le _ _, rest⟩
theorem addSent_bounded (k : Counters) (h : k.bounded) : k.addSent.bounded := by
  obtain ⟨h1, h2, h3, h4, h5, h6, h7, h8, h9, _⟩ := h
  exact ⟨h1, h2, h3, h4, h5, h6, h7, h8, h9, sat_le _ _⟩

theorem hear_keeps (p : Part) : Keeps p (hear p) :=
  .onRunning fun _ _ => Still.keeps ⟨⟨rfl, rfl, id, id, id, rfl, rfl, rfl, rfl, id, rfl⟩, ⟨rfl, rfl, rfl, rfl⟩, rfl⟩

theorem answer_keeps (src tag : Byte) (restart : Bool) (x : Reply) : Keeps x.part (answer src tag restart x) := by
  refine Still.keeps (.ofFits (.placeAnswer _ _) ?_)
  unfold LineUnit.placeAnswer LineUnit.dropAnswer
  have clash := (takeOffered_keeps x.part.line).clash
  dsimp only
  split <;> exact congrArg Option.isSome clash

/-! ### The clash rule and the exit from CLASH -/

theorem clashRule_keeps (p : Part) : Keeps p (clashRule p) := by
  unfold clashRule
  dsimp only
  split
  · rename_i k before
    exact Still.keeps (.ofFits (.of_eq rfl) (by rw [before]; rfl))
  · rename_i before
    have environ (x : Clash) : Environ p { p with line := { p.line with clash := some x } } :=
      ⟨rfl, rfl, id, id, LineInv.of_fits (.of_eq rfl), rfl, rfl, rfl, rfl, id, rfl⟩
    refine (environ _).keeps_onRunning fun c runs => ?_
    unfold enterClash
    refine (environ _).keeps_settle runs ((computeGrant_prepares c _ []).trans (halt_prepares c _ _)) fun _ _ => ?_
    exact (computeGrant_rests [] rfl).of_out (halt_act c _ .craneFault).out

theorem placeReport_answersOnly {l : LineUnit} (x : Report) (h : l.answersOnly) : (l.placeReport x).answersOnly := by
  have only := (Fits.takeOffered l).answersOnly h
  unfold LineUnit.placeReport
  dsimp only
  split <;> exact only

theorem reportConfigured_still (x : Report) (p : Part) : Still p (reportConfigured x p) := by
  unfold reportConfigured Part.reportIf
  split
  · rename_i may
    refine .ofLine (fun ⟨bounded, plain⟩ => ⟨placeReport_bounded x bounded, fun none => ?_⟩) ?_
    · obtain ⟨only, empty⟩ := plain none
      refine ⟨placeReport_answersOnly x only, fun later => absurd may ?_⟩
      dsimp only at later none
      simp [none, later]
    · rw [(placeReport_keeps p.line x).clash]
  · exact ⟨⟨rfl, rfl, id, id, id, rfl, rfl, rfl, rfl, id, rfl⟩, .refl p, rfl⟩

theorem Environ.still (h : Environ p q) (k : Still q r) : Environ p r :=
  ⟨k.run.trans h.run, k.config.trans h.config, fun x => h.supply (k.supply x), fun x => k.shape (h.shape x),
    fun x => k.line (h.line x), k.beds.trans h.beds, k.grant.trans h.grant, k.list.trans h.list, k.gens.trans h.gens,
    fun x => k.caps (h.caps x), k.span.trans h.span⟩

theorem leaveClash_keeps (p : Part) : Keeps p (leaveClash p) := by
  unfold leaveClash
  dsimp only
  split
  · exact .refl p
  · rename_i k before
    have cleared : Environ p { p with clock := { p.clock with ms := max p.clock.ms k.endMs }, line := { p.line with clash := none } } :=
      ⟨rfl, rfl, id, id, LineInv.of_fits (.of_eq rfl), rfl, rfl, rfl, rfl, id, rfl⟩
    have still := fun x => reportConfigured_still x
      { p with clock := { p.clock with ms := max p.clock.ms k.endMs }, line := { p.line with clash := none } }
    refine (cleared.still (still _)).keeps_onRunning fun c runs => ?_
    refine (cleared.still (still _)).keeps_settle runs (computeGrant_prepares c _ []) fun clash => ?_
    rw [(still _).route.inClash] at clash
    cases clash

end Sys2Proof.Machine
end

