-- ==== Sys2Proof/Proofs/LineAndSupply.lean ====
section
/-! PROOFS. The line interface, the memory port, the emergency input, the supply and the resets keep every invariant. -/
namespace Sys2Proof.Machine
open Sys2Proof

variable {c : Settings} {p q r : Part}

/-! ### Frames received -/

theorem hear_run (p : Part) : (hear p).run = p.run := by
  unfold hear Part.onRunning
  split <;> rfl

theorem receiveWhen_keeps {dispatch : Part → Part} (h : ∀ q, q.run = .running → Keeps q (dispatch q)) (arrives : Bool)
    (src : Byte) (p : Part) : Keeps p (receiveWhen arrives src dispatch p) := by
  unfold receiveWhen
  split
  · refine (count_still addValid_bounded p).keeps.trans ?_
    dsimp only
    split_ifs with own running
    · exact clashRule_keeps _
    · exact (hear_keeps _).trans (h _ ((hear_run _).trans running))
    · exact .refl _
  · exact .refl p

theorem receive_keeps {dispatch : Part → Part} (h : ∀ q, q.run = .running → Keeps q (dispatch q)) (src : Byte) (p : Part) :
    Keeps p (receive src dispatch p) := receiveWhen_keeps h _ src p

theorem routeOrder_keeps {act : Settings → Part → Reply} (h : ∀ c q, Event c q (act c q).part) (src tag : Byte) (need : Nat)
    (ps : List Byte) (run : p.run = .running) : Keeps p (routeOrder src tag need ps act p) := by
  unfold routeOrder
  split
  · exact (count_still addInClash_bounded p).keeps
  · split
    · exact .refl p
    · split
      · exact answer_keeps src tag false (refuse .unconfigured p)
      · rename_i c config
        refine Keeps.trans ?_ (answer_keeps src tag false _)
        split
        · exact .refl p
        · exact (h c p).keeps ⟨run, config⟩

theorem takeOrder_keeps {i : Instr} {o : OrderForm} (h : orderOf i = some o) (p : Part) :
    Keeps p (takeOrder o.src o.tag o.need o.params o.act p) :=
  receive_keeps (fun _ run => routeOrder_keeps (fun c q => order_event c q h) _ _ _ _ run) o.src p

theorem routeRestart_keeps (src tag : Byte) (p : Part) : Keeps p (routeRestart src tag p) := by
  unfold routeRestart
  split
  · exact (count_still addInClash_bounded p).keeps
  · split
    · exact .refl p
    · refine Keeps.trans ?_ (answer_keeps src tag true _)
      exact Still.keeps (.ofFits (.of_eq rfl) rfl)

theorem heatPayload_keeps (src : Byte) (payload : List Byte) (p : Part) : Keeps p (heatPayload src payload p) := by
  refine .onRunning fun c runs => ?_
  split
  · exact (takeHeatNotice_event c p _ _).keeps runs
  · exact .refl p

theorem spanPayload_keeps (src : Byte) (payload : List Byte) (p : Part) : Keeps p (spanPayload src payload p) := by
  unfold spanPayload
  split
  · exact .refl p
  · exact (count_still addPayload_bounded p).keeps
  · exact .onRunning fun c runs => (takeSpanNotice_prepares c p _ _).settle.keeps runs

theorem routeCommand_keeps {payload : List Byte} {src : Byte} {i : Instr} (named : readOrder src payload = some i)
    (run : p.run = .running) : Keeps p (routeCommand i p) := by
  rcases readOrder_names named with ⟨o, order, _⟩ | ⟨tag, ps, rfl⟩
  · rw [routeCommand_order order]
    exact routeOrder_keeps (fun c q => order_event c q order) _ _ _ _ run
  · exact routeRestart_keeps src tag p

theorem routeFrame_keeps (src : Byte) (payload : List Byte) (run : p.run = .running) : Keeps p (routeFrame src payload p) := by
  unfold routeFrame
  split
  · split
    · rename_i i named
      exact routeCommand_keeps named run
    · exact routeOrder_keeps (fun c q => refuse_event c q .range) _ _ _ _ run
  · split
    · exact (count_still addInClash_bounded p).keeps
    · exact (count_still addPayload_bounded p).keeps

theorem otherFrame_keeps (kind src target : Byte) (payload : List Byte) (run : p.run = .running) :
    Keeps p (otherFrame kind src target payload p) := by
  unfold otherFrame
  split_ifs
  · exact heatPayload_keeps src payload p
  · exact spanPayload_keeps src payload p
  · exact routeFrame_keeps src payload run
  · exact .refl p

theorem discardFrame_keeps (bytes : List Byte) (framing : Bool) (p : Part) : Keeps p (discardFrame bytes framing p) := by
  unfold discardFrame
  split
  · have counted : Keeps p (match classify bytes framing with
        | some .check => p.count Counters.addCheck
        | some .header => p.count Counters.addHeader
        | some .framing => p.count Counters.addFraming
        | none => p) := by
      split
      · exact (count_still addCheck_bounded p).keeps
      · exact (count_still addHeader_bounded p).keeps
      · exact (count_still addFraming_bounded p).keeps
      · exact .refl p
    dsimp only
    split
    · exact counted.trans (Still.keeps (.ofFits (.of_eq rfl) rfl))
    · exact counted
  · exact .refl p

theorem idleSeen_keeps (p : Part) : Keeps p { p with line := { p.line with waitIdle := false } } :=
  Still.keeps (.ofFits (.of_eq rfl) rfl)

/-! ### Transmission -/

theorem offer_keeps (p : Part) : Keeps p (offer p) := by
  unfold offer
  split
  · rename_i may
    have run : p.run = .running := by
      unfold maySend at may
      simp only [Bool.and_eq_true, beq_iff_eq] at may
      exact may.1.1.1.1
    refine Still.keeps (.ofLine (fun ⟨bounded, plain⟩ => ⟨bounded, fun none => ?_⟩) rfl)
    obtain ⟨only, empty⟩ := plain none
    have noReport := empty (by rw [run]; exact fun h => nomatch h)
    refine ⟨⟨only.1, only.2.1, fun x taken => ?_⟩, fun _ => noReport⟩
    obtain ⟨fr, waits, rfl⟩ := Option.map_eq_some_iff.mp taken
    exact firstWaiting_answer only noReport waits
  · exact .refl p

/-- A frame that leaves the transmitter unsent goes back where it waited. -/
theorem loseArbitration_keeps (p : Part) : Keeps p (loseArbitration p) := by
  unfold loseArbitration
  split
  · rename_i fr inPlace held
    refine Keeps.trans (Still.keeps (.ofLine ?_ ?_)) (count_still addLost_bounded _).keeps
    · rintro ⟨bounded, plain⟩
      have taken := (Fits.txNone p.line).bounded bounded
      dsimp only
      split
      · exact .of_fits (.txNone p.line) ⟨bounded, plain⟩
      · refine ⟨putBack_bounded fr taken, fun none => ?_⟩
        obtain ⟨a, rfl⟩ := (plain none).1.2.2 _ held
        exact (LineInv.of_fits ((Fits.txNone p.line).trans (.putBack_answer a _)) ⟨bounded, plain⟩).2 none
    · dsimp only
      split
      · rfl
      · unfold LineUnit.putBack LineUnit.dropAnswer
        cases fr <;> dsimp only <;> (repeat' split) <;> rfl
  · exact .refl p

theorem restartOver_clash (fr : TxFrame) (l : LineUnit) : (l.restartOver fr).clash = l.clash := by
  unfold LineUnit.restartOver
  split
  · split <;> rfl
  · rfl

/-- The frame that has been offered is over. -/
theorem Fits.over (fr : TxFrame) (l : LineUnit) : Fits l (({ l.takeOffered with tx := none }).restartOver fr) :=
  ((Fits.takeOffered l).trans (.txNone _)).trans (.restartOver fr _)

theorem over_clash (fr : TxFrame) (l : LineUnit) : (({ l.takeOffered with tx := none }).restartOver fr).clash = l.clash :=
  (restartOver_clash fr _).trans (takeOffered_keeps l).clash

theorem bitErrorOn_keeps (p : Part) : Keeps p (bitErrorOn p) := by
  unfold bitErrorOn
  split
  · rename_i fr _ _ _
    refine Keeps.trans (Still.keeps (.ofFits ?_ ?_)) (count_still addBitError_bounded _).keeps
    · dsimp only
      split
      · exact (Fits.over _ p.line).trans (.dropped _ fun _ => sat_le _ _)
      · exact .over fr p.line
    · dsimp only
      split <;> exact congrArg Option.isSome (over_clash _ p.line)
  · exact .refl p

theorem transmitted_keeps (p : Part) : Keeps p (transmitted p) := by
  unfold transmitted
  split
  · rename_i fr _ _ _
    have sent : Keeps p (Part.count Counters.addSent { p with line := ({ p.line.takeOffered with tx := none }).restartOver fr }) :=
      (Still.keeps (.ofFits (.over fr p.line) (congrArg Option.isSome (over_clash fr p.line)))).trans
        (count_still addSent_bounded _).keeps
    dsimp only
    split
    · exact sent.trans (Still.keeps (.ofFits (.dropped _ fun h => Nat.le_trans (Nat.sub_le _ _) h) rfl))
    · exact sent.trans (.onRunning fun c runs => (openWindow_event c _ _).keeps runs)
    · exact sent
  · exact .refl p

/-! ### The stuck line -/

theorem lineSticks_keeps (p : Part) : Keeps p (lineSticks p) := by
  unfold lineSticks
  split
  · exact .refl p
  · refine Keeps.trans ?_ (reportConfigured_still _ _).keeps
    exact Still.keeps (.ofFits (.of_eq rfl) rfl)

theorem lineRecovers_keeps (p : Part) : Keeps p (lineRecovers p) := by
  unfold lineRecovers
  split
  · exact .refl p
  · refine Keeps.trans ?_ (reportConfigured_still _ _).keeps
    exact Still.keeps (.ofFits (.of_eq rfl) rfl)

end Sys2Proof.Machine

namespace Sys2Proof.Machine
open Sys2Proof

variable {c : Settings} {p q r : Part}

/-! ### The memory port -/

theorem store_shaped {m : RecMem} {x : Contents} (h : m.shaped) (k : x.shaped) : (m.store x).shaped := by
  obtain ⟨beds, pieces, channels, table⟩ := h
  cases x with
  | clock _ | moves _ => exact ⟨beds, pieces, channels, table⟩
  | bed _ _ => exact ⟨(List.length_set ..).trans beds, pieces, channels, table⟩
  | piece _ _ => exact ⟨beds, (List.length_set ..).trans pieces, channels, table⟩
  | channels _ => exact ⟨beds, pieces, fun y hy => Option.some.inj hy ▸ k, table⟩
  | stackTable _ => exact ⟨beds, pieces, channels, fun y hy => Option.some.inj hy ▸ k⟩

theorem spoil_shaped {m : RecMem} (b : Block) (h : m.shaped) : (m.spoil b).shaped := by
  obtain ⟨beds, pieces, channels, table⟩ := h
  cases b with
  | clock | moves => exact ⟨beds, pieces, channels, table⟩
  | bed _ => exact ⟨(List.length_set ..).trans beds, pieces, channels, table⟩
  | piece _ => exact ⟨beds, (List.length_set ..).trans pieces, channels, table⟩
  | channels => exact ⟨beds, pieces, fun _ hy => (nomatch hy), table⟩
  | stackTable => exact ⟨beds, pieces, channels, fun _ hy => (nomatch hy)⟩

theorem failed_shaped {m : RecMem} {x : Contents} (free : Nat) (b : Block) (h : m.shaped) (k : x.shaped) :
    (m.failed free b x).shaped := by
  unfold RecMem.failed
  split
  · exact h
  · exact store_shaped h k
  · exact spoil_shaped b h

theorem contents_shaped (h : p.shaped) (b : Block) : (contents c p b).shaped := by
  obtain ⟨_, _, _, accs, credit, _, _, _, _, table⟩ := h
  cases b with
  | channels => exact ⟨accs, credit⟩
  | stackTable => exact table
  | clock | bed _ | piece _ | moves => trivial

theorem cutOff_shaped {u : MemPort} (h : u.mem.shaped) : (cutOff u).shaped := by
  unfold cutOff
  split
  · exact spoil_shaped _ h
  · exact h

/-- Work of the memory port, with or without a free value. -/
theorem Still.ofMem {u : MemPort} {free : Nat} (h : ShapeInv p → ShapeInv { p with mem := u, freeCount := free }) :
    Still p { p with mem := u, freeCount := free } :=
  ⟨⟨rfl, rfl, id, h, id, rfl, rfl, rfl, rfl, id, rfl⟩, ⟨rfl, rfl, rfl, rfl⟩, rfl⟩

theorem finish_fields (u : MemPort) (b : Block) :
    (u.finish b).mem = u.mem ∧ (u.finish b).writing = none ∧ (u.finish b).flush = u.flush := by
  unfold MemPort.finish
  dsimp only
  split <;> exact ⟨rfl, rfl, rfl⟩

theorem writeBegins_keeps (c : Settings) (p : Part) : Keeps p (writeBegins c p) := by
  unfold writeBegins
  split
  · rename_i b rest _ _
    split
    · exact .refl p
    · refine Still.keeps (.ofMem (free := p.freeCount) fun ⟨shaped, mem, _, flush⟩ => ⟨shaped, ?_⟩)
      have taken : (p.mem.take b (contents c p b)).mem = p.mem.mem ∧ (p.mem.take b (contents c p b)).flush = p.mem.flush := by
        unfold MemPort.take
        split <;> exact ⟨rfl, rfl⟩
      dsimp only
      rw [taken.1, taken.2]
      refine ⟨mem, fun w hw => ?_, flush⟩
      cases hw
      exact contents_shaped shaped b
  · exact .refl p

theorem flushFails_keeps (p : Part) : Keeps p (flushFails p) := by
  unfold flushFails
  split
  · exact .refl p
  · rename_i w writing
    exact Still.keeps (.ofMem fun ⟨shaped, mem, copy, flush⟩ =>
      ⟨shaped, failed_shaped _ _ mem (copy w writing), fun _ hw => (nomatch hw), flush⟩)

theorem flushBegins_keeps (p : Part) : Keeps p (flushBegins p) := by
  unfold flushBegins
  split
  · rename_i x rest _ flush
    have begun : Keeps p { p with mem := { p.mem with writing := some x.run, flush := rest } } := by
      refine Still.keeps (.ofMem (free := p.freeCount) fun ⟨shaped, mem, _, copies⟩ => ?_)
      rw [flush] at copies
      refine ⟨shaped, mem, fun w hw => ?_, fun y hy => copies y (List.mem_cons_of_mem x hy)⟩
      exact Option.some.inj hw ▸ copies x List.mem_cons_self
    dsimp only
    split
    · exact begun.trans (flushFails_keeps _)
    · exact begun
  · exact .refl p

theorem pageDone_keeps (last : Bool) (p : Part) : Keeps p (pageDone last p) := by
  unfold pageDone
  split
  · rename_i w writing
    refine Still.keeps (.ofMem (free := p.freeCount) fun ⟨shaped, mem, copy, flush⟩ => ⟨shaped, ?_⟩)
    obtain ⟨sameMem, none, sameFlush⟩ := finish_fields { p.mem with mem := p.mem.mem.store w.copy } w.block
    dsimp only
    rw [sameMem, none, sameFlush]
    exact ⟨store_shaped mem (copy w writing), fun _ hw => (nomatch hw), flush⟩
  · exact .refl p

theorem pageFails_keeps (runs : p.runs c) : Keeps p (pageFails p) := by
  unfold pageFails
  split
  · exact .refl p
  · rename_i w writing
    dsimp only
    obtain ⟨sameMem, none, sameFlush⟩ := finish_fields
      { p.mem with mem := p.mem.mem.failed p.freeCount w.block w.copy, roundFailed := true, fault := true } w.block
    generalize MemPort.finish _ w.block = u at *
    have ended : Keeps p { p with mem := u, freeCount := p.freeCount + 1 } := by
      refine Still.keeps (.ofMem fun ⟨shaped, mem, copy, flush⟩ => ⟨shaped, ?_⟩)
      dsimp only
      rw [sameMem, none, sameFlush]
      exact ⟨failed_shaped _ _ mem (copy w writing), fun _ hw => (nomatch hw), flush⟩
    refine ended.trans (Event.keeps (c := c) ?_ runs)
    exact ((HeatAct.markDirty c _ _).trans (.reportIf c _ _ _)).event
      (((CraneAct.markDirty c _ _).prepares rfl).trans (reportIf_prepares c _ _ _))

theorem onPort_keeps {flush : Part → Part} {f : Settings → Part → Part} (h : Keeps p (flush p))
    (k : ∀ c, p.runs c → Keeps p (f c p)) : Keeps p (p.onPort flush f) := by
  unfold Part.onPort
  split
  · exact h
  · exact .onRunning k

/-! ### The emergency input and the supply warning -/

theorem emergencyBegins_prepares (c : Settings) (p : Part) : Prepares c p
    (halt .emergency (formDemands c ((p.report (.emergency p.now)).forAssigned c emergencyBed))) :=
  (((report_prepares c p _).trans (.forAssigned (fun b x => emergencyBed_prepares c x b) _)).trans
    (formDemands_prepares c _)).trans (halt_prepares c _ _)

theorem reportedDemands_prepares (c : Settings) (p : Part) (x : Report) : Prepares c p (formDemands c (p.report x)) :=
  (report_prepares c p x).trans (formDemands_prepares c _)

theorem warningBegins_prepares (c : Settings) (p : Part) : Prepares c p
    (halt .emergency (formDemands c (p.report .supplyWarning))) :=
  (reportedDemands_prepares c p _).trans (halt_prepares c _ _)

/-- In CLASH the generators are at rest, and the blocks leave them so. -/
theorem Prepares.restsOn (h : Prepares c p q) {before : Bool} (same : p.inClash = before) :
    p.inClash = true → (before = true → GensRest c p) → GensRest c q :=
  fun clash rests => h.rests clash (rests (same ▸ clash))

theorem acceptEmergency_environ (v : Bool) (p : Part) : Environ p (acceptEmergency v p) :=
  ⟨rfl, rfl, id, id, id, rfl, rfl, rfl, rfl, id, rfl⟩

theorem emergencyLevel_keeps (v : Bool) (p : Part) : Keeps p (emergencyLevel v p) := by
  have environ := acceptEmergency_environ v p
  unfold emergencyLevel
  dsimp only
  split
  · exact .refl p
  · split
    · refine environ.keeps_onRunning fun c runs => ?_
      have acts := emergencyBegins_prepares c (acceptEmergency v p)
      exact environ.keeps_settle runs acts (acts.restsOn rfl)
    · rename_i falls
      split
      · refine environ.keeps_onRunning fun c runs => ?_
        have acts := reportedDemands_prepares c (acceptEmergency v p)
        exact environ.keeps_settle runs (acts _) ((acts _).restsOn rfl)
      · rename_i inactive
        refine Still.keeps ⟨environ, ⟨rfl, rfl, rfl, rfl⟩, ?_⟩
        unfold mustStop
        rw [Bool.eq_false_iff.mpr inactive, Bool.eq_false_iff.mpr falls]
        rfl

theorem supplyFalls_keeps (p : Part) : Keeps p (supplyFalls p) := by
  unfold supplyFalls
  split
  · rename_i normal
    have environ (x : Nat) (u : Pins) : Environ p { p with
        supply := ⟨.warning, x⟩
        pins := u
        mem := { p.mem with flush := if p.run = Run.inReset then [] else p.mem.flush } } := by
      refine ⟨rfl, rfl, fun h => (nomatch h), fun ⟨shaped, mem, writing, flush⟩ => ⟨shaped, mem, writing, ?_⟩, id, rfl, rfl,
        rfl, rfl, id, rfl⟩
      dsimp only
      split
      · exact fun _ hx => nomatch hx
      · exact flush
    refine (environ _ _).keeps_onRunning fun c runs => ?_
    have acts := warningBegins_prepares c
    exact (environ _ _).keeps_settle runs (acts _) ((acts _).restsOn rfl)
  · exact .refl p

theorem supplyRises_keeps (p : Part) : Keeps p (supplyRises p) := by
  unfold supplyRises
  split
  · have environ (x : Nat) (u : Pins) : Environ p { p with supply := ⟨.normal, x⟩, pins := u } :=
      ⟨rfl, rfl, fun h => (nomatch h), id, id, rfl, rfl, rfl, rfl, id, rfl⟩
    refine (environ _ _).keeps_onRunning fun c runs => ?_
    have acts := reportedDemands_prepares c
    exact (environ _ _).keeps_settle runs (acts _ _) ((acts _ _).restsOn rfl)
  · exact .refl p

/-! ### Resets -/

theorem reset_bounded : LineUnit.reset.bounded := by
  unfold LineUnit.bounded LineUnit.reset
  decide

/-- A reset gives every invariant, if the memory has its sizes and the port has nothing of another size to write. -/
theorem reset_keeps {m : RecMem} {writing : Option WriteRun} {flush : List FlushWrite} (supply : Supply) (pins : Pins) (free : Nat)
    (shape : ShapeInv p → m.shaped ∧ (∀ w, writing = some w → w.copy.shaped) ∧ ∀ x ∈ flush, x.run.copy.shaped) :
    Keeps p { Part.reset m supply pins free with mem := { MemPort.reset m with writing := writing, flush := flush } } := by
  have idle (d : Settings) : ¬ ({ Part.reset m supply pins free with
      mem := { MemPort.reset m with writing := writing, flush := flush } } : Part).runs d := fun h => nomatch h.1
  refine ⟨fun h => ⟨?_, shape h⟩, fun _ _ => ⟨⟨fun _ => rfl, fun _ => rfl⟩, ?_, fun _ => ⟨⟨rfl, rfl, ?_⟩, fun _ => rfl⟩⟩,
    fun _ => grantInv_idle rfl, fun _ d h => absurd h (idle d), fun _ => ?_, fun _ => ?_, fun _ d h => absurd h (idle d)⟩
  · exact ⟨rfl, rfl, rfl, rfl, rfl, rfl, rfl, rfl, by exact List.length_replicate, rfl⟩
  · exact reset_bounded
  · exact fun _ h => nomatch h
  · exact Nat.zero_le 15
  · exact (travelInv_idle idle).mpr fun _ _ h => nomatch h

theorem supplyFails_keeps (p : Part) : Keeps p (supplyFails p) :=
  reset_keeps (writing := none) (flush := []) _ _ _ fun ⟨_, mem, _⟩ =>
    ⟨cutOff_shaped mem, fun _ h => (nomatch h), fun _ h => (nomatch h)⟩

theorem powersOn_keeps (p : Part) : Keeps p (powersOn p) :=
  reset_keeps (writing := none) (flush := []) _ _ _ fun ⟨_, mem, _⟩ =>
    ⟨cutOff_shaped mem, fun _ h => (nomatch h), fun _ h => (nomatch h)⟩

theorem toFlush_shaped (failed : List Block) (h : p.shaped) : ∀ x ∈ toFlush failed p, x.run.copy.shaped := by
  unfold toFlush
  split
  · split
    · exact fun _ hx => nomatch hx
    · intro x hx
      obtain ⟨b, _, rfl⟩ := List.mem_map.mp hx
      exact contents_shaped h b
  · exact fun _ hx => nomatch hx

theorem restarts_keeps (failed : List Block) (p : Part) : Keeps p (restarts failed p) := by
  unfold restarts
  split
  · exact reset_keeps _ _ _ fun ⟨shaped, mem, writing, _⟩ => ⟨mem, writing, toFlush_shaped failed shaped⟩
  · exact .refl p

end Sys2Proof.Machine
end

