-- ==== Sys2Proof/Proofs/Restoring.lean ====
section
/-! PROOFS. The restore and the completion of start keep every invariant. -/
namespace Sys2Proof.Machine
open Sys2Proof

/-! ### The restore -/

/-- What the owners do once they have taken their blocks: bed records, piece records, stacks and moves change, and the maturity unit,
beside reports and dirty marks. -/
structure Restores (p q : Part) : Prop where
  run : q.run = p.run
  config : q.config = p.config
  clock : q.clock = p.clock
  scan : q.scan = p.scan
  heat : q.heat = p.heat
  out : q.out = p.out
  travel : q.travel = p.travel
  span : q.span = p.span
  supply : q.supply = p.supply
  pins : q.pins = p.pins
  placed : Placed p.line q.line
  mem : p.mem.keeps q.mem
  shape : p.shaped → q.shaped

/-- The maturity unit stands. -/
structure Restoring (p q : Part) : Prop extends Restores p q where
  maturity : q.maturity = p.maturity

section
variable {p q r : Part}

theorem Restores.refl (p : Part) : Restores p p := ⟨rfl, rfl, rfl, rfl, rfl, rfl, rfl, rfl, rfl, rfl, .refl _, rfl, id⟩
theorem Restoring.refl (p : Part) : Restoring p p := ⟨.refl p, rfl⟩

theorem Restores.trans (h : Restores p q) (k : Restores q r) : Restores p r :=
  ⟨k.run.trans h.run, k.config.trans h.config, k.clock.trans h.clock, k.scan.trans h.scan,
    k.heat.trans h.heat, k.out.trans h.out, k.travel.trans h.travel, k.span.trans h.span, k.supply.trans h.supply,
    k.pins.trans h.pins, h.placed.trans k.placed, MemPort.keeps_trans h.mem k.mem, fun x => k.shape (h.shape x)⟩
theorem Restoring.trans (h : Restoring p q) (k : Restoring q r) : Restoring p r :=
  ⟨h.toRestores.trans k.toRestores, k.maturity.trans h.maturity⟩

theorem Restoring.foldl {α : Type} {f : Part → α → Part} (h : ∀ p x, Restoring p (f p x)) (l : List α) (p : Part) :
    Restoring p (l.foldl f p) := by
  induction l generalizing p with
  | nil => exact .refl p
  | cons x l ih => exact (h p x).trans (ih _)

/-- The crane side acts without its span unit. -/
theorem CraneAct.restoring {c : Settings} (h : CraneAct c p q) (span : q.span = p.span) : Restoring p q :=
  ⟨⟨h.run, h.config, h.clock, h.scan, h.heat, h.out, h.travel, span, h.supply, h.pins, h.placed, h.mem, h.shape⟩, h.maturity⟩

end

variable (c : Settings) (p : Part)

theorem Restoring.report (x : Report) : Restoring p (p.report x) := (CraneAct.report default p x).restoring rfl
theorem Restoring.markDirty (b : Block) : Restoring p (p.markDirty b) := (CraneAct.markDirty default p b).restoring rfl

theorem Restoring.withBed (b : Nat) (f : Bed → Bed) : Restoring p (p.withBed b f) := by
  have marked := CraneAct.markIf default { p with beds := p.beds.set b (f (p.bed b)) }
    ((f (p.bed b)).persisted != (p.bed b).persisted) (.bed (Fin.ofNat 4 b))
  refine Restoring.trans (q := { p with beds := p.beds.set b (f (p.bed b)) }) ?_ (marked.restoring (by simp))
  refine ⟨⟨rfl, rfl, rfl, rfl, rfl, rfl, rfl, rfl, rfl, rfl, .refl _, rfl, fun ⟨beds, rest⟩ => ⟨?_, rest⟩⟩, rfl⟩
  exact (List.length_set ..).trans beds

theorem setRecord_restoring (n : Nat) (x : Option Piece) : Restoring p (p.setRecord n x) :=
  (setRecord_act default p n x).restoring (by simp)
theorem setStackAt_restoring (i : Nat) (x : Stack) : Restoring p (p.setStackAt i x) :=
  (setStackAt_act default p i x).restoring (by simp)
theorem setQueue_restoring (l : List Move) : Restoring p (p.setQueue l) := (setQueue_act default p l).restoring (by simp)

theorem updatePiece_restoring (id : Nat) (f : Piece → Piece) : Restoring p (updatePiece id f p) := by
  unfold updatePiece
  split
  · exact setRecord_restoring p _ _
  · exact .refl p

theorem releaseMark_restoring (tag id : Nat) : Restoring p (releaseMark tag id p) := by
  refine Restoring.trans ?_ (updatePiece_restoring _ id _)
  unfold clearMark
  split
  · exact setStackAt_restoring p _ _
  · exact .refl p

theorem updateMove_restoring (tag : Nat) (f : Move → Move) : Restoring p (updateMove tag f p) := setQueue_restoring p _

theorem removeMove_restoring (m : Move) : Restoring p (removeMove m p) :=
  (setQueue_restoring p _).trans (updatePiece_restoring _ _ _)

theorem lostReport_restoring (lost : List Block) (k : Nat) : Restoring p (lostReport lost k p) := by
  unfold lostReport
  split
  · exact .refl p
  · exact .report p _

theorem announceLost_restoring (lost : List Block) : Restoring p (announceLost lost p) :=
  (Restoring.foldl (fun q b => .markDirty q b) lost p).trans (.foldl (fun q k => lostReport_restoring q lost k) _ _)

theorem mapRecords_restoring (f : Piece → Piece) : Restoring p (mapRecords f p) := by
  refine .foldl (fun q n => ?_) _ p
  split
  · exact setRecord_restoring q n _
  · exact .refl q

theorem dropRecord_restoring (n : Nat) : Restoring p (dropRecord n p) := by
  unfold dropRecord
  split
  · exact (setRecord_restoring p n none).trans (.report _ _)
  · exact .refl p

theorem dropRecords_restoring (bad : Part → Nat → Piece → Bool) : Restoring p (dropRecords bad p) := by
  refine .foldl (fun q n => ?_) _ p
  split
  · split
    · exact dropRecord_restoring q n
    · exact .refl q
  · exact .refl q

/-! ### Beds -/

theorem setBedState_restoring (b : Nat) (st : BedState) (w : BedCause) : Restoring p (setBedState b st w p) :=
  (Restoring.withBed p b _).trans (.report _ _)

theorem cleanSlots_restoring (keep : Part → Nat → Nat → Nat → Bool) (b : Nat) : Restoring p (cleanSlots c keep b p) := by
  unfold cleanSlots
  dsimp only
  split
  · exact ((Restoring.withBed p b _).trans (.withBed _ b _)).trans (setBedState_restoring _ b _ _)
  · exact .withBed p b _

theorem settleDetensioning_restoring (b : Nat) : Restoring p (settleDetensioning b p) := by
  unfold settleDetensioning
  split
  · exact (Restoring.withBed p b _).trans (setBedState_restoring _ b _ _)
  · exact .refl p

theorem restoreBed_restoring (clockLost : Bool) (b : Nat) : Restoring p (restoreBed c clockLost b p) := by
  unfold restoreBed
  split
  · dsimp only
    refine Restoring.trans ?_ (cleanSlots_restoring c _ _ b)
    refine Restoring.trans ?_ (settleDetensioning_restoring _ b)
    split
    · exact .withBed p b _
    · exact .refl p
  · exact .withBed p b _

/-! ### Places -/

theorem closeStack_restoring (lane n : Nat) : Restoring p (closeStack lane n p) :=
  (setStackAt_restoring p _ _).trans (.foldl (fun q (e : Nat × Nat) => updatePiece_restoring q e.1 _) _ _)

theorem trimStack_restoring (g : StackCfg) (i fuel : Nat) : Restoring p (trimStack g i fuel p) := by
  induction fuel generalizing p with
  | zero => exact .refl p
  | succ k ih =>
    unfold trimStack
    dsimp only
    split
    · refine Restoring.trans ?_ (ih _)
      split
      · exact (setStackAt_restoring p i _).trans (dropRecord_restoring _ _)
      · exact setStackAt_restoring p i _
    · exact .refl p

theorem trimStacks_restoring : Restoring p (trimStacks c p) := by
  refine .foldl (fun q ln => ?_) _ p
  dsimp only
  split
  · exact trimStack_restoring q _ _ _
  · exact setStackAt_restoring q _ _

theorem cleanAssigned_restoring : Restoring p (p.forAssigned c (cleanSlots c slotAgrees)) := by
  refine .foldl (fun q b => ?_) _ p
  dsimp only
  split
  · exact cleanSlots_restoring c q slotAgrees b
  · exact .refl q

/-- Steps 1 to 3 of 08 R154. -/
theorem reconcilePlaces_restoring : Restoring p (reconcilePlaces c p) := by
  have beds := ((dropRecords_restoring p isDuplicate).trans
    (dropRecords_restoring _ fun q _ x => !onItsBed c q x)).trans (cleanAssigned_restoring c _)
  have closed := beds.trans (.foldl (fun q ln => closeStack_restoring q ln.1 ln.2) stackNumbers _)
  exact (closed.trans (dropRecords_restoring _ fun q _ x => !inItsStack c q x)).trans (trimStacks_restoring c _)

/-! ### Moves -/

theorem dropMove_restoring (m : Move) : Restoring p (dropMove m p) :=
  ((releaseMark_restoring p m.tag m.piece).trans (removeMove_restoring _ m)).trans (.report _ _)

theorem alignMove_restoring (m : Move) : Restoring p (alignMove c p m) := by
  unfold alignMove
  split
  · exact updateMove_restoring p m.tag _
  · exact dropMove_restoring p m

theorem settleMark_restoring (ln : Nat × Nat) : Restoring p (settleMark c p ln) := by
  unfold settleMark
  split
  · exact .refl p
  · dsimp only
    split
    · exact ((releaseMark_restoring p _ _).trans (removeMove_restoring _ _)).trans (.report _ _)
    · exact releaseMark_restoring p _ _

theorem reserveAgain_restoring (m : Move) : Restoring p (reserveAgain c p m) := by
  unfold reserveAgain
  split
  · exact .refl p
  · split
    · dsimp only
      split
      · exact setStackAt_restoring p _ _
      · exact .refl p
    · exact .refl p

theorem haltRestored_restoring (m : Move) : Restoring p (haltRestored m p) :=
  (updateMove_restoring p m.tag _).trans (.report _ _)

theorem settlePicked_restoring (m : Move) : Restoring p (settlePicked p m) := by
  unfold settlePicked
  split
  · exact haltRestored_restoring p m
  · exact dropMove_restoring p m

/-- Step 4 of 08 R154, with 09 R176. -/
theorem reconcileMoves_restoring : Restoring p (reconcileMoves c p) := by
  unfold reconcileMoves haltHeads
  refine Restoring.trans ?_ (.foldl (fun q m => settlePicked_restoring q m) _ _)
  refine Restoring.trans ?_ (.foldl (fun q m => haltRestored_restoring q m) _ _)
  refine Restoring.trans ?_ (.foldl (fun q m => reserveAgain_restoring c q m) _ _)
  exact (Restoring.foldl (fun q m => alignMove_restoring c q m) _ p).trans
    (.foldl (fun q ln => settleMark_restoring c q ln) stackNumbers _)

/-- Step 5 of 08 R154. -/
theorem reconcileHook_restoring : Restoring p (reconcileHook p) :=
  (dropRecords_restoring p _).trans (mapRecords_restoring _ _)

/-- The whole reconciliation. -/
theorem reconcile_restoring : Restoring p (reconcileHook (reconcileMoves c (reconcilePlaces c p))) :=
  ((reconcilePlaces_restoring c p).trans (reconcileMoves_restoring c _)).trans (reconcileHook_restoring _)

theorem clearCredits_eq : clearCredits p = ({ p with maturity := { p.maturity with credit := List.replicate 4 0 } } : Part).markIf
    (p.maturity.credit != List.replicate 4 0) .channels := rfl

theorem clearCredits_restores : Restores p (clearCredits p) := by
  refine Restores.trans ?_ ((CraneAct.markIf default { p with maturity := { p.maturity with credit := List.replicate 4 0 } }
    (p.maturity.credit != List.replicate 4 0) .channels).restoring (by simp)).toRestores
  exact ⟨rfl, rfl, rfl, rfl, rfl, rfl, rfl, rfl, rfl, rfl, .refl _, rfl, fun ⟨beds, scans, channels, accs, _, rest⟩ =>
    ⟨beds, scans, channels, accs, rfl, rest⟩⟩

theorem clearCredits_maturity : (clearCredits p).maturity = { p.maturity with credit := List.replicate 4 0 } :=
  (CraneAct.markIf default _ _ _).maturity

/-- What the owners take from a lost clock block. -/
def creditsRestored (clockLost : Bool) (p : Part) : Part := if clockLost then clearCredits p else p

theorem creditsRestored_restores (clockLost : Bool) : Restores p (creditsRestored clockLost p) := by
  unfold creditsRestored
  split
  · exact clearCredits_restores p
  · exact .refl p

/-- Beside its credit starts, the maturity unit stands while the owners restore their state. -/
theorem restore_restoring (lost : List Block) : Restoring (creditsRestored (lost.contains .clock) p) (restore c lost p) := by
  unfold restore restoreMaturity
  dsimp only
  refine Restoring.trans ?_ (reconcile_restoring c _)
  refine Restoring.trans ?_ (.foldl (fun q b => restoreBed_restoring c q _ b) _ _)
  exact mapRecords_restoring _ _

end Sys2Proof.Machine

namespace Sys2Proof.Machine
open Sys2Proof

variable {c : Settings} {p q r : Part}

/-! ### The start sequence -/

/-- A station that does not run configured, neither before nor after, keeps its grant of 0 and its decision of stop. -/
theorem Keeps.ofIdle (before : ∀ c, ¬ p.runs c) (after : ∀ c, ¬ q.runs c) (shape : ShapeInv p → ShapeInv q)
    (line : RunInv p → LineInv p → RunInv q ∧ LineInv q) (grant : q.heat.grant = p.heat.grant) (caps : CapsInv p → CapsInv q)
    (span : q.span = p.span) : Keeps p q := by
  refine ⟨shape, line, fun x => grantInv_idle (grant.trans (grant_of_idle before x)), fun _ c h => absurd h (after c), caps,
    fun x => ?_, fun _ c h => absurd h (after c)⟩
  rw [travelInv_idle after, span]
  exact (travelInv_idle before).mp x

theorem not_runs_of (h : p.run ≠ .running) (c : Settings) : ¬ p.runs c := fun k => h k.1

theorem released_keeps (adr : Fin 32) (p : Part) : Keeps p (released adr p) := by
  unfold released
  dsimp only
  split
  · rename_i may
    obtain ⟨run, _⟩ := may
    refine .ofIdle (not_runs_of (by rw [run]; exact fun h => nomatch h)) (not_runs_of fun h => nomatch h) id
      (fun k l => ⟨⟨fun _ => k.1 (.inl run), ?_⟩, ?_, fun none => ⟨(l.2 none).1, fun h => absurd rfl h⟩⟩) rfl id rfl
    · dsimp only
      split
      · exact fun h => nomatch h
      · rename_i other
        exact fun h => absurd (beq_iff_eq.mpr h) other
    · obtain ⟨⟨answers, reports, dropped, _, _, counters⟩, _⟩ := l
      have low : 1 ≤ ownAddress adr ∧ ownAddress adr ≤ 32 := by unfold ownAddress; split <;> omega
      exact ⟨answers, reports, dropped, low.1, low.2, counters⟩
  · exact .refl p

theorem imageRead_keeps (img : Image) (p : Part) : Keeps p (imageRead img p) := by
  unfold imageRead
  split
  · rename_i run
    have notReset (k : RunInv p) : p.supply.state ≠ .reset := fun h => by
      have := k.2 h
      rw [run] at this
      cases this
    have before := not_runs_of (p := p) (by rw [run]; exact fun h => nomatch h)
    split
    · refine .ofIdle before (not_runs_of fun h => nomatch h) id (fun k l => ⟨⟨fun h => ?_, fun h => absurd h (notReset k)⟩,
        l.1, fun none => nomatch none⟩) rfl id rfl
      rcases h with h | h <;> cases h
    · refine .ofIdle before (not_runs_of fun h => nomatch h) id (fun k l => ⟨⟨fun _ => rfl, fun h => absurd h (notReset k)⟩,
        ?_, fun _ => ⟨?_, fun _ => rfl⟩⟩) rfl id rfl
      · obtain ⟨⟨answers, _, _, rest⟩, _⟩ := l
        exact ⟨answers, Nat.zero_le _, Nat.zero_le _, rest⟩
      · exact (l.2 (k.1 (.inr run))).1
  · exact .refl p

/-! ### The restore -/

theorem spoiled_shaped {m : RecMem} (bad : List Block) (h : m.shaped) : (bad.foldl RecMem.spoil m).shaped := by
  induction bad generalizing m with
  | nil => exact h
  | cons b l ih => exact ih (spoil_shaped b h)

theorem getD_length {α : Type} {o : Option (List α)} {d : List α} {n : Nat} (h : ∀ l, o = some l → l.length = n)
    (k : d.length = n) : (o.getD d).length = n := by
  cases o with
  | none => exact k
  | some l => exact h l rfl

theorem takeBlocks_shaped {m : RecMem} (h : p.shaped) (k : m.shaped) : (takeBlocks c m p).shaped := by
  obtain ⟨_, scans, channels, _, _, gens, flows, aux, _, _⟩ := h
  obtain ⟨_, _, owned, table⟩ := k
  have taken : (m.channels.getD ⟨List.replicate 22 ⟨0, 0⟩, List.replicate 4 0, List.replicate 22 false⟩).accs.length = 22
      ∧ (m.channels.getD ⟨List.replicate 22 ⟨0, 0⟩, List.replicate 4 0, List.replicate 22 false⟩).credit.length = 4 := by
    cases own : m.channels with
    | none => exact ⟨List.length_replicate, List.length_replicate⟩
    | some x => exact owned x own
  exact ⟨(List.length_map ..).trans List.length_range, scans, (List.length_mapIdx ..).trans channels, taken.1, taken.2, gens,
    flows, aux, (List.length_map ..).trans List.length_range, getD_length table List.length_replicate⟩

/-- What the owners do from the blocks as taken to the end of the restore. -/
theorem takenBlocks_restores (c : Settings) (lost : List Block) (p : Part) : Restores p (restore c lost (announceLost lost p)) :=
  ((announceLost_restoring p lost).toRestores.trans (creditsRestored_restores _ _)).trans (restore_restoring c _ lost).toRestores

/-- A restore that has taken its blocks from a memory of the right sizes ends with every invariant. -/
theorem Restores.keeps {m : RecMem} (h : Restores (takeBlocks c m p) q) (run : p.run = .readingRecords)
    (config : p.config = some c) (k : p.mem.mem.shaped → m.shaped) : Keeps p { q with run := .restored } := by
  refine .ofIdle (not_runs_of (by rw [run]; exact fun h => nomatch h)) (not_runs_of fun h => nomatch h) ?_ ?_
    (congrArg HeatUnit.grant h.heat) (fun caps => ?_) h.span
  · intro ⟨shaped, mem, writing, flush⟩
    refine ⟨h.shape (takeBlocks_shaped shaped (k mem)), ?_⟩
    dsimp only
    rw [h.mem]
    exact ⟨k mem, writing, flush⟩
  · intro standing l
    refine ⟨⟨fun x => ?_, fun x => ?_⟩, h.placed.bounded l.1, fun none => ?_⟩
    · rcases x with x | x <;> cases x
    · have := standing.2 ((congrArg Supply.state h.supply).symm.trans x)
      rw [run] at this
      cases this
    · replace none : q.config = .none := none
      rw [h.config, show (takeBlocks c m p).config = p.config from rfl, config] at none
      cases none
  · unfold CapsInv at *
    dsimp only
    rw [h.travel]
    exact caps

theorem recordsRead_keeps (bad : List Block) (p : Part) : Keeps p (recordsRead bad p) := by
  unfold recordsRead
  split
  · rename_i c run config
    exact (takenBlocks_restores c _ _).keeps run config (spoiled_shaped bad)
  · exact .refl p

/-! ### The completion of start -/

theorem emergencyBegins_event (c : Settings) (p : Part) : Event c p (emergencyBegins c p) := (emergencyBegins_prepares c p).settle
theorem warningBegins_event (c : Settings) (p : Part) : Event c p (warningBegins c p) := (warningBegins_prepares c p).settle
theorem enterClash_event (c : Settings) (p : Part) : Event c p (enterClash c p) :=
  ((computeGrant_prepares c p []).trans (halt_prepares c _ _)).settle

theorem enterClash_clashInv (c : Settings) (h : p.runs c) (clash : p.inClash = true) : ClashInv (enterClash c p) := by
  have event := enterClash_event c p
  refine (clashInv_iff (h.of event.run event.config)).mpr fun _ => ?_
  have rests := computeGrant_rests (c := c) [] clash
  have quiet := (halt_act c (computeGrant c [] p) .craneFault).trans (settle_act c _ c)
  exact rests.of_out quiet.out

/-- What stands at the completion of start, but for CLASH. -/
def standingSupply (c : Settings) (p : Part) : Part :=
  let q := if p.emergencyActive then emergencyBegins c p else p
  if p.inWarning then warningBegins c { q with supply := ⟨.warning, q.now⟩ } else q

theorem standingConditions_eq (c : Settings) (p : Part) : standingConditions c p =
    if p.inClash then enterClash c (standingSupply c p) else standingSupply c p := rfl

theorem warnedSince_still (n : Nat) (h : p.inWarning = true) : Still p { p with supply := ⟨.warning, n⟩ } := by
  refine ⟨⟨rfl, rfl, fun h => (nomatch h), id, id, rfl, rfl, rfl, rfl, id, rfl⟩, ⟨rfl, rfl, rfl, rfl⟩, ?_⟩
  unfold Machine.mustStop
  rw [h]
  rfl

/-- A running station that stays in its clash state keeps its invariants. -/
structure Stands (c : Settings) (p q : Part) : Prop where
  keeps : Keeps p q
  runs : q.runs c
  inClash : q.inClash = p.inClash

theorem Event.stands (h : Event c p q) (runs : p.runs c) : Stands c p q :=
  ⟨h.keeps runs, runs.of h.run h.config, h.inClash⟩

theorem Stands.trans (h : Stands c p q) (k : Stands c q r) : Stands c p r :=
  ⟨h.keeps.trans k.keeps, k.runs, k.inClash.trans h.inClash⟩

theorem standingSupply_stands (h : p.runs c) : Stands c p (standingSupply c p) := by
  have first : Stands c p (if p.emergencyActive then emergencyBegins c p else p)
      ∧ (if p.emergencyActive then emergencyBegins c p else p).inWarning = p.inWarning := by
    split
    · exact ⟨(emergencyBegins_event c p).stands h, (emergencyBegins_event c p).inWarning⟩
    · exact ⟨(Event.refl c p).stands h, rfl⟩
  unfold standingSupply
  dsimp only
  generalize (if p.emergencyActive then emergencyBegins c p else p) = x at *
  obtain ⟨stands, warned⟩ := first
  split
  · rename_i warning
    have since : Stands c x { x with supply := ⟨.warning, x.now⟩ } :=
      ⟨(warnedSince_still _ (warned.trans warning)).keeps, stands.runs, rfl⟩
    exact (stands.trans since).trans ((warningBegins_event c _).stands since.runs)
  · exact stands

theorem standingConditions_stands (h : p.runs c) : Stands c p (standingConditions c p) ∧ ClashInv (standingConditions c p) := by
  have supply := standingSupply_stands h
  rw [standingConditions_eq]
  split
  · rename_i clash
    exact ⟨supply.trans ((enterClash_event c _).stands supply.runs),
      enterClash_clashInv c supply.runs (supply.inClash.trans clash)⟩
  · rename_i clear
    exact ⟨supply, (clashInv_iff supply.runs).mpr fun clash => absurd (supply.inClash.symm.trans clash) clear⟩

/-- The blocks at the completion of a configured start, before what stands acts. -/
def blocksAtStart (c : Settings) (p : Part) : Part :=
  spansAtStart c (travelAtStart c ((maturityAtStart c (startFields p)).forAssigned c fun b q => evaluateStage c b (evaluateRelease b q)))

theorem startConfigured_eq (c : Settings) (p : Part) :
    startConfigured c p = settle c (formNotice c (standingConditions c (blocksAtStart c p))) := rfl

theorem maturityStages_prepares (c : Settings) (p : Part) : Prepares c p
    ((maturityAtStart c p).forAssigned c fun b q => evaluateStage c b (evaluateRelease b q)) :=
  (maturityAtStart_prepares c p).trans
    (.forAssigned (fun b x => (evaluateRelease_prepares c x b).trans (evaluateStage_prepares c _ b)) _)

theorem blocksAtStart_act (c : Settings) (p : Part) : Acts c (startFields p) (blocksAtStart c p) :=
  ((maturityStages_prepares c _).toActs.trans (travelAtStart_act c _)).trans (spansAtStart_act c _).toActs

theorem blocksAtStart_caps (c : Settings) (p : Part) : CapsInv (blocksAtStart c p) :=
  Nat.le_of_lt_succ (Nat.mod_lt _ (by decide : 0 < 16))

theorem blocksAtStart_spanAt (c : Settings) (p : Part) (k : Nat) : ((blocksAtStart c p).spanAt k).role = .none := by
  unfold blocksAtStart spansAtStart Part.spanAt
  simp only [List.getD_eq_getElem?_getD, List.getElem?_map]
  cases (List.range c.spans.length)[k]? <;> rfl

/-- The blocks of a configured start give every invariant but that of CLASH, which the standing conditions bring. -/
theorem startConfigured_keeps (before : ∀ c, ¬ p.runs c) (config : p.config = some c) :
    Keeps p (startConfigured c { p with run := .running }) := by
  rw [startConfigured_eq]
  have acts := blocksAtStart_act c { p with run := .running }
  have caps := blocksAtStart_caps c { p with run := .running }
  have role := blocksAtStart_spanAt c { p with run := .running }
  have decision : (blocksAtStart c { p with run := .running }).span.decision = .stop := rfl
  generalize blocksAtStart c { p with run := .running } = x at *
  have runs : x.runs c := ⟨acts.run, acts.config.trans config⟩
  obtain ⟨stands, clash⟩ := standingConditions_stands runs
  have notice := ((formNotice_prepares c (standingConditions c x)).settle).keeps stands.runs
  have later := stands.keeps.trans notice
  generalize settle c (formNotice c (standingConditions c x)) = y at *
  refine ⟨fun k => later.shape ?_, fun k l => later.line ?_ ?_, fun k => later.grant ?_, fun _ => notice.clash clash,
    fun _ => later.caps caps, fun _ => later.travel ?_, fun _ => later.claim ?_⟩
  · obtain ⟨shaped, mem⟩ := k
    refine ⟨acts.shape shaped, ?_⟩
    rw [acts.mem]
    exact mem
  · refine ⟨fun h => ?_, fun h => ?_⟩
    · rw [runs.1] at h
      rcases h with h | h <;> cases h
    · rw [acts.supply] at h
      have stopped : p.run = .inReset := k.2 h
      rw [k.1 (.inl stopped)] at config
      cases config
  · exact ⟨acts.placed.bounded l.1, fun none => absurd (runs.2.symm.trans none) (by simp)⟩
  · have zero : p.heat.grant = 0 := grant_of_idle before k
    refine (grantInv_iff runs).mpr (acts.grant ⟨?_, fun h => absurd zero h⟩)
    exact Nat.le_trans (Nat.le_of_eq zero) (Nat.zero_le _)
  · exact fun _ _ go => absurd (decision.symm.trans go) (fun h => nomatch h)
  · intro d _ k hk
    rw [role k] at hk
    cases hk

theorem startCompletes_keeps (p : Part) : Keeps p (startCompletes p) := by
  unfold startCompletes
  split
  · rename_i may
    obtain ⟨run, _⟩ := may
    have before := not_runs_of (p := p) (by rw [run]; exact fun h => nomatch h)
    rcases Option.eq_none_or_eq_some p.config with config | ⟨c, config⟩
    · have unconfigured : ({ p with run := .running } : Part).onRunning startConfigured = { p with run := .running } := by
        unfold Part.onRunning
        dsimp only
        rw [config]
      rw [unconfigured]
      refine .ofIdle before (fun c h => by cases config.symm.trans h.2) id (fun k l => ⟨⟨fun _ => config, fun h => ?_⟩, l.1,
        fun none => ⟨(l.2 none).1, fun _ => (l.2 none).2 ?_⟩⟩) rfl id rfl
      · have := k.2 h
        rw [run] at this
        cases this
      · rw [run]
        exact fun h => nomatch h
    · have runs : ({ p with run := .running } : Part).runs c := ⟨rfl, config⟩
      rw [onRunning_of_runs runs]
      exact startConfigured_keeps before config
  · exact .refl p

end Sys2Proof.Machine
end

