-- ==== Sys2Proof/Proofs/Steps.lean ====
section
/-! PROOFS. Every step keeps every invariant: the tick, and every command. -/
namespace Sys2Proof.Machine
open Sys2Proof

/-! ### The tick -/

section
variable (c : Settings) (p : Part)

theorem stepTravel_event : Event c p (stepTravel c p) := setTravel_event c p _ id rfl

theorem sampleFlow_event (b : Fin 4) : Event c p (sampleFlow c p b) := by
  unfold sampleFlow
  split
  · exact (setFlow_act c p _ _).event (setFlow_prepares c p _ _)
  · exact .refl c p

theorem stepScan_event : Event c p (stepScan c p) := setScan_event c p _ rfl rfl

theorem stepGen_event (b : Fin 4) : Event c p (stepGen c p b) := by
  unfold stepGen
  split
  · exact withGen_event c p b fun _ h => h
  · exact .refl c p

theorem sampleJack_event (b : Fin 4) : Event c p (sampleJack c p b) := by
  unfold sampleJack
  split
  · exact (HeatAct.withBed c p b _ rfl).event (withBed_prepares c p b _ rfl)
  · exact .refl c p

theorem Filter.sample_level (v : Bool) (f : Filter) : (f.sample v).level = f.level := by
  unfold Filter.sample
  split <;> rfl

/-- A sample of a crane line leaves its accepted level. -/
theorem sampleCrane_event (l : CraneLine) : Event c p (sampleCrane p l) := by
  have acts := CraneAct.ofMoves c p (p.moves.setCrane l { p.moves.crane l with filter := (p.moves.crane l).filter.sample (p.pins.crane l) })
  have levels : (sampleCrane p l).craneReady = p.craneReady ∧ (sampleCrane p l).craneFault = p.craneFault
      ∧ (sampleCrane p l).craneLocal = p.craneLocal ∧ (sampleCrane p l).moves.target = p.moves.target := by
    cases l with
    | hook => exact ⟨rfl, rfl, rfl, rfl⟩
    | ready => exact ⟨Filter.sample_level _ _, rfl, rfl, rfl⟩
    | fault => exact ⟨rfl, Filter.sample_level _ _, rfl, rfl⟩
    | locl => exact ⟨rfl, rfl, Filter.sample_level _ _, rfl⟩
  obtain ⟨ready, fault, locl, target⟩ := levels
  refine ⟨acts.toActs, id, fun _ => id, fun x => x.of ⟨rfl, rfl, rfl, ?_⟩ fun _ _ _ _ _ _ _ _ => id,
    fun x => x.of ⟨rfl, target, locl, rfl⟩ fun _ => id⟩
  unfold mustStop
  rw [ready, fault, locl]
  rfl

theorem stepRunning_event : Event c p (stepRunning c p) := by
  have every : Event c p (stepScan c (fourBeds.foldl (sampleFlow c) (stepTravel c p))) :=
    ((stepTravel_event c p).trans (.foldl (fun q b => sampleFlow_event c q b) fourBeds _)).trans (stepScan_event c _)
  unfold stepRunning
  dsimp only
  split
  · exact ((every.trans (.foldl (fun q b => stepGen_event c q b) _ _)).trans
      (.foldl (fun q b => sampleJack_event c q b) _ _)).trans (.foldl (fun q l => sampleCrane_event c q l) _ _)
  · exact every

end

theorem tickPart_keeps (p : Part) : Keeps p (tickPart p) := by
  unfold tickPart
  split
  · exact .refl p
  · have running : Keeps p (p.onRunning stepRunning) := .onRunning fun c runs => (stepRunning_event c p).keeps runs
    have read (q : Part) : Keeps q (stepRead q) := Still.keeps (.ofMem (free := q.freeCount) id)
    have emergency (q : Part) : Keeps q (sampleEmergency q) := by
      unfold sampleEmergency
      split
      · exact Still.keeps ⟨⟨rfl, rfl, id, id, id, rfl, rfl, rfl, rfl, id, rfl⟩, ⟨rfl, rfl, rfl, rfl⟩, rfl⟩
      · exact .refl q
    have clock (q : Part) (k : Clock) : Keeps q { q with clock := k } :=
      Still.keeps ⟨⟨rfl, rfl, id, id, id, rfl, rfl, rfl, rfl, id, rfl⟩, ⟨rfl, rfl, rfl, rfl⟩, rfl⟩
    have ms (q : Part) : Keeps q (stepMs q) := by
      unfold stepMs
      split
      · exact clock q _
      · exact .refl q
    exact (((running.trans (read _)).trans (emergency _)).trans (ms _)).trans (clock _ _)

/-! ### The step -/

/-- What a command does to the part. -/
def act : Instr → Part → Part
  | .restart src tag _ => fun p => receiveWhen (listening p) src (routeRestart src tag) p
  | .restartReset failed => restarts failed
  | .secondEvent => (·.onRunning secondPasses)
  | .sampleIntervalBoundary => (·.onRunning fun _ p => sampleBoundary p)
  | .heatPeriodBoundary =>
    (·.onRunning fun c p => heatBoundary c { p with clock := { p.clock with heatPhase := 0, heatDue := false } })
  | .scanCompletion ref1 ref2 codes => (·.onRunning (scanEnds ref1 ref2 codes))
  | .stageTransition b => (·.onRunning (onAssigned b fun c p => evaluateStage c b p))
  | .blindHoldExpiry b => (·.onRunning (onAssigned b fun c p => formDemand c b p))
  | .ageTestReached id => (·.onRunning fun c p => settle c (formAgeTest c id p))
  | .jackHomeChange b active => (·.onRunning (onAssigned b (jackChanges b active)))
  | .heaterPeriodStart b => (·.onRunning (onAssigned b fun _ p => p.withGen b Gen.periodStart))
  | .heaterPulseEnd b => (·.onRunning (onAssigned b fun c p => p.withGen b (Gen.pulseEnd (c.bed b).period)))
  | .flowRisingEdge b => (·.onRunning (onAssigned b fun _ p => flowRises b p))
  | .emergencyAccepted => emergencyLevel true
  | .emergencyReleased => emergencyLevel false
  | .trackStep ta tb tc => (·.onRunning (trackSample ta tb tc))
  | .trackStuck => (·.onRunning trackSticks)
  | .markEntry => (·.onRunning fun _ p => markRises { p with pins := { p.pins with mark := true } })
  | .markEvent => (·.onRunning fun c p => afterLoss c p (markFalls c { p with pins := { p.pins with mark := false } }))
  | .microstep => (·.onRunning fun c p => settle c (microstepDue c p))
  | .microstepStop => (·.onRunning fun c p => settle c (microstepsStop p))
  | .standstill => (·.onRunning fun c p => settle c (standstillReached p))
  | .referenceEdge => (·.onRunning referenceEdge)
  | .heatNoticeReceived src _ payload => receive src (heatPayload src payload)
  | .spanNoticeReceived src _ payload => receive src (spanPayload src payload)
  | .peerSilent addr => (·.onRunning fun c p => settle c (peerFallsSilent addr p))
  | .otherFrameReceived kind src target payload =>
    fun p => receiveWhen (frameArrives kind src target payload p) src (otherFrame kind src target payload) p
  | .frameDiscarded bytes framing => discardFrame bytes framing
  | .clashFrame _ _ _ => fun p => receive (byte p.line.own) id p
  | .clashEnd => leaveClash
  | .transmitOffer => offer
  | .arbitrationLost => loseArbitration
  | .bitError => bitErrorOn
  | .transmissionComplete => transmitted
  | .lineStuck => lineSticks
  | .lineOk => lineRecovers
  | .claimDeadline => (·.onRunning deadlinePasses)
  | .retryTimePassed k => (·.onRunning (retryPasses k))
  | .spanNoticeInterval => (·.onRunning fun c p => settle c (formNotice c p))
  | .hookLoaded => (·.onRunning fun c p => craneLevel c .hook true p)
  | .hookUnloaded => (·.onRunning fun c p => craneLevel c .hook false p)
  | .craneReadyChange active => (·.onRunning fun c p => craneLevel c .ready active p)
  | .craneFaultChange active => (·.onRunning fun c p => craneLevel c .fault active p)
  | .craneLocalChange active => (·.onRunning fun c p => craneLevel c .locl active p)
  | .claimTimeout => (·.onRunning fun c p => settle c (testTimeout c .claimTimeout p))
  | .pickTimeout => (·.onRunning fun c p => settle c (testTimeout c .timeout p))
  | .blockWriteBegin => Part.onPort flushBegins writeBegins
  | .pageWriteDone last => Part.onPort (pageDone last) fun _ p => pageDone last p
  | .pageWriteTimeout => Part.onPort flushFails fun _ p => pageFails p
  | .supplyWarning => supplyFalls
  | .supplyOk => supplyRises
  | .supplyReset => supplyFails
  | .powerOnReset => powersOn
  | .resetRelease adr => released adr
  | .configurationReadComplete img => imageRead img
  | .recordReadComplete lost => recordsRead lost
  | .startComplete => startCompletes
  | .peerRecordAgeIncrease => (·.onRunning fun c p => settle c (agePeers p))
  | .craneLineFirstAcceptance l level =>
    (·.onRunning fun c p => if (p.moves.crane l).seen then p else settle c (acceptLevel l level p))
  | .lineIdle => fun p => { p with line := { p.line with waitIdle := false } }
  | i => match orderOf i with
    | some o => takeOrder o.src o.tag o.need o.params o.act
    | none => id

/-- Every command answers a next state, and acts on the part alone. -/
theorem exec_eq (i : Instr) (s : State) : exec i s = .next (s.onPart (act i)) := by
  cases i <;> rfl

theorem act_order {i : Instr} {o : OrderForm} (h : orderOf i = some o) : act i = takeOrder o.src o.tag o.need o.params o.act := by
  cases i <;> cases h <;> rfl

end Sys2Proof.Machine

namespace Sys2Proof.Machine
open Sys2Proof

/-! ### Every step keeps every invariant -/

/-- Work of a running station that ends in `settle`. -/
theorem settled_keeps {f : Settings → Part → Part} (h : ∀ c p, Prepares c p (f c p)) (p : Part) :
    Keeps p (p.onRunning fun c q => settle c (f c q)) := .onRunning fun c runs => (h c p).settle.keeps runs

theorem running_keeps {f : Settings → Part → Part} (h : ∀ c p, Event c p (f c p)) (p : Part) : Keeps p (p.onRunning f) :=
  .onRunning fun c runs => (h c p).keeps runs

theorem standstillReached_prepares (c : Settings) (p : Part) : Prepares c p (standstillReached p) := setTravel_prepares c p _ id

theorem peerFallsSilent_prepares (c : Settings) (p : Part) (addr : Nat) : Prepares c p (peerFallsSilent addr p) :=
  agePeer_prepares c p addr _

theorem act_keeps (i : Instr) (p : Part) : Keeps p (act i p) := by
  by_cases order : (orderOf i).isSome
  · obtain ⟨o, order⟩ := Option.isSome_iff_exists.mp order
    rw [act_order order]
    exact takeOrder_keeps order p
  · cases i with
    | restart src tag _ => exact receiveWhen_keeps (fun q _ => routeRestart_keeps src tag q) _ src p
    | restartReset failed => exact restarts_keeps failed p
    | secondEvent => exact running_keeps secondPasses_event p
    | sampleIntervalBoundary => exact running_keeps (fun c q => sampleBoundary_event c q) p
    | heatPeriodBoundary => exact running_keeps heatBoundary_event p
    | scanCompletion ref1 ref2 codes => exact running_keeps (fun c q => scanEnds_event c q ref1 ref2 codes) p
    | stageTransition b => exact running_keeps (fun c q => onAssigned_event c q (evaluateStage_event c q b) b) p
    | blindHoldExpiry b => exact running_keeps (fun c q => onAssigned_event c q (formDemand_event c q b) b) p
    | ageTestReached id => exact running_keeps (fun c q => formAgeTest_event c q id) p
    | jackHomeChange b active => exact running_keeps (fun c q => onAssigned_event c q (jackChanges_event c q b active) b) p
    | heaterPeriodStart b =>
      exact running_keeps (fun c q => onAssigned_event c q (f := fun _ p => p.withGen b Gen.periodStart)
        (withGen_event c q b periodStart_rests) b) p
    | heaterPulseEnd b =>
      exact running_keeps (fun c q => onAssigned_event c q (f := fun c p => p.withGen b (Gen.pulseEnd (c.bed b).period))
        (withGen_event c q b (pulseEnd_rests _)) b) p
    | flowRisingEdge b =>
      exact running_keeps (fun c q => onAssigned_event c q (f := fun _ p => flowRises b p) (flowRises_event c q b) b) p
    | emergencyAccepted => exact emergencyLevel_keeps true p
    | emergencyReleased => exact emergencyLevel_keeps false p
    | trackStep ta tb tc => exact running_keeps (fun c q => trackSample_event c q ta tb tc) p
    | trackStuck => exact running_keeps trackSticks_event p
    | markEntry => exact running_keeps markRises_event p
    | markEvent => exact running_keeps markEvent_event p
    | microstep => exact settled_keeps microstepDue_prepares p
    | microstepStop => exact settled_keeps microstepsStop_prepares p
    | standstill => exact settled_keeps standstillReached_prepares p
    | referenceEdge => exact running_keeps referenceEdge_event p
    | heatNoticeReceived src _ payload => exact receive_keeps (fun q _ => heatPayload_keeps src payload q) src p
    | spanNoticeReceived src _ payload => exact receive_keeps (fun q _ => spanPayload_keeps src payload q) src p
    | peerSilent addr => exact settled_keeps (fun c q => peerFallsSilent_prepares c q addr) p
    | otherFrameReceived kind src target payload =>
      exact receiveWhen_keeps (fun q run => otherFrame_keeps kind src target payload run) _ src p
    | frameDiscarded bytes framing => exact discardFrame_keeps bytes framing p
    | clashFrame _ _ _ => exact receive_keeps (fun q _ => .refl q) _ p
    | clashEnd => exact leaveClash_keeps p
    | transmitOffer => exact offer_keeps p
    | arbitrationLost => exact loseArbitration_keeps p
    | bitError => exact bitErrorOn_keeps p
    | transmissionComplete => exact transmitted_keeps p
    | lineStuck => exact lineSticks_keeps p
    | lineOk => exact lineRecovers_keeps p
    | claimDeadline => exact running_keeps deadlinePasses_event p
    | retryTimePassed k => exact running_keeps (fun c q => retryPasses_event c q k) p
    | spanNoticeInterval => exact settled_keeps formNotice_prepares p
    | hookLoaded => exact running_keeps (fun c q => craneLevel_event c q .hook true) p
    | hookUnloaded => exact running_keeps (fun c q => craneLevel_event c q .hook false) p
    | craneReadyChange active => exact running_keeps (fun c q => craneLevel_event c q .ready active) p
    | craneFaultChange active => exact running_keeps (fun c q => craneLevel_event c q .fault active) p
    | craneLocalChange active => exact running_keeps (fun c q => craneLevel_event c q .locl active) p
    | claimTimeout => exact settled_keeps (fun c q => testTimeout_prepares c q .claimTimeout) p
    | pickTimeout => exact settled_keeps (fun c q => testTimeout_prepares c q .timeout) p
    | blockWriteBegin => exact onPort_keeps (flushBegins_keeps p) fun c _ => writeBegins_keeps c p
    | pageWriteDone last => exact onPort_keeps (pageDone_keeps last p) fun _ _ => pageDone_keeps last p
    | pageWriteTimeout => exact onPort_keeps (flushFails_keeps p) fun _ runs => pageFails_keeps runs
    | supplyWarning => exact supplyFalls_keeps p
    | supplyOk => exact supplyRises_keeps p
    | supplyReset => exact supplyFails_keeps p
    | powerOnReset => exact powersOn_keeps p
    | resetRelease adr => exact released_keeps adr p
    | configurationReadComplete img => exact imageRead_keeps img p
    | recordReadComplete lost => exact recordsRead_keeps lost p
    | startComplete => exact startCompletes_keeps p
    | peerRecordAgeIncrease => exact settled_keeps agePeers_prepares p
    | craneLineFirstAcceptance l level => exact running_keeps (fun c q => firstAcceptance_event c q l level) p
    | lineIdle => exact idleSeen_keeps p
    | castStart | castEnd | detension | holdBed | holdPiece | retire | clearBed | lift | ship | cancel | resume | aux | spanFree
    | clearFault | queryHeatState | queryOutputState | queryRunwayPosition | querySpans | queryCranes | queryPiece | queryBed
    | querySlots | queryChannel | queryStack | queryRegister | queryMoves | queryLineState => exact absurd rfl order

/-- A step runs the command at the front of the queue, or a tick; either keeps every invariant. -/
theorem step_keeps {s t : State} (h : step s = .next t) : Keeps s.part t.part := by
  unfold step at h
  split at h
  · cases h
    exact tickPart_keeps s.part
  · rename_i i rest _
    rw [exec_eq] at h
    cases h
    exact act_keeps i s.part

/-- Settles O39: an event keeps the grant law of its station, and in CLASH every allocation is forced to 0. -/
theorem grantLawEveryStep : Obligations.GrantLawEveryStep :=
  ⟨fun _ _ h k => (step_keeps k).grant h, fun _ _ h k => (step_keeps k).clash h⟩

/-- Settles O49: no work of a block moves the microstep count past its caps. -/
theorem capsEveryStep : Obligations.CapsEveryStep := fun _ _ h k => (step_keeps k).caps h

/-- Settles O53: what happens outside `settle` leaves the stretch of the decision and opens no claim, and `settle` gives both laws. -/
theorem travelLawEveryStep : Obligations.TravelLawEveryStep :=
  ⟨fun _ _ h k => (step_keeps k).travel h, fun _ _ h k => (step_keeps k).claim h⟩

/-- Settles O57: placements, answers and what goes back to its place keep the bounds of the line interface. -/
theorem lineBoundsEveryStep : Obligations.LineBoundsEveryStep := fun _ _ h k l => (step_keeps l).line h k

/-- Settles O59: every table is changed at a place, and what the record memory takes has the part's sizes. -/
theorem shapeEveryStep : Obligations.ShapeEveryStep := fun _ _ h k => (step_keeps k).shape h

/-- Settles O2: a command acts on the part alone. -/
theorem everyCommandAnswersNext : Obligations.EveryCommandAnswersNext := fun i s => ⟨act i s.part, exec_eq i s⟩

/-- Settles O1, by the definition of a step. -/
theorem stepRunsFrontCommand : Obligations.StepRunsFrontCommand := by
  refine ⟨fun _ _ _ => rfl, fun s idle => ?_⟩
  unfold step
  rw [idle]
  rfl

end Sys2Proof.Machine
end

