-- ==== Sys2Proof/Proofs/Resets.lean ====
section
/-! PROOFS. Power-on reset, supply reset and the coding of the travel outputs (02 section 3, 05 R146). -/
namespace Sys2Proof.Machine
open Sys2Proof

/-- A command completes with what it does to the part. -/
theorem completes_act {i : Instr} {s : State} {post : Part → Prop} (h : post (act i s.part)) : Completes i s post :=
  ⟨act i s.part, exec_eq i s, h⟩

theorem exec_of_act {i : Instr} {s : State} {q : Part} (h : act i s.part = q) : exec i s = .next { s with part := q } := by
  rw [exec_eq, ← h]
  rfl

/-- A command that does nothing to the part. -/
theorem exec_of_id {i : Instr} {s : State} (h : act i s.part = s.part) : exec i s = .next s := exec_of_act h

/-! ### Reset values -/

/-- Without a configuration every output line is low. -/
theorem pinLevel_unconfigured {p : Part} (h : p.config = none) (n : Nat) : pinLevel p n = false := by
  unfold pinLevel
  rw [h]
  split
  · contradiction
  · rfl

/-- Settles O3. -/
theorem resetValues : Obligations.ResetValues := by
  unfold Obligations.ResetValues State.reset
  have every {α : Type} {n : Nat} {a : α} {post : α → Prop} (h : post a) : ∀ x ∈ List.replicate n a, post x :=
    fun x hx => (List.mem_replicate.mp hx).2 ▸ h
  refine ⟨rfl, rfl, rfl, rfl, rfl, rfl, rfl, rfl, rfl, every ⟨rfl, rfl, rfl, rfl⟩, every ⟨rfl, rfl, rfl⟩,
    every ⟨rfl, rfl, rfl, rfl, rfl⟩, every rfl, rfl, every rfl, every rfl, rfl, rfl, rfl, rfl, rfl, rfl, every ⟨rfl, rfl, rfl⟩,
    every ⟨rfl, rfl, rfl, rfl⟩, every ⟨rfl, rfl⟩, rfl, rfl, rfl, rfl, rfl, rfl, rfl, rfl, rfl, rfl, rfl, rfl, rfl, rfl, rfl, rfl, rfl, rfl,
    rfl, rfl, rfl, rfl, pinLevel_unconfigured rfl⟩

/-- Settles O4: both commands are a reset of the part. -/
theorem powerAndSupplyReset : Obligations.PowerAndSupplyReset := by
  intro s i hi
  simp only [List.mem_cons, List.not_mem_nil, or_false] at hi
  rcases hi with rfl | rfl
  · exact completes_act ⟨rfl, rfl, rfl, pinLevel_unconfigured rfl⟩
  · exact completes_act ⟨rfl, rfl, rfl, pinLevel_unconfigured rfl⟩

/-- Settles O60: before any station runs, the laws of running stations have nothing to say. -/
theorem invariantsAtReset : Obligations.InvariantsAtReset := by
  have idle (c : Settings) : ¬ State.reset.part.runs c := fun h => nomatch h.1
  refine ⟨⟨?_, ⟨rfl, List.length_replicate, fun _ h => (nomatch h), fun _ h => (nomatch h)⟩, fun _ h => (nomatch h), fun _ h => (nomatch h)⟩,
    ⟨fun _ => rfl, fun _ => rfl⟩, ⟨?_, fun _ => ⟨⟨rfl, rfl, fun _ h => (nomatch h)⟩, fun _ => rfl⟩⟩, grantInv_idle rfl,
    fun c h => absurd h (idle c), Nat.zero_le 15, (travelInv_idle idle).mpr fun _ _ h => (nomatch h), fun c h => absurd h (idle c)⟩
  · exact ⟨rfl, rfl, rfl, rfl, rfl, rfl, rfl, rfl, List.length_replicate, rfl⟩
  · exact reset_bounded

/-- Settles O42: the sources follow the decision, row by row. -/
theorem travelCoding : Obligations.TravelCoding := by
  refine ⟨fun c p => ?_, fun _ _ _ _ => rfl⟩
  dsimp only
  unfold requestedOf
  rcases p.span.decision with _ | ⟨_ | _, _ | _ | _⟩ <;> simp [travelCode]

end Sys2Proof.Machine
end

