-- ==== Sys2Proof/Proofs/Restart.lean ====
section
/-! PROOFS. The restart reset runs to its end (08 R35). -/
namespace Sys2Proof.Machine
open Sys2Proof

variable {c : Settings} {p q : Part} {i : Instr}

/-! ### RESTART -/

theorem hear_eq (p : Part) : hear p = { p with heat := { p.heat with heard := (hear p).heat.heard } } := by
  unfold hear Part.onRunning
  split <;> rfl

/-- A frame of another sender that arrives while the station runs is dispatched after its count and its sign of life. -/
theorem receiveWhen_running {src : Byte} (run : p.run = .running) (foreign : src.toNat ≠ p.line.own) (f : Part → Part) :
    receiveWhen true src f p = f (hear (p.count Counters.addValid)) := by
  unfold receiveWhen
  dsimp only
  rw [if_pos rfl, if_neg foreign, if_pos run]

theorem mem_whenRunning {f : Settings → Part → List Instr} : i ∈ p.whenRunning f ↔ ∃ c, p.runs c ∧ i ∈ f c p := by
  unfold Part.whenRunning
  split
  · rename_i c run config
    exact ⟨fun h => ⟨c, ⟨run, config⟩, h⟩, fun ⟨d, runs, h⟩ => Part.runs.unique ⟨run, config⟩ runs ▸ h⟩
  · rename_i idle
    exact ⟨fun h => (nomatch h), fun ⟨c, runs, _⟩ => absurd runs.2 (idle c runs.1)⟩

theorem whenRunning_idle (h : ∀ c, ¬ p.runs c) (f : Settings → Part → List Instr) : p.whenRunning f = [] :=
  List.eq_nil_iff_forall_not_mem.mpr fun _ k => by
    obtain ⟨c, runs, _⟩ := mem_whenRunning.mp k
    exact h c runs

/-- The reset of a RESTART falls due with the line interface alone. -/
theorem restartReset_mem_dueNow {l : List Block} (run : p.run ≠ .inReset) :
    .restartReset l ∈ dueNow p ↔ .restartReset l ∈ dueLine p := by
  by_cases runs : ∃ c, p.runs c
  · obtain ⟨c, runs⟩ := runs
    rw [mem_dueNow runs]
    constructor
    · rintro (h | ⟨_, b, h⟩ | h | h | h | h | h | h | h | ⟨b, h⟩ | h | ⟨_, h⟩ | ⟨_, ⟨b, h⟩ | ⟨k, h⟩⟩ | h)
      · simp [mem_dueTravel] at h
      · simpa using mem_dueGen h
      · simpa using mem_dueSupply h
      · exact h
      · rw [mem_dueEmergency] at h
        obtain ⟨_, _, _, h⟩ := h
        split at h <;> cases h
      · simp [mem_dueBoundaries] at h
      · simpa using mem_dueTracks h
      · simpa using mem_dueMark h
      · simpa using mem_dueReference h
      · simpa using mem_dueFlow h
      · simpa using mem_dueScan h
      · simpa using mem_dueMs h
      · simp [mem_dueJack] at h
      · rw [mem_dueCrane] at h
        obtain ⟨_, ⟨_, h⟩ | ⟨_, _, h⟩⟩ := h
        · cases h
        · unfold craneEvent at h
          split at h <;> cases h
      · simpa using mem_dueWrite h
    · exact fun h => .inr (.inr (.inr (.inl h)))
  · rw [not_exists] at runs
    unfold dueNow
    rw [if_neg run, whenRunning_idle runs, whenRunning_idle runs]
    simp only [List.nil_append, List.append_nil, List.mem_append]
    constructor
    · rintro (((h | h) | h) | h)
      · simpa using mem_dueSupply h
      · unfold dueStart at h
        split at h <;> (try split at h) <;> simp at h
      · exact h
      · rw [mem_dueEmergency] at h
        obtain ⟨_, _, _, h⟩ := h
        split at h <;> cases h
    · exact fun h => .inl (.inr h)

theorem restartReset_mem_dueLine {r : RestartReq} (h : p.line.restart = some r) :
    (∃ l, Instr.restartReset l ∈ dueLine p) ↔ r.ended = true ∨ r.takenMs + 50 ≤ (stepMs p).clock.ms := by
  unfold dueLine
  dsimp only
  rw [h]
  dsimp only
  constructor
  · rintro ⟨l, member⟩
    rcases List.mem_append.mp member with clash | own
    · split at clash
      · split at clash <;> simp at clash
      · cases clash
    · by_contra none
      rw [if_neg none] at own
      cases own
  · intro due
    rw [if_pos due]
    exact ⟨[], List.mem_append_right _ List.mem_cons_self⟩

/-- A RESTART that is taken is answered, and the station waits for its reset. -/
theorem restart_taken {s : State} {src tag : Byte} {ps : List Byte} (run : s.part.run = .running)
    (free : s.part.line.waitIdle = false) (foreign : src.toNat ≠ s.part.line.own) (clash : s.part.line.clash = none)
    (restart : s.part.line.restart = none) (room : s.part.line.answers.length < 4) :
    Completes (.restart src tag ps) s fun q =>
      q.line.answers.getLast? = some ⟨tag, src, if s.part.config.isSome then .done else .unconfigured, [], true⟩
        ∧ q.line.restart = some ⟨s.part.clock.ms, false⟩
        ∧ (s.part.line.stuck.isSome = true → maySend q = false)
        ∧ q = { s.part with line := q.line, heat := q.heat }
        ∧ q.heat = { s.part.heat with heard := q.heat.heard } := by
  have taken : act (.restart src tag ps) s.part = routeRestart src tag (hear (s.part.count Counters.addValid)) := by
    have listens : listening s.part = true := by unfold listening; rw [run, free]; rfl
    show receiveWhen (listening s.part) src (routeRestart src tag) s.part = _
    rw [listens]
    exact receiveWhen_running run foreign _
  have result : act (.restart src tag ps) s.part = { s.part with
      line := LineUnit.placeAnswer ⟨tag, src, if s.part.config.isSome then .done else .unconfigured, [], true⟩ { s.part.line with
        counters := s.part.line.counters.addValid, restart := some ⟨s.part.clock.ms, false⟩ }
      heat := { s.part.heat with heard := (hear (s.part.count Counters.addValid)).heat.heard } } := by
    rw [taken, hear_eq]
    rw [routeRestart_eq (by exact congrArg Option.isSome clash) (by exact congrArg Option.isSome restart)]
    rfl
  refine completes_of (exec_of_act result) ?_
  rw [placeAnswer_room _ (by exact room)]
  have keeps := takeOffered_keeps { s.part.line with
    counters := s.part.line.counters.addValid, restart := some ⟨s.part.clock.ms, false⟩ }
  refine ⟨List.getLast?_concat, keeps.restart, fun stuck => ?_, rfl, rfl⟩
  have sticks := keeps.stuck
  have holds : s.part.line.stuck.isNone = false := by rw [Option.isNone_eq_false_iff]; exact stuck
  unfold maySend
  dsimp only at sticks ⊢
  rw [sticks, holds]
  simp

/-- After a RESTART an order is a valid frame and nothing else. -/
theorem order_after_restart {o : OrderForm} {s : State} {r : RestartReq} (order : orderOf i = some o) (runs : s.part.runs c)
    (receives : receiving s.part = true) (foreign : o.src.toNat ≠ s.part.line.own) (clash : s.part.line.clash = none)
    (restart : s.part.line.restart = some r) : exec i s = .next { s with part := heard s.part } := by
  refine exec_of_act ?_
  rw [act_order order]
  unfold takeOrder
  rw [receive_eq runs receives foreign]
  unfold routeOrder
  rw [if_neg (by unfold Part.inClash heard; rw [clash]; exact Bool.false_ne_true), if_pos (by unfold heard; rw [restart]; rfl)]

theorem mem_ahead {u : MemPort} {b : Block} : b ∈ u.ahead ↔ b ∈ u.dirty := by
  unfold MemPort.ahead
  simp only [List.mem_append, List.mem_filter, decide_eq_true_eq]
  constructor
  · rintro (h | h) <;> exact h.1
  · intro h
    rcases Nat.lt_or_ge b.round u.round with before | after
    · exact .inr ⟨h, before⟩
    · exact .inl ⟨h, after⟩

/-- A failed write leaves the old contents, the new ones, or a failing check. -/
theorem failed_cases (m : RecMem) (free : Nat) (b : Block) (x : Contents) :
    m.failed free b x = m ∨ m.failed free b x = m.store x ∨ m.failed free b x = m.spoil b := by
  unfold RecMem.failed
  split
  · exact .inl rfl
  · exact .inr (.inl rfl)
  · exact .inr (.inr rfl)

theorem onPort_inReset (h : p.run = .inReset) (flush : Part → Part) (f : Settings → Part → Part) : p.onPort flush f = flush p :=
  if_pos h

/-- Settles O5: a RESTART as taken, and what the port does in its reset. -/
theorem restartRuns : Obligations.RestartRuns := by
  refine ⟨fun s src tag ps run free foreign clash restart room => restart_taken run free foreign clash restart room,
    fun p r run restart => ?_, fun i o s c r order runs receives foreign clash restart =>
      order_after_restart order runs receives foreign clash restart, fun s r failed restart => ?_, fun s w rest run idle => ?_,
    fun s w run writing => ?_, fun s adr busy => ?_, fun s failed restart => ?_⟩
  · simp only [restartReset_mem_dueNow run]
    exact restartReset_mem_dueLine restart
  · refine completes_of (q := restarts failed s.part) rfl ?_
    unfold restarts
    rw [if_pos (by rw [restart]; rfl)]
    refine ⟨rfl, rfl, fun c runs calm => ?_, fun held => ?_, pinLevel_unconfigured rfl⟩
    · have flush : toFlush failed s.part = s.part.mem.ahead.map (fun b => ⟨⟨b, contents c s.part b⟩, failed.contains b⟩) := by
        unfold toFlush
        rw [runs.1, runs.2]
        dsimp only
        rw [calm]
        rfl
      refine ⟨flush, fun b dirty => ⟨⟨⟨b, contents c s.part b⟩, failed.contains b⟩, ?_, rfl, rfl⟩⟩
      dsimp only
      rw [flush]
      exact List.mem_map.mpr ⟨b, mem_ahead.mpr dirty, rfl⟩
    · dsimp only
      unfold toFlush
      split
      · rename_i c _ config
        rw [if_pos (held.resolve_right (by rw [config]; exact fun h => nomatch h))]
      · rfl
  · constructor
    · intro flush
      refine exec_of_act ((onPort_inReset run _ _).trans ?_)
      unfold flushBegins
      rw [idle, flush]
      rfl
    · intro flush
      refine completes_of (q := flushBegins s.part) (exec_of_act (onPort_inReset run _ _)) ?_
      unfold flushBegins
      rw [idle, flush]
      exact ⟨rfl, rfl, failed_cases _ _ _ _, rfl⟩
  · constructor
    · refine completes_of (q := pageDone true s.part) (exec_of_act (onPort_inReset run _ _)) ?_
      unfold pageDone
      rw [writing]
      obtain ⟨mem, none, flush⟩ := finish_fields { s.part.mem with mem := s.part.mem.mem.store w.copy } w.block
      exact ⟨none, mem, flush, rfl⟩
    · refine completes_of (q := flushFails s.part) (exec_of_act (onPort_inReset run _ _)) ?_
      unfold flushFails
      rw [writing]
      exact ⟨rfl, rfl, failed_cases _ _ _ _, rfl⟩
  · refine exec_of_id ?_
    show released adr s.part = s.part
    unfold released
    rw [if_neg]
    rintro ⟨_, idle⟩
    unfold MemPort.idle at idle
    simp only [Bool.and_eq_true, Option.isNone_iff_eq_none, List.isEmpty_iff] at idle
    exact busy.elim (fun h => h idle.1) fun h => h idle.2
  · refine exec_of_id ?_
    show restarts failed s.part = s.part
    unfold restarts
    rw [restart]
    rfl

end Sys2Proof.Machine
end

