-- ==== Sys2Proof/Proofs/StartUp.lean ====
section
/-! PROOFS. The start sequence from the image to the running station (02 section 4). -/
namespace Sys2Proof.Machine
open Sys2Proof

/-! ### The start sequence -/

/-- An image that passes has passed its check, its format code and its settings. -/
theorem imagePasses_parts {own : Nat} {img : Image} (h : imagePasses own img = true) :
    img.bytes.length = 4096 ∧ crc (img.bytes.take 0xFFE) = BitVec.ofNat 16 (num (img.bytes.drop 0xFFE))
      ∧ num (img.bytes.take 2) = 0x0B24 ∧ okRunway (inSteps img.raw) = true := by
  have runway := imagePasses_okRunway h
  unfold imagePasses imageCheck at h
  simp only [Bool.and_eq_true, beq_iff_eq] at h
  obtain ⟨⟨⟨size, check⟩, format⟩, _⟩ := h
  exact ⟨size, check, format, runway⟩

/-- Settles O6. -/
theorem startSequence : Obligations.StartSequence := by
  refine ⟨fun s adr run writing flush => ?_, fun s img c run read => exec_of_act ?_, fun s img run failed => exec_of_act ?_,
    fun own img wrong => ?_, fun p run => ?_⟩
  · refine completes_of (q := released adr s.part) rfl ?_
    have idle : s.part.mem.idle = true := by unfold MemPort.idle; rw [writing, flush]; rfl
    unfold released
    rw [if_pos ⟨run, idle⟩]
    refine ⟨rfl, ?_, rfl⟩
    dsimp only
    by_cases reset : s.part.supply.state = .reset
    · simp [reset]
    · simp [reset]
  · show imageRead img s.part = _
    unfold imageRead
    rw [if_pos run, read]
    rfl
  · show imageRead img s.part = _
    unfold imageRead
    rw [if_pos run, failed]
  · unfold readImage
    refine if_neg fun passes => ?_
    obtain ⟨size, check, format, runway⟩ := imagePasses_parts passes
    rcases wrong with h | h | h | h
    · exact h size
    · exact h check
    · exact h format
    · rw [runway] at h
      cases h
  · have notReset : p.run ≠ .inReset := by rcases run with h | h <;> rw [h] <;> exact fun h => nomatch h
    have notRunning : p.run ≠ .running := by rcases run with h | h <;> rw [h] <;> exact fun h => nomatch h
    have still : p.onRunning stepRunning = p := by
      unfold Part.onRunning
      split
      · rename_i running _
        exact absurd running notRunning
      · rfl
    unfold tickPart
    rw [if_neg notReset, still]
    unfold stepMs sampleEmergency
    dsimp only
    split <;> split <;> rfl

/-! ### What leaves the heat unit -/

/-- A field that no operation of a fold changes. -/
theorem foldl_eq {α β : Type} {g : Part → α} {f : Part → β → Part} (h : ∀ p x, g (f p x) = g p) (l : List β) (p : Part) :
    g (l.foldl f p) = g p := by
  induction l generalizing p with
  | nil => rfl
  | cons x l ih => exact (ih _).trans (h p x)

theorem forAssigned_eq {α : Type} {g : Part → α} {c : Settings} {f : Nat → Part → Part} (h : ∀ b p, g (f b p) = g p) (p : Part) :
    g (p.forAssigned c f) = g p := by
  refine foldl_eq (fun q b => ?_) _ p
  dsimp only
  split
  · exact h b q
  · rfl

variable (c : Settings) (p : Part)

theorem stageStep_heat (b : Nat) : (stageStep c b p).heat = p.heat := by
  unfold stageStep
  dsimp only
  split
  · rfl
  · exact withBed_heat p b _

theorem evaluateStage_heat (b : Nat) : (evaluateStage c b p).heat = p.heat := by
  unfold evaluateStage
  split
  · dsimp only
    rw [withBed_heat, stageStep_heat, stageStep_heat, stageStep_heat, stageStep_heat]
  · rfl

theorem evaluateRelease_heat (b : Nat) : (evaluateRelease b p).heat = p.heat := by
  unfold evaluateRelease
  dsimp only
  split
  · exact withBed_heat p b _
  · rfl

theorem emergencyBed_heat (b : Nat) : (emergencyBed b p).heat = p.heat := by
  unfold emergencyBed setBedState
  split
  · exact withBed_heat p b _
  · rfl

theorem computeGoverning_heat (b : Nat) : (computeGoverning c b p).heat = p.heat := by
  unfold computeGoverning
  split
  · rfl
  · dsimp only
    split
    · exact withBed_heat p b _
    · exact ((formLiftTests_act c _ c b).heat).trans (withBed_heat p b _)

theorem maturityAtStart_heat : (maturityAtStart c p).heat = p.heat := by
  unfold maturityAtStart
  dsimp only
  rw [(mapPieces_act c _ _).heat, (formShipTests_act c _ c).heat]
  exact (forAssigned_eq (fun b q => (formLiftTests_act c q c b).heat) _).trans
    (forAssigned_eq (fun b q => computeGoverning_heat c q b) p)

/-! ### The completion of start -/

/-- What stands at the completion of start leaves clock, runway and scans, and what the heat unit has counted. -/
structure Standing (c : Settings) (p q : Part) : Prop where
  run : q.run = p.run
  config : q.config = p.config
  clock : q.clock = p.clock
  scan : q.scan = p.scan
  travel : q.travel = p.travel
  pins : q.pins = p.pins
  heat : p.heat.sameLine q.heat
  emergency : q.out.emergency = p.out.emergency
  placed : Placed p.line q.line
  mem : p.mem.keeps q.mem
  warning : q.inWarning = p.inWarning

theorem HeatUnit.sameLine_refl (g : HeatUnit) : g.sameLine g := ⟨rfl, rfl, rfl, rfl⟩

theorem HeatUnit.sameLine_of_eq {g h : HeatUnit} (e : h = g) : g.sameLine h := e ▸ g.sameLine_refl

variable {c p} {q r : Part}

theorem Standing.refl (c : Settings) (p : Part) : Standing c p p :=
  ⟨rfl, rfl, rfl, rfl, rfl, rfl, HeatUnit.sameLine_refl _, rfl, .refl _, rfl, rfl⟩

theorem Standing.trans (h : Standing c p q) (k : Standing c q r) : Standing c p r :=
  ⟨k.run.trans h.run, k.config.trans h.config, k.clock.trans h.clock, k.scan.trans h.scan, k.travel.trans h.travel,
    k.pins.trans h.pins, HeatUnit.sameLine_trans h.heat k.heat, k.emergency.trans h.emergency, h.placed.trans k.placed,
    MemPort.keeps_trans h.mem k.mem, k.warning.trans h.warning⟩

theorem Event.standing (h : Event c p q) (acts : PlantAct c p q) (heat : p.heat.sameLine q.heat)
    (emergency : q.out.emergency = p.out.emergency) : Standing c p q :=
  ⟨h.run, h.config, acts.clock, acts.scan, acts.travel, acts.pins, heat, emergency, h.placed, h.mem, h.inWarning⟩

/-- Work before `settle` that keeps what the heat unit has counted, and the crane side after it. -/
theorem Prepares.standing (h : Prepares c p q) (acts : PlantAct c p q) (heat : p.heat.sameLine q.heat) (k : CraneAct c q r) :
    Standing c p r :=
  ⟨k.run.trans h.run, k.config.trans h.config, k.clock.trans acts.clock, k.scan.trans acts.scan, k.travel.trans acts.travel,
    k.pins.trans acts.pins, k.heat ▸ heat, (congrArg OutputUnit.emergency k.out).trans h.emergency, h.placed.trans k.placed,
    MemPort.keeps_trans h.mem k.mem, k.inWarning.trans h.inWarning⟩

theorem emergencyBegins_standing (c : Settings) (p : Part) : Standing c p (emergencyBegins c p) := by
  have before : Prepares c p (formDemands c ((p.report (.emergency p.now)).forAssigned c emergencyBed)) :=
    ((report_prepares c p _).trans (.forAssigned (fun b x => emergencyBed_prepares c x b) _)).trans (formDemands_prepares c _)
  have acts := ((HeatAct.report c p (.emergency p.now)).trans (HeatAct.forAssigned (fun b x => emergencyBed_act c x b) _)).trans
    (formDemands_act c _)
  refine before.standing acts.toPlantAct ?_ ((halt_act c _ _).trans (settle_act c _ c))
  refine HeatUnit.sameLine_trans (HeatUnit.sameLine_of_eq ?_) (formDemands_sameLine c _)
  exact forAssigned_eq (fun b x => emergencyBed_heat x b) _

theorem reportedDemands_standing (c : Settings) (p : Part) (x : Report) (k : CraneAct c (formDemands c (p.report x)) r) :
    Standing c p r :=
  (reportedDemands_prepares c p x).standing ((HeatAct.report c p x).trans (formDemands_act c _)).toPlantAct
    (formDemands_sameLine c _) k

theorem warningBegins_standing (c : Settings) (p : Part) : Standing c p (warningBegins c p) :=
  reportedDemands_standing c p _ ((halt_act c _ _).trans (settle_act c _ c))

theorem enterClash_standing (c : Settings) (p : Part) : Standing c p (enterClash c p) :=
  (computeGrant_prepares c p []).standing (computeGrant_act c p []).toPlantAct (computeGrant_sameLine p c [])
    ((halt_act c _ _).trans (settle_act c _ c))

theorem standingConditions_standing (c : Settings) (p : Part) : Standing c p (standingConditions c p) := by
  have first : Standing c p (if p.emergencyActive then emergencyBegins c p else p) := by
    split
    · exact emergencyBegins_standing c p
    · exact .refl c p
  have supply : Standing c p (standingSupply c p) := by
    unfold standingSupply
    dsimp only
    generalize (if p.emergencyActive then emergencyBegins c p else p) = x at *
    split
    · rename_i warning
      have since : Standing c x { x with supply := ⟨.warning, x.now⟩ } :=
        ⟨rfl, rfl, rfl, rfl, rfl, rfl, HeatUnit.sameLine_refl _, rfl, .refl _, rfl, (first.warning.trans warning).symm⟩
      exact (first.trans since).trans (warningBegins_standing c _)
    · exact first
  rw [standingConditions_eq]
  split
  · exact supply.trans (enterClash_standing c _)
  · exact supply

/-- What the blocks of a configured start set. -/
theorem blocksAtStart_fields (c : Settings) (p : Part) :
    (blocksAtStart c p).clock = (startFields p).clock ∧ (blocksAtStart c p).scan = (startFields p).scan
      ∧ (blocksAtStart c p).pins = p.pins ∧ (blocksAtStart c p).heat = (startFields p).heat
      ∧ (blocksAtStart c p).out.emergency = (startFields p).out.emergency ∧ (blocksAtStart c p).travel.referenced = false := by
  have prepared := maturityStages_prepares c (startFields p)
  have acts : PlantAct c (startFields p)
      ((maturityAtStart c (startFields p)).forAssigned c fun b q => evaluateStage c b (evaluateRelease b q)) :=
    (maturityAtStart_act c (startFields p)).trans
      (HeatAct.forAssigned (fun b x => (evaluateRelease_act c x b).trans (evaluateStage_act c _ c b)) _).toPlantAct
  have heat : ((maturityAtStart c (startFields p)).forAssigned c fun b q => evaluateStage c b (evaluateRelease b q)).heat
      = (startFields p).heat :=
    (forAssigned_eq (fun b x => (evaluateStage_heat c _ b).trans (evaluateRelease_heat x b)) _).trans (maturityAtStart_heat c _)
  exact ⟨acts.clock, acts.scan, acts.pins, heat, prepared.emergency, rfl⟩

theorem startConfigured_completes {s : State} (config : s.part.config = some c)
    (whole : q = settle c (formNotice c (standingConditions c (blocksAtStart c { s.part with run := .running })))) :
    q.run = .running ∧ q.config = some c ∧ q.scan.run = some ⟨true, s.part.now, [], 0⟩ ∧ q.heat.listening = 2
      ∧ q.position = none ∧ q.span.decision = .stop ∧ q.line.spanSlot.isSome = true ∧ q.msCount = 0
      ∧ q.out.emergency.accepted = s.part.out.emergency.accepted
      ∧ q.clock.now = s.part.clock.now ∧ q.pins = s.part.pins ∧ s.part.mem.keeps q.mem ∧ s.part.line.keeps q.line := by
  obtain ⟨clock, scan, pins, heat, emergency, unknown⟩ := blocksAtStart_fields c { s.part with run := .running }
  have acts := blocksAtStart_act c { s.part with run := .running }
  have standing := standingConditions_standing c (blocksAtStart c { s.part with run := .running })
  generalize blocksAtStart c { s.part with run := .running } = x at *
  generalize standingConditions c x = y at *
  have settled := settle_act c (formNotice c y) c
  have notice := formNotice_act c y c
  have lost : y.position = none := by
    unfold Part.position
    rw [standing.travel, unknown]
    rfl
  have stops := settle_stops c (formNotice c y) (.inl (notice.position.trans lost))
  have waits : (settle c (formNotice c y)).line.spanSlot.isSome = true := settled.placed.spanSlot
  rw [← whole] at settled stops waits
  have since := notice.trans settled
  have clocks : q.clock = (startFields { s.part with run := .running }).clock := since.clock.trans (standing.clock.trans clock)
  refine ⟨since.run.trans (standing.run.trans acts.run), since.config.trans (standing.config.trans (acts.config.trans config)),
    ?_, ?_, since.position.trans lost, stops, waits, ?_, ?_, ?_, since.pins.trans (standing.pins.trans pins), ?_, ?_⟩
  · rw [since.scan, standing.scan, scan]
    rfl
  · rw [since.heat, standing.heat.2.2.2, heat]
    rfl
  · unfold Part.msCount
    rw [clocks]
    exact Nat.sub_self _
  · rw [since.out, standing.emergency, emergency]
    rfl
  · rw [clocks]
    rfl
  · exact MemPort.keeps_trans acts.mem (MemPort.keeps_trans standing.mem since.mem)
  · exact (acts.placed.trans (standing.placed.trans since.placed)).keeps

/-- Settles O9: what the blocks set at the completion of start, what stands leaves, and the last notice. -/
theorem startCompletes_settled : Obligations.StartCompletes := by
  refine ⟨fun s c run config held => ?_, fun s run config held => exec_of_act ?_, fun s empty => exec_of_id ?_⟩
  · have runs : ({ s.part with run := .running } : Part).runs c := ⟨rfl, config⟩
    have result : act .startComplete s.part = startConfigured c { s.part with run := .running } := by
      show startCompletes s.part = _
      unfold startCompletes
      rw [if_pos ⟨run, Option.isSome_iff_ne_none.mpr held⟩]
      exact onRunning_of_runs runs _
    obtain ⟨q, whole⟩ : ∃ q, q = startConfigured c { s.part with run := .running } := ⟨_, rfl⟩
    exact completes_of (exec_of_act (result.trans whole.symm))
      (startConfigured_completes config (whole.trans (startConfigured_eq c _)))
  · show startCompletes s.part = _
    unfold startCompletes
    rw [if_pos ⟨run, Option.isSome_iff_ne_none.mpr held⟩]
    unfold Part.onRunning
    dsimp only
    rw [config]
  · show startCompletes s.part = _
    unfold startCompletes
    exact if_neg fun h => by rw [empty] at h; exact Bool.false_ne_true h.2

end Sys2Proof.Machine
end

