-- ==== Sys2Proof/Proofs/Orders.lean ====
section
/-! PROOFS. The maturity sample, and the orders of the shared line: which reach their block and which are turned away. -/
namespace Sys2Proof.Machine
open Sys2Proof

/-! ### Accumulators -/

theorem advance_saturated {a : Acc} {x : Nat} (h : maxMaturity ≤ a.m ∨ maxMaturity < a.m + (a.residue + x) / 360) :
    a.advance x = ⟨maxMaturity, 0⟩ := if_pos h

theorem advance_exact {a : Acc} {x : Nat} (h : ¬(maxMaturity ≤ a.m ∨ maxMaturity < a.m + (a.residue + x) / 360)) :
    a.advance x = ⟨a.m + (a.residue + x) / 360, (a.residue + x) % 360⟩ := if_neg h

/-- The maturity unit after a sample that stands for an interval. -/
theorem advanceAll_maturity {c : Settings} {x : Sample} {p : Part} (h : x.interval ≠ 0) :
    (advanceAll c x p).maturity = { p.maturity with
      accs := p.maturity.accs.mapIdx fun k a => advanceChannel c p x k a
      ambient := match x.usable.getD 22 none with
        | some t => p.maturity.ambient.advance (product c.t0 t x.interval)
        | none => p.maturity.ambient } := by
  unfold advanceAll
  rw [if_neg h]
  exact (CraneAct.markIf c _ _ _).maturity

theorem advanceAll_idle {c : Settings} {x : Sample} {p : Part} (h : x.interval = 0) : advanceAll c x p = p := if_pos h

theorem advanceAll_acc {c : Settings} {x : Sample} {p : Part} {k : Nat} (h : x.interval ≠ 0) (hk : k < p.maturity.accs.length) :
    (advanceAll c x p).maturity.accs.getD k ⟨0, 0⟩ = advanceChannel c p x k (p.maturity.accs.getD k ⟨0, 0⟩) := by
  rw [advanceAll_maturity h]
  simp [List.getD_eq_getElem?_getD, hk]

/-- Settles O14: the advance in its two cases, channel by channel. -/
theorem sampleAdvancesMaturity : Obligations.SampleAdvancesMaturity := by
  refine ⟨fun a x small => ?_, fun c p x k hk some => ?_, fun c p x => ?_⟩
  · by_cases saturates : maxMaturity ≤ a.m ∨ maxMaturity < a.m + (a.residue + x) / 360
    · rw [advance_saturated saturates]
      refine ⟨by decide, fun below fits => ?_, fun _ => rfl⟩
      dsimp only
      omega
    · rw [advance_exact saturates]
      refine ⟨Nat.mod_lt _ (by decide), fun below fits => ?_, fun full => absurd ?_ saturates⟩
      · dsimp only
        omega
      · omega
  · dsimp only
    rw [advanceAll_acc some hk]
    unfold advanceChannel
    dsimp only
    refine ⟨fun b t enabled bed assigned casting usable => ?_, fun idle => ?_, fun b bed idle => ?_⟩
    · rw [enabled, bed, usable]
      exact if_pos ⟨assigned, casting⟩
    · split
      · rename_i enabled bed usable
        rw [enabled, bed, usable] at idle
        simp at idle
      · rfl
    · split
      · rename_i enabled own usable
        rw [bed] at own
        cases own
        rw [if_neg]
        rintro ⟨assigned, casting⟩
        rcases idle with h | h
        · rw [assigned] at h
          cases h
        · exact casting h
      · rfl
  · dsimp only
    refine ⟨fun t some usable => ?_, fun idle => ?_⟩
    · rw [advanceAll_maturity some, usable]
      rfl
    · by_cases none : x.interval = 0
      · rw [advanceAll_idle none]
      · rw [advanceAll_maturity none, idle.resolve_left none]

/-! ### Orders and their answers -/

variable {c : Settings} {i : Instr} {o : OrderForm} {s : State}

/-- An order with its parameters that reaches a running station is answered with the outcome of its block. -/
theorem exec_taken (order : orderOf i = some o) (h : TakesOrders s.part c o.src) (need : o.need ≤ o.params.length) :
    exec i s = .next { s with part := answer o.src o.tag false (o.act c (heard s.part)) } := by
  refine exec_of_act ?_
  rw [act_order order, takeOrder_eq h, if_neg (Nat.not_lt.mpr need)]

theorem exec_short (order : orderOf i = some o) (h : TakesOrders s.part c o.src) (short : o.params.length < o.need) :
    exec i s = .next { s with part := answer o.src o.tag false (refuse .range (heard s.part)) } := by
  refine exec_of_act ?_
  rw [act_order order, takeOrder_eq h, if_pos short]

/-- The answer of a refusal changes nothing but the answer queue. -/
theorem answer_refuse_only {p : Part} {src tag : Byte} {r : Result} (room : p.line.answers.length < 4) :
    AnsweredOnly p (answer src tag false (refuse r p)) src tag r := by
  refine ⟨answered_answer (r := refuse r p) src tag room, rfl, placeAnswer_keeps _ room, ?_⟩
  unfold answer
  rw [placeAnswer_room _ (by exact room)]
  rfl

/-- An order that its block refuses is answered so, and changes nothing else. -/
theorem completes_refused {src tag : Byte} {ps : List Byte} {need : Nat} {act : Settings → Part → Reply}
    (order : orderOf i = some ⟨src, tag, ps, need, act⟩) (h : TakesOrders s.part c src) (enough : need ≤ ps.length) {r : Result}
    (refused : act c (heard s.part) = refuse r (heard s.part)) :
    Completes i s fun q => AnsweredOnly (heard s.part) q src tag r := by
  refine completes_of (exec_taken order h enough) ?_
  dsimp only
  rw [refused]
  exact answer_refuse_only h.room

theorem receiveWhen_congr {p : Part} {src : Byte} {a : Bool} {f g : Part → Part}
    (h : f (hear (p.count Counters.addValid)) = g (hear (p.count Counters.addValid))) :
    receiveWhen a src f p = receiveWhen a src g p := by
  unfold receiveWhen
  split
  · dsimp only
    split
    · rfl
    · split
      · exact h
      · rfl
  · rfl

theorem hear_own (p : Part) : (hear (p.count Counters.addValid)).line.own = p.line.own := by rw [hear_eq]; rfl

/-- An ORDER frame for this station that names an order reaches order routing as that order. -/
theorem otherFrame_named {p : Part} {src target : Byte} {pl : List Byte} (named : readOrder src pl = some i)
    (own : target.toNat = p.line.own) : otherFrame kindOrder src target pl p = routeCommand i p := by
  have forThis : forOwn kindOrder target p = true := decide_eq_true ⟨rfl, own⟩
  unfold otherFrame
  rw [if_neg (by decide), if_neg (by decide), if_pos forThis]
  unfold routeFrame
  split
  · rw [named]
  · rename_i short
    unfold readOrder at named
    split at named
    · exact absurd rfl (short _ _ _)
    · cases named

theorem exec_named {src target : Byte} {pl : List Byte} (named : readOrder src pl = some i)
    (own : target.toNat = s.part.line.own) : exec (.otherFrameReceived kindOrder src target pl) s = exec i s := by
  have forThis : forOwn kindOrder target s.part = true := decide_eq_true ⟨rfl, own⟩
  refine (exec_of_act ?_).trans (exec_eq i s).symm
  refine (receiveWhen_congr (otherFrame_named named (own.trans (hear_own s.part).symm))).trans ?_
  unfold frameArrives
  rw [forThis, named]
  rcases readOrder_names named with ⟨o, order, rfl⟩ | ⟨tag, ps, rfl⟩
  · rw [act_order order]
    refine (receiveWhen_congr (routeCommand_order order _)).trans ?_
    cases i <;> first | rfl | cases order
  · rfl

/-- Settles O15. -/
theorem ordersReachTheirBlock : Obligations.OrdersReachTheirBlock := by
  refine ⟨fun i o s c order h => ?_, fun i s src target pl named own => exec_named named own, fun src tag ps => ?_⟩
  · split
    · rename_i short
      obtain ⟨answered, frame, _, reports⟩ := answer_refuse_only (src := o.src) (tag := o.tag) (r := .range) (p := heard s.part) h.room
      exact completes_of (exec_short order h short) ⟨answered, frame, reports⟩
    · rename_i need
      have acts := (order_event c (heard s.part) order).toActs
      exact completes_of (exec_taken order h (Nat.not_lt.mp need)) ⟨answered_answer o.src o.tag (room_after h acts), rfl⟩
  · exact ⟨rfl, rfl, rfl, rfl, rfl, rfl, rfl, rfl, rfl, rfl, rfl, rfl, rfl, rfl, rfl, rfl, rfl, rfl, rfl, rfl, rfl, rfl, rfl, rfl, rfl,
      rfl, rfl, rfl⟩

/-! ### Orders turned away -/

/-- Where nothing is offered, placements leave the answer queue. -/
theorem Placed.answers_eq {l m : LineUnit} (h : Placed l m) (empty : l.tx = none) : m.answers = l.answers ∧ m.tx = none := by
  have idle {x : LineUnit} (tx : x.tx = none) : x.takeOffered = x := takeOffered_of_tx fun _ _ h => by rw [tx] at h; cases h
  induction h with
  | refl => exact ⟨rfl, empty⟩
  | report _ r ih =>
    unfold LineUnit.placeReport
    dsimp only
    rw [idle ih.2]
    split <;> exact ih
  | heat _ n ih =>
    unfold LineUnit.placeHeat
    rw [idle ih.2]
    exact ih
  | span _ n ih =>
    unfold LineUnit.placeSpan
    rw [idle ih.2]
    exact ih

theorem hear_configured {p : Part} (run : p.run = .running) :
    (hear p).heat.heard = (p.heat.heard || p.config.isSome) := by
  unfold hear Part.onRunning
  rw [run]
  cases config : p.config with
  | none => exact (Bool.or_false _).symm
  | some c => exact (Bool.or_true _).symm

theorem hear_unconfigured {p : Part} (h : p.config = none) : hear p = p := by
  unfold hear Part.onRunning
  split
  · rename_i config
    rw [h] at config
    cases config
  · rfl

/-- An order that arrives at a running station is routed. -/
theorem act_routed (order : orderOf i = some o) (run : s.part.run = .running) (receives : receiving s.part = true)
    (foreign : o.src.toNat ≠ s.part.line.own) :
    act i s.part = routeOrder o.src o.tag o.need o.params o.act (hear (s.part.count Counters.addValid)) := by
  rw [act_order order]
  unfold takeOrder receive
  rw [receives]
  exact receiveWhen_running run foreign _

/-- Settles O16. -/
theorem ordersTurnedAway : Obligations.OrdersTurnedAway := by
  refine fun i o s order run receives foreign => ⟨fun clash => ?_, fun calm taken unconfigured room => ?_,
    fun c config calm taken idle full need => ?_⟩
  · have result := act_routed order run receives foreign
    unfold routeOrder at result
    have inClash : (hear (s.part.count Counters.addValid)).inClash = true := by rw [hear_eq]; exact clash
    rw [if_pos inClash] at result
    refine completes_of (exec_of_act result) ?_
    have heard := hear_configured (p := s.part.count Counters.addValid) run
    rw [hear_eq]
    generalize (hear (s.part.count Counters.addValid)).heat.heard = v at heard
    subst heard
    exact ⟨rfl, rfl, rfl⟩
  · have result := act_routed order run receives foreign
    unfold routeOrder at result
    rw [hear_unconfigured (p := s.part.count Counters.addValid) unconfigured] at result
    have inClash : (s.part.count Counters.addValid).inClash = false := congrArg Option.isSome calm
    have restart : (s.part.count Counters.addValid).line.restart.isSome = false := congrArg Option.isSome taken
    have config : (s.part.count Counters.addValid).config = none := unconfigured
    rw [inClash, restart, config] at result
    exact completes_of (exec_of_act result) ⟨answered_answer (r := refuse .unconfigured (s.part.count Counters.addValid)) _ _ room, rfl⟩
  · have result := act_routed order run receives foreign
    have runs : (s.part.count Counters.addValid).runs c := ⟨run, config⟩
    have hears : hear (s.part.count Counters.addValid) = heard s.part := by
      unfold hear
      rw [onRunning_of_runs runs]
      rfl
    unfold routeOrder at result
    rw [hears] at result
    have inClash : (heard s.part).inClash = false := congrArg Option.isSome calm
    have restart : (heard s.part).line.restart.isSome = false := congrArg Option.isSome taken
    have configured : (heard s.part).config = some c := config
    rw [inClash, restart, configured] at result
    replace result : act i s.part = answer o.src o.tag false (o.act c (heard s.part)) := by
      rw [result]
      dsimp only
      rw [if_neg Bool.false_ne_true, if_neg Bool.false_ne_true, if_neg (Nat.not_lt.mpr need)]
    have acts := (order_event c (heard s.part) order).toActs
    refine completes_of (exec_of_act result) ?_
    generalize o.act c (heard s.part) = r at *
    obtain ⟨answers, tx⟩ := acts.placed.answers_eq (by exact idle)
    have offered : r.part.line.takeOffered = r.part.line := takeOffered_of_tx fun _ _ h => by rw [tx] at h; cases h
    unfold answer
    rw [placeAnswer_full _ (by rw [offered, answers]; exact full), offered]
    refine ⟨answers, ?_, rfl⟩
    unfold LineUnit.dropAnswer sat
    dsimp only
    rw [acts.placed.keeps.counters]
    rfl

end Sys2Proof.Machine
end

