-- ==== Sys2Proof/Proofs/Queries.lean ====
section
/-! PROOFS. The queries: what an answer of values carries. -/
namespace Sys2Proof.Machine
open Sys2Proof

/-! ### Queries -/

variable {c : Settings} {i : Instr} {s : State}

/-- The data of an answer with items begins with its head. -/
theorem fitItems_head (head : List Value) (items : List (List Value)) : ∃ d, fitItems head items = head ++ d := by
  induction items generalizing head with
  | nil => exact ⟨[], (List.append_nil head).symm⟩
  | cons item rest ih =>
    unfold fitItems
    dsimp only
    split
    · obtain ⟨d, fit⟩ := ih (head ++ .brk :: item)
      exact ⟨.brk :: item ++ d, by rw [fit, List.append_assoc]⟩
    · exact ⟨[], (List.append_nil head).symm⟩

theorem answer_tell_tells {p : Part} {src tag : Byte} (vs d : List Value) (room : p.line.answers.length < 4) :
    Tells p (answer src tag false (tell (vs ++ d) p)) src tag vs := by
  refine ⟨⟨d, answered_answer (r := tell (vs ++ d) p) src tag room⟩, rfl, placeAnswer_keeps _ room, ?_⟩
  unfold answer
  rw [placeAnswer_room _ (by exact room)]
  rfl

/-- A query that its block answers with data that begins with `vs`. -/
theorem completes_told {src tag : Byte} {ps : List Byte} {need : Nat} {act : Settings → Part → Reply}
    (order : orderOf i = some ⟨src, tag, ps, need, act⟩) (h : TakesOrders s.part c src) (enough : need ≤ ps.length)
    {vs : List Value} (told : ∃ d, act c (heard s.part) = tell (vs ++ d) (heard s.part)) :
    Completes i s fun q => Tells (heard s.part) q src tag vs := by
  obtain ⟨d, told⟩ := told
  refine completes_of (exec_taken order h enough) ?_
  dsimp only
  rw [told]
  exact answer_tell_tells vs d h.room

/-- A query that is answered with items alone. -/
theorem completes_items {src tag : Byte} {ps : List Byte} {need : Nat} {act : Settings → Part → Reply}
    (order : orderOf i = some ⟨src, tag, ps, need, act⟩) (h : TakesOrders s.part c src) (enough : need ≤ ps.length)
    {vs : List Value} (told : act c (heard s.part) = tell vs (heard s.part)) :
    Completes i s fun q => Tells (heard s.part) q src tag [] ∧ Answered q src tag .done vs := by
  refine completes_of (exec_taken order h enough) ?_
  dsimp only
  rw [told]
  exact ⟨answer_tell_tells [] vs h.room, answered_answer (r := tell vs (heard s.part)) _ _ h.room⟩

theorem within_iff {lo hi n : Nat} : within lo hi n = true ↔ lo ≤ n ∧ n ≤ hi := decide_eq_true_iff

/-- An answer with items begins with what its head begins with. -/
theorem tell_fitItems {head vs more : List Value} (h : head = vs ++ more) (items : List (List Value)) (p : Part) :
    ∃ d, tell (fitItems head items) p = tell (vs ++ d) p := by
  obtain ⟨d, fit⟩ := fitItems_head head items
  exact ⟨more ++ d, by rw [fit, h, List.append_assoc]⟩

/-- Settles O17, query by query. -/
theorem queriesTell : Obligations.QueriesTell := by
  intro s c src tag ps h p Refused
  refine ⟨fun need bad => ?_, fun need bad => ?_, fun need bad => ?_, fun need bad => ?_, fun need bad => ?_, fun need bad => ?_,
    fun need bad => ?_, fun need bad => ?_, fun need bad => ?_, fun need low high => ?_, ?_, ?_, fun need ok => ?_,
    fun need low high => ?_, fun x need ok => ?_, fun need ok => ?_, fun need ok slot => ?_, fun need ok => ?_, fun g need ok => ?_,
    fun need ok => ?_, fun need ok => ?_, ?_⟩
  · have out : within 1 32 (par ps 0) = false := by
      rw [Bool.eq_false_iff, Ne, within_iff]
      omega
    refine ⟨completes_refused rfl h need ?_, completes_refused rfl h need ?_⟩
    · show queryHeatState ps c _ = _
      unfold queryHeatState
      dsimp only
      rw [out]
      rfl
    · show queryCranes ps c _ = _
      unfold queryCranes
      dsimp only
      rw [out]
      rfl
  · exact completes_refused rfl h need (if_pos bad)
  · refine completes_refused rfl h need ?_
    show queryPiece ps c _ = _
    unfold queryPiece
    rw [bad]
  · refine completes_refused rfl h need (if_pos ?_)
    rw [bad]
    rfl
  · refine completes_refused rfl h need (if_pos ?_)
    simpa using bad
  · refine completes_refused rfl h need (if_pos ?_)
    simpa using bad
  · refine completes_refused rfl h need ?_
    show queryStack ps c _ = _
    unfold queryStack
    dsimp only
    rw [bad]
  · exact completes_refused rfl h need (if_pos bad)
  · exact completes_refused rfl h need (if_pos bad)
  · refine completes_told rfl h need ?_
    show ∃ d, queryHeatState ps c _ = _
    unfold queryHeatState
    dsimp only
    rw [within_iff.mpr ⟨low, high⟩, if_neg (by decide)]
    exact tell_fitItems (by exact rfl) _ _
  · exact completes_told rfl h (Nat.zero_le _) ⟨_, rfl⟩
  · exact completes_told rfl h (Nat.zero_le _) ⟨_, rfl⟩
  · refine completes_told rfl h need ?_
    show ∃ d, querySpans ps c _ = _
    unfold querySpans
    dsimp only
    rw [if_neg (Nat.not_le.mpr ok)]
    exact tell_fitItems (List.append_nil _).symm _ _
  · refine completes_items rfl h need ?_
    show queryCranes ps c _ = _
    unfold queryCranes
    dsimp only
    rw [within_iff.mpr ⟨low, high⟩]
    rfl
  · refine completes_told rfl h need ?_
    show ∃ d, queryPiece ps c _ = _
    unfold queryPiece
    rw [ok]
    exact ⟨_, rfl⟩
  · refine completes_told rfl h need ?_
    show ∃ d, queryBed ps c _ = _
    unfold queryBed
    dsimp only
    rw [ok]
    exact ⟨_, rfl⟩
  · refine completes_items rfl h need ?_
    show querySlots ps c _ = _
    unfold querySlots
    dsimp only
    rw [ok, if_neg (by simpa using slot)]
    rfl
  · refine completes_told rfl h need ?_
    show ∃ d, queryChannel ps c _ = _
    unfold queryChannel
    dsimp only
    rw [if_neg (by simpa using ok)]
    split
    · exact ⟨_, rfl⟩
    · exact ⟨_, rfl⟩
  · refine completes_told rfl h need ?_
    show ∃ d, queryStack ps c _ = _
    unfold queryStack
    dsimp only
    rw [ok]
    exact ⟨_, rfl⟩
  · refine completes_told rfl h need ?_
    show ∃ d, queryRegister ps c _ = _
    unfold queryRegister
    dsimp only
    rw [if_neg ok]
    exact tell_fitItems (List.append_nil _).symm _ _
  · refine completes_told rfl h need ?_
    show ∃ d, queryMoves ps c _ = _
    unfold queryMoves
    dsimp only
    rw [if_neg (Nat.not_lt.mpr ok)]
    exact tell_fitItems (by exact rfl) _ _
  · exact completes_told rfl h (Nat.zero_le _) ⟨_, rfl⟩

end Sys2Proof.Machine
end

