-- ==== Sys2Proof/Proofs/BedOrders.lean ====
section
/-! PROOFS. The orders of a bed: DETENSION, CAST_END, HOLD and the refusals of CAST_START, with what they leave unchanged. -/
namespace Sys2Proof.Machine
open Sys2Proof

/-! ### Bed records -/

section
variable (p : Part) (b : Nat) (f : Bed → Bed)

theorem withBed_beds : (p.withBed b f).beds = p.beds.set b (f (p.bed b)) := by unfold Part.withBed; simp
@[simp] theorem withBed_clock : (p.withBed b f).clock = p.clock := by unfold Part.withBed; simp
@[simp] theorem withBed_scan : (p.withBed b f).scan = p.scan := by unfold Part.withBed; simp
@[simp] theorem withBed_maturity : (p.withBed b f).maturity = p.maturity := by unfold Part.withBed; simp
@[simp] theorem withBed_pieces : (p.withBed b f).pieces = p.pieces := by unfold Part.withBed; simp
@[simp] theorem withBed_moves : (p.withBed b f).moves = p.moves := by unfold Part.withBed; simp
@[simp] theorem withBed_line : (p.withBed b f).line = p.line := by unfold Part.withBed; simp

theorem bed_withBed (k : Nat) : (p.withBed b f).bed k = if b = k ∧ b < p.beds.length then f (p.bed b) else p.bed k := by
  unfold Part.bed
  rw [withBed_beds, List.getD_eq_getElem?_getD, List.getD_eq_getElem?_getD, List.getElem?_set]
  by_cases at_b : b = k
  · subst at_b
    by_cases inside : b < p.beds.length <;> simp [inside, Part.bed]
  · simp [at_b]

variable {p b f}

theorem bed_withBed_same (h : b < p.beds.length) : (p.withBed b f).bed b = f (p.bed b) := by
  rw [bed_withBed, if_pos ⟨rfl, h⟩]

theorem bed_withBed_other {k : Nat} (h : k ≠ b) : (p.withBed b f).bed k = p.bed k := by
  rw [bed_withBed, if_neg fun e => h e.1.symm]

theorem withBed_beds_length : (p.withBed b f).beds.length = p.beds.length := by rw [withBed_beds, List.length_set]

end

theorem bed_of_beds {p q : Part} (h : q.beds = p.beds) (k : Nat) : q.bed k = p.bed k := by unfold Part.bed; rw [h]

theorem bed_report (p : Part) (x : Report) (k : Nat) : (p.report x).bed k = p.bed k := rfl

theorem shaped_beds {p : Part} (h : p.shaped) {b : Nat} (hb : b < 4) : b < p.beds.length := by rw [h.1]; exact hb

section
variable {p : Part} {b : Nat} (st : BedState) (w : BedCause)

theorem bed_setBedState (h : b < p.beds.length) : (setBedState b st w p).bed b = { p.bed b with state := st } :=
  bed_withBed_same h

theorem bed_setBedState_other {k : Nat} (h : k ≠ b) : (setBedState b st w p).bed k = p.bed k := bed_withBed_other h

theorem setBedState_out : (setBedState b st w p).out = p.out := withBed_out p b _
theorem setBedState_heat : (setBedState b st w p).heat = p.heat := withBed_heat p b _

end

/-! ### Orders carried out -/

variable {c : Settings} {i : Instr} {s : State}

/-- An order that is carried out and ends in `settle`: the answer stands last, and the rest is what `settle` left. -/
theorem completes_settled {src tag : Byte} {ps : List Byte} {need : Nat} {act : Settings → Part → Reply}
    (order : orderOf i = some ⟨src, tag, ps, need, act⟩) (h : TakesOrders s.part c src) (enough : need ≤ ps.length) {x : Part}
    (carried : act c (heard s.part) = doneSettled c x) (acts : Acts c (heard s.part) x) {post : Part → Prop}
    (k : ∀ y q, y = settle c x → Answered q src tag .done [] → q = { y with line := q.line } →
      (heard s.part).line.keeps q.line → post q) : Completes i s post := by
  refine completes_of (exec_taken order h enough) ?_
  dsimp only
  rw [carried]
  have settled := settle_act c x c
  unfold doneSettled done
  generalize settle c x = y at *
  have room := room_after h (acts.trans settled.toActs)
  exact k y _ rfl (answered_answer (r := ⟨.done, [], y⟩) src tag room) rfl
    (LineUnit.keeps_trans (acts.placed.trans settled.placed).keeps (placeAnswer_keeps _ room))

/-- An order that is carried out without `settle`. -/
theorem completes_done {src tag : Byte} {ps : List Byte} {need : Nat} {act : Settings → Part → Reply}
    (order : orderOf i = some ⟨src, tag, ps, need, act⟩) (h : TakesOrders s.part c src) (enough : need ≤ ps.length) {x : Part}
    (carried : act c (heard s.part) = done x) (acts : Acts c (heard s.part) x) {post : Part → Prop}
    (k : ∀ q, Answered q src tag .done [] → q = { x with line := x.line.placeAnswer ⟨tag, src, .done, [], false⟩ } →
      (heard s.part).line.keeps q.line → post q) : Completes i s post := by
  refine completes_of (exec_taken order h enough) ?_
  dsimp only
  rw [carried]
  have room := room_after h acts
  exact k _ (answered_answer (r := ⟨.done, [], x⟩) src tag room) rfl
    (LineUnit.keeps_trans acts.placed.keeps (placeAnswer_keeps _ room))

theorem PlantAct.frame_answered {p y q : Part} (h : PlantAct c p y) (e : q = { y with line := q.line })
    (keeps : p.line.keeps q.line) : plantFrame p q := by
  refine ⟨?_, keeps, ?_⟩
  · have frame := h.frame.1
    rw [e, frame]
  · rw [e]
    exact h.mem

theorem CraneAct.frame_answered {p y q : Part} (h : CraneAct c p y) (e : q = { y with line := q.line })
    (keeps : p.line.keeps q.line) : craneFrame p q := by
  refine ⟨?_, keeps, ?_⟩
  · have frame := h.frame.1
    rw [e, frame]
  · rw [e]
    exact h.mem

/-- An order about bed `b` that leaves heat and outputs. -/
theorem completes_bedOrder {src tag : Byte} {ps : List Byte} {need : Nat} {act : Settings → Part → Reply}
    (order : orderOf i = some ⟨src, tag, ps, need, act⟩) (h : TakesOrders s.part c src) (enough : need ≤ ps.length) {x : Part}
    {b : Nat} (carried : act c (heard s.part) = doneSettled c x) (acts : PlantAct c (heard s.part) x)
    (heat : x.heat = (heard s.part).heat) (out : x.out = (heard s.part).out)
    (others : ∀ j, j ≠ b → x.bed j = (heard s.part).bed j) {post : Part → Prop}
    (k : ∀ q, Answered q src tag .done [] → (∀ j, q.bed j = x.bed j) →
      (∀ j, j ≠ b → q.bed j = (heard s.part).bed j) ∧ q.heat = (heard s.part).heat ∧ q.out = (heard s.part).out
        ∧ plantFrame (heard s.part) q → post q) : Completes i s post := by
  refine completes_settled order h enough carried acts.toActs fun y q settled answered rest keeps => ?_
  have crane : CraneAct c x y := settled ▸ settle_act c x c
  have beds (j : Nat) : q.bed j = x.bed j := (bed_of_beds (by rw [rest]) j).trans (crane.bed j)
  refine k q answered beds ⟨fun j other => (beds j).trans (others j other), ?_, ?_,
    (acts.trans crane.toPlantAct).frame_answered rest keeps⟩
  · rw [rest]
    exact crane.heat.trans heat
  · rw [rest]
    exact crane.out.trans out

/-! ### DETENSION -/

theorem bed_enterDetensioned {p : Part} {b : Nat} (h : b < p.beds.length) :
    (enterDetensioned c b p).bed b = { p.bed b with state := .detensioned, setpoint := (c.bed b).tf } := by
  unfold enterDetensioned
  rw [bed_setBedState _ _ (by rw [withBed_beds_length]; exact h), bed_withBed_same h]

/-- Settles O22: the checks of the order in turn, and the state it enters. -/
theorem detensionChecked : Obligations.DetensionChecked := by
  intro s c src tag ps p b x h shaped enough hb
  have inside : b < p.beds.length := shaped_beds (p := p) shaped hb
  have checks : orderDetension ps c p = if !c.assigned b then refuse .range p
      else if x.state ≠ .curing then refuse .badState p
      else if !x.releaseReady then refuse .notReady p
      else if x.hold then refuse .held p
      else if p.emergencyActive then refuse .notReady p
      else if x.jack.level then doneSettled c (enterDetensioned c b p)
      else doneSettled c (setBedState b .detensioning .order p) := rfl
  split_ifs with assigned curing ready hold emergency jack
  · exact completes_refused rfl h enough (checks.trans (by rw [assigned]; rfl))
  · exact completes_refused rfl h enough (checks.trans (by rw [if_neg (by simpa using assigned), if_pos curing]))
  · exact completes_refused rfl h enough
      (checks.trans (by rw [if_neg (by simpa using assigned), if_neg curing, ready]; rfl))
  · exact completes_refused rfl h enough
      (checks.trans (by rw [if_neg (by simpa using assigned), if_neg curing, if_neg (by simpa using ready), if_pos hold]))
  · exact completes_refused rfl h enough
      (checks.trans (by rw [if_neg (by simpa using assigned), if_neg curing, if_neg (by simpa using ready), if_neg hold,
        if_pos emergency]))
  · have carried : orderDetension ps c p = doneSettled c (enterDetensioned c b p) := checks.trans
      (by rw [if_neg (by simpa using assigned), if_neg curing, if_neg (by simpa using ready), if_neg hold, if_neg emergency, if_pos jack])
    refine completes_bedOrder (b := b) rfl h enough carried (enterDetensioned_act c p c b).toPlantAct
      ((setBedState_heat _ _).trans (withBed_heat p b _)) ((setBedState_out _ _).trans (withBed_out p b _))
      (fun j other => (bed_setBedState_other _ _ other).trans (bed_withBed_other other)) fun q answered beds frame => ?_
    have own := (beds b).trans (bed_enterDetensioned inside)
    refine ⟨answered, own, ?_, frame⟩
    unfold permitRequest
    rw [own, jack]
    rfl
  · have carried : orderDetension ps c p = doneSettled c (setBedState b .detensioning .order p) := checks.trans
      (by rw [if_neg (by simpa using assigned), if_neg curing, if_neg (by simpa using ready), if_neg hold, if_neg emergency, if_neg jack])
    refine completes_bedOrder (b := b) rfl h enough carried (setBedState_act c p b _ _).toPlantAct
      (setBedState_heat _ _) (setBedState_out _ _) (fun j other => bed_setBedState_other _ _ other) fun q answered beds frame => ?_
    have own := (beds b).trans (bed_setBedState _ _ inside)
    refine ⟨answered, own, ?_, frame⟩
    unfold permitRequest
    rw [own, Bool.eq_false_iff.mpr jack]
    rfl

/-! ### CAST_END -/

/-- The operations on the stage of bed `b` leave the other beds. -/
theorem bed_stageStep_other {p : Part} {b j : Nat} (h : j ≠ b) : (stageStep c b p).bed j = p.bed j := by
  unfold stageStep
  dsimp only
  split
  · rfl
  · exact bed_withBed_other h

theorem bed_evaluateStage_other {p : Part} {b j : Nat} (h : j ≠ b) : (evaluateStage c b p).bed j = p.bed j := by
  unfold evaluateStage
  split
  · dsimp only
    rw [bed_withBed_other h, bed_stageStep_other h, bed_stageStep_other h, bed_stageStep_other h, bed_stageStep_other h]
  · rfl

theorem bed_evaluateRelease_other {p : Part} {b j : Nat} (h : j ≠ b) : (evaluateRelease b p).bed j = p.bed j := by
  unfold evaluateRelease
  dsimp only
  split
  · exact bed_withBed_other h
  · rfl

theorem stageStep_out (c : Settings) (p : Part) (b : Nat) : (stageStep c b p).out = p.out := by
  unfold stageStep
  dsimp only
  split
  · rfl
  · exact withBed_out p b _

theorem evaluateStage_out (c : Settings) (p : Part) (b : Nat) : (evaluateStage c b p).out = p.out := by
  unfold evaluateStage
  split
  · dsimp only
    rw [withBed_out, stageStep_out, stageStep_out, stageStep_out, stageStep_out]
  · rfl

theorem evaluateRelease_out (p : Part) (b : Nat) : (evaluateRelease b p).out = p.out := by
  unfold evaluateRelease
  dsimp only
  split
  · exact withBed_out p b _
  · rfl

/-- A bed whose release test is reached while it is CURING is release-ready; nothing else of it changes. -/
theorem bed_evaluateRelease {p : Part} {b : Nat} (h : b < p.beds.length) : (evaluateRelease b p).bed b =
    { p.bed b with releaseReady := (p.bed b).releaseReady || ((p.bed b).state == .curing && (p.bed b).releaseTest) } := by
  unfold evaluateRelease
  dsimp only
  split
  · rename_i ready
    obtain ⟨curing, test, _⟩ := ready
    rw [bed_report, bed_withBed_same h, curing, test]
    simp
  · rename_i other
    have unchanged : ((p.bed b).releaseReady || ((p.bed b).state == .curing && (p.bed b).releaseTest)) =
        (p.bed b).releaseReady := by
      cases already : (p.bed b).releaseReady
      · by_cases curing : (p.bed b).state = .curing
        · have : (p.bed b).releaseTest = false := by simpa [curing, already] using other
          simp [this]
        · simp [curing]
      · rfl
    rw [unchanged]

end Sys2Proof.Machine

namespace Sys2Proof.Machine
open Sys2Proof

variable {c : Settings} {p : Part} {b : Nat}

/-! ### The stage of a bed (03 R55..R57) -/

/-- The transition that applies to bed `b` now, if one does. -/
def dueStage (c : Settings) (b : Nat) (p : Part) : Option Stage :=
  nextStage (c.bed b) (p.bed b).stage (p.bed b).rampStart ((p.bed b).elapsed p.now)

/-- The start value of RAMP with which a stage is entered (03 R56). -/
def startOf (c : Settings) (b : Nat) (p : Part) (st : Stage) : Int :=
  if st = .ramp then max (c.bed b).tf ((p.bedTemp b).tc.getD (c.bed b).tf) else (p.bed b).rampStart

/-- A bed with the setpoint of its stage. -/
def Bed.aimed (x : Bed) (g : BedCfg) (now : Nat) : Bed :=
  { x with setpoint := stageSetpoint g x.stage x.rampStart (x.elapsed now) }

theorem stageStep_none (h : dueStage c b p = none) : stageStep c b p = p := by
  unfold stageStep
  unfold dueStage at h
  dsimp only
  rw [h]

theorem bed_stageStep {st : Stage} (inside : b < p.beds.length) (h : dueStage c b p = some st) :
    (stageStep c b p).bed b = { p.bed b with stage := st, stageStart := p.now, rampStart := startOf c b p st } := by
  unfold stageStep
  unfold dueStage at h
  dsimp only
  rw [h, bed_report, bed_withBed_same inside]
  rfl

theorem stageStep_now : (stageStep c b p).now = p.now := (stageStep_act c p c b).now
theorem stageStep_beds_length : (stageStep c b p).beds.length = p.beds.length := by
  unfold stageStep
  dsimp only
  split
  · rfl
  · exact withBed_beds_length

/-- A transition changes the stage and its two start values alone. -/
theorem bed_stageStep_rest (inside : b < p.beds.length) : ∃ st n t,
    (stageStep c b p).bed b = { p.bed b with stage := st, stageStart := n, rampStart := t } := by
  cases due : dueStage c b p with
  | none => exact ⟨_, _, _, by rw [stageStep_none due]⟩
  | some st => exact ⟨_, _, _, bed_stageStep inside due⟩

theorem evaluateStage_idle (h : (p.bed b).stageRuns = false) : evaluateStage c b p = p := by
  unfold evaluateStage
  rw [h]
  rfl

/-- Four transitions, and then the setpoint. -/
theorem bed_evaluateStage (inside : b < p.beds.length) (runs : (p.bed b).stageRuns = true) :
    (evaluateStage c b p).bed b =
      ((stageStep c b (stageStep c b (stageStep c b (stageStep c b p)))).bed b).aimed (c.bed b) p.now := by
  unfold evaluateStage
  rw [if_pos runs]
  dsimp only
  rw [bed_withBed_same (by simp only [stageStep_beds_length]; exact inside)]
  simp only [stageStep_now]
  rfl

/-- A stage whose time has not come stands; its setpoint is formed. -/
theorem bed_evaluateStage_stands (inside : b < p.beds.length) (runs : (p.bed b).stageRuns = true) (h : dueStage c b p = none) :
    (evaluateStage c b p).bed b = (p.bed b).aimed (c.bed b) p.now := by
  rw [bed_evaluateStage inside runs, stageStep_none h, stageStep_none h, stageStep_none h, stageStep_none h]

/-- A transition after which none applies at once. -/
theorem bed_evaluateStage_enters {st : Stage} (inside : b < p.beds.length) (runs : (p.bed b).stageRuns = true)
    (h : dueStage c b p = some st) (last : nextStage (c.bed b) st (startOf c b p st) 0 = none) :
    (evaluateStage c b p).bed b =
      { p.bed b with
        stage := st, stageStart := p.now, rampStart := startOf c b p st
        setpoint := stageSetpoint (c.bed b) st (startOf c b p st) 0 } := by
  have bed := bed_stageStep inside h
  have elapsed : p.now - p.now = 0 := Nat.sub_self _
  have settled : dueStage c b (stageStep c b p) = none := by
    unfold dueStage Bed.elapsed
    rw [bed, stageStep_now]
    dsimp only
    rw [elapsed]
    exact last
  rw [bed_evaluateStage inside runs, stageStep_none settled, stageStep_none settled, stageStep_none settled, bed]
  unfold Bed.aimed Bed.elapsed
  dsimp only
  rw [elapsed]

/-- The evaluation changes the stage, its start values and the setpoint alone. -/
theorem bed_evaluateStage_rest (inside : b < p.beds.length) : ∃ st n t v,
    (evaluateStage c b p).bed b = { p.bed b with stage := st, stageStart := n, rampStart := t, setpoint := v } := by
  cases runs : (p.bed b).stageRuns with
  | false => exact ⟨_, _, _, _, by rw [evaluateStage_idle runs]⟩
  | true =>
    obtain ⟨st1, n1, t1, h1⟩ := bed_stageStep_rest (c := c) inside
    obtain ⟨st2, n2, t2, h2⟩ := bed_stageStep_rest (c := c) (p := stageStep c b p) (b := b) (by rw [stageStep_beds_length]; exact inside)
    obtain ⟨st3, n3, t3, h3⟩ := bed_stageStep_rest (c := c) (p := stageStep c b (stageStep c b p)) (b := b)
      (by simp only [stageStep_beds_length]; exact inside)
    obtain ⟨st4, n4, t4, h4⟩ := bed_stageStep_rest (c := c) (p := stageStep c b (stageStep c b (stageStep c b p))) (b := b)
      (by simp only [stageStep_beds_length]; exact inside)
    exact ⟨st4, n4, t4, _, by rw [bed_evaluateStage inside runs, h4, h3, h2, h1]; rfl⟩

theorem evaluateStage_beds_length : (evaluateStage c b p).beds.length = p.beds.length := by
  unfold evaluateStage
  split
  · dsimp only
    rw [withBed_beds_length]
    simp only [stageStep_beds_length]
  · rfl

/-! ### CAST_END (03 R45) -/

/-- Settles O21: the checks of the order in turn, and the bed after the stage and the release test have been evaluated. -/
theorem castEndChecked : Obligations.CastEndChecked := by
  intro s c src tag ps p b x h shaped enough hb
  have inside : b < p.beds.length := shaped_beds (p := p) shaped hb
  have checks : orderCastEnd ps c p = if !c.assigned b then refuse .range p
      else if x.state ≠ .casting ∨ x.received < x.expected then refuse .badState p
      else doneSettled c (evaluateRelease b (evaluateStage c b (setBedState b .curing .order
        (p.withBed b fun y => { y with stage := .preset, stageStart := p.now })))) := rfl
  split_ifs with assigned casting
  · exact completes_refused rfl h enough (checks.trans (by rw [assigned]; rfl))
  · exact completes_refused rfl h enough (checks.trans (by rw [if_neg (by simpa using assigned), if_pos casting]))
  · have carried := checks.trans (by rw [if_neg (by simpa using assigned), if_neg casting])
    have begun : (setBedState b .curing .order (p.withBed b fun y => { y with stage := .preset, stageStart := p.now })).bed b =
        { x with stage := .preset, stageStart := p.now, state := .curing } := by
      rw [bed_setBedState _ _ (by rw [withBed_beds_length]; exact inside), bed_withBed_same inside]
    generalize from_def : setBedState b .curing .order (p.withBed b fun y => { y with stage := .preset, stageStart := p.now }) = r
      at carried begun
    have acts : HeatAct c p (evaluateRelease b (evaluateStage c b r)) := from_def ▸ endCast_act c p b _ rfl
    have inside' : b < r.beds.length := by
      rw [← from_def]
      exact Nat.lt_of_lt_of_eq inside (withBed_beds_length.trans withBed_beds_length).symm
    have now : r.now = p.now := by rw [← from_def]; exact congrArg Clock.now ((withBed_clock _ b _).trans (withBed_clock p b _))
    have heat : r.heat = p.heat := by rw [← from_def]; exact (setBedState_heat _ _).trans (withBed_heat p b _)
    have out : r.out = p.out := by rw [← from_def]; exact (setBedState_out _ _).trans (withBed_out p b _)
    have others (j : Nat) (other : j ≠ b) : r.bed j = p.bed j := by
      rw [← from_def]
      exact (bed_setBedState_other _ _ other).trans (bed_withBed_other other)
    refine completes_bedOrder (b := b) rfl h enough carried acts.toPlantAct
      (((evaluateRelease_heat _ _).trans (evaluateStage_heat _ _ _)).trans heat)
      (((evaluateRelease_out _ _).trans (evaluateStage_out _ _ _)).trans out)
      (fun j other => ((bed_evaluateRelease_other other).trans (bed_evaluateStage_other other)).trans (others j other))
      fun q answered beds frame => ?_
    have own := (beds b).trans (bed_evaluateRelease (by rw [evaluateStage_beds_length]; exact inside'))
    obtain ⟨st, n, t, v, kept⟩ := bed_evaluateStage_rest (c := c) inside'
    refine ⟨answered, ?_, ?_, fun preset => ?_, frame⟩
    · rw [own, kept, begun]
    · rw [own, kept, begun]
      exact congrArg (x.releaseReady || ·) (Bool.true_and _)
    · have stands : dueStage c b r = none := by
        unfold dueStage Bed.elapsed
        rw [begun, now]
        dsimp only
        rw [Nat.sub_self]
        exact if_neg (by omega)
      rw [own, bed_evaluateStage_stands inside' (by rw [begun]; rfl) stands, begun, now]
      exact ⟨rfl, rfl, rfl⟩

end Sys2Proof.Machine

namespace Sys2Proof.Machine
open Sys2Proof

variable {c : Settings} {p : Part} {b : Nat}

/-! ### CAST_START refused (03 R43, R44) -/

/-- The checks of CAST_START on entries that have been read, the range rows as one. -/
theorem orderCastStart_read {ps : List Byte} {es : List PartEntry} (read : readPartEntries 6 (ps.drop 4) = some es) :
    orderCastStart ps c p =
      if !(c.assigned (par ps 0) && (c.curve (par ps 1)).isSome && within 1 5 (par ps 2) && within 1 5 (par ps 3)
          && decide (par ps 2 ≤ par ps 3) && within 1 4 es.length) then refuse .range p
      else if !entriesInRange (c.bed (par ps 0)).picks.length es then refuse .range p
      else if !partFits (p.bed (par ps 0)) (par ps 1) (par ps 2) (par ps 3) then refuse .badState p
      else if !entriesNew p es || (par ps 2 != 1 && !slotsFree (p.bed (par ps 0)) es) then refuse .badState p
      else if freeRecords p < es.length then refuse .full p
      else doneSettled c (if par ps 2 = 1 then startCast c (par ps 0) (par ps 1) (par ps 3) es p
        else continueCast c (par ps 0) es p) := by
  unfold orderCastStart
  dsimp only
  rw [read]

/-- The first range row of CAST_START, as the table states it. -/
theorem castRange_iff {a m : Bool} {k n l : Nat} :
    (a && m && within 1 5 k && within 1 5 n && decide (k ≤ n) && within 1 4 l) = true ↔
      a = true ∧ m = true ∧ 1 ≤ k ∧ k ≤ n ∧ n ≤ 5 ∧ 1 ≤ l ∧ l ≤ 4 := by
  simp only [Bool.and_eq_true, within_iff, decide_eq_true_eq]
  constructor
  · rintro ⟨⟨⟨⟨⟨assigned, mix⟩, k1, _⟩, _, n5⟩, kn⟩, l1, l4⟩
    exact ⟨assigned, mix, k1, kn, n5, l1, l4⟩
  · rintro ⟨assigned, mix, k1, kn, n5, l1, l4⟩
    exact ⟨⟨⟨⟨⟨assigned, mix⟩, k1, by omega⟩, by omega, n5⟩, kn⟩, l1, l4⟩

/-- Settles O20: the rows in their order. -/
theorem castStartRefused : Obligations.CastStartRefused := by
  intro s c src tag ps p b mix k n inRange isNew refused h enough
  have refuses {r : Result} (row : orderCastStart ps c p = refuse r p) : refused r := completes_refused rfl h enough row
  refine ⟨fun unread => refuses (by unfold orderCastStart; dsimp only; rw [unread]), fun es read => ?_⟩
  have rows := orderCastStart_read (c := c) (p := p) read
  have good_iff : inRange es ↔ (c.assigned b && (c.curve mix).isSome && within 1 5 k && within 1 5 n && decide (k ≤ n)
      && within 1 4 es.length) = true ∧ entriesInRange (c.bed b).picks.length es = true := by
    rw [castRange_iff]
    simp only [inRange, and_assoc]
  have new_iff : isNew es ↔ (!entriesNew p es || (k != 1 && !slotsFree (p.bed b) es)) = false := by
    simp only [isNew, Bool.or_eq_false_iff, Bool.and_eq_false_iff, Bool.not_eq_false', bne_eq_false_iff_eq]
    refine and_congr_right fun _ => ⟨fun free => ?_, fun free other => free.resolve_left other⟩
    by_cases first : k = 1
    · exact .inl first
    · exact .inr (free first)
  refine ⟨fun bad => refuses (rows.trans ?_), fun good unfit => refuses (rows.trans ?_),
    fun good fits old => refuses (rows.trans ?_), fun good fits new full => refuses (rows.trans ?_)⟩
  · rw [good_iff, not_and_or] at bad
    by_cases first : (c.assigned b && (c.curve mix).isSome && within 1 5 k && within 1 5 n && decide (k ≤ n)
        && within 1 4 es.length) = true
    · rw [Bool.eq_false_iff.mpr (bad.resolve_left (not_not.mpr first)), Bool.not_false, if_pos rfl]
      exact ite_self _
    · rw [Bool.eq_false_iff.mpr first]
      rfl
  · obtain ⟨first, entries⟩ := good_iff.mp good
    rw [first, entries, unfit]
    rfl
  · obtain ⟨first, entries⟩ := good_iff.mp good
    rw [new_iff, Bool.not_eq_false] at old
    rw [first, entries, fits, old]
    rfl
  · obtain ⟨first, entries⟩ := good_iff.mp good
    rw [first, entries, fits, new_iff.mp new]
    exact if_pos full

/-- Changing a bed changes the bed records and the dirty marks. -/
theorem withBed_rest (p : Part) (b : Nat) (f : Bed → Bed) :
    p.withBed b f = { p with beds := (p.withBed b f).beds, mem := (p.withBed b f).mem } := by
  unfold Part.withBed Part.markIf
  dsimp only
  split <;> rfl

/-! ### HOLD (03 R52, 08 R149) -/

/-- Settles O23: the bed form and the piece form, with and without a change of the flag. -/
theorem holdChecked : Obligations.HoldChecked := by
  refine ⟨?_, ?_⟩
  · intro s c src tag ps p v b h shaped enough hb
    have inside : b < p.beds.length := shaped_beds (p := p) shaped hb
    have checks : orderHoldBed ps c p = if !c.assigned b || decide (1 < v) then refuse .range p
        else if (p.bed b).state = .empty then refuse .badState p
        else if (p.bed b).hold = (v == 1) then done p
        else done ((p.withBed b fun x => { x with hold := v == 1 }).report (.bedHold b (v == 1))) := rfl
    split_ifs with range empty same
    · have range' : (!c.assigned b || decide (1 < v)) = true := by simpa using range
      exact completes_refused rfl h enough (checks.trans (if_pos range'))
    · have range' : ¬(!c.assigned b || decide (1 < v)) = true := by simpa using range
      exact completes_refused rfl h enough (checks.trans ((if_neg range').trans (if_pos empty)))
    · have range' : ¬(!c.assigned b || decide (1 < v)) = true := by simpa using range
      have taken := checks.trans ((if_neg range').trans ((if_neg empty).trans (if_pos same)))
      refine completes_done rfl h enough taken (.refl c p) fun q answered rest keeps => ?_
      have bed (j : Nat) : q.bed j = p.bed j := by rw [rest]; rfl
      refine ⟨answered, by rw [bed, ← same], fun j _ => bed j, by rw [rest], ?_, keeps, by rw [rest]; exact MemPort.keeps_refl _⟩
      rw [rest]
      exact (congrArg LineUnit.reports (placeAnswer_room (l := p.line) _ h.room)).trans rfl
    · have range' : ¬(!c.assigned b || decide (1 < v)) = true := by simpa using range
      have taken := checks.trans ((if_neg range').trans ((if_neg empty).trans (if_neg same)))
      have acts : HeatAct c p ((p.withBed b fun x => { x with hold := v == 1 }).report (.bedHold b (v == 1))) :=
        (HeatAct.withBed c p b _ rfl).trans (.report c _ _)
      refine completes_done rfl h enough taken acts.toActs fun q answered rest keeps => ?_
      have beds : q.beds = (p.withBed b fun x => { x with hold := v == 1 }).beds := by rw [rest]; rfl
      refine ⟨answered, (bed_of_beds beds b).trans (bed_withBed_same inside),
        fun j other => (bed_of_beds beds j).trans (bed_withBed_other other), ?_, ?_, keeps, ?_⟩
      · rw [rest]
        unfold Part.report
        rw [withBed_rest]
      · rw [rest]
        refine (congrArg LineUnit.reports (placeAnswer_room _ (by exact room_after h acts.toActs))).trans ?_
        show ((Part.withBed b _ p).line.placeReport _).takeOffered.reports = _
        rw [takeOffered_placeReport, withBed_line]
      · rw [rest]
        exact acts.mem
  · intro s c src tag ps p v id h enough
    have checks : orderHoldPiece ps c p = if id = 0 ∨ 1 < v then refuse .range p
        else match findPiece p id with
        | none => refuse .unknown p
        | some x => if x.hold = (v == 1) then done p
          else doneSettled c ((updatePiece id (fun y => { y with hold := v == 1 }) p).report (.pieceHold id (v == 1))) := rfl
    split_ifs with range
    · exact completes_refused rfl h enough (checks.trans (if_pos range))
    · have taken := checks.trans (if_neg range)
      cases found : findPiece p id with
      | none => exact completes_refused rfl h enough (taken.trans (by rw [found]))
      | some x =>
        rw [found] at taken
        by_cases same : x.hold = (v == 1)
        · refine completes_done rfl h enough (taken.trans (if_pos same)) (.refl c p) fun q answered rest keeps => ?_
          refine ⟨answered, (CraneAct.refl c p).frame_answered (by rw [rest]) keeps, x, ?_, by rw [← same]⟩
          rw [rest]
          exact found
        · have acts : CraneAct c p ((updatePiece id (fun y => { y with hold := v == 1 }) p).report (.pieceHold id (v == 1))) :=
            (updatePiece_act c p _ _).trans (.report c _ _)
          have updated : findPiece ((updatePiece id (fun y => { y with hold := v == 1 }) p).report (.pieceHold id (v == 1))) id =
              some { x with hold := v == 1 } := by
            rw [findPiece_report, findPiece_update p id (fun y => { y with hold := v == 1 }) (fun _ => rfl) id, found]
            exact congrArg some (if_pos rfl)
          refine completes_settled rfl h enough (taken.trans (if_neg same)) acts.toActs fun y q settled answered rest keeps => ?_
          have crane : CraneAct c _ y := settled ▸ settle_act c _ c
          have left : Settled _ y := settled ▸ settle_settled c _
          obtain ⟨w, announced⟩ := left.pieces id _ updated
          refine ⟨answered, (acts.trans crane).frame_answered rest keeps, { x with hold := v == 1, announced := w }, ?_, rfl⟩
          rw [rest]
          exact announced

end Sys2Proof.Machine
end

