-- ==== Sys2Proof/Proofs/Outputs.lean ====
section
/-! PROOFS. AUX lines, generators and flow monitors: what each operation of the output matrix does to one of them. -/
namespace Sys2Proof.Machine
open Sys2Proof

/-! ### A fold that comes to its subject once -/

section
variable {α β : Type} {ok : Part → Prop} {get : Part → α} {g : α → α}

/-- A fold over distinct subjects, of an operation that changes a part's view of a subject only when its turn comes. -/
theorem foldl_once {f : Part → β → Part} {k : β} (keep : ∀ q j, ok q → ok (f q j)) (own : ∀ q, ok q → get (f q k) = g (get q))
    (other : ∀ q j, ok q → j ≠ k → get (f q j) = get q) :
    ∀ (l : List β), l.Nodup → ∀ p : Part, ok p → (k ∈ l → get (l.foldl f p) = g (get p)) ∧ (k ∉ l → get (l.foldl f p) = get p) := by
  intro l
  induction l with
  | nil => exact fun _ p _ => ⟨fun h => (nomatch h), fun _ => rfl⟩
  | cons j l ih =>
    intro nodup p hp
    obtain ⟨fresh, nodup⟩ := List.nodup_cons.mp nodup
    obtain ⟨inside, outside⟩ := ih nodup (f p j) (keep p j hp)
    rw [List.foldl_cons]
    refine ⟨fun hk => ?_, fun hk => ?_⟩
    · rcases List.mem_cons.mp hk with rfl | later
      · exact (outside fresh).trans (own p hp)
      · have : j ≠ k := fun e => fresh (e ▸ later)
        exact (inside later).trans (congrArg g (other p j hp this))
    · obtain ⟨here, later⟩ := not_or.mp (List.mem_cons.not.mp hk)
      exact (outside later).trans (other p j hp (Ne.symm here))

/-- The same of a fold over the beds assigned to casting. -/
theorem forAssigned_once {c : Settings} {f : Nat → Part → Part} {b : Nat} (hb : b < 4) (assigned : c.assigned b = true)
    (keep : ∀ q j, ok q → ok (f j q)) (own : ∀ q, ok q → get (f b q) = g (get q))
    (other : ∀ q j, ok q → j ≠ b → get (f j q) = get q) {p : Part} (hp : ok p) : get (p.forAssigned c f) = g (get p) := by
  unfold Part.forAssigned Part.forBeds
  refine (foldl_once (f := fun q b => if c.assigned b then f b q else q) (ok := ok) (get := get) (g := g) (k := b) (fun q j hq => ?_) (fun q hq => ?_) (fun q j hq hj => ?_)
    (List.range 4) List.nodup_range p hp).1 (List.mem_range.mpr hb)
  · split
    · exact keep q j hq
    · exact hq
  · rw [if_pos assigned]
    exact own q hq
  · split
    · exact other q j hq hj
    · rfl

end

/-! ### AUX lines (05 R94..R96) -/

section
variable {c : Settings} {p : Part} {k j level : Nat}

theorem auxLine_withAux (d : Settings) (w : Report.AuxCause) (f : Aux → Aux) (inside : k < p.out.aux.length) :
    (p.withAux d k w f).auxLine k = f (p.auxLine k) := by
  unfold Part.withAux Part.auxLine
  simp [List.getD_eq_getElem?_getD, inside]

theorem auxLine_withAux_other (d : Settings) (w : Report.AuxCause) (f : Aux → Aux) (h : j ≠ k) :
    (p.withAux d k w f).auxLine j = p.auxLine j := by
  unfold Part.withAux Part.auxLine
  simp [List.getD_eq_getElem?_getD, Ne.symm h]

theorem withAux_aux_length (d : Settings) (w : Report.AuxCause) (f : Aux → Aux) :
    (p.withAux d k w f).out.aux.length = p.out.aux.length := by
  unfold Part.withAux
  simp

/-- A line under a new shed level (05 R96). -/
def Aux.shed (threshold : Option Nat) (level : Nat) (a : Aux) : Aux :=
  match threshold, a.saved with
  | some t, none => if t ≤ level then { a with saved := some a.commanded } else a
  | some t, some v => if level < t then ⟨v, none⟩ else a
  | none, _ => a

theorem auxLine_shedLine (inside : k < p.out.aux.length) :
    (shedLine c level p k).auxLine k = (p.auxLine k).shed (Settings.auxCfg c k).threshold level := by
  unfold shedLine Aux.shed
  cases (Settings.auxCfg c k).threshold with
  | none => rfl
  | some t =>
    cases (p.auxLine k).saved with
    | none =>
      dsimp only
      split
      · exact auxLine_withAux c _ _ inside
      · rfl
    | some v =>
      dsimp only
      split
      · exact auxLine_withAux c _ _ inside
      · rfl

theorem auxLine_shedLine_other (h : j ≠ k) : (shedLine c level p k).auxLine j = p.auxLine j := by
  unfold shedLine
  split
  · split
    · exact auxLine_withAux_other c _ _ h
    · rfl
  · split
    · exact auxLine_withAux_other c _ _ h
    · rfl
  · rfl

theorem shedLine_aux_length : (shedLine c level p k).out.aux.length = p.out.aux.length := by
  unfold shedLine
  split
  · split
    · exact withAux_aux_length c _ _
    · rfl
  · split
    · exact withAux_aux_length c _ _
    · rfl
  · rfl

/-- A new shed level reaches every line once. -/
theorem auxLine_takeShed (size : p.out.aux.length = 8) (hk : k < 8) (new : level ≠ p.out.lastShed) :
    (takeShed c level p).auxLine k = (p.auxLine k).shed (Settings.auxCfg c k).threshold level := by
  unfold takeShed
  rw [if_neg new]
  exact (foldl_once (f := shedLine c level) (ok := fun q => q.out.aux.length = 8) (get := fun q => q.auxLine k)
    (g := Aux.shed (Settings.auxCfg c k).threshold level) (k := k) (fun q j h => shedLine_aux_length.trans h)
    (fun q h => auxLine_shedLine (by omega)) (fun q j _ h => auxLine_shedLine_other (Ne.symm h))
    (List.range 8) List.nodup_range { p with out := { p.out with lastShed := level } } size).1 (List.mem_range.mpr hk)

/-- A line without a threshold is not shed. -/
theorem auxLine_takeShed_plain (plain : (Settings.auxCfg c k).threshold = none) :
    (takeShed c level p).auxLine k = p.auxLine k := by
  have line (q : Part) (j : Nat) : (shedLine c level q j).auxLine k = q.auxLine k := by
    by_cases own : k = j
    · subst own
      unfold shedLine
      rw [plain]
    · exact auxLine_shedLine_other own
  unfold takeShed
  split
  · rfl
  · exact (foldl_eq (g := fun q => q.auxLine k) line _ _).trans rfl

end

end Sys2Proof.Machine

namespace Sys2Proof.Machine
open Sys2Proof

/-! ### Generators and flow monitors (05 R83..R87) -/

section
variable {p : Part} {b k : Nat} {f : Gen → Gen}

theorem withGen_broken (stops : ((p.gen b).request && !(f (p.gen b)).request) = true) :
    p.withGen b f = ({ p with out := { p.out with gens := p.out.gens.set b (f (p.gen b)) } } : Part).setFlow b
      { p.flow b with broken := true } := if_pos stops

theorem withGen_unbroken (goes : ((p.gen b).request && !(f (p.gen b)).request) = false) :
    p.withGen b f = { p with out := { p.out with gens := p.out.gens.set b (f (p.gen b)) } } :=
  if_neg (Bool.not_eq_true _ ▸ goes)

theorem flow_setFlow (x : Flow) : (p.setFlow b x).flow k = if b = k ∧ b < p.out.flows.length then x else p.flow k := by
  unfold Part.setFlow Part.flow
  rw [List.getD_eq_getElem?_getD, List.getElem?_set, List.getD_eq_getElem?_getD]
  by_cases same : b = k
  · subst same
    by_cases inside : b < p.out.flows.length <;> simp [inside]
  · simp [same]

theorem flow_setFlow_same (x : Flow) (inside : b < p.out.flows.length) : (p.setFlow b x).flow b = x := by
  rw [flow_setFlow, if_pos ⟨rfl, inside⟩]

theorem flow_setFlow_other (x : Flow) (h : k ≠ b) : (p.setFlow b x).flow k = p.flow k := by
  rw [flow_setFlow, if_neg fun e => h e.1.symm]

/-- A generator's change leaves the other generators and flow monitors. -/
theorem withGen_other (h : k ≠ b) : (p.withGen b f).gen k = p.gen k ∧ (p.withGen b f).flow k = p.flow k := by
  refine ⟨by rw [gen_withGen, if_neg fun e => h e.1.symm], ?_⟩
  cases stops : (p.gen b).request && !(f (p.gen b)).request with
  | true => rw [withGen_broken stops]; exact flow_setFlow_other _ h
  | false => rw [withGen_unbroken stops]; rfl

/-- Of a flow monitor nothing changes but whether its window is broken. -/
def Flow.like (x y : Flow) : Prop := y = { x with broken := y.broken }

theorem Flow.like.refl (x : Flow) : Flow.like x x := rfl
theorem Flow.like.trans {x y z : Flow} (h : Flow.like x y) (k : Flow.like y z) : Flow.like x z := by
  unfold Flow.like at *
  rw [k, h]

theorem withGen_flow_like : Flow.like (p.flow k) ((p.withGen b f).flow k) := by
  cases stops : (p.gen b).request && !(f (p.gen b)).request with
  | false => rw [withGen_unbroken stops]; exact .refl _
  | true =>
    rw [withGen_broken stops, flow_setFlow]
    split
    · rename_i same
      rw [← same.1]
      rfl
    · exact .refl _

theorem withGen_rest : p.withGen b f = { p with out := { p.out with
    gens := (p.withGen b f).out.gens, flows := (p.withGen b f).out.flows } } := by
  cases stops : (p.gen b).request && !(f (p.gen b)).request with
  | false => rw [withGen_unbroken stops]
  | true => rw [withGen_broken stops]; rfl

theorem withGen_gens_length : (p.withGen b f).out.gens.length = p.out.gens.length := by
  cases stops : (p.gen b).request && !(f (p.gen b)).request with
  | false => rw [withGen_unbroken stops]; exact List.length_set ..
  | true => rw [withGen_broken stops]; exact List.length_set ..

end

/-- A command of one assigned bed. -/
theorem completes_assigned {i : Instr} {s : State} {c : Settings} {b : Nat} {f : Settings → Part → Part} {post : Part → Prop}
    (h : s.part.runs c) (assigned : c.assigned b = true)
    (hi : exec i s = .next (s.onPart (·.onRunning (onAssigned b f)))) (k : post (f c s.part)) : Completes i s post := by
  refine completes_running h hi ?_
  unfold onAssigned
  rw [if_pos assigned]
  exact k

/-- Settles O40: a period start, a pulse end and a rising edge. -/
theorem heaterPulses : Obligations.HeaterPulses := by
  intro s c b p g runs shaped assigned
  obtain ⟨_, _, _, _, _, gens, flows, _⟩ := shaped
  have inside : b.val < p.out.gens.length := by rw [show p.out.gens.length = 4 from gens]; exact b.isLt
  have inside' : b.val < p.out.flows.length := by rw [show p.out.flows.length = 4 from flows]; exact b.isLt
  refine ⟨?_, fun request short => ?_, ?_⟩
  · have new : (p.withGen b Gen.periodStart).gen b = g.periodStart := by rw [gen_withGen, if_pos ⟨rfl, inside⟩]
    refine completes_assigned runs assigned rfl ⟨new, ?_, fun j other => withGen_other other, withGen_rest⟩
    unfold heaterRequest
    rw [new, assigned]
    exact Bool.true_and _
  · have ended : g.pulseEnd (c.bed b).period = { g with phase := g.onTime } := if_pos ⟨request, short⟩
    have rests : ({ g with phase := g.onTime } : Gen).request = false := decide_eq_false (Nat.lt_irrefl _)
    have new : (p.withGen b (Gen.pulseEnd (c.bed b).period)).gen b = { g with phase := g.onTime } := by
      rw [gen_withGen, if_pos ⟨rfl, inside⟩]
      exact ended
    have stops : ((p.gen b).request && !(Gen.pulseEnd (c.bed b).period (p.gen b)).request) = true := by
      rw [show (p.gen b).request = true from request, show Gen.pulseEnd (c.bed b).period (p.gen b) = _ from ended, rests]
      rfl
    refine completes_assigned runs assigned rfl ⟨new, ?_, ?_, fun j other => withGen_other other, withGen_rest⟩
    · unfold heaterRequest
      rw [new, rests]
      exact Bool.and_false _
    · refine (congrArg (fun q : Part => q.flow b) (withGen_broken stops)).trans ?_
      exact flow_setFlow_same _ inside'
  · refine completes_assigned runs assigned rfl ⟨?_, fun j other => ?_, rfl⟩
    · exact flow_setFlow_same (p := p) _ inside'
    · exact flow_setFlow_other (p := p) _ other

/-! ### Demand and grant at the outputs -/

section
variable {c : Settings} {p : Part} {b : Nat}

theorem quell_beds : (quell c b p).beds = p.beds := by
  unfold quell
  split
  · exact withGen_beds p b _
  · rfl

/-- The demand of a bed formed again. -/
theorem bed_formDemand (inside : b < p.beds.length) : (formDemand c b p).bed b = { p.bed b with db := demandOf c p b } := by
  unfold formDemand
  dsimp only
  split
  · rename_i same
    rw [bed_of_beds quell_beds, same]
  · rw [bed_of_beds (computeGrant_beds _ c _), bed_withBed_same inside]

theorem bed_formDemand_other {j : Nat} (h : j ≠ b) : (formDemand c b p).bed j = p.bed j := by
  unfold formDemand
  dsimp only
  split
  · exact bed_of_beds quell_beds j
  · rw [bed_of_beds (computeGrant_beds _ c _), bed_withBed_other h]

theorem formDemand_beds_length : (formDemand c b p).beds.length = p.beds.length := by
  unfold formDemand
  dsimp only
  split
  · rw [quell_beds]
  · rw [computeGrant_beds, withBed_beds_length]

theorem demandOf_forcing (h : forcing c p b = true) : demandOf c p b = 0 := by
  unfold demandOf
  rw [h, Bool.or_true, Bool.true_or]
  rfl

/-- What the outputs keep of flow monitors and of AUX lines without a threshold, and of generators that give no heat. -/
structure OutKept (c : Settings) (p q : Part) : Prop where
  flow : ∀ k, Flow.like (p.flow k) (q.flow k)
  aux : ∀ k, (Settings.auxCfg c k).threshold = none → q.auxLine k = p.auxLine k
  cold : ∀ k, (p.gen k).onTime = 0 → (q.gen k).onTime = 0

theorem OutKept.refl (c : Settings) (p : Part) : OutKept c p p := ⟨fun _ => .refl _, fun _ _ => rfl, fun _ h => h⟩
theorem OutKept.trans {p q r : Part} (h : OutKept c p q) (k : OutKept c q r) : OutKept c p r :=
  ⟨fun j => (h.flow j).trans (k.flow j), fun j e => (k.aux j e).trans (h.aux j e), fun j e => k.cold j (h.cold j e)⟩
theorem OutKept.of_out {p q : Part} (h : q.out = p.out) : OutKept c p q :=
  ⟨fun k => by unfold Part.flow; rw [h]; exact .refl _, fun k _ => by unfold Part.auxLine; rw [h],
    fun k e => by unfold Part.gen at *; rw [h]; exact e⟩

theorem OutKept.foldl {β : Type} {f : Part → β → Part} (h : ∀ p x, OutKept c p (f p x)) (l : List β) (p : Part) :
    OutKept c p (l.foldl f p) := by
  induction l generalizing p with
  | nil => exact .refl c p
  | cons x l ih => exact (h p x).trans (ih _)

theorem OutKept.forAssigned {f : Nat → Part → Part} (h : ∀ b p, OutKept c p (f b p)) (p : Part) :
    OutKept c p (p.forAssigned c f) := by
  refine .foldl (fun q b => ?_) _ p
  dsimp only
  split
  · exact h b q
  · exact .refl c q

theorem takeAllocation_outKept (alloc : Nat) (v : Bool) : OutKept c p (takeAllocation c b alloc v p) := by
  refine ⟨fun k => withGen_flow_like, fun k _ => ?_, fun k cold => ?_⟩
  · unfold takeAllocation Part.auxLine
    rw [withGen_rest]
  · unfold takeAllocation
    rw [gen_withGen]
    split
    · rename_i same
      rw [same.1]
      split
      · rfl
      · exact cold
    · exact cold

theorem withAux_outs (k : Nat) (w : Report.AuxCause) (f : Aux → Aux) :
    (p.withAux c k w f).out = { p.out with aux := (p.withAux c k w f).out.aux } := by
  unfold Part.withAux
  simp

theorem shedLine_outs (level k : Nat) : (shedLine c level p k).out = { p.out with aux := (shedLine c level p k).out.aux } := by
  unfold shedLine
  split
  · split
    · exact withAux_outs k _ _
    · rfl
  · split
    · exact withAux_outs k _ _
    · rfl
  · rfl

theorem takeShed_outs (level : Nat) : (takeShed c level p).out =
    { p.out with aux := (takeShed c level p).out.aux, lastShed := level } := by
  have lines (l : List Nat) (q : Part) : (l.foldl (shedLine c level) q).out =
      { q.out with aux := (l.foldl (shedLine c level) q).out.aux } := by
    induction l generalizing q with
    | nil => rfl
    | cons k l ih => exact (ih _).trans (by rw [shedLine_outs]; rfl)
  unfold takeShed
  split
  · rename_i same
    rw [same]
  · exact (lines _ _).trans rfl

theorem takeShed_outKept (level : Nat) : OutKept c p (takeShed c level p) := by
  have outs := takeShed_outs (c := c) (p := p) level
  refine ⟨fun k => ?_, fun k plain => auxLine_takeShed_plain plain, fun k cold => ?_⟩
  · unfold Part.flow
    rw [outs]
    exact .refl _
  · unfold Part.gen at *
    rw [outs]
    exact cold

theorem computeGrant_outKept (l : List Nat) : OutKept c p (computeGrant c l p) := by
  unfold computeGrant
  dsimp only
  refine (OutKept.of_out (c := c) (p := p) (q := { p with heat := shareOf c p }) rfl).trans
    ((OutKept.forAssigned (fun b q => takeAllocation_outKept _ _) _).trans (takeShed_outKept _))

theorem quell_outKept : OutKept c p (quell c b p) := by
  unfold quell
  split
  · exact takeAllocation_outKept _ _
  · exact .refl c p

theorem formDemand_outKept : OutKept c p (formDemand c b p) := by
  unfold formDemand
  dsimp only
  split
  · exact quell_outKept
  · exact (OutKept.of_out (withBed_out p b _)).trans (computeGrant_outKept _)

theorem formDemands_outKept : OutKept c p (formDemands c p) := .forAssigned (fun _ _ => formDemand_outKept) p

/-- A forced allocation leaves its generator without heat. -/
theorem takeAllocation_forced (alloc : Nat) : ((takeAllocation c b alloc true p).gen b).onTime = 0 := by
  unfold takeAllocation
  rw [gen_withGen]
  split
  · rfl
  · rename_i outside
    have : p.out.gens.length ≤ b := Nat.le_of_not_lt fun inside => outside ⟨rfl, inside⟩
    unfold Part.gen
    rw [List.getD_eq_getElem?_getD, List.getElem?_eq_none this]
    rfl

/-- A computation that forces bed `b` leaves its generator without heat. -/
theorem computeGrant_forced {l : List Nat} (hb : b < 4) (assigned : c.assigned b = true) (forced : b ∈ l) :
    ((computeGrant c l p).gen b).onTime = 0 := by
  unfold computeGrant
  dsimp only
  refine (takeShed_outKept _).cold b ?_
  unfold Part.forAssigned Part.forBeds
  have fold : ∀ (bs : List Nat) (q : Part), b ∈ bs ∨ (q.gen b).onTime = 0 →
      ((bs.foldl (fun x k => if c.assigned k then takeAllocation c k ((shareOf c p).alloc.getD k 0)
        (decide (k ∈ l) || ({ p with heat := shareOf c p } : Part).inClash) x else x) q).gen b).onTime = 0 := by
    intro bs
    induction bs with
    | nil => exact fun q h => h.resolve_left (by simp)
    | cons k bs ih =>
      intro q h
      refine ih _ ?_
      rw [List.mem_cons, or_assoc] at h
      rcases h with rfl | later | cold
      · dsimp only
        rw [if_pos assigned, decide_eq_true forced, Bool.true_or]
        exact .inr (takeAllocation_forced _)
      · exact .inl later
      · refine .inr ?_
        dsimp only
        split
        · exact (takeAllocation_outKept _ _).cold b cold
        · exact cold
  exact fold _ _ (.inl (List.mem_range.mpr hb))

/-- A bed whose demand is forced to 0 gives no heat from then on (03 R62, 05 R85). -/
theorem formDemand_forcing (hb : b < 4) (assigned : c.assigned b = true) (h : forcing c p b = true) :
    ((formDemand c b p).gen b).onTime = 0 := by
  unfold formDemand
  dsimp only
  rw [demandOf_forcing h]
  split
  · unfold quell
    by_cases hot : (p.gen b).onTime = 0
    · rw [if_neg fun e => e.2 hot]
      exact hot
    · rw [if_pos ⟨h, hot⟩]
      exact takeAllocation_forced 0
  · rw [if_pos ⟨rfl, h⟩]
    exact computeGrant_forced hb assigned (List.mem_singleton.mpr rfl)

theorem heaterRequest_of_cold (cold : (p.gen b).onTime = 0) : heaterRequest c p b = false := by
  unfold heaterRequest Gen.request
  rw [cold]
  exact Bool.and_false _

end

end Sys2Proof.Machine

namespace Sys2Proof.Machine
open Sys2Proof

/-! ### AUX and CLEAR_FAULT (05 R88, R95) -/

/-- The value an AUX action gives. -/
def auxValue (action : Nat) (v : Bool) : Bool := if action = 1 then true else if action = 2 then false else !v

theorem auxAction_some {action : Nat} (h1 : 1 ≤ action) (h3 : action ≤ 3) : auxAction action = some (auxValue action) := by
  unfold auxAction auxValue
  have cases : action = 1 ∨ action = 2 ∨ action = 3 := by omega
  rcases cases with rfl | rfl | rfl <;> rfl

theorem auxAction_none {action : Nat} (h : action < 1 ∨ 3 < action) : auxAction action = none := by
  unfold auxAction
  rw [if_neg (by omega), if_neg (by omega), if_neg (by omega)]

theorem HeatAct.frame_answered {c : Settings} {p y q : Part} (h : HeatAct c p y) (e : q = { y with line := q.line })
    (keeps : p.line.keeps q.line) : heatFrame p q := by
  refine ⟨?_, keeps, ?_⟩
  · have frame := h.frame.1
    rw [e, frame]
  · rw [e]
    exact h.mem

theorem Part.withAux_rest {p : Part} {c : Settings} {k : Nat} {w : Report.AuxCause} {f : Aux → Aux} :
    p.withAux c k w f = { p with out := { p.out with aux := (p.withAux c k w f).out.aux }, line := (p.withAux c k w f).line } := by
  unfold Part.withAux Part.reportIf
  dsimp only
  split <;> rfl

/-- Settles O41: the AUX order, CLEAR_FAULT, and the lines under a new shed level. -/
theorem auxAndFaults : Obligations.AuxAndFaults := by
  refine ⟨?_, ?_, ?_⟩
  · intro s c src tag ps p k act h shaped enough
    have checks : orderAux ps c p = match auxAction (par ps 1) with
      | none => refuse .range p
      | some f => if 7 < k then refuse .range p else done (p.withAux c k .order (Aux.act f)) := rfl
    split_ifs with range
    · refine completes_refused rfl h enough (checks.trans ?_)
      rcases range with high | action
      · cases auxAction (par ps 1) with
        | none => rfl
        | some f => exact if_pos high
      · rw [auxAction_none action]
    · obtain ⟨low, action⟩ := not_or.mp range
      have taken : orderAux ps c p = done (p.withAux c k .order (Aux.act (auxValue (par ps 1)))) :=
        checks.trans (by rw [auxAction_some (by omega) (by omega)]; exact if_neg low)
      obtain ⟨_, _, _, _, _, _, _, lines, _⟩ := shaped
      have inside : k < p.out.aux.length := by rw [show p.out.aux.length = 8 from lines]; omega
      refine completes_done rfl h enough taken (withAux_act c p c k _ _).toActs fun q answered rest keeps => ?_
      have line (j : Nat) : q.auxLine j = (p.withAux c k .order (Aux.act (auxValue (par ps 1)))).auxLine j := by rw [rest]; rfl
      have own : q.auxLine k = (p.auxLine k).act (auxValue (par ps 1)) := (line k).trans (auxLine_withAux c _ _ inside)
      refine ⟨answered, own, fun shed => ?_, fun j other => (line j).trans (auxLine_withAux_other c _ _ other), ?_, keeps⟩
      · obtain ⟨v, saved⟩ := Option.isSome_iff_exists.mp shed
        unfold auxEffective Aux.effective
        rw [own]
        unfold Aux.act
        rw [saved]
        rfl
      · rw [rest]
        rw [Part.withAux_rest]
  · intro s c src tag ps p b h shaped enough hb
    have checks : orderClearFault ps c p = if !c.assigned b then refuse .range p
        else if !(p.flow b).fault then done p
        else done (formDemand c b ((p.setFlow b { p.flow b with fault := false, run := 0 }).report (.flowClear b p.now))) := rfl
    split_ifs with assigned
    · exact completes_refused rfl h enough (checks.trans (by rw [assigned]; rfl))
    · cases fault : (p.flow b).fault with
      | false =>
        have taken : orderClearFault ps c p = done p := checks.trans (by rw [if_neg (by simpa using assigned), fault]; rfl)
        refine completes_done rfl h enough taken (.refl c p) fun q answered rest keeps => ?_
        have only : q = { p with line := q.line } := by rw [rest]
        refine ⟨answered, ?_, fun set => Bool.noConfusion set, fun _ => only, fun j _ => ?_, (HeatAct.refl c p).frame_answered only keeps⟩
        · rw [only]
          exact fault
        · rw [only]
          rfl
      | true =>
        have taken : orderClearFault ps c p =
            done (formDemand c b ((p.setFlow b { p.flow b with fault := false, run := 0 }).report (.flowClear b p.now))) :=
          checks.trans (by rw [if_neg (by simpa using assigned), fault]; rfl)
        have cleared : ((p.setFlow b { p.flow b with fault := false, run := 0 }).report (.flowClear b p.now)).flow b =
            { p.flow b with fault := false, run := 0 } := by
          obtain ⟨_, _, _, _, _, _, flows, _⟩ := shaped
          exact flow_setFlow_same (p := p) _ (by rw [show p.out.flows.length = 4 from flows]; exact hb)
        generalize from_def : (p.setFlow b { p.flow b with fault := false, run := 0 }).report (.flowClear b p.now) = r
          at taken cleared
        have acts : HeatAct c p r := from_def ▸ (setFlow_act c p b _).trans (.report c _ _)
        have bed (j : Nat) : r.bed j = p.bed j := by rw [← from_def]; rfl
        have formed : HeatAct c p (formDemand c b r) := acts.trans (formDemand_act c r b)
        refine completes_done rfl h enough taken formed.toActs fun q answered rest keeps => ?_
        have out : q.out = (formDemand c b r).out := by rw [rest]
        have like : Flow.like (r.flow b) (q.flow b) :=
          ((formDemand_outKept (c := c) (p := r) (b := b)).trans (.of_out out)).flow b
        refine ⟨answered, ?_, fun _ => ?_, fun e => Bool.noConfusion e, fun j other => ?_, formed.frame_answered (by rw [rest]) keeps⟩
        · rw [like, cleared]
        · rw [like, cleared]
        · refine (bed_of_beds (by rw [rest]) j).trans ((bed_formDemand_other other).trans (bed j))
  · intro c p level k size hk new a y
    have shed : y = a.shed (Settings.auxCfg c k).threshold level := auxLine_takeShed size hk new
    refine ⟨fun none => ?_, fun t some free => ?_, fun t v some saved => ?_⟩
    · rw [shed, none]
      rfl
    · rw [shed, some]
      unfold Aux.shed
      rw [free]
    · rw [shed, some]
      unfold Aux.shed
      rw [saved]

end Sys2Proof.Machine
end

