-- ==== Sys2Proof/Proofs/Retiring.lean ====
section
/-! PROOFS. RETIRE, and what the evaluation of a bed changes. -/
namespace Sys2Proof.Machine
open Sys2Proof

/-! ### The evaluation of a bed, and its governing maturity -/

section
variable {c : Settings} {p : Part} {b : Nat}

theorem settleBlind_rest (p : Part) (b : Nat) :
    settleBlind b p = { p with scan := { p.scan with beds := (settleBlind b p).scan.beds }, line := (settleBlind b p).line } := by
  unfold settleBlind
  dsimp only
  split <;> rfl

theorem settleOverheat_rest (c : Settings) (p : Part) (b : Nat) : settleOverheat c b p =
    { p with scan := { p.scan with beds := (settleOverheat c b p).scan.beds }, line := (settleOverheat c b p).line } := by
  unfold settleOverheat
  dsimp only
  split
  · rfl
  · split
    · rfl
    · split <;> rfl

/-- The evaluation of a bed changes its temperature record and the transmit places. -/
theorem evaluateBed_rest (c : Settings) (b : Nat) (p : Part) : evaluateBed c b p =
    { p with scan := { p.scan with beds := (evaluateBed c b p).scan.beds }, line := (evaluateBed c b p).line } := by
  unfold evaluateBed
  split
  · rw [settleOverheat_rest, settleBlind_rest]
    rfl
  · rfl

theorem channel_setRetired {k j : Nat} {v : Bool} (p : Part) : (p.setRetired k v).channel j =
    if k = j ∧ k < p.scan.channels.length then { p.channel k with retired := v } else p.channel j := by
  unfold Part.setRetired Part.channel
  simp only [markDirty_scan, List.getD_eq_getElem?_getD, List.getElem?_set]
  by_cases same : k = j
  · subst same
    by_cases inside : k < p.scan.channels.length <;> simp [inside]
  · simp [same]

theorem retireChannel_channel {k j : Nat} (p : Part) : (retireChannel c b k p).channel j = (p.setRetired k true).channel j := by
  unfold retireChannel Part.channel
  rw [evaluateBed_rest]

theorem retireChannel_maturity {k : Nat} (p : Part) : (retireChannel c b k p).maturity = p.maturity := by
  unfold retireChannel
  rw [evaluateBed_rest]
  rfl

theorem retireChannel_beds {k : Nat} (p : Part) : (retireChannel c b k p).beds = p.beds := by
  unfold retireChannel
  rw [evaluateBed_rest]
  rfl

theorem formLiftTests_bed (k : Nat) : (formLiftTests c b p).bed k = p.bed k := (formLiftTests_act c p c b).bed k

/-- The governing computation of a bed that is not EMPTY (02 R27, R36). -/
theorem bed_computeGoverning (inside : b < p.beds.length) : (computeGoverning c b p).bed b =
    if (p.bed b).state = .empty then p.bed b
    else formBedTests c { p.bed b with mg := publish (p.bed b).mg (governingMinimum c p b) } := by
  unfold computeGoverning
  split
  · rfl
  · dsimp only
    split
    · exact bed_withBed_same inside
    · rw [formLiftTests_bed]
      exact bed_withBed_same inside

theorem bed_computeGoverning_other {j : Nat} (h : j ≠ b) : (computeGoverning c b p).bed j = p.bed j := by
  unfold computeGoverning
  split
  · rfl
  · dsimp only
    split
    · exact bed_withBed_other h
    · rw [formLiftTests_bed]
      exact bed_withBed_other h

theorem computeGoverning_beds_length : (computeGoverning c b p).beds.length = p.beds.length := by
  unfold computeGoverning
  split
  · rfl
  · dsimp only
    split
    · exact withBed_beds_length
    · rw [(formLiftTests_act c _ c b).beds]
      exact withBed_beds_length

theorem evaluateRelease_beds_length : (evaluateRelease b p).beds.length = p.beds.length := by
  unfold evaluateRelease
  dsimp only
  split
  · exact withBed_beds_length
  · rfl

/-- The published maturity never falls (02 R27). -/
theorem le_publish (old : Nat) (m : Option Nat) : old ≤ publish old m := by
  unfold publish
  split
  · split
    · assumption
    · exact Nat.le_refl _
  · exact Nat.le_refl _

theorem bed_computeGoverning_mg (inside : b < p.beds.length) : (p.bed b).mg ≤ ((computeGoverning c b p).bed b).mg := by
  rw [bed_computeGoverning inside]
  split
  · exact Nat.le_refl _
  · exact le_publish _ _

end

/-! ### RETIRE (03 R53) -/

theorem channel_of_scan {p q : Part} (h : q.scan = p.scan) (k : Nat) : q.channel k = p.channel k := by
  unfold Part.channel
  rw [h]

theorem bedChannel_lt {c : Settings} {b k : Nat} (h : k ∈ c.bedChannels b) : k < 22 :=
  List.mem_range.mp (List.mem_filter.mp h).1

/-- Settles O24: the checks of the order in turn, and the bed evaluated, computed and demanded again without the channel. -/
theorem retireChecked : Obligations.RetireChecked := by
  intro s c src tag ps p b k h shaped enough
  have checks : orderRetire ps c p =
      if !c.assigned b || decide (21 < k) || !(c.bedChannels b).contains k then refuse .range p
      else if (p.bed b).state = .empty then refuse .badState p
      else if (p.channel k).retired then done p
      else if (c.bedChannels b).all fun j => j == k || (p.channel j).retired then refuse .badState p
      else doneSettled c (formDemand c b (recomputeBed c b (retireChannel c b k p))) := rfl
  have range_iff : (!c.assigned b || decide (21 < k) || !(c.bedChannels b).contains k) = true ↔
      c.assigned b = false ∨ k ∉ c.bedChannels b := by
    simp only [Bool.or_eq_true, Bool.not_eq_true', decide_eq_true_eq, List.contains_eq_mem, decide_eq_false_iff_not]
    refine ⟨fun bad => ?_, fun bad => bad.imp_left .inl⟩
    rcases bad with (unassigned | high) | missing
    · exact .inl unassigned
    · exact .inr fun own => absurd (bedChannel_lt own) (by omega)
    · exact .inr missing
  have last_iff : ((c.bedChannels b).all fun j => j == k || (p.channel j).retired) = true ↔
      ∀ j ∈ c.bedChannels b, j ≠ k → (p.channel j).retired = true := by
    simp only [List.all_eq_true, Bool.or_eq_true, beq_iff_eq, or_iff_not_imp_left]
  split_ifs with range empty retired last
  · exact completes_refused rfl h enough (checks.trans (if_pos (range_iff.mpr range)))
  · exact completes_refused rfl h enough (checks.trans ((if_neg (range_iff.not.mpr range)).trans (if_pos empty)))
  · exact completes_refused (r := .done) rfl h enough
      (checks.trans ((if_neg (range_iff.not.mpr range)).trans ((if_neg empty).trans (if_pos retired))))
  · exact completes_refused rfl h enough (checks.trans ((if_neg (range_iff.not.mpr range)).trans ((if_neg empty).trans
      ((if_neg retired).trans (if_pos (last_iff.mpr last))))))
  · have carried := checks.trans ((if_neg (range_iff.not.mpr range)).trans ((if_neg empty).trans
      ((if_neg retired).trans (if_neg (last_iff.not.mpr last)))))
    obtain ⟨assigned, own⟩ := not_or.mp range
    have hk : k < p.scan.channels.length := by
      obtain ⟨_, _, channels, _⟩ := shaped
      rw [show p.scan.channels.length = 23 from channels]
      exact Nat.lt_trans (bedChannel_lt (not_not.mp own)) (by omega)
    have recomputed : PlantAct c (retireChannel c b k p) (recomputeBed c b (retireChannel c b k p)) := recomputeBed_act c _ c b
    have formed := recomputed.trans (formDemand_act c (recomputeBed c b (retireChannel c b k p)) b).toPlantAct
    have acts := (retireChannel_act c p c b k).trans formed.toQuiet
    refine completes_settled rfl h enough carried acts.toActs fun y q settled answered rest keeps => ?_
    have crane : CraneAct c _ y := settled ▸ settle_act c _ c
    have left := formed.trans crane.toPlantAct
    have quiet := acts.trans crane.toQuiet
    have scan : q.scan = (retireChannel c b k p).scan := by rw [rest]; exact left.scan
    have channel (j : Nat) : q.channel j = (p.setRetired k true).channel j :=
      (channel_of_scan scan j).trans (retireChannel_channel p)
    have bed (j : Nat) : q.bed j = (formDemand c b (recomputeBed c b (retireChannel c b k p))).bed j :=
      (bed_of_beds (by rw [rest]) j).trans (crane.bed j)
    have ownChannel : q.channel k = { p.channel k with retired := true } := by
      rw [channel, channel_setRetired, if_pos ⟨rfl, hk⟩]
    refine ⟨answered, ownChannel, ?_, fun j other => ?_, fun j other => ?_, ?_, ?_, ?_, ?_, ?_, ?_, ?_, keeps, ?_⟩
    · rw [ownChannel]
      exact if_pos (.inl rfl)
    · rw [channel, channel_setRetired, if_neg fun e => other e.1.symm]
    · rw [bed, bed_formDemand_other other]
      exact ((bed_evaluateRelease_other other).trans (bed_computeGoverning_other other)).trans
        (bed_of_beds (retireChannel_beds p) j)
    · rw [bed]
      by_cases inside : b < p.beds.length
      · have inside' : b < (retireChannel c b k p).beds.length := by rw [retireChannel_beds]; exact inside
        have inside2 : b < (computeGoverning c b (retireChannel c b k p)).beds.length := by
          rw [computeGoverning_beds_length]; exact inside'
        rw [bed_formDemand (by unfold recomputeBed; rw [evaluateRelease_beds_length]; exact inside2)]
        show (p.bed b).mg ≤ ((evaluateRelease b (computeGoverning c b (retireChannel c b k p))).bed b).mg
        rw [bed_evaluateRelease inside2]
        have published := bed_computeGoverning_mg (c := c) inside'
        rwa [bed_of_beds (retireChannel_beds p)] at published
      · exfalso
        refine empty ?_
        unfold Part.bed
        rw [List.getD_eq_getElem?_getD, List.getElem?_eq_none (Nat.le_of_not_lt inside)]
        rfl
    · rw [rest]; exact quiet.clock
    · rw [rest]; exact quiet.travel
    · rw [rest]; exact quiet.pins
    · rw [rest]; exact left.maturity.trans (retireChannel_maturity p)
    · rw [rest]; exact quiet.run
    · rw [rest]; exact quiet.config
    · rw [rest]; exact quiet.mem

end Sys2Proof.Machine
end

