-- ==== Sys2Proof/Proofs/HeatShare.lean ====
section
/-! PROOFS. The grant, its allocations, HEAT notices and the heat period. -/
namespace Sys2Proof.Machine
open Sys2Proof

/-! ### The grant, its allocations and its shed level (04 R72..R75) -/

section
variable {c : Settings} {p : Part}

/-- The demands of the assigned beds, bed by bed. -/
theorem totalDemand_le (h : ∀ b < 4, (p.bed b).db ≤ 2000) : totalDemand c p ≤ 8000 := by
  have each : ∀ x ∈ (List.range 4).map (fun b => if c.assigned b then (p.bed b).db else 0), x ≤ 2000 := by
    intro x mem
    obtain ⟨b, hb, rfl⟩ := List.mem_map.mp mem
    split
    · exact h b (List.mem_range.mp hb)
    · exact Nat.zero_le _
  have sum := List.sum_le_card_nsmul _ _ each
  rw [List.length_map, List.length_range, smul_eq_mul] at sum
  unfold totalDemand
  omega

/-- Parts of a whole by rounded-down shares are together at most the whole. -/
theorem sum_shares_le (l : List Nat) (g n : Nat) : (l.map fun d => d * g / n).sum ≤ l.sum * g / n := by
  induction l with
  | nil => simp
  | cons d l ih =>
    rw [List.map_cons, List.sum_cons, List.sum_cons, Nat.add_mul]
    exact (Nat.add_le_add_left ih _).trans (Nat.div_add_div_le_add_div)

theorem shareOf_grant_le : (shareOf c p).grant ≤ totalDemand c p := (grantOf_law _ _ _ _).1

theorem shareOf_alloc {b : Nat} (hb : b < 4) : (shareOf c p).alloc.getD b 0 =
    if c.assigned b then allocationOf (p.bed b).db (shareOf c p).grant (totalDemand c p) else 0 := by
  unfold shareOf
  dsimp only
  rw [List.getD_eq_getElem?_getD, List.getElem?_map, List.getElem?_range hb]
  rfl

theorem allocationOf_zero (g ds : Nat) : allocationOf 0 g ds = 0 := by
  unfold allocationOf
  split
  · rfl
  · rw [Nat.zero_mul, Nat.zero_div]

theorem shareOf_alloc_sum : (shareOf c p).alloc.sum ≤ (shareOf c p).grant := by
  have shares : (shareOf c p).alloc =
      ((List.range 4).map fun b => if c.assigned b then (p.bed b).db else 0).map
        (fun d => allocationOf d (shareOf c p).grant (totalDemand c p)) := by
    rw [List.map_map]
    refine List.map_congr_left fun b _ => ?_
    dsimp only [Function.comp]
    split
    · rfl
    · exact (allocationOf_zero _ _).symm
  rw [shares]
  unfold allocationOf
  by_cases none : totalDemand c p = 0
  · simp [none, Function.comp_def]
  · simp only [if_neg none]
    refine (sum_shares_le _ _ _).trans ?_
    show totalDemand c p * _ / totalDemand c p ≤ _
    rw [Nat.mul_div_cancel_left _ (Nat.pos_of_ne_zero none)]

end

/-- Settles O36. -/
theorem allocationsWithinGrant : Obligations.AllocationsWithinGrant := by
  intro c p forced q h
  have heat : h = shareOf c p := computeGrant_heat p c forced
  have shed : h.shed = shedOf h.grant (totalDemand c p) := by rw [heat]; rfl
  have grant : h.grant ≤ totalDemand c p := by rw [heat]; exact shareOf_grant_le
  refine ⟨fun b hb => ?_, fun b hb idle => ?_, ?_, grant, fun none => ?_, fun some => ?_, ?_, computeGrant_beds p c forced⟩
  · rw [heat, shareOf_alloc hb]
    unfold allocationOf
    by_cases assigned : c.assigned b = true
    · by_cases none : totalDemand c p = 0
      · simp [none]
      · simp [assigned, none]
    · simp [assigned]
  · rw [heat, shareOf_alloc hb, idle, allocationOf_zero]
    exact ite_self _
  · rw [heat]
    exact shareOf_alloc_sum
  · rw [shed, none]
    rfl
  · intro r
    have least : r ≤ 1000 := Nat.div_le_of_le_mul (Nat.mul_le_mul_right _ grant)
    have level : h.shed = if 1000 ≤ r then 0 else if 750 ≤ r then 1 else if 500 ≤ r then 2 else if 250 ≤ r then 3 else 4 := by
      rw [shed]
      unfold shedOf
      rw [if_neg some]
    refine ⟨least, fun full => ?_, fun _ _ => ?_, fun _ _ => ?_, fun _ _ => ?_, fun _ => ?_⟩
    · rw [level, if_pos (by omega)]
    · rw [level, if_neg (by omega), if_pos (by omega)]
    · rw [level, if_neg (by omega), if_neg (by omega), if_pos (by omega)]
    · rw [level, if_neg (by omega), if_neg (by omega), if_neg (by omega), if_pos (by omega)]
    · rw [level, if_neg (by omega), if_neg (by omega), if_neg (by omega), if_neg (by omega)]
  · show (computeGrant c forced p).out.lastShed = _
    rw [heat]
    unfold computeGrant
    dsimp only
    rw [takeShed_outs]

/-- An image in force holds its capacity in bytes 7 and 8, within its range. -/
theorem readImage_capacity {own : Nat} {img : Image} {d : Settings} (h : readImage own img = some d) :
    d.capacity = img.raw.capacity ∧ d.capacity = img.field 7 2 ∧ 1 ≤ d.capacity ∧ d.capacity ≤ 60000 := by
  obtain ⟨passes, rfl⟩ := readImage_eq_some_iff.mp h
  unfold imagePasses okSettings okGeneral at passes
  simp only [Bool.and_eq_true, within_iff] at passes
  obtain ⟨_, ⟨⟨⟨⟨⟨⟨⟨⟨⟨_, _, capacity⟩, _⟩, _⟩, _⟩, _⟩, _⟩, _⟩, _⟩, _⟩⟩ := passes
  exact ⟨rfl, rfl, capacity⟩

/-- Settles O35: the rows of the grant, and the ranges that bound it. -/
theorem grantTable : Obligations.GrantTable := by
  intro c p ds t g
  have grant : g = grantOf (decide (0 < p.heat.listening) || p.inClash) ds t c.capacity := rfl
  have held (h : 0 < p.heat.listening ∨ p.inClash = true) : (decide (0 < p.heat.listening) || p.inClash) = true := by
    simpa using h
  have free (h : p.heat.listening = 0) (calm : p.inClash = false) : (decide (0 < p.heat.listening) || p.inClash) = false := by
    simp [h, calm]
  have row (h : p.heat.listening = 0) (calm : p.inClash = false) :
      g = if ds = 0 then 0 else if t ≤ c.capacity then ds else ds * c.capacity / t := by
    rw [grant, free h calm]
    rfl
  refine ⟨rfl, fun h => ?_, fun h calm none => ?_, fun h calm some fits => ?_, fun h calm some above => ?_,
    fun h calm above alone => ?_, fun h calm above cap peers => ?_, fun low => ?_, fun own img d read => readImage_capacity read⟩
  · rw [grant, held h]
    rfl
  · rw [row h calm, if_pos none]
  · rw [row h calm, if_neg some, if_pos fits]
  · have value : g = ds * c.capacity / t := by rw [row h calm, if_neg some, if_neg (by omega)]
    refine ⟨value, ?_⟩
    rw [value, Nat.div_lt_iff_lt_mul (by omega)]
    exact Nat.mul_lt_mul_of_pos_left above (Nat.pos_of_ne_zero some)
  · have whole : t = ds := by
      show ds + listDemand p.heat.list = ds
      rw [alone]
      rfl
    rw [row h calm, if_neg (by omega), if_neg (by omega), whole, Nat.mul_div_cancel_left _ (by omega)]
  · have more : ds < t := Nat.lt_add_of_pos_right peers
    rw [row h calm, if_neg (by omega), if_neg (by omega), Nat.div_lt_iff_lt_mul (by omega), Nat.mul_comm]
    exact Nat.mul_lt_mul_of_pos_left more cap
  · have demand := totalDemand_le (c := c) low
    exact ⟨demand, fun cap => Nat.mul_le_mul demand cap⟩

/-! ### HEAT notices and the heat period (04 R67..R70) -/

/-- The entry of a key is in a table after it has been put there. -/
theorem mem_putBy {α : Type} (key : α → Nat) (x : α) (l : List α) : x ∈ putBy key x l := by
  induction l with
  | nil => exact List.mem_singleton.mpr rfl
  | cons y ys ih =>
    unfold putBy
    split
    · exact List.mem_cons_self
    · split
      · exact List.mem_cons_self
      · exact List.mem_cons_of_mem _ ih

/-- Settles O37: a notice with its fields, whose total rises or does not, and one without them. -/
theorem heatNoticeTaken : Obligations.HeatNoticeTaken := by
  intro s c src target pl p e l runs receives foreign
  have arrives : exec (.heatNoticeReceived src target pl) s = .next { s with part := heatPayload src pl (heard p) } := by
    refine (show exec _ s = .next (s.onPart (receive src (heatPayload src pl))) from rfl).trans ?_
    unfold State.onPart
    rw [receive_eq runs receives foreign]
  have payload : heatPayload src pl (heard p) = match heatDemand pl with
      | some d => takeHeatNotice c src.toNat d (heard p)
      | none => heard p := onRunning_of_runs (show (heard p).runs c from runs) _
  refine ⟨fun long => completes_of arrives ?_, fun short => ?_⟩
  · have demand : heatDemand pl = some (num (pl.take 2)) := if_neg (by omega)
    rw [payload, demand]
    dsimp only
    have act := takeHeatNotice_act c (heard p) src.toNat (num (pl.take 2))
    have counted : takeHeatNotice c src.toNat (num (pl.take 2)) (heard p) =
        if listDemand p.heat.list < listDemand l then
          computeGrant c [] { heard p with heat := { (heard p).heat with list := l } }
        else { heard p with heat := { (heard p).heat with list := l } } := rfl
    by_cases rises : listDemand p.heat.list < listDemand l
    · rw [if_pos rises] at counted
      have heat : (takeHeatNotice c src.toNat (num (pl.take 2)) (heard p)).heat =
          shareOf c { heard p with heat := { (heard p).heat with list := l } } := by rw [counted, computeGrant_heat]
      have beds : (takeHeatNotice c src.toNat (num (pl.take 2)) (heard p)).beds = p.beds := by rw [counted, computeGrant_beds]; rfl
      refine ⟨by rw [heat]; rfl, by rw [heat]; exact mem_putBy _ _ _, by rw [heat]; rfl, by rw [heat]; rfl, by rw [heat]; rfl,
        fun _ => by rw [heat]; rfl, fun falls => absurd rises (by omega), beds, act.frame⟩
    · rw [if_neg rises] at counted
      rw [counted] at act ⊢
      exact ⟨rfl, mem_putBy _ _ _, rfl, rfl, rfl, fun more => absurd more rises, fun _ => ⟨rfl, rfl, rfl, rfl⟩, rfl, act.frame⟩
  · have demand : heatDemand pl = none := if_pos short
    rw [arrives, payload, demand]

section
variable {c : Settings} {p : Part}

theorem takeAllocation_line (b alloc : Nat) (v : Bool) : (takeAllocation c b alloc v p).line = p.line := by
  unfold takeAllocation
  rw [withGen_rest]

theorem takeAllocation_lastShed (b alloc : Nat) (v : Bool) : (takeAllocation c b alloc v p).out.lastShed = p.out.lastShed := by
  unfold takeAllocation
  rw [withGen_rest]

theorem takeAllocations_line (f : Nat → Nat) (g : Nat → Bool) :
    (p.forAssigned c fun b x => takeAllocation c b (f b) (g b) x).line = p.line :=
  forAssigned_eq (g := Part.line) (fun b _ => takeAllocation_line b (f b) (g b)) p

theorem takeAllocations_lastShed (f : Nat → Nat) (g : Nat → Bool) :
    (p.forAssigned c fun b x => takeAllocation c b (f b) (g b) x).out.lastShed = p.out.lastShed :=
  forAssigned_eq (g := fun q => q.out.lastShed) (fun b _ => takeAllocation_lastShed b (f b) (g b)) p

theorem shedLine_mem (level k : Nat) : (shedLine c level p k).mem = p.mem := by
  unfold shedLine
  split
  · split
    · rw [Part.withAux_rest]
    · rfl
  · split
    · rw [Part.withAux_rest]
    · rfl
  · rfl

theorem takeShed_mem (level : Nat) : (takeShed c level p).mem = p.mem := by
  unfold takeShed
  split
  · rfl
  · exact (foldl_eq (g := Part.mem) (fun q k => shedLine_mem level k) _ _).trans rfl

/-- The computation has no part in the records. -/
theorem computeGrant_mem (l : List Nat) : (computeGrant c l p).mem = p.mem := by
  obtain ⟨r, made, mem⟩ : ∃ r, computeGrant c l p = takeShed c (shareOf c p).shed r ∧ r.mem = p.mem :=
    ⟨_, rfl, forAssigned_eq (g := Part.mem) (fun b q => by unfold takeAllocation; rw [withGen_rest]) _⟩
  rw [made, takeShed_mem, mem]

/-- A computation that leaves the shed level sends no report. -/
theorem computeGrant_line {l : List Nat} (same : (shareOf c p).shed = p.out.lastShed) : (computeGrant c l p).line = p.line := by
  obtain ⟨r, made, line, lastShed⟩ : ∃ r, computeGrant c l p = takeShed c (shareOf c p).shed r ∧ r.line = p.line
      ∧ r.out.lastShed = p.out.lastShed := ⟨_, rfl, takeAllocations_line _ _, takeAllocations_lastShed _ _⟩
  rw [made]
  unfold takeShed
  rw [if_pos (same.trans lastShed.symm)]
  exact line

/-- The DEAF state after a boundary. -/
theorem settleDeaf_cases (p : Part) :
    (settleDeaf p).heat = { p.heat with deaf := if p.heat.heard then none else some ((p.heat.deaf.getD 0) + 1) }
      ∧ (p.heat.heard = false → p.heat.deaf = none → (settleDeaf p).line = p.line.placeReport (.deaf p.now p.heat.list.length))
      ∧ (∀ n, p.heat.heard = true → p.heat.deaf = some n → (settleDeaf p).line = p.line.placeReport (.deafEnd p.now (n + 1)))
      ∧ (p.heat.heard = p.heat.deaf.isNone → (settleDeaf p).line = p.line) := by
  unfold settleDeaf
  cases deaf : p.heat.deaf with
  | none =>
    cases hears : p.heat.heard with
    | false => exact ⟨by simp, fun _ _ => rfl, fun n set => Bool.noConfusion set, fun same => Bool.noConfusion same⟩
    | true =>
      have stands : p.heat = { p.heat with deaf := none } := by rw [← deaf]
      exact ⟨stands, fun set => Bool.noConfusion set, fun n _ none => Option.noConfusion rfl (heq_of_eq none), fun _ => rfl⟩
  | some m =>
    cases hears : p.heat.heard with
    | false => exact ⟨rfl, fun _ none => Option.noConfusion rfl (heq_of_eq none), fun n set => Bool.noConfusion set, fun _ => rfl⟩
    | true =>
      refine ⟨rfl, fun set => Bool.noConfusion set, fun n _ own => ?_, fun same => Bool.noConfusion same⟩
      obtain rfl := Option.some.inj own
      rfl

end

/-- The notice of one computation (04 R79). -/
def noticeOf (h : HeatUnit) : HeatNotice := ⟨h.ds, h.grant, h.shed⟩

/-- Settles O38: the steps of the boundary in their order. -/
theorem heatPeriodTurns : Obligations.HeatPeriodTurns := by
  intro s c p aged runs
  refine completes_running runs rfl ?_
  have act := heatBoundary_act c { p with clock := { p.clock with heatPhase := 0, heatDue := false } }
  generalize aged_def : ({ p with clock := { p.clock with heatPhase := 0, heatDue := false }, heat := p.heat.ageList } : Part) = r
  obtain ⟨deaf, begins, ends, stays⟩ := settleDeaf_cases r
  obtain ⟨v, l, only, placed⟩ := settleDeaf_only r
  generalize deaf_def : settleDeaf r = p1 at *
  have heard1 : p1.heat.heard = p.heat.heard := by rw [deaf, ← aged_def]; rfl
  have deaf1 : p1.heat.deaf = if p.heat.heard then none else some ((p.heat.deaf.getD 0) + 1) := by rw [deaf, ← aged_def]; rfl
  generalize stale_def : ({ p1 with heat := p1.heat.dropStale (p.heat.deaf.isSome && p1.heat.deaf.isNone) } : Part) = p2
  have line2 : p2.line = p1.line := by rw [← stale_def]
  have out2 : p2.out = p.out := by rw [← stale_def, only, ← aged_def]
  have beds2 : p2.beds = p.beds := by rw [← stale_def, only, ← aged_def]
  have turned : heatBoundary c { p with clock := { p.clock with heatPhase := 0, heatDue := false } } =
      { computeGrant c [] p2 with line := (computeGrant c [] p2).line.placeHeat (noticeOf (computeGrant c [] p2).heat) } := by
    rw [← stale_def, ← deaf_def, ← aged_def]
    rfl
  rw [turned] at act ⊢
  have heat : (computeGrant c [] p2).heat = shareOf c p2 := computeGrant_heat p2 c []
  have list2 : p2.heat.list = if p.heat.heard = true ∧ p.heat.deaf = none then aged.filter fun e => decide (e.age < 6) else aged := by
    have aged1 : p1.heat.list = aged := by rw [deaf, ← aged_def]; rfl
    rw [← stale_def]
    unfold HeatUnit.dropStale
    dsimp only
    rw [heard1, aged1, deaf1]
    cases p.heat.heard <;> cases p.heat.deaf <;> rfl
  have calm : p2.inClash = p.inClash := by
    have clash : p1.line.clash = p.line.clash := by
      rw [only]
      exact placed.keeps.clash.trans (by rw [← aged_def])
    unfold Part.inClash
    rw [line2, clash]
  have report (same : (computeGrant c [] p2).heat.shed = p.out.lastShed) :
      ((computeGrant c [] p2).line.placeHeat (noticeOf (computeGrant c [] p2).heat)).reports = p1.line.takeOffered.reports := by
    rw [computeGrant_line (by rw [← heat, out2]; exact same), line2]
    rfl
  have total : totalDemand c p2 = totalDemand c p := totalDemand_congr beds2 c
  have listening2 : p2.heat.listening = p.heat.listening - 1 := by rw [← stale_def, deaf, ← aged_def]; rfl
  have deaf2 : p2.heat.deaf = if p.heat.heard then none else some ((p.heat.deaf.getD 0) + 1) := by rw [← stale_def]; exact deaf1
  refine ⟨by rw [heat]; exact listening2, by rw [heat, ← stale_def]; rfl, ?_, fun silent => ?_, by rw [heat]; exact list2, ?_, ?_, rfl,
    fun same => ⟨fun silent none => ?_, fun n hears some => ?_, fun quiet => ?_⟩, act.clock, ?_, act.scan, act.maturity,
    act.travel, act.span, act.pieces, act.moves, ?_, act.pins, act.run, act.config, act.placed.keeps⟩
  · rw [heat, show (shareOf c p2).deaf = p2.heat.deaf from rfl, deaf2]
    cases p.heat.heard <;> rfl
  · rw [heat, show (shareOf c p2).deaf = p2.heat.deaf from rfl, deaf2, silent]
    rfl
  · rw [heat]
    exact total
  · rw [heat]
    show grantOf (decide (0 < p2.heat.listening) || p2.inClash) (totalDemand c p2) (totalDemand c p2 + listDemand p2.heat.list)
      c.capacity = _
    rw [listening2, calm, total]
    rfl
  · refine (report same).trans ?_
    rw [begins (by rw [← aged_def]; exact silent) (by rw [← aged_def]; exact none), takeOffered_placeReport, ← aged_def]
    have size : (p.heat.ageList.list).length = p.heat.list.length := List.length_map ..
    exact congrArg (fun k => (p.line.placeReport (.deaf p.now k)).reports) size
  · refine (report same).trans ?_
    rw [ends n (by rw [← aged_def]; exact hears) (by rw [← aged_def]; exact some), takeOffered_placeReport, ← aged_def]
    rfl
  · refine (report same).trans ?_
    rw [stays (by rw [← aged_def]; exact quiet), ← aged_def]
  · exact (computeGrant_beds p2 c []).trans beds2
  · refine (computeGrant_mem []).trans ?_
    rw [← stale_def, only, ← aged_def]

end Sys2Proof.Machine
end

