-- ==== Sys2Proof/Proofs/BlockWriting.lean ====
section
/-! PROOFS. Block writes: what a write of a block answers and changes (11 R195, R196). -/
namespace Sys2Proof.Machine
open Sys2Proof

/-! ### Block writes (11 R195, R196) -/

theorem onPort_running {p : Part} {c : Settings} (h : p.runs c) (flush : Part → Part) (f : Settings → Part → Part) :
    p.onPort flush f = f c p := by
  unfold Part.onPort
  rw [if_neg (by rw [h.1]; exact fun e => nomatch e), onRunning_of_runs h]

theorem completes_port {i : Instr} {s : State} {c : Settings} {flush : Part → Part} {f : Settings → Part → Part}
    {post : Part → Prop} (h : s.part.runs c) (hi : exec i s = .next (s.onPart (Part.onPort flush f))) (k : post (f c s.part)) :
    Completes i s post := by
  refine completes_of (q := f c s.part) (hi.trans ?_) k
  unfold State.onPart
  rw [onPort_running h]

/-- A write that is over, block by block. -/
theorem finish_eq (u : MemPort) (b : Block) : u.finish b = { u with
    writing := none
    round := if b = .moves then 0 else u.round
    fault := u.fault && (decide (b ≠ .moves) || u.roundFailed)
    roundFailed := if b = .moves then false else u.roundFailed } := by
  unfold MemPort.finish MemPort.endRound
  by_cases last : b = .moves
  · simp [last]
  · simp [last]

theorem take_eq (u : MemPort) (b : Block) (copy : Contents) : u.take b copy = { u with
    writing := some ⟨b, copy⟩
    dirty := u.dirty.filter (· != b)
    round := b.round + 1
    fault := u.fault && (decide (u.round ≤ b.round) || u.roundFailed)
    roundFailed := if b.round < u.round then false else u.roundFailed } := by
  unfold MemPort.take MemPort.endRound
  by_cases before : b.round < u.round
  · have : ¬u.round ≤ b.round := by omega
    simp [before, this]
  · have : u.round ≤ b.round := by omega
    simp [before, this]

/-- Settles O58: a write begins, ends, and fails. -/
theorem blockWrites : Obligations.BlockWrites := by
  refine ⟨?_, ?_, ?_⟩
  · intro s c b rest p runs idle ahead safe
    have begun : writeBegins c p = { p with mem := p.mem.take b (contents c p b) } := by
      unfold writeBegins
      rw [idle, ahead]
      exact if_neg (by rw [safe]; exact Bool.false_ne_true)
    refine completes_port runs rfl ?_
    rw [show writeBegins c s.part = _ from begun, take_eq]
    exact ⟨rfl, by simp, fun x dirty other => by simp [dirty, other], rfl, rfl, rfl, rfl⟩
  · intro s c w p runs writing
    have page (last : Bool) : pageDone last p =
        if last then { p with mem := { p.mem with mem := p.mem.mem.store w.copy }.finish w.block } else p := by
      unfold pageDone
      rw [writing]
      cases last <;> rfl
    refine ⟨?_, completes_port runs rfl ?_⟩
    · refine (show exec _ s = .next (s.onPart (Part.onPort (pageDone false) fun _ p => pageDone false p)) from rfl).trans ?_
      unfold State.onPart
      rw [onPort_running runs, show pageDone false s.part = _ from page false]
      rfl
    · rw [show pageDone true s.part = _ from page true, finish_eq]
      exact ⟨rfl, rfl, rfl, rfl, rfl, rfl⟩
  · intro s c w p runs writing
    have failed : pageFails p = ({ p with
        mem := { p.mem with
          mem := p.mem.mem.failed p.freeCount w.block w.copy
          roundFailed := true
          fault := true }.finish w.block
        freeCount := p.freeCount + 1 }.markDirty w.block).reportIf (!p.mem.fault) (.memoryFault w.block p.now) := by
      unfold pageFails
      rw [writing]
    refine completes_port runs rfl ?_
    rw [show pageFails s.part = _ from failed, finish_eq]
    refine ⟨by simp, ?_, by simp, ?_, ?_, ?_⟩
    · simp only [reportIf_mem, markDirty_mem]
      exact mem_putBy _ _ _
    · simp only [reportIf_mem, markDirty_mem]
      exact failed_cases _ _ _ _
    · unfold Part.reportIf
      cases p.mem.fault <;> rfl
    · unfold Part.reportIf
      cases p.mem.fault <;> rfl

end Sys2Proof.Machine
end

