-- ==== Sys2Proof/Proofs/Transmitting.lean ====
section
/-! PROOFS. Transmission, and the frames the line does not take (10 R180 to R190). -/
namespace Sys2Proof.Machine
open Sys2Proof

/-! ### Transmission (10 R180, R181, R187) -/

/-- The line interface after the frame it sent has ended. -/
def LineUnit.frameOver (l : LineUnit) (fr : TxFrame) : LineUnit := ({ l.takeOffered with tx := none }).restartOver fr

theorem restartOver_rest (l : LineUnit) (fr : TxFrame) : l.restartOver fr = { l with restart := (l.restartOver fr).restart } := by
  unfold LineUnit.restartOver
  split
  · split <;> rfl
  · rfl

/-- The transmitter is free, and the frame has left the place where it waited. -/
theorem frameOver_spec {l : LineUnit} {fr : TxFrame} {cont inPlace : Bool} (tx : l.tx = some ⟨fr, cont, inPlace⟩) :
    (l.frameOver fr).tx = none ∧ (l.frameOver fr).counters = l.counters ∧ (l.frameOver fr).dropped = l.dropped
      ∧ (∀ n, inPlace = true → fr = .heat n → (l.frameOver fr).heatSlot = none)
      ∧ (∀ n, inPlace = true → fr = .span n → (l.frameOver fr).spanSlot = none)
      ∧ (∀ r d, inPlace = true → fr = .report r d → (l.frameOver fr).reports = l.reports.drop 1)
      ∧ (∀ a, inPlace = true → fr = .answer a → (l.frameOver fr).answers = l.answers.drop 1) := by
  unfold LineUnit.frameOver
  rw [restartOver_rest]
  refine ⟨rfl, (takeOffered_keeps l).counters, ?_, ?_, ?_, ?_, ?_⟩
  · show l.takeOffered.dropped = _
    unfold LineUnit.takeOffered
    split
    · split <;> rfl
    · rfl
  all_goals
    intros
    subst inPlace fr
    unfold LineUnit.takeOffered
    rw [tx]

theorem frameOver_counts {l : LineUnit} {fr : TxFrame} {cont inPlace : Bool} (tx : l.tx = some ⟨fr, cont, inPlace⟩) :
    l.frameOver fr = { l.frameOver fr with dropped := l.dropped, counters := l.counters } := by
  obtain ⟨_, counters, dropped, _⟩ := frameOver_spec tx
  rw [← counters, ← dropped]

/-- The dropped count after a frame that ended with an error, or that was sent (10 R189). -/
def TxFrame.droppedBy : TxFrame → Nat → Nat
  | .report _ _, d => min 255 (d + 1)
  | _, d => d

def TxFrame.droppedLeft : TxFrame → Nat → Nat
  | .report _ n, d => d - n
  | _, d => d

theorem bitErrorOn_eq {p : Part} {fr : TxFrame} {cont inPlace : Bool} (tx : p.line.tx = some ⟨fr, cont, inPlace⟩) :
    bitErrorOn p = { p with line := { p.line.frameOver fr with
      dropped := fr.droppedBy p.line.dropped
      counters := p.line.counters.addBitError } } := by
  have stands := frameOver_counts tx
  unfold bitErrorOn
  rw [tx]
  cases fr with
  | report r d =>
    exact congrArg (fun l : LineUnit => { p with line := { l with
      dropped := sat 255 (l.dropped + 1), counters := l.counters.addBitError } }) stands
  | heat n => exact congrArg (fun l : LineUnit => { p with line := { l with counters := l.counters.addBitError } }) stands
  | span n => exact congrArg (fun l : LineUnit => { p with line := { l with counters := l.counters.addBitError } }) stands
  | answer a => exact congrArg (fun l : LineUnit => { p with line := { l with counters := l.counters.addBitError } }) stands

/-- A completed transmission, but for the window it opens. -/
def sent (fr : TxFrame) (p : Part) : Part := { p with line := { p.line.frameOver fr with
  dropped := fr.droppedLeft p.line.dropped
  counters := p.line.counters.addSent } }

/-- The window that a sent frame opens. -/
def opens (fr : TxFrame) (p : Part) : Part :=
  match fr with
  | .span n => p.onRunning fun c r => openWindow c n r
  | _ => p

theorem transmitted_eq {p : Part} {fr : TxFrame} {cont inPlace : Bool} (tx : p.line.tx = some ⟨fr, cont, inPlace⟩) :
    transmitted p = opens fr (sent fr p) := by
  have stands := frameOver_counts tx
  unfold transmitted sent opens
  rw [tx]
  cases fr with
  | report r d =>
    exact congrArg (fun l : LineUnit => { p with line := { l with
      dropped := l.dropped - d, counters := l.counters.addSent } }) stands
  | heat n => exact congrArg (fun l : LineUnit => { p with line := { l with counters := l.counters.addSent } }) stands
  | span n =>
    exact congrArg (fun l : LineUnit => ({ p with line := { l with counters := l.counters.addSent } } : Part).onRunning
      fun c r => openWindow c n r) stands
  | answer a => exact congrArg (fun l : LineUnit => { p with line := { l with counters := l.counters.addSent } }) stands

theorem openWindow_rest (c : Settings) (n : SpanNotice) (p : Part) : openWindow c n p = { p with span := (openWindow c n p).span } := by
  unfold openWindow
  split
  · rfl
  · dsimp only
    split
    · split <;> rfl
    · rfl

theorem openWindow_opens {c : Settings} {n : SpanNotice} {p : Part} {k sn : Nat} {r : Rank} {contested : Bool}
    (own : claimed p = some k) (role : (p.spanAt k).role = .claim r none contested sn) (serial : n.claimSerial = some sn) :
    ((openWindow c n p).spanAt k).role = .claim r (some (p.msCount + c.window)) contested sn := by
  unfold openWindow
  rw [own]
  dsimp only
  rw [role]
  dsimp only
  rw [if_pos serial, spanAt_setSpan, if_pos ⟨rfl, lt_of_role_ne (by rw [role]; exact fun e => nomatch e)⟩]

theorem opens_rest (fr : TxFrame) (p : Part) : ∃ v, opens fr p = { p with span := v } := by
  unfold opens
  split
  · unfold Part.onRunning
    split
    · exact ⟨_, openWindow_rest _ _ _⟩
    · exact ⟨_, rfl⟩
  · exact ⟨_, rfl⟩

theorem putBack_tx (l : LineUnit) (fr : TxFrame) : (l.putBack fr).tx = l.tx := by
  unfold LineUnit.putBack
  repeat' split
  all_goals rfl

/-- Settles O56: an offer, a lost arbitration, a bit error and a completed transmission. -/
theorem transmission : Obligations.Transmission := by
  refine ⟨fun s fr may first => exec_of_act ?_, fun s fr tx => exec_of_act ?_, fun s a tx room => ?_, fun s fr cont inPlace tx => ?_,
    fun s fr cont inPlace tx => ?_⟩
  · refine (show act .transmitOffer s.part = offer s.part from rfl).trans ?_
    unfold offer
    rw [if_pos may, first]
    rfl
  · refine (show act .arbitrationLost s.part = loseArbitration s.part from rfl).trans ?_
    unfold loseArbitration
    rw [tx]
    rfl
  · have lost : loseArbitration s.part =
        ({ s.part with line := ({ s.part.line with tx := none }).putBack (.answer a) } : Part).count Counters.addLost := by
      unfold loseArbitration
      rw [tx]
      rfl
    refine completes_of (q := loseArbitration s.part) rfl ?_
    rw [lost]
    refine ⟨rfl, putBack_tx _ _, fun below => ?_, fun l b full size => ?_⟩
    · rw [putBack_answer_room a (by exact below)]
      exact ⟨rfl, rfl, rfl⟩
    · rw [putBack_answer_full (l := { s.part.line with tx := none }) a b full size]
      unfold LineUnit.dropAnswer
      refine ⟨rfl, rfl, fun r restarts waits => ?_, fun plain => ?_⟩
      · show (if b.restart then s.part.line.restart.map _ else _) = _
        rw [if_pos restarts, waits]
        rfl
      · exact if_neg (by rw [plain]; exact Bool.false_ne_true)
  · refine completes_of (q := bitErrorOn s.part) rfl ?_
    obtain ⟨free, _, _, gone⟩ := frameOver_spec tx
    rw [bitErrorOn_eq tx]
    exact ⟨free, rfl, by cases fr <;> rfl, rfl, gone⟩
  · refine completes_of (q := transmitted s.part) rfl ?_
    obtain ⟨free, _, _, gone⟩ := frameOver_spec tx
    obtain ⟨v, only⟩ := opens_rest fr (sent fr s.part)
    have line : (transmitted s.part).line = (sent fr s.part).line := by rw [transmitted_eq tx, only]
    refine ⟨?_, ?_, ?_, ?_, ?_⟩
    · rw [line]; exact free
    · rw [line]; rfl
    · rw [line]; cases fr <;> rfl
    · rw [transmitted_eq tx, only]; rfl
    · rw [line]
      obtain ⟨heat, span, report, answer⟩ := gone
      refine ⟨heat, span, report, answer, fun c n k r contested sn runs frame own role serial => ?_⟩
      subst frame
      rw [transmitted_eq tx]
      have opened : opens (.span n) (sent (.span n) s.part) = openWindow c n (sent (.span n) s.part) :=
        onRunning_of_runs (show (sent (.span n) s.part).runs c from runs) _
      rw [opened]
      exact openWindow_opens own role serial

end Sys2Proof.Machine

namespace Sys2Proof.Machine
open Sys2Proof

/-! ### Frames that are not taken (10 R183, R184, R190) -/

theorem readHold_none {src tag : Byte} {form : Nat} {ps : List Byte} (h : 1 < form) : readHold src tag form ps = none := by
  unfold readHold
  split
  · omega
  · omega
  · rfl

theorem readQuery_none {src tag : Byte} {subject : Nat} {ps : List Byte} (h : subject = 0 ∨ 13 < subject) :
    readQuery src tag subject ps = none := by
  unfold readQuery
  split
  case h_14 => rfl
  all_goals omega

/-- A payload whose code, form or subject stands in no table, or is missing. -/
def Unnamed (code : Byte) (ps : List Byte) : Prop :=
  (code.toNat = 0 ∨ 15 < code.toNat) ∨ (code.toNat = 4 ∧ (ps = [] ∨ 1 < par ps 0))
    ∨ (code.toNat = 14 ∧ (ps = [] ∨ par ps 0 = 0 ∨ 13 < par ps 0))

theorem readOrder_unnamed {src code tag : Byte} {ps : List Byte} (h : Unnamed code ps) :
    readOrder src (code :: tag :: ps) = none := by
  unfold Unnamed at h
  unfold readOrder
  dsimp only
  split
  case h_4 form rest is =>
    refine readHold_none ?_
    rcases h with out | ⟨_, none | high⟩ | ⟨other, _⟩
    · omega
    · cases none
    · exact high
    · omega
  case h_14 subject rest is =>
    refine readQuery_none ?_
    rcases h with out | ⟨other, _⟩ | ⟨_, none | range⟩
    · omega
    · omega
    · cases none
    · exact range
  case h_16 => rfl
  all_goals omega

theorem readOrder_short {src : Byte} {pl : List Byte} (h : pl.length < 2) : readOrder src pl = none := by
  unfold readOrder
  split
  · simp only [List.length_cons] at h
    omega
  · rfl

theorem frameArrives_unread {kind src target : Byte} {pl : List Byte} {p : Part} (h : readOrder src pl = none) :
    frameArrives kind src target pl p = receiving p := by
  unfold frameArrives
  rw [h]
  cases forOwn kind target p <;> rfl

/-- A whole frame of another sender that arrives at a running station is dispatched by its kind. -/
theorem exec_otherFrame {s : State} {c : Settings} {kind src target : Byte} {pl : List Byte} (runs : s.part.runs c)
    (arrives : frameArrives kind src target pl s.part = true) (foreign : src.toNat ≠ s.part.line.own) :
    exec (.otherFrameReceived kind src target pl) s =
      .next { s with part := otherFrame kind src target pl (heard s.part) } :=
  exec_of_act (receiveWhen_eq runs arrives foreign _)

/-- A line interface report of a station that is configured, or whose image is being read. -/
theorem reportConfigured_eq (r : Report) (p : Part) : reportConfigured r p =
    { p with line := if p.config.isSome = true ∨ p.run = .readingConfig then p.line.placeReport r else p.line } := by
  have iff : (p.config.isSome || p.run == .readingConfig) = true ↔ p.config.isSome = true ∨ p.run = .readingConfig := by simp
  unfold reportConfigured Part.reportIf
  by_cases told : p.config.isSome = true ∨ p.run = .readingConfig
  · rw [if_pos (iff.mpr told), if_pos told]
    rfl
  · rw [if_neg (iff.not.mpr told), if_neg told]

/-- Settles O54: frame by frame, and the stuck line. -/
theorem framesNotTaken : Obligations.FramesNotTaken := by
  refine ⟨?_, ?_, ?_, ?_, ?_, fun s => rfl, ?_, ?_⟩
  · intro s c kind src target pl runs receives foreign heat span other
    have notOwn : forOwn kind target s.part = false := decide_eq_false fun own => other.elim (· own.1) (· own.2)
    have arrives : frameArrives kind src target pl s.part = true := by
      unfold frameArrives
      rw [notOwn]
      exact receives
    rw [exec_otherFrame runs arrives foreign]
    unfold otherFrame
    rw [if_neg heat, if_neg span, if_neg (by rw [show forOwn kind target (heard s.part) = _ from notOwn]; exact Bool.false_ne_true)]
  · intro s src target pl
    refine ⟨(exec_of_act ?_).trans (exec_eq _ s).symm, (exec_of_act ?_).trans (exec_eq _ s).symm⟩
    · show receiveWhen (frameArrives kindHeat src target pl s.part) src _ s.part = receiveWhen (receiving s.part) src _ s.part
      rw [frameArrives_of_kind (by decide)]
      exact receiveWhen_congr (if_pos rfl)
    · show receiveWhen (frameArrives kindSpan src target pl s.part) src _ s.part = receiveWhen (receiving s.part) src _ s.part
      rw [frameArrives_of_kind (by decide)]
      exact receiveWhen_congr ((if_neg (by decide)).trans (if_pos rfl))
  · intro s c src target pl runs receives foreign own short
    refine completes_of (exec_otherFrame runs ((frameArrives_unread (readOrder_short short)).trans receives) foreign) ?_
    have forThis : forOwn kindOrder target (heard s.part) = true := decide_eq_true ⟨rfl, own⟩
    have discarded : otherFrame kindOrder src target pl (heard s.part) =
        if (heard s.part).inClash then (heard s.part).count Counters.addInClash else (heard s.part).count Counters.addPayload := by
      unfold otherFrame
      rw [if_neg (by decide), if_neg (by decide), if_pos forThis]
      unfold routeFrame
      split
      · simp only [List.length_cons] at short
        omega
      · rfl
    rw [discarded]
    unfold Part.inClash Part.count heard
    cases s.part.line.clash <;> rfl
  · intro s c src target code tag ps h own unnamed
    have unread := readOrder_unnamed (src := src) (tag := tag) unnamed
    refine completes_of (exec_otherFrame (runs_of_takesOrders h) ((frameArrives_unread unread).trans (receiving_of_takesOrders h))
      h.foreign) ?_
    have forThis : forOwn kindOrder target (heard s.part) = true := decide_eq_true ⟨rfl, own⟩
    have calm : (heard s.part).inClash = false := by unfold Part.inClash heard; rw [h.noClash]; rfl
    have refused : otherFrame kindOrder src target (code :: tag :: ps) (heard s.part) =
        answer src tag false (refuse .range (heard s.part)) := by
      unfold otherFrame
      rw [if_neg (by decide), if_neg (by decide), if_pos forThis]
      unfold routeFrame
      dsimp only
      rw [unread]
      unfold routeOrder
      rw [if_neg (by rw [calm]; exact Bool.false_ne_true),
        if_neg (by rw [show (heard s.part).line.restart = none from h.noRestart]; exact Bool.false_ne_true),
        show (heard s.part).config = some c from h.configured]
      dsimp only
      rw [ite_self]
    rw [refused]
    exact answer_refuse_only h.room
  · intro s bytes framing w run free counted
    have listens : listening s.part = true := by
      unfold listening
      rw [free]
      simpa using run
    have long_iff : lengthTooLong bytes = decide (4 ≤ bytes.length ∧ 48 < (bytes.getD 3 0).toNat) := by
      unfold lengthTooLong
      exact (Bool.decide_and _ _).symm
    refine completes_of (q := discardFrame bytes framing s.part) rfl ?_
    rw [← long_iff]
    unfold discardFrame
    rw [if_pos listens, counted]
    cases long : lengthTooLong bytes with
    | true => cases w <;> rfl
    | false =>
      have still : s.part.line = { s.part.line with waitIdle := false } := by rw [← free]
      cases w with
      | check => exact congrArg (fun l : LineUnit => { s.part with line := { l with counters := l.counters.addCheck } }) still
      | header => exact congrArg (fun l : LineUnit => { s.part with line := { l with counters := l.counters.addHeader } }) still
      | framing => exact congrArg (fun l : LineUnit => { s.part with line := { l with counters := l.counters.addFraming } }) still
  · intro s run calm
    have stuck : lineSticks s.part =
        reportConfigured .lineStuck { s.part with line := { s.part.line with stuck := some s.part.clock.ms } } :=
      if_neg (by rw [calm]; exact fun e => e.elim run (fun e => nomatch e))
    have waits : (if s.part.config.isSome = true ∨ s.part.run = .readingConfig then
        LineUnit.placeReport .lineStuck { s.part.line with stuck := some s.part.clock.ms }
        else { s.part.line with stuck := some s.part.clock.ms }).stuck = some s.part.clock.ms := by
      split
      · exact (placeReport_keeps _ _).stuck
      · rfl
    refine completes_of (q := lineSticks s.part) rfl ?_
    rw [stuck, reportConfigured_eq]
    refine ⟨rfl, ?_, ?_, rfl⟩
    · unfold maySend
      dsimp only
      rw [waits]
      simp
    · unfold receiving
      dsimp only
      rw [waits]
      exact Bool.and_false _
  · intro s t stuck
    have recovered : lineRecovers s.part = reportConfigured (.lineOk (s.part.clock.ms - t))
        { s.part with line := { s.part.line with stuck := none, waitIdle := false } } := by
      unfold lineRecovers
      rw [stuck]
    refine completes_of (q := lineRecovers s.part) rfl ?_
    rw [recovered, reportConfigured_eq]
    exact ⟨rfl, rfl⟩

end Sys2Proof.Machine
end

