-- ==== Sys2Proof/Proofs/Clash.lean ====
section
/-! PROOFS. What halts a head move, what leaves it at rest, and clashing claims (07 R128, 09 R171). -/
namespace Sys2Proof.Machine
open Sys2Proof

variable {c : Settings} {p : Part}

/-! ### Halts, and a head move at rest (09 R171) -/

theorem settle_moves (c : Settings) (p : Part) : (settle c p).moves = (settleArrival c (settleStart c (announce c p))).moves := by
  show (settleSpans c _).moves = _
  rw [(settleSpans_spanned c _).rest]

theorem announce_moves (c : Settings) (p : Part) : (announce c p).moves = p.moves := by rw [(announce_announced c p).rest]

theorem mayStart_of_head {m : Move} (head : headMove p = some m) : mayStart p = false := by
  unfold mayStart
  rw [head]
  rfl

/-- With a head move that holds no travel phase, the queue stands and no target is held. -/
theorem settle_rests {m : Move} (head : headMove p = some m) (pick : m.phase ≠ .toPick) (place : m.phase ≠ .toPlace) :
    (settle c p).moves = { p.moves with target := none } := by
  have head' : headMove (announce c p) = some m := (headMove_of_moves (announce_moves c p)).trans head
  have started : settleStart c (announce c p) = setTarget none (announce c p) := by
    unfold settleStart
    rw [mayStart_of_head head', head']
    simp [pick, place]
  have outside : windowState c (setTarget none (announce c p)) ≠ .inside := by
    unfold windowState setTarget
    dsimp only
    split
    · rename_i target
      cases target
    · exact fun e => nomatch e
  rw [settle_moves, started]
  unfold settleArrival
  rw [if_neg fun both => outside both.1, setTarget_moves, announce_moves]

/-- The queue with the moves of a tag changed. -/
def updateTag (tag : Nat) (f : Move → Move) (l : List Move) : List Move := l.map fun x => if x.tag = tag then f x else x

theorem updateMove_moves (tag : Nat) (f : Move → Move) :
    (updateMove tag f p).moves = { p.moves with queue := updateTag tag f p.moves.queue } := by
  rw [updateMove_rest]
  rfl

theorem mem_updateTag {tag : Nat} {f : Move → Move} {l : List Move} {x : Move} (mem : x ∈ l) (own : x.tag = tag) :
    f x ∈ updateTag tag f l := List.mem_map.mpr ⟨x, mem, if_pos own⟩

/-- Where the moves of the head's tag are changed and stay past QUEUED, one of them is the head move. -/
theorem find_updateTag {m : Move} {f : Move → Move} (past : ∀ x, (f x).phase ≠ .queued) {l : List Move}
    (head : l.find? (·.phase != .queued) = some m) :
    ∃ x ∈ l, x.tag = m.tag ∧ (updateTag m.tag f l).find? (·.phase != .queued) = some (f x) := by
  unfold updateTag
  induction l with
  | nil => cases head
  | cons y l ih =>
    rw [List.map_cons]
    by_cases same : y.tag = m.tag
    · refine ⟨y, List.mem_cons_self, same, ?_⟩
      rw [if_pos same, List.find?_cons_of_pos (by simpa using past y)]
    · have queued : ¬(y.phase != .queued) = true := fun past => same (by
        rw [List.find?_cons_of_pos (p := fun x : Move => x.phase != .queued) past] at head
        rw [Option.some.inj head])
      rw [List.find?_cons_of_neg (p := fun x : Move => x.phase != .queued) queued] at head
      obtain ⟨x, mem, tag, found⟩ := ih head
      refine ⟨x, List.mem_cons_of_mem _ mem, tag, ?_⟩
      rw [if_neg same, List.find?_cons_of_neg (p := fun x : Move => x.phase != .queued) queued]
      exact found

/-- A head move in a travel phase may have arrived. -/
def Phase.arrival : Phase → Option Phase
  | .toPick => some .atPick
  | .toPlace => some .atPlace
  | _ => none

/-- With a head move, `settle` leaves the move controller but for its arrival, and for a target that no travel phase holds. -/
theorem settle_headed {m : Move} (head : headMove p = some m) :
    (settle c p).moves = { p.moves with target := if m.phase.arrival = none then none else p.moves.target }
      ∨ ∃ ph, m.phase.arrival = some ph ∧ (settle c p).moves = { p.moves with
          queue := updateTag m.tag (fun x => { x with phase := ph, start := some p.now }) p.moves.queue, target := none } := by
  by_cases pick : m.phase = .toPick
  · have travels : settleStart c (announce c p) = announce c p := by
      unfold settleStart
      have head' : headMove (announce c p) = some m := (headMove_of_moves (announce_moves c p)).trans head
      rw [mayStart_of_head head', head']
      exact if_pos (Or.inl pick)
    rw [settle_moves, travels]
    unfold settleArrival
    split
    · refine .inr ⟨.atPick, by rw [pick]; rfl, ?_⟩
      rw [headMove_of_moves (announce_moves c p), head]
      dsimp only
      rw [if_pos pick, setTarget_moves, updateMove_moves, announce_moves]
      rw [(announce_act c p c).now]
    · exact .inl (by rw [announce_moves, pick]; rfl)
  · by_cases place : m.phase = .toPlace
    · have travels : settleStart c (announce c p) = announce c p := by
        unfold settleStart
        have head' : headMove (announce c p) = some m := (headMove_of_moves (announce_moves c p)).trans head
        rw [mayStart_of_head head', head']
        exact if_pos (Or.inr place)
      rw [settle_moves, travels]
      unfold settleArrival
      split
      · refine .inr ⟨.atPlace, by rw [place]; rfl, ?_⟩
        rw [headMove_of_moves (announce_moves c p), head]
        dsimp only
        rw [if_neg pick, if_pos place, setTarget_moves, updateMove_moves, announce_moves]
        rw [(announce_act c p c).now]
      · exact .inl (by rw [announce_moves, place]; rfl)
    · refine .inl ?_
      rw [settle_rests head pick place]
      cases phase : m.phase with
      | toPick => exact absurd phase pick
      | toPlace => exact absurd phase place
      | _ => rfl

/-- A move of the head's tag, halted. -/
def Move.haltedBy (m : Move) (cause : HaltCause) (x : Move) : Move :=
  { x with phase := .halted, start := none, halt := some (m.phase, cause) }

theorem halt_eq {m : Move} (head : headMove p = some m) (working : m.phase ≠ .halted) (cause : HaltCause) :
    halt cause p = (setTarget none (updateMove m.tag (m.haltedBy cause) p)).report
      (.moveHalted m m.phase cause p.position p.now) := by
  unfold halt
  rw [head]
  exact if_neg working

theorem halt_noHead (head : headMove p = none) (cause : HaltCause) : halt cause p = p := by
  unfold halt
  rw [head]

theorem halt_halted {m : Move} (head : headMove p = some m) (halted : m.phase = .halted) (cause : HaltCause) : halt cause p = p := by
  unfold halt
  rw [head]
  exact if_pos halted

theorem halt_moves {m : Move} (head : headMove p = some m) (working : m.phase ≠ .halted) (cause : HaltCause) :
    (halt cause p).moves = { p.moves with queue := updateTag m.tag (m.haltedBy cause) p.moves.queue, target := none } := by
  rw [halt_eq head working, report_moves, setTarget_moves, updateMove_moves]

theorem halt_head {m : Move} (head : headMove p = some m) (working : m.phase ≠ .halted) (cause : HaltCause) :
    ∃ x ∈ p.moves.queue, x.tag = m.tag ∧ headMove (halt cause p) = some (m.haltedBy cause x) := by
  obtain ⟨x, mem, tag, found⟩ := find_updateTag (f := m.haltedBy cause) (fun _ e => nomatch e) head
  refine ⟨x, mem, tag, ?_⟩
  unfold headMove
  rw [halt_moves head working]
  exact found

/-- After a halt and what follows it, the head move is halted with its cause, and no target is held. -/
theorem settle_halt {m : Move} (head : headMove p = some m) (working : m.phase ≠ .halted) (cause : HaltCause) :
    (settle c (halt cause p)).moves.target = none
      ∧ ∃ y ∈ (settle c (halt cause p)).moves.queue, y.tag = m.tag ∧ y.phase = .halted ∧ y.halt = some (m.phase, cause) := by
  obtain ⟨x, mem, tag, halted⟩ := halt_head head working cause
  rw [settle_rests (c := c) halted (fun e => nomatch e) (fun e => nomatch e), halt_moves head working]
  refine ⟨rfl, m.haltedBy cause x, mem_updateTag mem tag, tag, rfl, rfl⟩

/-- Halts and `settle` leave the crane lines. -/
theorem settle_lines (c : Settings) (p : Part) : (settle c p).moves.hook = p.moves.hook ∧ (settle c p).moves.ready = p.moves.ready
    ∧ (settle c p).moves.fault = p.moves.fault ∧ (settle c p).moves.locl = p.moves.locl := by
  rw [(settle_settled c p).lines]
  exact ⟨rfl, rfl, rfl, rfl⟩

theorem halt_lines (cause : HaltCause) (p : Part) : (halt cause p).moves =
    { p.moves with queue := (halt cause p).moves.queue, target := (halt cause p).moves.target } := by
  cases head : headMove p with
  | none => rw [halt_noHead head]
  | some m =>
    by_cases halted : m.phase = .halted
    · rw [halt_halted head halted]
    · rw [halt_moves head halted]

/-- What must stop travel stops it at every settling. -/
theorem settle_mustStop (h : mustStop (settle c p) = true) : (settle c p).span.decision = .stop := by
  cases decision : (settle c p).span.decision with
  | stop => rfl
  | go fwd k =>
    obtain ⟨q, _, free, _⟩ := settle_travelOk c p fwd k decision
    rw [h] at free
    cases free

/-! ### CLASH (10 R185, R186) -/

theorem openClaim_clash (calm : p.inClash = true) : openClaim c p = p := by
  unfold openClaim
  split
  · rw [calm]
    rfl
  · rfl

/-- A claim that does not stand is withdrawn; its retry time stands (07 R126). -/
theorem withdrawClaims_falls {k : Nat} (own : claimed p = some k) (falls : claimStands c p k = false) :
    (withdrawClaims c p).spanAt k = (p.spanAt k).dropRole := by
  unfold withdrawClaims
  rw [own]
  dsimp only
  rw [falls]
  refine (spanAt_setSpan p k k _).trans (if_pos ⟨rfl, lt_of_role_ne fun none => ?_⟩)
  have claim := List.find?_some (p := fun k => (p.spanAt k).role.isClaim) own
  rw [none] at claim
  cases claim

/-- The parts of the span unit's settling: after the claims, yield stop and decision leave the spans. -/
theorem settleSpans_split (c : Settings) (q : Part) :
    ∃ u, settleSpans c q = openClaim c (noticeIfDue c (settleReleases c u)) ∧ u.span.spans = (withdrawClaims c q).span.spans
      ∧ u.line = (withdrawClaims c q).line := ⟨_, rfl, rfl, rfl⟩

/-- In CLASH the claim is withdrawn, and no other opens. -/
theorem settle_withdraws {k : Nat} (clash : p.inClash = true) (own : claimed p = some k) :
    (settle c p).spanAt k = (p.spanAt k).dropRole := by
  obtain ⟨q, settled, act, span, _⟩ := settle_eq c p
  have clash' : q.inClash = true := act.inClash.trans clash
  have spans (j : Nat) : q.spanAt j = p.spanAt j := by unfold Part.spanAt; rw [span]
  have own' : claimed q = some k := by
    unfold claimed at own ⊢
    simp only [spans]
    rwa [span]
  have falls : claimStands c q k = false := by
    unfold claimStands
    rw [clash']
    split <;> simp
  obtain ⟨u, u_eq, u_spans, u_line⟩ := settleSpans_split c q
  have withdrawn : u.spanAt k = (p.spanAt k).dropRole := by
    rw [← spans, ← withdrawClaims_falls own' falls]
    unfold Part.spanAt
    rw [u_spans]
  have clashU : u.inClash = true := by
    refine Eq.trans ?_ ((withdrawClaims_act c q c).inClash.trans clash')
    unfold Part.inClash
    rw [u_line]
  rw [settled, u_eq]
  have held : (u.spanAt k).role.isHeld = false := by rw [withdrawn]; rfl
  have releasing : (u.spanAt k).releasing = false := by rw [withdrawn]; rfl
  have kept := (settleReleases_spanAt c u k held releasing).trans withdrawn
  have clashR : (settleReleases c u).inClash = true := (settleReleases_act c u c).inClash.trans clashU
  generalize settleReleases c u = r at *
  rw [openClaim_clash ((noticeIfDue_act c r c).inClash.trans clashR), noticeIfDue_spanAt c r k (by rw [kept]; rfl), kept]

theorem halt_spans (cause : HaltCause) (p : Part) : (halt cause p).span.spans = p.span.spans := by
  cases head : headMove p with
  | none => rw [halt_noHead head]
  | some m =>
    by_cases halted : m.phase = .halted
    · rw [halt_halted head halted]
    · rw [halt_eq head halted, report_span, setTarget_span, updateMove_rest]

/-- A frame with the own source that arrives comes to the clash rule. -/
theorem receive_own {p : Part} (receives : receiving p = true) (own : p.line.own < 256) (f : Part → Part) :
    receive (byte p.line.own) f p = clashRule (p.count Counters.addValid) := by
  unfold receive receiveWhen
  rw [if_pos receives]
  refine if_pos ?_
  unfold byte
  rw [BitVec.toNat_ofNat]
  exact Nat.mod_eq_of_lt own

/-- A station enters CLASH. -/
theorem enterClash_spec {r : Part} (clash : r.inClash = true) :
    Quiet c r (enterClash c r) ∧ (enterClash c r).beds = r.beds ∧ (enterClash c r).heat.grant = 0
      ∧ (enterClash c r).span.decision = .stop ∧ (∀ b < 4, c.assigned b = true → heaterRequest c (enterClash c r) b = false)
      ∧ (∀ m, headMove r = some m → m.phase ≠ .halted →
          ∃ y ∈ (enterClash c r).moves.queue, y.tag = m.tag ∧ y.phase = .halted ∧ y.halt = some (m.phase, .craneFault))
      ∧ (∀ k, claimed r = some k → (enterClash c r).spanAt k = (r.spanAt k).dropRole)
      ∧ (enterClash c r).scan = r.scan ∧ (enterClash c r).maturity = r.maturity := by
  have heats : HeatAct c r (computeGrant c [] r) := computeGrant_act c r []
  have rests := computeGrant_rests (c := c) (p := r) [] clash
  have grant : (computeGrant c [] r).heat = shareOf c r := computeGrant_heat r c []
  have beds := computeGrant_beds r c []
  unfold enterClash
  generalize computeGrant c [] r = g at *
  have halts : CraneAct c g (halt .craneFault g) := halt_act c g _
  have settles : CraneAct c (halt .craneFault g) (settle c (halt .craneFault g)) := settle_act c _ c
  have crane := halts.trans settles
  have clash' : (halt .craneFault g).inClash = true := halts.inClash.trans (heats.inClash.trans clash)
  refine ⟨(heats.toPlantAct.trans crane.toPlantAct).toQuiet, crane.beds.trans beds, ?_, settle_stops c _ (.inr (.inr (.inr clash'))),
    fun b hb assigned => heaterRequest_of_cold ?_, fun m head working => ?_, fun k own => ?_, crane.scan.trans heats.scan,
    crane.maturity.trans heats.maturity⟩
  · rw [crane.heat, grant]
    unfold shareOf grantOf
    rw [clash, Bool.or_true]
    rfl
  · obtain ⟨cold, _⟩ := rests b hb assigned
    unfold Part.gen at *
    rw [crane.out]
    exact cold
  · exact (settle_halt ((headMove_of_moves heats.moves).trans head) working .craneFault).2
  · have spans : (halt .craneFault g).span.spans = r.span.spans := (halt_spans .craneFault g).trans (by rw [heats.span])
    have same (j : Nat) : (halt .craneFault g).spanAt j = r.spanAt j := by unfold Part.spanAt; rw [spans]
    have own' : claimed (halt .craneFault g) = some k := by
      unfold claimed at own ⊢
      simp only [same]
      rwa [spans]
    rw [settle_withdraws clash' own', same]

/-- Settles O55: the frame that begins CLASH, the frames in it, and its end. -/
theorem clashEpisode : Obligations.ClashEpisode := by
  refine ⟨?_, ?_⟩
  · intro s c kind target pl p runs receives own
    have arrives : exec (.clashFrame kind target pl) s = .next { s with part := clashRule (p.count Counters.addValid) } := by
      refine (show exec _ s = .next (s.onPart fun q => receive (byte q.line.own) id q) from rfl).trans ?_
      unfold State.onPart
      rw [show (fun q : Part => receive (byte q.line.own) id q) s.part = _ from receive_own receives own id]
    refine ⟨fun calm => completes_of arrives ?_, fun k clash => completes_of arrives ?_⟩
    · have begun : clashRule (p.count Counters.addValid) = enterClash c { p.count Counters.addValid with
          line := { (p.count Counters.addValid).line with clash := some ⟨p.clock.ms + 10000, p.clock.ms, 1⟩ } } := by
        unfold clashRule
        dsimp only
        rw [show (p.count Counters.addValid).line.clash = none from calm]
        exact onRunning_of_runs (p := { p.count Counters.addValid with
          line := { (p.count Counters.addValid).line with clash := some ⟨p.clock.ms + 10000, p.clock.ms, 1⟩ } }) runs enterClash
      rw [begun]
      generalize r_def : ({ p.count Counters.addValid with
          line := { (p.count Counters.addValid).line with clash := some ⟨p.clock.ms + 10000, p.clock.ms, 1⟩ } } : Part) = r
      have clash : r.line.clash = some ⟨p.clock.ms + 10000, p.clock.ms, 1⟩ := by rw [← r_def]
      have inClash : r.inClash = true := by unfold Part.inClash; rw [clash]; rfl
      obtain ⟨quiet, beds, grant, stop, heaters, head, claim, scan, maturity⟩ := enterClash_spec (c := c) inClash
      generalize enterClash c r = q at *
      refine ⟨quiet.placed.keeps.clash.trans clash, grant, stop, fun b hb assigned _ => heaters b hb assigned, ?_,
        fun m own => head m (by rw [← r_def]; exact own), fun k own => ?_, quiet.placed.keeps.counters.trans (by rw [← r_def]; rfl),
        quiet.clock.trans (by rw [← r_def]; rfl), quiet.travel.trans (by rw [← r_def]; rfl), beds.trans (by rw [← r_def]; rfl),
        scan.trans (by rw [← r_def]; rfl), maturity.trans (by rw [← r_def]; rfl), quiet.pins.trans (by rw [← r_def]; rfl)⟩
      · unfold stationReady
        rw [quiet.inClash, inClash]
        simp
      · rw [claim k (by rw [← r_def]; exact own), ← r_def]
        exact ⟨rfl, rfl⟩
    · unfold clashRule
      dsimp only
      rw [show (p.count Counters.addValid).line.clash = some k from clash]
      rfl
  · intro s c k p runs clash
    generalize r_def : reportConfigured (.clash k.count ((max p.clock.ms k.endMs - k.sinceMs) / 1000) p.now)
      { p with clock := { p.clock with ms := max p.clock.ms k.endMs }, line := { p.line with clash := none } } = r
    have left : leaveClash p = r.onRunning fun c q => settle c (computeGrant c [] q) := by
      unfold leaveClash
      rw [clash, ← r_def]
      rfl
    rw [reportConfigured_eq] at r_def
    have line : ({ p.line with clash := none } : LineUnit).keeps r.line := by
      rw [← r_def]
      dsimp only
      split
      · exact placeReport_keeps _ _
      · rfl
    have calm : r.inClash = false := by
      unfold Part.inClash
      rw [line.clash]
      rfl
    have grant : (computeGrant c [] r).heat = shareOf c r := computeGrant_heat r c []
    have beds := computeGrant_beds r c []
    have heats : HeatAct c r (computeGrant c [] r) := computeGrant_act c r []
    refine completes_of (q := leaveClash p) rfl ?_
    rw [left, onRunning_of_runs (c := c) (by rw [← r_def]; exact runs)]
    have crane : CraneAct c (computeGrant c [] r) (settle c (computeGrant c [] r)) := settle_act c _ c
    generalize computeGrant c [] r = g at *
    generalize settle c g = q at *
    have quiet := heats.toQuiet.trans crane.toQuiet
    refine ⟨quiet.placed.keeps.clash.trans line.clash, ?_, ?_, ?_, quiet.travel.trans (by rw [← r_def]), ?_,
      (crane.scan.trans heats.scan).trans (by rw [← r_def]), (crane.maturity.trans heats.maturity).trans (by rw [← r_def]),
      quiet.pins.trans (by rw [← r_def]), quiet.placed.keeps.counters.trans line.counters⟩
    · rw [quiet.clock, ← r_def]
      exact Nat.le_max_right _ _
    · rw [crane.heat, grant]
      unfold shareOf
      dsimp only
      rw [calm, Bool.or_false, ← r_def]
      rfl
    · rw [quiet.clock, ← r_def]
    · rw [crane.beds, beds, ← r_def]

end Sys2Proof.Machine
end

