-- ==== Sys2Proof/Proofs/MoveQueue.lean ====
section
/-! PROOFS. The move queue and the piece store: tags, admission, cancel and resume (08 R150 to R153, 09 R160 to R173). -/
namespace Sys2Proof.Machine
open Sys2Proof

/-! ### Tags of moves (09 R161) -/

theorem tagAfter_range {n : Nat} (low : 1 ≤ n) (high : n ≤ 255) : 1 ≤ tagAfter n ∧ tagAfter n ≤ 255 := by
  unfold tagAfter
  split <;> omega

/-- The tags are passed in a circle of 255. -/
theorem iterate_tagAfter (k : Nat) {n : Nat} (low : 1 ≤ n) (high : n ≤ 255) : tagAfter^[k] n = (n - 1 + k) % 255 + 1 := by
  induction k generalizing n with
  | zero => rw [Function.iterate_zero_apply]; omega
  | succ k ih =>
    obtain ⟨low', high'⟩ := tagAfter_range low high
    rw [Function.iterate_succ_apply, ih low' high']
    unfold tagAfter
    split <;> omega

/-- The search passes over carried tags only, and ends with one that is free unless all it may test are carried. -/
theorem freeTag_spec (used : List Nat) (k n : Nat) :
    ∃ j ≤ k, freeTag used k n = tagAfter^[j] n ∧ (∀ i < j, tagAfter^[i] n ∈ used) ∧ (j < k → tagAfter^[j] n ∉ used) := by
  induction k generalizing n with
  | zero => exact ⟨0, Nat.le_refl _, rfl, fun i hi => absurd hi (Nat.not_lt_zero i), fun h => absurd h (Nat.lt_irrefl 0)⟩
  | succ k ih =>
    unfold freeTag
    split
    · rename_i carried
      obtain ⟨j, le, value, passed, free⟩ := ih (tagAfter n)
      refine ⟨j + 1, Nat.succ_le_succ le, value, fun i hi => ?_, fun lt => free (Nat.lt_of_succ_lt_succ lt)⟩
      cases i with
      | zero => exact carried
      | succ i => exact passed i (Nat.lt_of_succ_lt_succ hi)
    · rename_i free
      exact ⟨0, Nat.zero_le _, rfl, fun i hi => absurd hi (Nat.not_lt_zero i), fun _ => free⟩

/-- Not all of the first 255 tags from one on can stand in a shorter list. -/
theorem exists_free_tag {used : List Nat} {k n : Nat} (low : 1 ≤ n) (high : n ≤ 255) (few : used.length < k) (turn : k ≤ 255) :
    ∃ i < k, tagAfter^[i] n ∉ used := by
  by_contra none
  have carried : ∀ i < k, tagAfter^[i] n ∈ used := fun i hi => by_contra fun free => none ⟨i, hi, free⟩
  have distinct : ((List.range k).map fun i => tagAfter^[i] n).Nodup := by
    refine List.Nodup.map_on (fun i hi j hj same => ?_) List.nodup_range
    rw [List.mem_range] at hi hj
    rw [iterate_tagAfter i low high, iterate_tagAfter j low high] at same
    omega
  have sub : (List.range k).map (fun i => tagAfter^[i] n) ⊆ used := by
    intro t mem
    obtain ⟨i, hi, rfl⟩ := List.mem_map.mp mem
    exact carried i (List.mem_range.mp hi)
  have le := (List.subperm_of_subset distinct sub).length_le
  rw [List.length_map, List.length_range] at le
  omega

@[simp] theorem setQueue_moves (l : List Move) (p : Part) : (p.setQueue l).moves = { p.moves with queue := l } := by
  unfold Part.setQueue
  rw [markIf_moves]

@[simp] theorem setNextTag_moves (n : Nat) (p : Part) : (p.setNextTag n).moves = { p.moves with nextTag := n } := by
  unfold Part.setNextTag
  rw [markIf_moves]

theorem enqueue_moves (m : Move) (p : Part) : (enqueue m p).moves = { p.moves with
    queue := p.moves.queue ++ [m], nextTag := freeTag ((p.moves.queue ++ [m]).map (·.tag)) 17 (tagAfter m.tag) } := by
  unfold enqueue
  dsimp only
  rw [setNextTag_moves, setQueue_moves]

/-- Settles O27. -/
theorem nextTagIsFree : Obligations.NextTagIsFree := by
  intro m p room low high
  dsimp only
  rw [enqueue_moves]
  dsimp only
  obtain ⟨low', high'⟩ := tagAfter_range low high
  generalize used_def : (p.moves.queue ++ [m]).map (·.tag) = used
  have few : used.length < 17 := by rw [← used_def]; simp; omega
  obtain ⟨j, _, value, passed, free⟩ := freeTag_spec used 17 (tagAfter m.tag)
  obtain ⟨i, hi, spare⟩ := exists_free_tag low' high' few (by decide)
  have le : j ≤ i := by
    by_contra lt
    exact spare (passed i (by omega))
  have unused : tagAfter^[j] (tagAfter m.tag) ∉ used := free (by omega)
  have carries {t : Nat} (mem : t ∈ used) : ∃ x ∈ p.moves.queue ++ [m], x.tag = t := by
    rw [← used_def] at mem
    exact List.mem_map.mp mem
  rw [value]
  refine ⟨rfl, ?_, ?_, fun x mem same => unused ?_, j, rfl, fun i hi => carries (passed i hi)⟩
  · rw [iterate_tagAfter j low' high']
    omega
  · rw [iterate_tagAfter j low' high']
    omega
  · rw [← used_def, ← same]
    exact List.mem_map_of_mem mem

end Sys2Proof.Machine

namespace Sys2Proof.Machine
open Sys2Proof

/-! ### Records and stacks: one rule per operation (08 R140, R150) -/

variable {c : Settings} {p : Part}

theorem recordAt_of_pieces {q : Part} (h : q.pieces = p.pieces) (n : Nat) : recordAt q n = recordAt p n := by
  unfold recordAt
  rw [h]

theorem findRecord_of_pieces {q : Part} (h : q.pieces = p.pieces) (id : Nat) : findRecord q id = findRecord p id := by
  unfold findRecord
  rw [h]

theorem findPiece_of_pieces {q : Part} (h : q.pieces = p.pieces) (id : Nat) : findPiece q id = findPiece p id := by
  unfold findPiece
  rw [findRecord_of_pieces h]
  exact congrArg _ (funext (recordAt_of_pieces h))

theorem recordAt_updatePiece (id : Nat) (f : Piece → Piece) (n : Nat) :
    recordAt (updatePiece id f p) n = if findRecord p id = some n then (recordAt p n).map f else recordAt p n := by
  unfold updatePiece
  cases found : findRecord p id with
  | none => exact (if_neg fun e => nomatch e).symm
  | some k =>
    obtain ⟨inside, _⟩ := findRecord_spec found
    dsimp only
    rw [recordAt_setRecord]
    by_cases same : k = n
    · subst same
      rw [if_pos ⟨rfl, inside⟩, if_pos rfl]
    · rw [if_neg fun e => same e.1, if_neg fun e => same (Option.some.inj e)]

theorem updatePiece_moves (id : Nat) (f : Piece → Piece) : (updatePiece id f p).moves = p.moves := by
  rw [(updatePiece_rest p id f).1]

theorem updatePiece_beds (id : Nat) (f : Piece → Piece) : (updatePiece id f p).beds = p.beds := by
  rw [(updatePiece_rest p id f).1]

theorem stackAt_of_table {q : Part} (h : q.pieces.stackTable = p.pieces.stackTable) (i : Nat) : q.stackAt i = p.stackAt i := by
  unfold Part.stackAt
  rw [h]

theorem stackAt_updatePiece (id : Nat) (f : Piece → Piece) (i : Nat) : (updatePiece id f p).stackAt i = p.stackAt i :=
  stackAt_of_table (updatePiece_rest p id f).2 i

theorem setStackAt_pieces (i : Nat) (x : Stack) :
    (p.setStackAt i x).pieces = { p.pieces with stackTable := p.pieces.stackTable.set i x } := by
  unfold Part.setStackAt Part.setStacks
  rw [markIf_pieces]

theorem setStackAt_moves (i : Nat) (x : Stack) : (p.setStackAt i x).moves = p.moves := by
  unfold Part.setStackAt Part.setStacks
  rw [markIf_moves]

theorem setStackAt_beds (i : Nat) (x : Stack) : (p.setStackAt i x).beds = p.beds := by
  unfold Part.setStackAt Part.setStacks
  rw [markIf_beds]

theorem recordAt_setStackAt (i : Nat) (x : Stack) (n : Nat) : recordAt (p.setStackAt i x) n = recordAt p n := by
  unfold recordAt
  rw [setStackAt_pieces]

theorem findRecord_setStackAt (i : Nat) (x : Stack) (id : Nat) : findRecord (p.setStackAt i x) id = findRecord p id := by
  unfold findRecord
  rw [setStackAt_pieces]

theorem findPiece_setStackAt (i : Nat) (x : Stack) (id : Nat) : findPiece (p.setStackAt i x) id = findPiece p id := by
  unfold findPiece
  rw [findRecord_setStackAt]
  exact congrArg _ (funext (recordAt_setStackAt i x))

theorem stackAt_setStackAt (i : Nat) (x : Stack) (k : Nat) :
    (p.setStackAt i x).stackAt k = if i = k ∧ i < p.pieces.stackTable.length then x else p.stackAt k := by
  unfold Part.stackAt
  rw [setStackAt_pieces, List.getD_eq_getElem?_getD, List.getD_eq_getElem?_getD, List.getElem?_set]
  by_cases same : i = k
  · subst same
    by_cases inside : i < p.pieces.stackTable.length <;> simp [inside]
  · simp [same]

theorem findMark_lt {tag i : Nat} (h : findMark p tag = some i) : i < p.pieces.stackTable.length :=
  (List.findIdx?_eq_some_iff_getElem.mp h).1

theorem stackAt_clearMark (tag i : Nat) : (clearMark tag p).stackAt i =
    if findMark p tag = some i then { p.stackAt i with mark := .none } else p.stackAt i := by
  unfold clearMark
  cases found : findMark p tag with
  | none => exact (if_neg fun e => nomatch e).symm
  | some k =>
    dsimp only
    rw [stackAt_setStackAt]
    by_cases same : k = i
    · subst same
      rw [if_pos ⟨rfl, findMark_lt found⟩, if_pos rfl]
    · rw [if_neg fun e => same e.1, if_neg fun e => same (Option.some.inj e)]

/-- A mark is cleared in the stacks and nowhere else. -/
theorem clearMark_rest (tag : Nat) : (clearMark tag p).moves = p.moves ∧ (clearMark tag p).beds = p.beds
    ∧ (∀ n, recordAt (clearMark tag p) n = recordAt p n) ∧ ∀ id, findRecord (clearMark tag p) id = findRecord p id := by
  unfold clearMark
  split
  · exact ⟨setStackAt_moves _ _, setStackAt_beds _ _, recordAt_setStackAt _ _, findRecord_setStackAt _ _⟩
  · exact ⟨rfl, rfl, fun _ => rfl, fun _ => rfl⟩

theorem findPiece_clearMark (tag id : Nat) : findPiece (clearMark tag p) id = findPiece p id := by
  unfold findPiece
  rw [(clearMark_rest tag).2.2.2]
  exact congrArg _ (funext (clearMark_rest tag).2.2.1)

theorem clearMark_tableLength (tag : Nat) : (clearMark tag p).pieces.stackTable.length = p.pieces.stackTable.length := by
  unfold clearMark
  split
  · rw [setStackAt_pieces, List.length_set]
  · rfl

/-! ### What `settle` leaves of the records -/

/-- Record by record, nothing changes but announced marks. -/
structure Recorded (p q : Part) : Prop where
  records : ∀ n, ∃ v, recordAt q n = (recordAt p n).map fun x => { x with announced := v }
  found : ∀ id, findRecord q id = findRecord p id

theorem Recorded.of_pieces {q : Part} (h : q.pieces = p.pieces) : Recorded p q := by
  refine ⟨fun n => ⟨((recordAt p n).map (·.announced)).getD false, ?_⟩, findRecord_of_pieces h⟩
  rw [recordAt_of_pieces h]
  cases recordAt p n <;> rfl

theorem Recorded.trans {q r : Part} (h : Recorded p q) (k : Recorded q r) : Recorded p r := by
  refine ⟨fun n => ?_, fun id => (k.found id).trans (h.found id)⟩
  obtain ⟨v, first⟩ := h.records n
  obtain ⟨w, second⟩ := k.records n
  refine ⟨w, second.trans ?_⟩
  rw [first, Option.map_map]
  rfl

theorem updatePiece_announced (id : Nat) : Recorded p (updatePiece id (fun y => { y with announced := true }) p) := by
  refine ⟨fun n => ?_, findRecord_update p id _ fun _ => rfl⟩
  rw [recordAt_updatePiece]
  split
  · exact ⟨true, rfl⟩
  · exact (Recorded.of_pieces rfl).records n

theorem announce_recorded (c : Settings) (p : Part) : Recorded p (announce c p) := by
  have one (x : Piece) (q : Part) : Recorded q (announceOne c q x) := by
    unfold announceOne
    split
    · exact (updatePiece_announced x.id).trans (.of_pieces rfl)
    · exact .of_pieces rfl
  have all : ∀ (l : List Piece) (q : Part), Recorded q (l.foldl (announceOne c) q) := by
    intro l
    induction l with
    | nil => exact fun q => .of_pieces rfl
    | cons x l ih => exact fun q => (one x q).trans (ih _)
  exact all _ p

theorem settle_pieces (c : Settings) (p : Part) : (settle c p).pieces = (announce c p).pieces := by
  show (settleSpans c _).pieces = _
  rw [(settleSpans_spanned c _).rest, (settleArrival_moved c _).rest, (settleStart_moved c _).rest]

theorem settle_recorded (c : Settings) (p : Part) : Recorded p (settle c p) :=
  (announce_recorded c p).trans (.of_pieces (settle_pieces c p))

theorem settle_stackAt (c : Settings) (p : Part) (i : Nat) : (settle c p).stackAt i = p.stackAt i :=
  stackAt_of_table (settle_settled c p).stackTable i

/-! ### What `settle` leaves of the queue -/

/-- A move of the queue stands there after `settle`, but for its phase, its timer and its halt record. -/
theorem settle_queue_mem {m : Move} (mem : m ∈ p.moves.queue) : ∃ x ∈ (settle c p).moves.queue, Move.same m x := by
  obtain ⟨f, queue, same⟩ := (settle_settled c p).queue
  exact ⟨f m, by rw [queue]; exact List.mem_map_of_mem mem, same m⟩

/-- A move that stands in the queue after `settle` stood there before. -/
theorem mem_settle_queue {x : Move} (mem : x ∈ (settle c p).moves.queue) : ∃ m ∈ p.moves.queue, Move.same m x := by
  obtain ⟨f, queue, same⟩ := (settle_settled c p).queue
  rw [queue] at mem
  obtain ⟨m, stood, rfl⟩ := List.mem_map.mp mem
  exact ⟨m, stood, same m⟩

theorem Move.same.tag {m x : Move} (h : Move.same m x) : x.tag = m.tag := by rw [h]

theorem removeMove_queue (m : Move) : (removeMove m p).moves.queue = p.moves.queue.filter (·.tag != m.tag) := by
  unfold removeMove
  rw [updatePiece_moves, setQueue_moves]

end Sys2Proof.Machine

namespace Sys2Proof.Machine
open Sys2Proof

variable {c : Settings} {p : Part}

/-! ### Admission (08 R151, R152, 09 R162, R163) -/

/-- An order that is admitted: the answer carries its value, and the rest is what `settle` left. -/
theorem completes_admitted {i : Instr} {s : State} {src tag : Byte} {ps : List Byte} {need : Nat} {act : Settings → Part → Reply}
    (order : orderOf i = some ⟨src, tag, ps, need, act⟩) (h : TakesOrders s.part c src) (enough : need ≤ ps.length) {x : Part} {v : Value}
    (carried : act c (heard s.part) = ⟨.accepted, [v], settle c x⟩) (acts : CraneAct c (heard s.part) x) {post : Part → Prop}
    (k : ∀ y q, y = settle c x → Answered q src tag .accepted [v] → q = { y with line := q.line } →
      craneFrame (heard s.part) q → post q) : Completes i s post := by
  refine completes_of (exec_taken order h enough) ?_
  dsimp only
  rw [carried]
  have settled := settle_act c x c
  generalize settle c x = y at *
  have crane := acts.trans settled
  have room := room_after h crane.toActs
  exact k y _ rfl (answered_answer (r := ⟨.accepted, [v], y⟩) src tag room) rfl
    (crane.frame_answered rfl (LineUnit.keeps_trans crane.placed.keeps (placeAnswer_keeps _ room)))

/-- The mark of an admitted move stands at its stack, and the move in the queue. -/
structure Admits (p : Part) (m : Move) (i : Nat) (mark : PendMark) (x : Part) : Prop where
  act : ∀ c, CraneAct c p x
  entered : m ∈ x.moves.queue
  marked : i < p.pieces.stackTable.length → (x.stackAt i).mark = mark

theorem admits_enqueue (i : Nat) (mark : PendMark) (id : Nat) (f : Piece → Piece) (m : Move) :
    Admits p m i mark (enqueue m (updatePiece id f (p.setStackAt i { p.stackAt i with mark := mark }))) := by
  refine ⟨fun c => ((setStackAt_act c p _ _).trans (updatePiece_act c _ _ _)).trans (enqueue_act c _ _), ?_, fun inside => ?_⟩
  · rw [enqueue_moves]
    exact List.mem_append_right _ (List.mem_singleton.mpr rfl)
  · have table (q : Part) : (enqueue m q).pieces = q.pieces := by
      unfold enqueue Part.setNextTag Part.setQueue
      rw [markIf_pieces]
      exact markIf_pieces _ _ _
    rw [stackAt_of_table (congrArg PieceStore.stackTable (table _)), stackAt_updatePiece, stackAt_setStackAt, if_pos ⟨rfl, inside⟩]

theorem shaped_stackTable (h : p.shaped) : p.pieces.stackTable.length = 96 := by
  obtain ⟨_, _, _, _, _, _, _, _, _, table⟩ := h
  exact table

/-- What an admitted order leaves: its move QUEUED with the tag, and the mark. -/
theorem Admits.settled {q x y : Part} {m : Move} {i : Nat} {mark : PendMark} (h : Admits p m i mark x) (shaped : p.shaped) (hi : i < 96)
    (settled : y = settle c x) (rest : q = { y with line := q.line }) :
    (∃ z ∈ q.moves.queue, Move.same m z) ∧ (q.stackAt i).mark = mark := by
  have moves : q.moves = y.moves := by rw [rest]
  have marks : q.stackAt i = y.stackAt i := stackAt_of_table (by rw [rest]) i
  rw [moves, marks, settled, settle_stackAt]
  exact ⟨settle_queue_mem h.entered, h.marked (by rw [shaped_stackTable shaped]; exact hi)⟩

theorem checkLift_noStack {id lane n : Nat} (h : 7 < lane ∨ c.stack? lane n = none) : checkLift c p id lane n = .error .range := by
  unfold checkLift
  split
  · rfl
  · rename_i inside
    rw [h.resolve_left inside]

/-- Where the stack is configured, the checks go on with the piece. -/
theorem checkLift_stack {id lane n : Nat} {g : StackCfg} (inside : lane ≤ 7) (stack : c.stack? lane n = some g) :
    (findPiece p id = none → checkLift c p id lane n = .error .unknown)
      ∧ ∀ x, findPiece p id = some x →
        ((∀ b s, x.place ≠ .onBed b s) ∨ x.tag.isSome = true → checkLift c p id lane n = .error .badState)
          ∧ ∀ b s, x.place = .onBed b s → x.tag = none →
            ((p.stackAt (stackIndex lane n)).mark ≠ .none → checkLift c p id lane n = .error .stackBusy)
              ∧ ((p.stackAt (stackIndex lane n)).mark = .none → g.tiers < (p.stackAt (stackIndex lane n)).list.length + 1 →
                  checkLift c p id lane n = .error .full)
              ∧ ((p.stackAt (stackIndex lane n)).mark = .none → (p.stackAt (stackIndex lane n)).list.length + 1 ≤ g.tiers →
                  (g.load < loadOf p (p.stackAt (stackIndex lane n)).list + x.mass → checkLift c p id lane n = .error .overload)
                    ∧ (loadOf p (p.stackAt (stackIndex lane n)).list + x.mass ≤ g.load →
                        checkLift c p id lane n = .ok (x, g))) := by
  unfold checkLift
  rw [if_neg (Nat.not_lt.mpr inside), stack]
  refine ⟨fun none => by rw [none], fun x found => ?_⟩
  rw [found]
  dsimp only
  refine ⟨fun bad => ?_, fun b s place free => ?_⟩
  · split
    · rename_i b s place
      rw [if_pos (bad.resolve_left fun off => off b s place)]
    · rfl
  · rw [place]
    dsimp only
    rw [free, if_neg (by decide)]
    refine ⟨fun busy => if_pos busy, fun unmarked tall => ?_, fun unmarked fits => ⟨fun heavy => ?_, fun light => ?_⟩⟩
    · rw [if_neg (fun e => e unmarked), if_pos tall]
    · rw [if_neg (fun e => e unmarked), if_neg (Nat.not_lt.mpr fits), if_pos heavy]
    · rw [if_neg (fun e => e unmarked), if_neg (Nat.not_lt.mpr fits), if_neg (Nat.not_lt.mpr light)]

theorem checkShip_rows (id : Nat) :
    (findPiece p id = none → checkShip p id = .error .unknown)
      ∧ ∀ x, findPiece p id = some x →
        ((∀ l n h, x.place ≠ .inStock l n h) ∨ x.tag.isSome = true → checkShip p id = .error .badState)
          ∧ ∀ l n h, x.place = .inStock l n h → x.tag = none →
            ((p.stackAt (stackIndex l n)).list.getLast? ≠ some id → checkShip p id = .error .badState)
              ∧ ((p.stackAt (stackIndex l n)).list.getLast? = some id → (p.stackAt (stackIndex l n)).mark ≠ .none →
                  checkShip p id = .error .stackBusy)
              ∧ ((p.stackAt (stackIndex l n)).list.getLast? = some id → (p.stackAt (stackIndex l n)).mark = .none →
                  (x.hold = true → checkShip p id = .error .held) ∧ (x.hold = false → checkShip p id = .ok (x, l, n))) := by
  unfold checkShip
  refine ⟨fun none => by rw [none], fun x found => ?_⟩
  rw [found]
  dsimp only
  refine ⟨fun bad => ?_, fun l n h place free => ?_⟩
  · split
    · rename_i l n h place
      rw [if_pos (bad.resolve_left fun off => off l n h place)]
    · rfl
  · rw [place]
    dsimp only
    rw [free, if_neg (by decide)]
    refine ⟨fun below => if_pos below, fun top busy => ?_, fun top unmarked => ⟨fun held => ?_, fun loose => ?_⟩⟩
    · rw [if_neg (fun e => e top), if_pos busy]
    · rw [if_neg (fun e => e top), if_neg (fun e => e unmarked), held]
      rfl
    · rw [if_neg (fun e => e top), if_neg (fun e => e unmarked), loose]
      rfl

/-- What LIFT does: the rows before the piece store's checks, their refusals, and admission. -/
theorem orderLift_rows (ps : List Byte) : (par3 ps 0 = 0 → orderLift ps c p = refuse .range p)
    ∧ (par3 ps 0 ≠ 0 → 16 ≤ p.moves.queue.length → orderLift ps c p = refuse .full p)
    ∧ (par3 ps 0 ≠ 0 → p.moves.queue.length < 16 →
      (∀ r, checkLift c p (par3 ps 0) (par ps 3) (par ps 4) = .error r → orderLift ps c p = refuse r p)
      ∧ ∀ x g, checkLift c p (par3 ps 0) (par ps 3) (par ps 4) = .ok (x, g) →
        orderLift ps c p = ⟨.accepted, [.b1 p.moves.nextTag], settle c (admitLift c x g (par ps 3) (par ps 4) p)⟩) := by
  unfold orderLift
  dsimp only
  refine ⟨fun zero => if_pos zero, fun id full => ?_, fun id room => ⟨fun r check => ?_, fun x g check => ?_⟩⟩
  · rw [if_neg id, if_pos full]
  · rw [if_neg id, if_neg (Nat.not_le.mpr room), check]
  · rw [if_neg id, if_neg (Nat.not_le.mpr room), check]

/-- What SHIP does: the rows before the piece store's checks, their refusals, and admission. -/
theorem orderShip_rows (ps : List Byte) : (par3 ps 0 = 0 → orderShip ps c p = refuse .range p)
    ∧ (par3 ps 0 ≠ 0 → 16 ≤ p.moves.queue.length → orderShip ps c p = refuse .full p)
    ∧ (par3 ps 0 ≠ 0 → p.moves.queue.length < 16 →
      (∀ r, checkShip p (par3 ps 0) = .error r → orderShip ps c p = refuse r p)
      ∧ ∀ x l n, checkShip p (par3 ps 0) = .ok (x, l, n) →
        orderShip ps c p = ⟨.accepted, [.b1 p.moves.nextTag], settle c (admitShip c x l n p)⟩) := by
  unfold orderShip
  dsimp only
  refine ⟨fun zero => if_pos zero, fun id full => ?_, fun id room => ⟨fun r check => ?_, fun x l n check => ?_⟩⟩
  · rw [if_neg id, if_pos full]
  · rw [if_neg id, if_neg (Nat.not_le.mpr room), check]
  · rw [if_neg id, if_neg (Nat.not_le.mpr room), check]

/-- Settles O26. -/
theorem movesAdmitted : Obligations.MovesAdmitted := by
  intro s c src tag ps p t id refused takes shaped
  have shaped' : p.shaped := shaped
  obtain ⟨liftRange, liftFull, lift⟩ := orderLift_rows (c := c) (p := p) ps
  obtain ⟨shipRange, shipFull, ship⟩ := orderShip_rows (c := c) (p := p) ps
  refine ⟨fun enough zero => completes_refused rfl takes enough (liftRange zero),
    fun enough named full => completes_refused rfl takes enough (liftFull named full),
    fun r enough named room check => completes_refused rfl takes enough ((lift named room).1 r check),
    fun x g enough named room check inside => ?_,
    fun lane n => ⟨checkLift_noStack, fun g inside stack => checkLift_stack inside stack⟩,
    checkShip_rows id,
    fun enough zero => completes_refused rfl takes enough (shipRange zero),
    fun enough named full => completes_refused rfl takes enough (shipFull named full),
    fun r enough named room check => completes_refused rfl takes enough ((ship named room).1 r check),
    fun x l n enough named room check inside => ?_⟩
  · have admits : Admits p _ (stackIndex (par ps 3) (par ps 4)) _ (admitLift c x g (par ps 3) (par ps 4) p) := admits_enqueue _ _ _ _ _
    refine completes_admitted rfl takes enough ((lift named room).2 x g check) (admits.act c) fun y q settled answered rest frame => ?_
    obtain ⟨⟨m, mem, same⟩, marked⟩ := admits.settled shaped' inside settled rest
    refine ⟨answered, frame, ⟨m, mem, ?_⟩, marked⟩
    rw [same]
    exact ⟨rfl, rfl, rfl, rfl, rfl, rfl⟩
  · have admits : Admits p _ (stackIndex l n) _ (admitShip c x l n p) := admits_enqueue _ _ _ _ _
    refine completes_admitted rfl takes enough ((ship named room).2 x l n check) (admits.act c) fun y q settled answered rest frame => ?_
    obtain ⟨⟨m, mem, same⟩, marked⟩ := admits.settled shaped' inside settled rest
    refine ⟨answered, frame, ⟨m, mem, ?_⟩, marked⟩
    rw [same]
    exact ⟨rfl, rfl, rfl, rfl, rfl, rfl⟩

end Sys2Proof.Machine

namespace Sys2Proof.Machine
open Sys2Proof

variable {c : Settings} {p : Part}

/-! ### CANCEL (09 R173) -/

/-- A move that CANCEL takes out of the queue. -/
def cancelled (c : Settings) (m : Move) (p : Part) : Part :=
  let q := (removeMove m (releaseMark m.tag m.piece p)).report (.moveRemoved m .cancel)
  if m.phase = .halted then setReturn c q else q

theorem releaseMark_moves (tag id : Nat) : (releaseMark tag id p).moves = p.moves := by
  unfold releaseMark
  rw [updatePiece_moves, (clearMark_rest tag).1]

theorem stackAt_releaseMark (tag id i : Nat) : (releaseMark tag id p).stackAt i =
    if findMark p tag = some i then { p.stackAt i with mark := .none } else p.stackAt i := by
  unfold releaseMark
  rw [stackAt_updatePiece, stackAt_clearMark]

theorem stackAt_removeMove (m : Move) (i : Nat) : (removeMove m p).stackAt i = p.stackAt i := by
  unfold removeMove
  rw [stackAt_updatePiece]
  refine stackAt_of_table ?_ i
  unfold Part.setQueue
  rw [markIf_pieces]

/-- With the queue, a piece loses its move tag. -/
theorem recordAt_removeMove (m : Move) (n : Nat) : recordAt (removeMove m p) n =
    if findRecord p m.piece = some n then (recordAt p n).map fun x => { x with tag := none } else recordAt p n := by
  have same (l : List Move) : (p.setQueue l).pieces = p.pieces := by
    unfold Part.setQueue
    rw [markIf_pieces]
  unfold removeMove
  rw [recordAt_updatePiece, findRecord_of_pieces (same _), recordAt_of_pieces (same _)]

theorem recordAt_releaseMark (tag id n : Nat) : recordAt (releaseMark tag id p) n =
    if findRecord p id = some n then (recordAt p n).map fun x => { x with tag := none } else recordAt p n := by
  unfold releaseMark
  rw [recordAt_updatePiece, (clearMark_rest tag).2.2.2, (clearMark_rest tag).2.2.1]

theorem findRecord_releaseMark (tag id j : Nat) : findRecord (releaseMark tag id p) j = findRecord p j := by
  unfold releaseMark
  rw [findRecord_update, (clearMark_rest tag).2.2.2]
  exact fun _ => rfl

section
variable (m : Move)

theorem cancelled_act : CraneAct c p (cancelled c m p) := by
  have removed : CraneAct c p ((removeMove m (releaseMark m.tag m.piece p)).report (.moveRemoved m .cancel)) :=
    ((releaseMark_act c p _ _).trans (removeMove_act c _ _)).trans (.report c _ _)
  unfold cancelled
  dsimp only
  split
  · exact removed.trans (setReturn_act c _ c)
  · exact removed

theorem cancelled_moves : (cancelled c m p).moves = { p.moves with
    queue := p.moves.queue.filter (·.tag != m.tag),
    returning := if m.phase = .halted then c.park.isSome else p.moves.returning } := by
  have removed : (removeMove m (releaseMark m.tag m.piece p)).moves = { p.moves with
      queue := p.moves.queue.filter (·.tag != m.tag) } := by
    unfold removeMove
    rw [updatePiece_moves, setQueue_moves, releaseMark_moves]
  unfold cancelled setReturn
  dsimp only
  split <;> simp only [report_moves, removed]

theorem cancelled_pieces : (cancelled c m p).pieces = (removeMove m (releaseMark m.tag m.piece p)).pieces := by
  unfold cancelled setReturn
  dsimp only
  split <;> rfl

theorem stackAt_cancelled (i : Nat) : (cancelled c m p).stackAt i =
    if findMark p m.tag = some i then { p.stackAt i with mark := .none } else p.stackAt i := by
  rw [stackAt_of_table (congrArg PieceStore.stackTable (cancelled_pieces m)), stackAt_removeMove, stackAt_releaseMark]

theorem recordAt_cancelled (n : Nat) : recordAt (cancelled c m p) n =
    if findRecord p m.piece = some n then (recordAt p n).map fun x => { x with tag := none } else recordAt p n := by
  rw [recordAt_of_pieces (cancelled_pieces m), recordAt_removeMove, findRecord_releaseMark, recordAt_releaseMark]
  by_cases own : findRecord p m.piece = some n
  · simp only [if_pos own, Option.map_map]
    rfl
  · simp only [if_neg own]

end

/-! ### Settling with an empty queue (09 R164, R175) -/

theorem windowState_noTarget (h : p.moves.target = none) : windowState c p ≠ .inside := by
  unfold windowState
  rw [h]
  cases p.position <;> exact fun e => nomatch e

theorem windowState_target {t : Target} {n : Nat} (h : p.moves.target = some t) (known : p.position = some n) :
    windowState c p = windowOf c n t.pos := by
  unfold windowState
  rw [h, known]

theorem announce_position (c : Settings) (p : Part) : (announce c p).position = p.position := by
  unfold Part.position
  rw [(announce_announced c p).rest]

theorem mayStart_announce (c : Settings) (p : Part) : mayStart (announce c p) = mayStart p := by
  have rest := (announce_announced c p).rest
  have act := announce_act c p c
  unfold mayStart
  rw [headMove_of_moves (announce_moves c p), act.inClash]
  unfold Part.craneReady Part.craneFault Part.craneLocal Part.hookLoaded Part.emergencyActive Part.inWarning
  rw [announce_moves, rest]

/-- No head move and no start: no target is held. -/
theorem settle_waits (idle : headMove p = none) (blocked : mayStart p = false) :
    (settle c p).moves = { p.moves with target := none } := by
  have started : settleStart c (announce c p) = setTarget none (announce c p) := by
    unfold settleStart
    rw [mayStart_announce, blocked, headMove_of_moves (announce_moves c p), idle]
    rfl
  rw [settle_moves, started]
  unfold settleArrival
  rw [if_neg fun both => windowState_noTarget (c := c) (p := setTarget _ (announce c p)) rfl both.1, setTarget_moves, announce_moves]

/-- With an empty queue and the crane free to start, it returns to its park position. -/
theorem settle_returns {x n : Nat} (empty : p.moves.queue = []) (free : mayStart p = true) (returning : p.moves.returning = true)
    (park : c.park = some x) (known : p.position = some n) (away : windowOf c n x ≠ .inside) :
    (settle c p).moves = { p.moves with target := some ⟨x, 2⟩ } := by
  have started : settleStart c (announce c p) = setTarget (some ⟨x, 2⟩) (announce c p) := by
    unfold settleStart
    rw [mayStart_announce, free, if_pos rfl, announce_moves, empty, returning, if_pos rfl, park]
    rfl
  have window : windowState c (setTarget (some ⟨x, 2⟩) (announce c p)) = windowOf c n x :=
    windowState_target (p := setTarget _ (announce c p)) rfl ((announce_position c p).trans known)
  rw [settle_moves, started]
  unfold settleArrival
  rw [window, if_neg fun both => away both.1, setTarget_moves, announce_moves]

theorem mayStart_unready (h : p.craneReady = false) : mayStart p = false := by
  unfold mayStart
  rw [h]
  simp

/-- Whether a move may start is read from the head move, the crane lines, travel, emergency, supply and line. -/
theorem mayStart_congr {q r : Part} (head : headMove r = headMove q) (hook : r.moves.hook = q.moves.hook)
    (ready : r.moves.ready = q.moves.ready) (fault : r.moves.fault = q.moves.fault) (locl : r.moves.locl = q.moves.locl)
    (travel : r.travel = q.travel) (out : r.out = q.out) (supply : r.supply = q.supply) (clash : r.inClash = q.inClash) :
    mayStart r = mayStart q := by
  unfold mayStart Part.craneReady Part.craneFault Part.craneLocal Part.hookLoaded Part.emergencyActive Part.inWarning
  rw [head, hook, ready, fault, locl, travel, out, supply, clash]

theorem findMove_tag {t : Nat} {m : Move} (h : findMove p t = some m) : m.tag = t :=
  eq_of_beq (List.find?_some (p := fun x : Move => x.tag == t) h)

theorem findMove_mem {t : Nat} {m : Move} (h : findMove p t = some m) : m ∈ p.moves.queue := List.mem_of_find?_eq_some h

theorem headMove_empty (h : p.moves.queue = []) : headMove p = none := by
  unfold headMove
  rw [h]
  rfl

/-- After the cancel of the only move, a HALTED one, the crane returns to its park position. -/
theorem settle_cancelled_returns {m : Move} (halted : m.phase = .halted) (only : p.moves.queue = [m]) :
    (p.craneReady = false →
        (settle c (cancelled c m p)).moves.returning = c.park.isSome ∧ (settle c (cancelled c m p)).moves.target = none)
      ∧ ∀ x n, c.park = some x → p.position = some n → windowOf c n x ≠ .inside →
          mayStart { p with moves := { p.moves with queue := [] } } = true →
          (settle c (cancelled c m p)).moves.returning = true ∧ (settle c (cancelled c m p)).moves.target = some ⟨x, 2⟩ := by
  have moves : (cancelled c m p).moves = { p.moves with queue := [], returning := c.park.isSome } := by
    rw [cancelled_moves, only, if_pos halted]
    simp
  have act : CraneAct c p (cancelled c m p) := cancelled_act m
  have empty : (cancelled c m p).moves.queue = [] := by rw [moves]
  refine ⟨fun unready => ?_, fun x n park known away free => ?_⟩
  · rw [settle_waits (headMove_empty empty) (mayStart_unready (by unfold Part.craneReady; rw [moves]; exact unready)), moves]
    exact ⟨rfl, rfl⟩
  · have free' : mayStart (cancelled c m p) = true := by
      refine Eq.trans (mayStart_congr (q := { p with moves := { p.moves with queue := [] } }) ?_ ?_ ?_ ?_ ?_ act.travel act.out act.supply act.inClash) free
      · exact (headMove_empty empty).trans (headMove_empty (p := { p with moves := { p.moves with queue := [] } }) rfl).symm
      all_goals rw [moves]
    have known' : (cancelled c m p).position = some n := by unfold Part.position at *; rw [act.travel]; exact known
    have returning : (cancelled c m p).moves.returning = true := by rw [moves, park]; rfl
    rw [settle_returns empty free' returning park known' away]
    exact ⟨returning, rfl⟩

theorem orderCancel_found {ps : List Byte} {m : Move} (named : par ps 0 ≠ 0) (found : findMove p (par ps 0) = some m) :
    (m.phase ≠ .queued ∧ m.phase ≠ .halted → orderCancel ps c p = refuse .badState p)
      ∧ (¬(m.phase ≠ .queued ∧ m.phase ≠ .halted) →
        (m.phase = .halted ∧ m.picked = true → orderCancel ps c p = refuse .pieceOnHook p)
          ∧ (¬(m.phase = .halted ∧ m.picked = true) → orderCancel ps c p = doneSettled c (cancelled c m p))) := by
  unfold orderCancel
  dsimp only
  rw [if_neg named, found]
  dsimp only
  refine ⟨fun busy => if_pos busy, fun idle => ⟨fun hooked => ?_, fun loose => ?_⟩⟩
  · rw [if_neg idle, if_pos hooked]
  · rw [if_neg idle, if_neg loose]
    rfl

/-- Settles O28. -/
theorem cancelChecked : Obligations.CancelChecked := by
  intro s c src tag ps p t takes enough
  by_cases zero : t = 0
  · simp only [if_pos zero]
    exact completes_refused rfl takes enough (if_pos zero)
  simp only [if_neg zero]
  cases found : findMove p t with
  | none =>
    refine completes_refused rfl takes enough ?_
    unfold orderCancel
    dsimp only
    rw [if_neg zero, found]
  | some m =>
    obtain ⟨busy, idle⟩ := orderCancel_found (c := c) zero found
    dsimp only
    by_cases working : m.phase ≠ .queued ∧ m.phase ≠ .halted
    · simp only [if_pos working]
      exact completes_refused rfl takes enough (busy working)
    simp only [if_neg working]
    by_cases hooked : m.phase = .halted ∧ m.picked = true
    · simp only [if_pos hooked]
      exact completes_refused rfl takes enough ((idle working).1 hooked)
    simp only [if_neg hooked]
    have act : CraneAct c p (cancelled c m p) := cancelled_act m
    refine completes_settled rfl takes enough ((idle working).2 hooked) act.toActs fun y q settled answered rest keeps => ?_
    have frame : craneFrame p q := (act.trans (settled ▸ settle_act c _ c)).frame_answered rest keeps
    have own : m.tag = t := findMove_tag found
    have moves : q.moves = (settle c (cancelled c m p)).moves := by rw [rest, settled]
    have pieces : q.pieces = (settle c (cancelled c m p)).pieces := by rw [rest, settled]
    have marks (i : Nat) : q.stackAt i = if findMark p t = some i then { p.stackAt i with mark := .none } else p.stackAt i := by
      rw [stackAt_of_table (congrArg PieceStore.stackTable pieces), settle_stackAt, stackAt_cancelled, own]
    refine ⟨answered, frame, fun x mem => ?_, fun x mem other => ?_, fun i marked => ?_, fun i unmarked => ?_, fun n x record => ?_,
      fun halted only => ?_⟩
    · rw [moves] at mem
      obtain ⟨z, stood, same⟩ := mem_settle_queue mem
      rw [cancelled_moves, List.mem_filter] at stood
      rw [same.tag, ← own]
      simpa using stood.2
    · have stays : x ∈ (cancelled c m p).moves.queue := by
        rw [cancelled_moves, List.mem_filter, own]
        exact ⟨mem, by simpa using other⟩
      obtain ⟨z, stands, same⟩ := settle_queue_mem (c := c) stays
      rw [moves]
      exact ⟨z, stands, same.tag, by rw [same]⟩
    · rw [marks, if_pos marked]
    · rw [marks, if_neg unmarked]
    · obtain ⟨v, after⟩ := (settle_recorded c (cancelled c m p)).records n
      rw [recordAt_cancelled, record] at after
      refine ⟨{ x with tag := if findRecord p m.piece = some n then none else x.tag, announced := v },
        (recordAt_of_pieces pieces n).trans (after.trans ?_), rfl⟩
      split <;> rfl
    · rw [moves]
      exact settle_cancelled_returns halted only

end Sys2Proof.Machine

namespace Sys2Proof.Machine
open Sys2Proof

variable {c : Settings} {p : Part}

/-! ### Travel that is entered with a head move (09 R165, R166, R172) -/

/-- A move that enters a travel phase. -/
def Move.travels (ph : Phase) (now : Nat) (x : Move) : Move := { x with phase := ph, start := some now, halt := none }

theorem enterTravel_moves (m : Move) (ph : Phase) (pos : Nat) (p : Part) : (enterTravel m ph pos p).moves = { p.moves with
    queue := updateTag m.tag (Move.travels ph p.now) p.moves.queue, target := some ⟨pos, m.urgency⟩ } := by
  unfold enterTravel
  rw [setTarget_moves, updateMove_moves]
  rfl

theorem enterTravel_now (m : Move) (ph : Phase) (pos : Nat) (p : Part) : (enterTravel m ph pos p).now = p.now := by
  unfold enterTravel Part.now
  rw [setTarget_clock, updateMove_rest]

/-- The move in question, travelling towards its place or arrived there. -/
def Move.underWay (m : Move) (ph : Phase) (now : Nat) (x : Move) : Prop :=
  x.tag = m.tag ∧ x.piece = m.piece ∧ x.picked = m.picked ∧ x.halt = none ∧ x.start = some now ∧ (x.phase = ph ∨ ph.arrival = some x.phase)

theorem headMove_exists {m : Move} (mem : m ∈ p.moves.queue) (past : m.phase ≠ .queued) : ∃ h, headMove p = some h :=
  Option.isSome_iff_exists.mp (List.find?_isSome.mpr ⟨m, mem, by simpa using past⟩)

theorem headMove_mem {h : Move} (head : headMove p = some h) : h ∈ p.moves.queue := List.mem_of_find?_eq_some head

theorem mem_updateTag_iff {tag : Nat} {f : Move → Move} {l : List Move} {y : Move} (mem : y ∈ updateTag tag f l) :
    ∃ x ∈ l, y = if x.tag = tag then f x else x := by
  obtain ⟨x, stood, rfl⟩ := List.mem_map.mp mem
  exact ⟨x, stood, rfl⟩

/-- A move that enters a travel phase is under way after `settle`. -/
theorem settle_entered {m : Move} (mem : m ∈ p.moves.queue) {ph : Phase} (travel : ph.arrival ≠ none) (pos : Nat) :
    ∃ x ∈ (settle c (enterTravel m ph pos p)).moves.queue, m.underWay ph p.now x := by
  have queue : (enterTravel m ph pos p).moves.queue = updateTag m.tag (Move.travels ph p.now) p.moves.queue := by
    rw [enterTravel_moves]
  have entered : m.travels ph p.now ∈ (enterTravel m ph pos p).moves.queue := by rw [queue]; exact mem_updateTag mem rfl
  have past : (m.travels ph p.now).phase ≠ .queued := fun e => travel (by
    rw [show ph = .queued from e]
    rfl)
  obtain ⟨h, head⟩ := headMove_exists entered past
  rcases settle_headed (c := c) head with stands | ⟨arrived, phase, arrives⟩
  · rw [stands]
    exact ⟨_, entered, rfl, rfl, rfl, rfl, rfl, .inl rfl⟩
  · rw [arrives]
    by_cases same : (m.travels ph p.now).tag = h.tag
    · have travels : h.phase = ph := by
        have stood := headMove_mem head
        rw [queue] at stood
        obtain ⟨z, _, form⟩ := mem_updateTag_iff stood
        by_cases own : z.tag = m.tag
        · rw [form, if_pos own]
          rfl
        · rw [if_neg own] at form
          exact absurd ((congrArg Move.tag form).symm.trans same.symm) own
      refine ⟨_, mem_updateTag entered same, rfl, rfl, rfl, rfl, ?_, .inr ?_⟩
      · dsimp only
        rw [enterTravel_now]
      · exact travels ▸ phase
    · exact ⟨_, List.mem_map.mpr ⟨_, entered, if_neg same⟩, rfl, rfl, rfl, rfl, rfl, .inl rfl⟩

/-- The head move that enters a travel phase holds its own target, or has arrived and holds none. -/
theorem settle_entered_head {m : Move} (head : headMove p = some m) {ph arrived : Phase} (travel : ph.arrival = some arrived) (pos : Nat) :
    ((settle c (enterTravel m ph pos p)).moves.target = some ⟨pos, m.urgency⟩
        ∧ ∃ x ∈ (settle c (enterTravel m ph pos p)).moves.queue, x.tag = m.tag ∧ x.phase = ph)
      ∨ ((settle c (enterTravel m ph pos p)).moves.target = none
        ∧ ∃ x ∈ (settle c (enterTravel m ph pos p)).moves.queue, x.tag = m.tag ∧ x.phase = arrived) := by
  have past (x : Move) : (Move.travels ph p.now x).phase ≠ .queued := fun e => by
    rw [show ph = .queued from e] at travel
    cases travel
  obtain ⟨x, stood, tag, found⟩ := find_updateTag past head
  have entered : Move.travels ph p.now x ∈ updateTag m.tag (Move.travels ph p.now) p.moves.queue := mem_updateTag stood tag
  have head' : headMove (enterTravel m ph pos p) = some (Move.travels ph p.now x) := by
    unfold headMove
    rw [enterTravel_moves]
    exact found
  rcases settle_headed (c := c) head' with stands | ⟨ph', phase, arrives⟩
  · refine .inl ?_
    rw [stands, show (Move.travels ph p.now x).phase.arrival = some arrived from travel, if_neg (fun e => nomatch e), enterTravel_moves]
    exact ⟨rfl, _, entered, tag, rfl⟩
  · refine .inr ?_
    have same : ph' = arrived := Option.some.inj (phase.symm.trans travel)
    rw [arrives, enterTravel_moves]
    exact ⟨rfl, _, mem_updateTag entered rfl, tag, same⟩

/-! ### RESUME (09 R172) -/

/-- The piece of a completed move, placed or set down. -/
def placePiece (c : Settings) (m : Move) (p : Part) : Part :=
  match m.stack with
  | some (l, n) => placeLift m.tag m.piece l n p
  | none => placeDispatch c m.tag m.piece p

theorem completeMove_eq (m : Move) (v : Bool) :
    completeMove c m v p = setReturn c ((removeMove m (placePiece c m p)).report (.moveDone m v p.now)) := rfl

theorem removePiece_moves (id : Nat) : (removePiece id p).moves = p.moves := by
  unfold removePiece
  split
  · unfold Part.setRecord
    rw [markIf_moves]
  · rfl

theorem placePiece_moves (m : Move) : (placePiece c m p).moves = p.moves := by
  unfold placePiece
  split
  · unfold placeLift
    dsimp only
    rw [updatePiece_moves, setStackAt_moves, (clearMark_rest _).1]
  · unfold placeDispatch
    dsimp only
    split
    · exact (clearMark_rest _).1
    · rw [report_moves, removePiece_moves, (clearMark_rest _).1]

theorem completeMove_moves (m : Move) (v : Bool) : (completeMove c m v p).moves = { p.moves with
    queue := p.moves.queue.filter (·.tag != m.tag), returning := c.park.isSome } := by
  rw [completeMove_eq]
  unfold setReturn removeMove
  dsimp only
  rw [report_moves, updatePiece_moves, setQueue_moves, placePiece_moves]

/-- A completed move is out of the queue after `settle`. -/
theorem settle_completed (m : Move) (v : Bool) : ∀ x ∈ (settle c (completeMove c m v p)).moves.queue, x.tag ≠ m.tag := by
  intro x mem
  obtain ⟨z, stood, same⟩ := mem_settle_queue mem
  rw [completeMove_moves, List.mem_filter] at stood
  rw [same.tag]
  simpa using stood.2

/-- The rows of RESUME for a HALTED move that may resume. -/
theorem orderResume_free {ps : List Byte} {m : Move} (named : par ps 0 ≠ 0) (found : findMove p (par ps 0) = some m)
    (halted : m.phase = .halted) (free : mayResume p = true) :
    (m.picked = p.hookLoaded → orderResume ps c p = doneSettled c
        (enterTravel m (if m.picked then .toPlace else .toPick) (if m.picked then m.place else m.pick) p))
      ∧ (m.picked = false → p.hookLoaded = true → orderResume ps c p = refuse .notReady p)
      ∧ (m.picked = true → p.hookLoaded = false →
        (inPlaceWindow c p m.place = false → orderResume ps c p = refuse .wrongPosition p)
          ∧ (inPlaceWindow c p m.place = true → orderResume ps c p = doneSettled c (completeMove c m true p))) := by
  unfold orderResume
  dsimp only
  rw [if_neg named, found]
  dsimp only
  rw [if_neg fun e => e halted, free, if_neg (by decide)]
  refine ⟨fun same => ?_, fun unpicked hooked => ?_, fun picked unhooked => ⟨fun away => ?_, fun inside => ?_⟩⟩
  · rw [← same]
    cases m.picked <;> rfl
  · rw [unpicked, hooked]
  · rw [picked, unhooked]
    exact if_neg (by rw [away]; decide)
  · rw [picked, unhooked]
    exact if_pos inside

theorem orderResume_bars {ps : List Byte} {m : Move} (named : par ps 0 ≠ 0) (found : findMove p (par ps 0) = some m) :
    (m.phase ≠ .halted → orderResume ps c p = refuse .badState p)
      ∧ (m.phase = .halted → mayResume p = false → orderResume ps c p = refuse .notReady p) := by
  unfold orderResume
  dsimp only
  rw [if_neg named, found]
  dsimp only
  refine ⟨fun working => if_pos working, fun halted barred => ?_⟩
  rw [if_neg fun e => e halted, barred]
  rfl

/-- Settles O29. -/
theorem resumeChecked : Obligations.ResumeChecked := by
  intro s c src tag ps p takes enough
  refine ⟨fun zero => completes_refused rfl takes enough (if_pos zero), fun named none => completes_refused rfl takes enough ?_,
    fun m named found => ?_⟩
  · unfold orderResume
    dsimp only
    rw [if_neg named, none]
  obtain ⟨working, barred⟩ := orderResume_bars (c := c) named found
  have mem := findMove_mem found
  refine ⟨fun h => completes_refused rfl takes enough (working h), fun halted bars => ?_, fun halted free hook => ?_,
    fun halted free picked unhooked away => completes_refused rfl takes enough
      (((orderResume_free named found halted free).2.2 picked unhooked).1 away),
    fun halted free picked unhooked inside => ?_⟩
  · refine completes_refused rfl takes enough ?_
    cases free : mayResume p with
    | false => exact barred halted free
    | true =>
      obtain ⟨unpicked, hooked⟩ := bars.resolve_left (by rw [free]; decide)
      exact (orderResume_free named found halted free).2.1 unpicked hooked
  · refine completes_settled rfl takes enough ((orderResume_free named found halted free).1 hook)
      (enterTravel_act c p m _ _).toActs fun y q settled answered rest keeps => ?_
    generalize ph_def : (if m.picked then Phase.toPlace else .toPick) = ph at *
    generalize pos_def : (if m.picked then m.place else m.pick) = pos at *
    have arrival : ph.arrival = some (if m.picked then .atPlace else .atPick) := by
      rw [← ph_def]
      cases m.picked <;> rfl
    have frame := ((enterTravel_act c p m ph pos).trans (settled ▸ settle_act c _ c)).frame_answered rest keeps
    have moves : q.moves = (settle c (enterTravel m ph pos p)).moves := by rw [rest, settled]
    refine ⟨answered, frame, ?_, fun head => ?_⟩
    · obtain ⟨x, stands, own, piece, _, unhalted, start, phase⟩ := settle_entered (c := c) mem (by rw [arrival]; exact fun e => nomatch e) pos
      rw [moves]
      refine ⟨x, stands, own, piece, unhalted, start, phase.imp_right fun arrived => ?_⟩
      exact (Option.some.inj (arrival.symm.trans arrived)).symm
    · rw [moves]
      exact settle_entered_head head arrival pos
  · refine completes_settled rfl takes enough (((orderResume_free named found halted free).2.2 picked unhooked).2 inside)
      (completeMove_act c p c m true).toActs fun y q settled answered rest keeps => ?_
    have frame := ((completeMove_act c p c m true).trans (settled ▸ settle_act c _ c)).frame_answered rest keeps
    refine ⟨answered, frame, ?_⟩
    rw [show q.moves = (settle c (completeMove c m true p)).moves by rw [rest, settled]]
    exact settle_completed m true

end Sys2Proof.Machine
end

