-- ==== Sys2Proof/Proofs/HookEvents.lean ====
section
/-! PROOFS. The hook events: a piece taken up and a piece placed (08 R143, R144, 09 R166 to R169). -/
namespace Sys2Proof.Machine
open Sys2Proof

variable {c : Settings} {p : Part}

/-! ### A changed crane line (09 R159) -/

/-- The part with a changed level accepted and reported, before what the event does. -/
def craneAccepted (l : CraneLine) (v : Bool) (p : Part) : Part := reportCrane (acceptLevel l v p)

theorem craneLevel_changed {l : CraneLine} {v : Bool} (seen : (p.moves.crane l).seen = true)
    (differs : (p.moves.crane l).filter.level ≠ v) :
    craneLevel c l v p = settle c (craneEffect c l v (craneAccepted l v p)) := by
  unfold craneLevel
  dsimp only
  rw [seen, if_neg (by decide), if_neg differs]
  rfl

theorem craneLevel_first {l : CraneLine} {v : Bool} (unseen : (p.moves.crane l).seen = false) :
    craneLevel c l v p = settle c (acceptLevel l v p) := by
  unfold craneLevel
  dsimp only
  rw [unseen]
  exact if_pos rfl

/-- What a crane line's event leaves: beds, heat, outputs, travel, clock, temperatures, maturity and configuration. -/
structure CraneStill (p q : Part) : Prop where
  beds : q.beds = p.beds
  heat : q.heat = p.heat
  out : q.out = p.out
  travel : q.travel = p.travel
  clock : q.clock = p.clock
  scan : q.scan = p.scan
  maturity : q.maturity = p.maturity
  config : q.config = p.config
  run : q.run = p.run

theorem CraneAct.still {q : Part} (h : CraneAct c p q) : CraneStill p q :=
  ⟨h.beds, h.heat, h.out, h.travel, h.clock, h.scan, h.maturity, h.config, h.run⟩

theorem CraneStill.trans {q r : Part} (h : CraneStill p q) (k : CraneStill q r) : CraneStill p r :=
  ⟨k.beds.trans h.beds, k.heat.trans h.heat, k.out.trans h.out, k.travel.trans h.travel, k.clock.trans h.clock, k.scan.trans h.scan,
    k.maturity.trans h.maturity, k.config.trans h.config, k.run.trans h.run⟩

theorem acceptLevel_still (l : CraneLine) (v : Bool) : CraneStill p (acceptLevel l v p) := ⟨rfl, rfl, rfl, rfl, rfl, rfl, rfl, rfl, rfl⟩

theorem craneAccepted_still (l : CraneLine) (v : Bool) : CraneStill p (craneAccepted l v p) := ⟨rfl, rfl, rfl, rfl, rfl, rfl, rfl, rfl, rfl⟩

theorem craneAccepted_keeps (l : CraneLine) (v : Bool) : p.line.keeps (craneAccepted l v p).line := placeReport_keeps _ _

theorem craneAccepted_moves (l : CraneLine) (v : Bool) : (craneAccepted l v p).moves = p.moves.setCrane l ⟨⟨v, v, 5⟩, true⟩ := rfl

theorem craneAccepted_pieces (l : CraneLine) (v : Bool) : (craneAccepted l v p).pieces = p.pieces := rfl

theorem setCrane_queue (u : MoveUnit) (l : CraneLine) (x : CraneIn) : (u.setCrane l x).queue = u.queue := by cases l <;> rfl

theorem crane_setCrane (u : MoveUnit) (l : CraneLine) (x : CraneIn) : (u.setCrane l x).crane l = x := by cases l <;> rfl

theorem crane_setCrane_other (u : MoveUnit) {l k : CraneLine} (other : k ≠ l) (x : CraneIn) : (u.setCrane l x).crane k = u.crane k := by
  cases l <;> cases k <;> first | rfl | exact absurd rfl other

theorem headMove_of_queue {q : Part} (h : q.moves.queue = p.moves.queue) : headMove q = headMove p := by unfold headMove; rw [h]

theorem craneAccepted_head (l : CraneLine) (v : Bool) : headMove (craneAccepted l v p) = headMove p :=
  headMove_of_queue (setCrane_queue _ _ _)

theorem craneAccepted_crane (l : CraneLine) (v : Bool) : (craneAccepted l v p).moves.crane l = ⟨⟨v, v, 5⟩, true⟩ :=
  crane_setCrane p.moves l _

theorem settle_crane (c : Settings) (p : Part) (l : CraneLine) : (settle c p).moves.crane l = p.moves.crane l := by
  obtain ⟨hook, ready, fault, locl⟩ := settle_lines c p
  cases l
  · exact hook
  · exact ready
  · exact fault
  · exact locl

theorem halt_crane (cause : HaltCause) (p : Part) (l : CraneLine) : (halt cause p).moves.crane l = p.moves.crane l := by
  rw [halt_lines]
  cases l <;> rfl

/-! ### Picking a piece (08 R143) -/

/-- The record of a piece that the crane takes up. -/
def Piece.picked (c : Settings) (p : Part) (x : Piece) : Piece := { x with place := .onHook, capture := some (capturePick c p x) }

/-- The piece store with a record taken up. -/
def toHook (c : Settings) (id : Nat) (x : Piece) (p : Part) : Part :=
  updatePiece id (fun y => { y with place := .onHook, capture := some (capturePick c p x) }) p

theorem pickPiece_bed {id b i : Nat} {x : Piece} (found : findPiece p id = some x) (place : x.place = .onBed b i) :
    pickPiece c id p = leaveSlot c b i (toHook c id x p) := by
  unfold pickPiece toHook
  rw [found]
  dsimp only
  rw [place]

theorem pickPiece_stock {id l n h : Nat} {x : Piece} (found : findPiece p id = some x) (place : x.place = .inStock l n h) :
    pickPiece c id p = updatePiece id (fun y => { y with place := .onHook, capture := some (capturePick c p x) })
      (p.setStackAt (stackIndex l n) { p.stackAt (stackIndex l n) with list := (p.stackAt (stackIndex l n)).list.dropLast }) := by
  unfold pickPiece
  rw [found]
  dsimp only
  rw [place]

theorem findPiece_updated {id : Nat} {x : Piece} {f : Piece → Piece} (found : findPiece p id = some x) (same : ∀ y, (f y).id = y.id) :
    findPiece (updatePiece id f p) id = some (f x) := by
  rw [findPiece_update p id f same, found]
  exact congrArg some (if_pos rfl)

theorem findPiece_pickPiece {id : Nat} {x : Piece} (found : findPiece p id = some x) (off : x.place ≠ .onHook) :
    findPiece (pickPiece c id p) id = some (x.picked c p) := by
  cases place : x.place with
  | onHook => exact absurd place off
  | onBed b i =>
    rw [pickPiece_bed found place, findPiece_of_pieces (leaveSlot_act c _ b i).pieces]
    exact findPiece_updated found (f := fun y => { y with place := .onHook, capture := some (capturePick c p x) }) fun _ => rfl
  | inStock l n h =>
    rw [pickPiece_stock found place]
    exact findPiece_updated ((findPiece_setStackAt _ _ id).trans found)
      (f := fun y => { y with place := .onHook, capture := some (capturePick c p x) }) fun _ => rfl

theorem pickPiece_moves (id : Nat) : (pickPiece c id p).moves = p.moves := by
  unfold pickPiece
  split
  · rfl
  · dsimp only
    split
    · rw [(leaveSlot_act c _ _ _).moves, updatePiece_moves]
    · rw [updatePiece_moves, setStackAt_moves]
    · rfl

theorem allNone_iff {α : Type} {l : List (Option α)} : l.all Option.isNone = true ↔ ∀ o ∈ l, o = none := by
  rw [List.all_eq_true]
  exact forall₂_congr fun o _ => Option.isNone_iff_eq_none

section
variable {b i : Nat} (inside : b < p.beds.length)
include inside

/-- The last piece of a DETENSIONED bed leaves: the bed is EMPTY, with no hold and no demand. -/
theorem bed_leaveSlot_last (state : (p.bed b).state = .detensioned) (last : ∀ o ∈ (p.bed b).slots.set i none, o = none) :
    (leaveSlot c b i p).bed b = { p.bed b with
      slots := (p.bed b).slots.set i none, hold := false, setpoint := (c.bed b).tf, state := .empty, db := 0 } := by
  have left : (p.withBed b fun x => { x with slots := x.slots.set i none }).bed b =
      { p.bed b with slots := (p.bed b).slots.set i none } := bed_withBed_same inside
  unfold leaveSlot
  dsimp only
  rw [left, if_pos ⟨state, allNone_iff.mpr last⟩]
  unfold enterEmpty
  have inside' : b < ((p.withBed b fun x => { x with slots := x.slots.set i none }).withBed b fun x =>
      { x with hold := false, setpoint := (c.bed b).tf }).beds.length := by
    rw [withBed_beds_length, withBed_beds_length]
    exact inside
  have entered := bed_setBedState .empty .lastPick inside'
  rw [bed_withBed_same (by rw [withBed_beds_length]; exact inside), left] at entered
  have inside'' : b < (setBedState b .empty .lastPick ((p.withBed b fun x => { x with slots := x.slots.set i none }).withBed b fun x =>
      { x with hold := false, setpoint := (c.bed b).tf })).beds.length := by
    unfold setBedState
    rw [report_beds, withBed_beds_length]
    exact inside'
  rw [bed_formDemand inside'', entered]
  unfold demandOf
  rw [entered]
  rfl

/-- Another piece that leaves a bed leaves its slot only. -/
theorem bed_leaveSlot_stays (stays : ¬((p.bed b).state = .detensioned ∧ ∀ o ∈ (p.bed b).slots.set i none, o = none)) :
    (leaveSlot c b i p).bed b = { p.bed b with slots := (p.bed b).slots.set i none } := by
  have left : (p.withBed b fun x => { x with slots := x.slots.set i none }).bed b =
      { p.bed b with slots := (p.bed b).slots.set i none } := bed_withBed_same inside
  unfold leaveSlot
  dsimp only
  rw [left, if_neg fun both => stays ⟨both.1, allNone_iff.mp both.2⟩, left]

end

theorem bed_leaveSlot_other {b i j : Nat} (other : j ≠ b) : (leaveSlot c b i p).bed j = p.bed j := by
  unfold leaveSlot
  dsimp only
  split
  · unfold enterEmpty
    rw [bed_formDemand_other other, bed_setBedState_other _ _ other, bed_withBed_other other, bed_withBed_other other]
  · exact bed_withBed_other other

end Sys2Proof.Machine

namespace Sys2Proof.Machine
open Sys2Proof

variable {c : Settings} {p : Part}

/-! ### HOOK_LOADED (09 R166, R169) -/

theorem updateMove_pieces (tag : Nat) (f : Move → Move) : (updateMove tag f p).pieces = p.pieces := by rw [updateMove_rest]

theorem updateMove_beds (tag : Nat) (f : Move → Move) : (updateMove tag f p).beds = p.beds := by rw [updateMove_rest]

theorem updateMove_now (tag : Nat) (f : Move → Move) : (updateMove tag f p).now = p.now := by
  unfold Part.now
  rw [updateMove_rest]

theorem enterTravel_pieces (m : Move) (ph : Phase) (pos : Nat) : (enterTravel m ph pos p).pieces = p.pieces := by
  unfold enterTravel
  rw [setTarget_pieces, updateMove_pieces]

theorem enterTravel_beds (m : Move) (ph : Phase) (pos : Nat) : (enterTravel m ph pos p).beds = p.beds := by
  unfold enterTravel
  rw [setTarget_beds, updateMove_beds]

/-- A move with its piece on the hook. -/
def Move.hooked (x : Move) : Move := { x with picked := true }

theorem enterTravel_hooked (m : Move) (ph : Phase) (pos : Nat) (p : Part) :
    enterTravel m.hooked ph pos p = enterTravel m ph pos p := rfl

/-- The part with the piece of a move on the hook and the move under way to its place. -/
def takenUp (c : Settings) (m : Move) (p : Part) : Part :=
  enterTravel m .toPlace m.place (updateMove m.tag Move.hooked (pickPiece c m.piece p))

theorem hookLoads_atPick {m : Move} (head : headMove p = some m) (phase : m.phase = .atPick) : hookLoads c p = takenUp c m p := by
  unfold hookLoads
  rw [head]
  dsimp only
  rw [phase]
  rfl

theorem hookLoads_toPick {m : Move} (head : headMove p = some m) (phase : m.phase = .toPick) :
    hookLoads c p = halt .hookUnexpected p := by
  unfold hookLoads
  rw [head]
  dsimp only
  rw [phase]

theorem takenUp_pieces (m : Move) : (takenUp c m p).pieces = (pickPiece c m.piece p).pieces := by
  unfold takenUp
  rw [enterTravel_pieces, updateMove_pieces]

theorem takenUp_beds (m : Move) : (takenUp c m p).beds = (pickPiece c m.piece p).beds := by
  unfold takenUp
  rw [enterTravel_beds, updateMove_beds]

theorem takenUp_act (m : Move) : PlantAct c p (takenUp c m p) :=
  (pickPiece_act c p m.piece).trans ((updateMove_act c _ _ _).trans (enterTravel_act c _ m _ _)).toPlantAct

theorem takenUp_hook (m : Move) : (takenUp c m p).moves.hook = p.moves.hook := by
  unfold takenUp
  rw [enterTravel_moves, updateMove_moves, pickPiece_moves]

/-- The move of the piece taken up is under way, picked. -/
theorem settle_takenUp {m : Move} (mem : m ∈ p.moves.queue) :
    ∃ y ∈ (settle c (takenUp c m p)).moves.queue, y.tag = m.tag ∧ y.picked = true ∧ (y.phase = .toPlace ∨ y.phase = .atPlace) := by
  unfold takenUp
  generalize u_def : updateMove m.tag Move.hooked (pickPiece c m.piece p) = u
  have picked : m.hooked ∈ u.moves.queue := by
    rw [← u_def, updateMove_moves, pickPiece_moves]
    exact mem_updateTag mem rfl
  obtain ⟨x, stands, tag, _, hooked, _, _, phase⟩ := settle_entered (c := c) picked (ph := .toPlace) (fun e => nomatch e) m.place
  rw [enterTravel_hooked] at stands
  exact ⟨x, stands, tag, hooked, phase.imp_right fun e => (Option.some.inj e).symm⟩

/-- The record of the piece taken up. -/
theorem settle_takenUp_piece {m : Move} {x : Piece} (found : findPiece p m.piece = some x) (off : x.place ≠ .onHook) :
    ∃ y, findPiece (settle c (takenUp c m p)) m.piece = some y ∧ y.place = .onHook ∧ y.capture = some (capturePick c p x) := by
  obtain ⟨v, after⟩ := (settle_settled c (takenUp c m p)).pieces m.piece (x.picked c p)
    ((findPiece_of_pieces (takenUp_pieces m) _).trans (findPiece_pickPiece found off))
  exact ⟨_, after, rfl, rfl⟩

/-- A piece taken up from a bed has left its slot. -/
theorem bed_takenUp {m : Move} {x : Piece} {b i : Nat} (found : findPiece p m.piece = some x) (place : x.place = .onBed b i) (j : Nat) :
    (settle c (takenUp c m p)).bed j = (leaveSlot c b i (toHook c m.piece x p)).bed j := by
  refine bed_of_beds ?_ j
  rw [(settle_act c _ c).beds, takenUp_beds, pickPiece_bed found place]

theorem toHook_beds (id : Nat) (x : Piece) : (toHook c id x p).beds = p.beds := updatePiece_beds id _

/-- A piece taken up from a bed leaves the stacks. -/
theorem takenUp_stackTable {m : Move} {x : Piece} {b i : Nat} (found : findPiece p m.piece = some x) (place : x.place = .onBed b i) :
    (settle c (takenUp c m p)).pieces.stackTable = p.pieces.stackTable := by
  rw [(settle_settled c _).stackTable, takenUp_pieces, pickPiece_bed found place, (leaveSlot_act c _ b i).pieces]
  exact (updatePiece_rest p m.piece _).2

/-- A piece taken up from a stack has left its top. -/
theorem stackAt_takenUp {m : Move} {x : Piece} {l n h : Nat} (found : findPiece p m.piece = some x) (place : x.place = .inStock l n h)
    (j : Nat) : (settle c (takenUp c m p)).stackAt j =
      if stackIndex l n = j ∧ stackIndex l n < p.pieces.stackTable.length then
        { p.stackAt (stackIndex l n) with list := (p.stackAt (stackIndex l n)).list.dropLast }
      else p.stackAt j := by
  rw [settle_stackAt, stackAt_of_table (congrArg PieceStore.stackTable (takenUp_pieces m)), pickPiece_stock found place,
    stackAt_updatePiece, stackAt_setStackAt]

theorem takenUp_stock_beds {m : Move} {x : Piece} {l n h : Nat} (found : findPiece p m.piece = some x)
    (place : x.place = .inStock l n h) : (settle c (takenUp c m p)).beds = p.beds := by
  rw [(settle_act c _ c).beds, takenUp_beds, pickPiece_stock found place, updatePiece_beds, setStackAt_beds]

/-- A halt by a hook event that the phase does not expect. -/
theorem settle_hookUnexpected {q : Part} {v : Bool} {m : Move} (head : headMove p = some m) (working : m.phase ≠ .halted)
    (left : settle c (halt .hookUnexpected (craneAccepted .hook v p)) = q) :
    (∃ y ∈ q.moves.queue, y.tag = m.tag ∧ y.phase = .halted ∧ y.halt = some (m.phase, .hookUnexpected))
      ∧ q.moves.target = none ∧ q.hookLoaded = v ∧ q.beds = p.beds ∧ q.heat = p.heat ∧ q.out = p.out := by
  obtain ⟨target, halted⟩ := settle_halt (c := c) ((craneAccepted_head .hook v).trans head) working .hookUnexpected
  have still := (craneAccepted_still (p := p) .hook v).trans ((halt_act c _ .hookUnexpected).trans (settle_act c _ c)).still
  have hook : (settle c (halt .hookUnexpected (craneAccepted .hook v p))).moves.crane .hook = ⟨⟨v, v, 5⟩, true⟩ :=
    (settle_crane c _ .hook).trans ((halt_crane _ _ .hook).trans (craneAccepted_crane _ _))
  rw [left] at target halted still hook
  exact ⟨halted, target, congrArg (fun x : CraneIn => x.filter.level) hook, still.beds, still.heat, still.out⟩

/-- Settles O30. -/
theorem hookLoadedPicks : Obligations.HookLoadedPicks := by
  intro s c m p runs seen unhooked head
  have changed : craneLevel c .hook true p = settle c (hookLoads c (craneAccepted .hook true p)) :=
    craneLevel_changed seen (by rw [show (p.moves.crane .hook).filter.level = false from unhooked]; decide)
  generalize a_def : craneAccepted .hook true p = a at changed
  have head' : headMove a = some m := a_def ▸ (craneAccepted_head .hook true).trans head
  refine ⟨fun x phase found off => completes_running runs rfl ?_, fun phase => completes_running runs rfl ?_⟩
  · rw [show craneLevel c .hook true s.part = _ from changed, hookLoads_atPick head' phase]
    have still : CraneStill p a := a_def ▸ craneAccepted_still .hook true
    have pieces : a.pieces = p.pieces := a_def ▸ craneAccepted_pieces .hook true
    have hook : a.moves.hook = ⟨⟨true, true, 5⟩, true⟩ := by rw [← a_def]; rfl
    have keeps : p.line.keeps a.line := a_def ▸ craneAccepted_keeps .hook true
    have capture : capturePick c a x = capturePick c p x := by rw [← a_def]; rfl
    have queue : a.moves.queue = p.moves.queue := by rw [← a_def]; exact setCrane_queue _ _ _
    have found' : findPiece a m.piece = some x := (findPiece_of_pieces pieces _).trans found
    have act : PlantAct c a (settle c (takenUp c m a)) := (takenUp_act m).trans (settle_act c _ c).toPlantAct
    obtain ⟨y, record, place, captured⟩ := settle_takenUp_piece (c := c) found' off
    refine ⟨⟨y, record, place, captured.trans (congrArg some capture)⟩,
      settle_takenUp (by rw [queue]; exact headMove_mem head), fun b i place shaped hb => ?_,
      fun l n h place shaped inside => ?_, ?_, act.scan.trans still.scan, act.maturity.trans still.maturity,
      act.travel.trans still.travel, act.clock.trans still.clock, act.config.trans still.config, act.run.trans still.run,
      LineUnit.keeps_trans keeps act.placed.keeps⟩
    · have beds (j : Nat) := bed_takenUp (c := c) found' place j
      have hooked (j : Nat) : (toHook c m.piece x a).bed j = p.bed j := bed_of_beds ((toHook_beds _ _).trans still.beds) j
      have inside : b < (toHook c m.piece x a).beds.length := by
        rw [toHook_beds, still.beds]
        exact shaped_beds shaped hb
      refine ⟨?_, ?_, fun j other => (beds j).trans ((bed_leaveSlot_other other).trans (hooked j)),
        (takenUp_stackTable found' place).trans (congrArg PieceStore.stackTable pieces)⟩
      · rw [beds]
        by_cases last : (p.bed b).state = .detensioned ∧ ∀ o ∈ (p.bed b).slots.set i none, o = none
        · rw [bed_leaveSlot_last inside (by rw [hooked]; exact last.1) (by rw [hooked]; exact last.2), hooked]
        · rw [bed_leaveSlot_stays inside (by rw [hooked]; exact last), hooked]
      · rw [beds]
        split
        · rename_i last
          rw [bed_leaveSlot_last inside (by rw [hooked]; exact last.1) (by rw [hooked]; exact last.2)]
          exact ⟨rfl, rfl, rfl, rfl⟩
        · rename_i stays
          rw [bed_leaveSlot_stays inside (by rw [hooked]; exact stays), hooked]
    · have stands (j : Nat) : a.stackAt j = p.stackAt j := stackAt_of_table (congrArg PieceStore.stackTable pieces) j
      have top (j : Nat) := stackAt_takenUp (c := c) found' place j
      have within : stackIndex l n < a.pieces.stackTable.length := by rw [pieces, shaped_stackTable shaped]; exact inside
      refine ⟨?_, ?_, fun j other => ?_, (takenUp_stock_beds found' place).trans still.beds⟩
      · rw [top, if_pos ⟨rfl, within⟩, stands]
      · rw [top, if_pos ⟨rfl, within⟩, stands]
      · rw [top, if_neg fun e => other e.1.symm, stands]
    · unfold Part.hookLoaded
      rw [(settle_lines c _).1, takenUp_hook, hook]
  · rw [show craneLevel c .hook true s.part = _ from changed, hookLoads_toPick head' phase, ← a_def]
    obtain ⟨⟨y, stands, tag, halted, cause⟩, rest⟩ := settle_hookUnexpected (c := c) (v := true) head (by rw [phase]; exact fun e => nomatch e) rfl
    exact ⟨⟨y, stands, tag, halted, cause.trans (by rw [phase])⟩, rest⟩

end Sys2Proof.Machine

namespace Sys2Proof.Machine
open Sys2Proof

variable {c : Settings} {p : Part}

/-! ### HOOK_UNLOADED (08 R144, 09 R168, R169) -/

theorem hookUnloads_atPlace {m : Move} (head : headMove p = some m) (phase : m.phase = .atPlace) :
    hookUnloads c p = completeMove c m false p := by
  unfold hookUnloads
  rw [head]
  dsimp only
  rw [phase]

theorem hookUnloads_toPlace {m : Move} (head : headMove p = some m) (phase : m.phase = .toPlace) :
    hookUnloads c p = halt .hookUnexpected p := by
  unfold hookUnloads
  rw [head]
  dsimp only
  rw [phase]

theorem setQueue_pieces (l : List Move) : (p.setQueue l).pieces = p.pieces := by
  unfold Part.setQueue
  rw [markIf_pieces]

theorem completeMove_pieces (m : Move) (v : Bool) : (completeMove c m v p).pieces = (removeMove m (placePiece c m p)).pieces := by
  rw [completeMove_eq]
  rfl

theorem stackAt_completeMove (m : Move) (v : Bool) (i : Nat) : (completeMove c m v p).stackAt i = (placePiece c m p).stackAt i := by
  rw [stackAt_of_table (congrArg PieceStore.stackTable (completeMove_pieces m v)), stackAt_removeMove]

theorem stackAt_clearMark_list (tag i : Nat) : ((clearMark tag p).stackAt i).list = (p.stackAt i).list := by
  rw [stackAt_clearMark]
  split <;> rfl

theorem stackAt_placeLift (tag id l n i : Nat) : (placeLift tag id l n p).stackAt i =
    if stackIndex l n = i ∧ stackIndex l n < p.pieces.stackTable.length then
      { (clearMark tag p).stackAt i with list := (p.stackAt i).list ++ [id] }
    else (clearMark tag p).stackAt i := by
  unfold placeLift
  dsimp only
  rw [stackAt_updatePiece, stackAt_setStackAt, clearMark_tableLength, stackAt_clearMark_list]
  by_cases own : stackIndex l n = i ∧ stackIndex l n < p.pieces.stackTable.length
  · rw [if_pos own, if_pos own, own.1]
  · rw [if_neg own, if_neg own]

theorem removePiece_stackTable (id : Nat) : (removePiece id p).pieces.stackTable = p.pieces.stackTable := by
  unfold removePiece
  split
  · unfold Part.setRecord
    rw [markIf_pieces]
  · rfl

theorem stackAt_placeDispatch (tag id i : Nat) : (placeDispatch c tag id p).stackAt i = (clearMark tag p).stackAt i := by
  unfold placeDispatch
  dsimp only
  split
  · rfl
  · exact stackAt_of_table (removePiece_stackTable id) i

/-- The mark of a completed move is cleared. -/
theorem placePiece_unmarked {m : Move} {i : Nat} (marked : findMark p m.tag = some i) : ((placePiece c m p).stackAt i).mark = .none := by
  have cleared : ((clearMark m.tag p).stackAt i).mark = .none := by rw [stackAt_clearMark, if_pos marked]
  unfold placePiece
  split
  · rw [stackAt_placeLift]
    split
    · exact cleared
    · exact cleared
  · rw [stackAt_placeDispatch]
    exact cleared

theorem findPiece_placeLift {tag id l n : Nat} {x : Piece} (found : findPiece p id = some x) :
    findPiece (placeLift tag id l n p) id = some { x with place := .inStock l n ((p.stackAt (stackIndex l n)).list.length + 1) } := by
  unfold placeLift
  dsimp only
  rw [stackAt_clearMark_list, List.length_append]
  exact findPiece_updated ((findPiece_setStackAt _ _ id).trans ((findPiece_clearMark tag id).trans found))
    (f := fun x => { x with place := .inStock l n _ }) fun _ => rfl

theorem findPiece_removeMove {m : Move} {x : Piece} (found : findPiece p m.piece = some x) :
    findPiece (removeMove m p) m.piece = some { x with tag := none } :=
  findPiece_updated ((findPiece_of_pieces (setQueue_pieces _) _).trans found) (f := fun x => { x with tag := none }) fun _ => rfl

theorem recordAt_removePiece {id n : Nat} (found : findRecord p id = some n) : recordAt (removePiece id p) n = none := by
  obtain ⟨inside, _⟩ := findRecord_spec found
  unfold removePiece
  rw [found]
  dsimp only
  rw [recordAt_setRecord, if_pos ⟨rfl, inside⟩]

/-- The record of a piece set down is gone. -/
theorem recordAt_placeDispatch {tag id n : Nat} (found : findRecord p id = some n) : recordAt (placeDispatch c tag id p) n = none := by
  have found' : findRecord (clearMark tag p) id = some n := ((clearMark_rest tag).2.2.2 id).trans found
  obtain ⟨_, ⟨x, record, _⟩, _⟩ := findRecord_spec found'
  have piece : findPiece (clearMark tag p) id = some x := by
    unfold findPiece
    rw [found']
    exact record
  unfold placeDispatch
  dsimp only
  rw [piece]
  exact recordAt_removePiece found'

theorem settle_findPiece {id : Nat} {x : Piece} (found : findPiece p id = some x) :
    ∃ v, findPiece (settle c p) id = some { x with announced := v } := (settle_settled c p).pieces id x found

/-- What a completed move leaves in the stacks and the records. -/
theorem settle_completed_pieces (m : Move) (v : Bool) :
    (∀ l n, m.stack = some (l, n) → stackIndex l n < p.pieces.stackTable.length →
        ((settle c (completeMove c m v p)).stackAt (stackIndex l n)).list = (p.stackAt (stackIndex l n)).list ++ [m.piece]
          ∧ ∀ x, findPiece p m.piece = some x → ∃ y, findPiece (settle c (completeMove c m v p)) m.piece = some y ∧ y.tag = none
              ∧ y.place = .inStock l n ((p.stackAt (stackIndex l n)).list.length + 1))
      ∧ (m.stack = none → ∀ n, findRecord p m.piece = some n → recordAt (settle c (completeMove c m v p)) n = none)
      ∧ ∀ i, findMark p m.tag = some i → ((settle c (completeMove c m v p)).stackAt i).mark = .none := by
  refine ⟨fun l n stack inside => ?_, fun none n found => ?_, fun i marked => ?_⟩
  · have placed : placePiece c m p = placeLift m.tag m.piece l n p := by
      unfold placePiece
      rw [stack]
    refine ⟨?_, fun x found => ?_⟩
    · rw [settle_stackAt, stackAt_completeMove, placed, stackAt_placeLift, if_pos ⟨rfl, inside⟩]
    · have stands : findPiece (completeMove c m v p) m.piece = some { x with
          place := .inStock l n ((p.stackAt (stackIndex l n)).list.length + 1), tag := none } := by
        rw [findPiece_of_pieces (completeMove_pieces m v), placed]
        exact findPiece_removeMove (findPiece_placeLift found)
      obtain ⟨w, after⟩ := settle_findPiece (c := c) stands
      exact ⟨_, after, rfl, rfl⟩
  · have placed : placePiece c m p = placeDispatch c m.tag m.piece p := by
      unfold placePiece
      rw [none]
    have gone : recordAt (completeMove c m v p) n = Option.none := by
      rw [recordAt_of_pieces (completeMove_pieces m v), recordAt_removeMove, placed, recordAt_placeDispatch found]
      split <;> rfl
    obtain ⟨w, after⟩ := (settle_recorded c (completeMove c m v p)).records n
    rw [after, gone]
    rfl
  · rw [settle_stackAt, stackAt_completeMove, placePiece_unmarked marked]

/-- Settles O31. -/
theorem hookUnloadedPlaces : Obligations.HookUnloadedPlaces := by
  intro s c m p runs shaped seen hooked head
  have changed : craneLevel c .hook false p = settle c (hookUnloads c (craneAccepted .hook false p)) :=
    craneLevel_changed seen (by rw [show (p.moves.crane .hook).filter.level = true from hooked]; decide)
  generalize a_def : craneAccepted .hook false p = a at changed
  have head' : headMove a = some m := a_def ▸ (craneAccepted_head .hook false).trans head
  refine ⟨fun phase => completes_running runs rfl ?_, fun phase => completes_running runs rfl ?_⟩
  · rw [show craneLevel c .hook false s.part = _ from changed, hookUnloads_atPlace head' phase]
    have still : CraneStill p a := a_def ▸ craneAccepted_still .hook false
    have pieces : a.pieces = p.pieces := a_def ▸ craneAccepted_pieces .hook false
    have hook : a.moves.hook = ⟨⟨false, false, 5⟩, true⟩ := by rw [← a_def]; rfl
    have marked (i : Nat) (h : findMark p m.tag = some i) : findMark a m.tag = some i := by
      unfold findMark at *
      rw [pieces]
      exact h
    have standing (i : Nat) : a.stackAt i = p.stackAt i := stackAt_of_table (congrArg PieceStore.stackTable pieces) i
    obtain ⟨placed, gone, unmarked⟩ := settle_completed_pieces (c := c) (p := a) m false
    have act := (completeMove_act c a c m false).trans (settle_act c (completeMove c m false a) c)
    refine ⟨settle_completed m false, ?_, act.beds.trans still.beds, act.heat.trans still.heat, act.out.trans still.out,
      fun l n stack inside => ?_, fun none n found => gone none n ((findRecord_of_pieces pieces _).trans found),
      fun i mark => unmarked i (marked i mark)⟩
    · unfold Part.hookLoaded
      rw [(settle_lines c _).1, completeMove_moves, hook]
    · obtain ⟨list, record⟩ := placed l n stack (by rw [pieces, shaped_stackTable shaped]; exact inside)
      rw [standing] at list record
      exact ⟨list, fun x found => record x ((findPiece_of_pieces pieces _).trans found)⟩
  · rw [show craneLevel c .hook false s.part = _ from changed, hookUnloads_toPlace head' phase, ← a_def]
    obtain ⟨⟨y, stands, tag, halted, cause⟩, rest⟩ := settle_hookUnexpected (c := c) (v := false) head
      (by rw [phase]; exact fun e => nomatch e) rfl
    exact ⟨⟨y, stands, tag, halted, cause.trans (by rw [phase])⟩, rest⟩

end Sys2Proof.Machine
end

