-- ==== Sys2Proof/Proofs/CraneLines.lean ====
section
/-! PROOFS. The crane lines, what a tick samples, and the reports that settle places (08 R148, 09 R159, R171). -/
namespace Sys2Proof.Machine
open Sys2Proof

variable {c : Settings} {p : Part}

/-! ### The reports that `settle` places -/

theorem mem_takeOffered {l : LineUnit} {r : Report} (h : r ∈ l.takeOffered.reports) : r ∈ l.reports := by
  unfold LineUnit.takeOffered at h
  split at h
  · dsimp only at h
    split at h
    · exact h
    · exact h
    · exact h
    · exact List.mem_of_mem_drop h
  · exact h

theorem mem_placeReport {l : LineUnit} {x r : Report} (h : r ∈ (l.placeReport x).reports) : r ∈ l.reports ∨ r = x := by
  unfold LineUnit.placeReport at h
  dsimp only at h
  split at h
  · exact (List.mem_append.mp h).imp mem_takeOffered List.mem_singleton.mp
  · exact (List.mem_append.mp h).imp (mem_takeOffered ∘ List.mem_of_mem_drop) List.mem_singleton.mp

/-- The reports of a line are those of another, but for SHIPPABLE reports. -/
def Announces (p q : Part) : Prop := ∀ r ∈ q.line.reports, r ∈ p.line.reports ∨ r.kind = .shippable

theorem Announces.of_line {q : Part} (h : q.line = p.line) : Announces p q := fun r mem => .inl (by rw [← h]; exact mem)

theorem Announces.trans {q r : Part} (h : Announces p q) (k : Announces q r) : Announces p r :=
  fun x mem => (k x mem).elim (h x) .inr

theorem formNotice_announces (c : Settings) (p : Part) : Announces p (formNotice c p) := by
  intro r mem
  have placed : r ∈ (LineUnit.placeSpan _ p.line).reports := mem
  exact .inl (mem_takeOffered placed)

theorem announce_announces (c : Settings) (p : Part) : Announces p (announce c p) := by
  have one (q : Part) (x : Piece) : Announces q (announceOne c q x) := by
    unfold announceOne
    split
    · intro r mem
      refine (mem_placeReport mem).imp (fun old => ?_) fun new => by rw [new]; rfl
      rw [(updatePiece_rest q x.id _).1] at old
      exact old
    · exact .of_line rfl
  have all : ∀ (l : List Piece) (q : Part), Announces q (l.foldl (announceOne c) q) := by
    intro l
    induction l with
    | nil => exact fun q => .of_line rfl
    | cons x l ih => exact fun q => (one q x).trans (ih _)
  exact all _ p

theorem noticeIfDue_announces (c : Settings) (p : Part) : Announces p (noticeIfDue c p) := by
  unfold noticeIfDue
  split
  · exact formNotice_announces c p
  · exact .of_line rfl

theorem openClaim_announces (c : Settings) (p : Part) : Announces p (openClaim c p) := by
  unfold openClaim
  split
  · split
    · exact .of_line rfl
    · split
      · exact .of_line rfl
      · dsimp only
        split
        all_goals
          split
          · exact .of_line rfl
          · refine Announces.trans ?_ (formNotice_announces c _)
            exact .of_line rfl
  · exact .of_line rfl

/-- `settle` places SHIPPABLE reports alone. -/
theorem settle_announces (c : Settings) (p : Part) : Announces p (settle c p) := by
  have started : (settleArrival c (settleStart c (announce c p))).line = (announce c p).line := by
    rw [(settleArrival_moved c _).rest, (settleStart_moved c _).rest]
  refine ((announce_announces c p).trans (.of_line started)).trans ?_
  show Announces _ (settleSpans c _)
  generalize settleArrival c (settleStart c (announce c p)) = q
  obtain ⟨u, parts, _, line⟩ := settleSpans_split c q
  have withdrawn : (withdrawClaims c q).line = q.line := by
    unfold withdrawClaims
    split
    · rfl
    · split <;> rfl
  rw [parts]
  have released : Announces q (settleReleases c u) := .of_line (line.trans withdrawn)
  exact (released.trans (noticeIfDue_announces c _)).trans (openClaim_announces c _)

end Sys2Proof.Machine

namespace Sys2Proof.Machine
open Sys2Proof

variable {c : Settings} {p : Part}

/-! ### The part of a tick in which a command falls due -/

/-- The parts of a running station's tick that bring commands. -/
inductive DuePart where
  | travel | heater | supply | line | emergency | boundary | track | mark | reference | flow | scan | milli | input | write

/-- The part that brings a command. -/
def duePart : Instr → Option DuePart
  | .standstill | .microstep | .microstepStop => some .travel
  | .heaterPeriodStart _ | .heaterPulseEnd _ => some .heater
  | .supplyReset | .supplyWarning | .supplyOk | .resetRelease _ => some .supply
  | .clashEnd | .restartReset _ => some .line
  | .emergencyAccepted | .emergencyReleased => some .emergency
  | .sampleIntervalBoundary | .heatPeriodBoundary => some .boundary
  | .trackStuck | .trackStep _ _ _ => some .track
  | .markEntry | .markEvent => some .mark
  | .referenceEdge => some .reference
  | .flowRisingEdge _ => some .flow
  | .scanCompletion _ _ _ => some .scan
  | .secondEvent | .peerRecordAgeIncrease | .claimDeadline | .retryTimePassed _ | .spanNoticeInterval => some .milli
  | .jackHomeChange _ _ | .craneLineFirstAcceptance _ _ | .hookLoaded | .hookUnloaded | .craneReadyChange _ | .craneFaultChange _
    | .craneLocalChange _ => some .input
  | .blockWriteBegin => some .write
  | _ => none

/-- A command falls due in a part of the tick. -/
def DuePart.brings (c : Settings) (p : Part) (i : Instr) : DuePart → Prop
  | .travel => i ∈ dueTravel p
  | .heater => p.clock.endsTen = true ∧ ∃ b, i ∈ dueGen c p b
  | .supply => i ∈ dueSupply p
  | .line => i ∈ dueLine p
  | .emergency => i ∈ dueEmergency p
  | .boundary => i ∈ dueBoundaries p
  | .track => i ∈ dueTracks p
  | .mark => i ∈ dueMark p
  | .reference => i ∈ dueReference c p
  | .flow => ∃ b, i ∈ dueFlow c p b
  | .scan => i ∈ dueScan c p
  | .milli => p.clock.endsMs = true ∧ i ∈ dueMs p
  | .input => p.clock.endsTen = true ∧ ((∃ b, i ∈ dueJack c p b) ∨ ∃ l, i ∈ dueCrane p l)
  | .write => i ∈ dueWrite p

theorem duePart_craneEvent (l : CraneLine) (v : Bool) : duePart (craneEvent l v) = some .input := by
  cases l <;> cases v <;> rfl

theorem duePart_of_brings {k : DuePart} {i : Instr} (h : k.brings c p i) : duePart i = some k := by
  cases k with
  | travel => rcases mem_dueTravel.mp h with ⟨rfl, _⟩ | ⟨_, _, ⟨rfl, _⟩ | ⟨rfl, _⟩⟩ <;> rfl
  | heater =>
    obtain ⟨_, _, due⟩ := h
    rcases mem_dueGen due with rfl | rfl <;> rfl
  | supply => rcases mem_dueSupply h with rfl | rfl | rfl | rfl <;> rfl
  | line => rcases mem_dueLine h with rfl | rfl <;> rfl
  | emergency =>
    obtain ⟨_, _, _, rfl⟩ := mem_dueEmergency.mp h
    split <;> rfl
  | boundary => rcases mem_dueBoundaries.mp h with ⟨rfl, _⟩ | ⟨rfl, _⟩ <;> rfl
  | track => rcases mem_dueTracks h with rfl | rfl <;> rfl
  | mark => rcases mem_dueMark h with rfl | rfl <;> rfl
  | reference => rw [mem_dueReference h]; rfl
  | flow =>
    obtain ⟨_, due⟩ := h
    rw [mem_dueFlow due]
    rfl
  | scan =>
    obtain ⟨_, _, _, rfl⟩ := mem_dueScan h
    rfl
  | milli => rcases mem_dueMs h.2 with ⟨rfl, _⟩ | rfl | rfl | ⟨_, rfl⟩ | rfl <;> rfl
  | input =>
    rcases h.2 with ⟨_, jack⟩ | ⟨_, crane⟩
    · obtain ⟨_, _, _, rfl⟩ := mem_dueJack.mp jack
      rfl
    · obtain ⟨_, ⟨_, rfl⟩ | ⟨_, _, rfl⟩⟩ := mem_dueCrane.mp crane
      · rfl
      · exact duePart_craneEvent _ _
  | write => rw [mem_dueWrite h]; rfl

theorem mem_dueNow_parts {i : Instr} (runs : p.runs c) : i ∈ dueNow p ↔ ∃ k : DuePart, k.brings c p i := by
  rw [mem_dueNow runs]
  constructor
  · rintro (h | h | h | h | h | h | h | h | h | h | h | h | h | h)
    · exact ⟨.travel, h⟩
    · exact ⟨.heater, h⟩
    · exact ⟨.supply, h⟩
    · exact ⟨.line, h⟩
    · exact ⟨.emergency, h⟩
    · exact ⟨.boundary, h⟩
    · exact ⟨.track, h⟩
    · exact ⟨.mark, h⟩
    · exact ⟨.reference, h⟩
    · exact ⟨.flow, h⟩
    · exact ⟨.scan, h⟩
    · exact ⟨.milli, h⟩
    · exact ⟨.input, h⟩
    · exact ⟨.write, h⟩
  · rintro ⟨k, h⟩
    cases k <;> simp only [DuePart.brings] at h <;> simp only [h, true_or, or_true, and_self]

/-- A command falls due exactly where its part of the tick brings it. -/
theorem mem_dueNow_of_part {i : Instr} {k : DuePart} (runs : p.runs c) (part : duePart i = some k) : i ∈ dueNow p ↔ k.brings c p i := by
  rw [mem_dueNow_parts runs]
  refine ⟨fun ⟨j, h⟩ => ?_, fun h => ⟨k, h⟩⟩
  rw [Option.some.inj (part.symm.trans (duePart_of_brings h))]
  exact h

/-! ### Filtered inputs at a tick (03 R47, 09 R159) -/

theorem stable_iff {f : Filter} {v : Bool} : f.stable v = true ↔ v = f.last ∧ 4 ≤ f.count := by
  unfold Filter.stable Filter.sample
  rw [beq_iff_eq]
  split
  · rename_i same
    exact ⟨fun full => ⟨same, by dsimp only at full; omega⟩, fun held => by dsimp only; omega⟩
  · rename_i differs
    exact ⟨fun full => absurd (show 1 = 5 from full) (by decide), fun held => absurd held.1 differs⟩

theorem craneEvent_injective {l k : CraneLine} {v w : Bool} (h : craneEvent l v = craneEvent k w) : l = k ∧ v = w := by
  cases l <;> cases v <;> cases k <;> cases w <;> first | exact ⟨rfl, rfl⟩ | cases h

theorem craneEvent_mem_dueCrane {l k : CraneLine} {v : Bool} (due : craneEvent l v ∈ dueCrane p k) :
    l = k ∧ v = p.pins.crane k ∧ (p.moves.crane k).filter.stable v = true ∧ (p.moves.crane k).seen = true
      ∧ (p.moves.crane k).filter.level ≠ v := by
  obtain ⟨stable, ⟨_, first⟩ | ⟨seen, differs, same⟩⟩ := mem_dueCrane.mp due
  · cases l <;> cases v <;> cases first
  · obtain ⟨line, level⟩ := craneEvent_injective same
    rw [level]
    exact ⟨line, rfl, stable, seen, differs⟩

theorem jackHomeChange_not_mem_dueCrane {b : Fin 4} {v : Bool} {l : CraneLine} : Instr.jackHomeChange b v ∉ dueCrane p l := by
  intro due
  obtain ⟨_, ⟨_, first⟩ | ⟨_, _, same⟩⟩ := mem_dueCrane.mp due
  · cases first
  · generalize p.pins.crane l = w at same
    cases l <;> cases w <;> cases same

theorem craneEvent_not_mem_dueJack {l : CraneLine} {v : Bool} {b : Fin 4} : craneEvent l v ∉ dueJack c p b := by
  intro due
  obtain ⟨_, _, _, same⟩ := mem_dueJack.mp due
  cases l <;> cases v <;> cases same

theorem craneEvent_mem_dueNow {l : CraneLine} (runs : p.runs c) : craneEvent l (p.pins.crane l) ∈ dueNow p ↔
    p.clock.endsTen = true ∧ (p.moves.crane l).seen = true ∧ p.pins.crane l = (p.moves.crane l).filter.last
      ∧ 4 ≤ (p.moves.crane l).filter.count ∧ (p.moves.crane l).filter.level ≠ p.pins.crane l := by
  rw [mem_dueNow_of_part runs (duePart_craneEvent _ _)]
  refine and_congr_right fun _ => ⟨fun due => ?_, fun ⟨seen, same, held, differs⟩ => ?_⟩
  · obtain ⟨k, due⟩ := due.resolve_left fun ⟨b, jack⟩ => craneEvent_not_mem_dueJack jack
    obtain ⟨rfl, _, stable, seen, differs⟩ := craneEvent_mem_dueCrane due
    obtain ⟨same, held⟩ := stable_iff.mp stable
    exact ⟨seen, same, held, differs⟩
  · exact .inr ⟨l, mem_dueCrane.mpr ⟨stable_iff.mpr ⟨same, held⟩, .inr ⟨seen, differs, rfl⟩⟩⟩

/-! ### What the tick samples of the crane lines -/

theorem foldl_preserves {α β : Type} {g : Part → β} {f : Part → α → Part} (h : ∀ q x, g (f q x) = g q) (l : List α) (q : Part) :
    g (l.foldl f q) = g q := by
  induction l generalizing q with
  | nil => rfl
  | cons x l ih => exact (ih _).trans (h q x)

/-- Moves and pins, which no counter or sample before the crane lines changes. -/
def inputsOf (q : Part) : MoveUnit × Pins := (q.moves, q.pins)

theorem sampleFlow_inputs (q : Part) (b : Fin 4) : inputsOf (sampleFlow c q b) = inputsOf q := by
  unfold sampleFlow
  split <;> rfl

theorem stepGen_inputs (q : Part) (b : Fin 4) : inputsOf (stepGen c q b) = inputsOf q := by
  unfold stepGen inputsOf
  split
  · rw [(withGen_act c _ _ _).moves, (withGen_act c _ _ _).pins]
  · rfl

theorem sampleJack_inputs (q : Part) (b : Fin 4) : inputsOf (sampleJack c q b) = inputsOf q := by
  unfold sampleJack inputsOf
  split
  · rw [(HeatAct.withBed c q b _ rfl).moves, (HeatAct.withBed c q b _ rfl).pins]
  · rfl

/-- Each crane line is sampled once. -/
theorem crane_sampled (q : Part) (l : CraneLine) : ((craneLines.foldl sampleCrane q).moves.crane l).filter =
    (q.moves.crane l).filter.sample (q.pins.crane l) := by
  cases l <;> rfl

theorem crane_tickPart (runs : p.runs c) (ten : p.clock.endsTen = true) (l : CraneLine) :
    ((tickPart p).moves.crane l).filter = (p.moves.crane l).filter.sample (p.pins.crane l) := by
  have ticked : (tickPart p).moves = (stepRunning c p).moves := by
    unfold tickPart
    rw [if_neg (by rw [runs.1]; exact fun e => nomatch e), onRunning_of_runs runs]
    unfold stepMs sampleEmergency
    dsimp only
    split <;> split <;> rfl
  rw [ticked]
  unfold stepRunning
  dsimp only
  rw [if_pos ten, crane_sampled]
  generalize before : fourBeds.foldl (sampleJack c) (fourBeds.foldl (stepGen c) (stepScan c (fourBeds.foldl (sampleFlow c) (stepTravel c p)))) = q
  have inputs : inputsOf q = inputsOf p := by
    rw [← before, foldl_preserves sampleJack_inputs, foldl_preserves stepGen_inputs]
    exact foldl_preserves (g := inputsOf) sampleFlow_inputs _ _
  rw [show q.moves = p.moves from congrArg Prod.fst inputs, show q.pins = p.pins from congrArg Prod.snd inputs]

end Sys2Proof.Machine

namespace Sys2Proof.Machine
open Sys2Proof

variable {c : Settings} {p : Part}

/-! ### Crane-ready, crane-fault and crane-local (09 R159, R171) -/

/-- What the event of a crane line leaves: the line at its level, the other lines, and what no crane line changes. -/
theorem settle_accepted (l : CraneLine) (v : Bool) {x : Part} (x_eq : x = craneAccepted l v p ∨ ∃ cause, x = halt cause (craneAccepted l v p)) :
    (∀ k, (settle c x).moves.crane k = if k = l then ⟨⟨v, v, 5⟩, true⟩ else p.moves.crane k) ∧ CraneStill p (settle c x) := by
  have line (k : CraneLine) : x.moves.crane k = (craneAccepted l v p).moves.crane k := by
    rcases x_eq with rfl | ⟨cause, rfl⟩
    · rfl
    · exact halt_crane cause _ k
  have still : CraneStill (craneAccepted l v p) x := by
    rcases x_eq with rfl | ⟨cause, rfl⟩
    · exact (CraneAct.refl c _).still
    · exact (halt_act c _ cause).still
  refine ⟨fun k => ?_, ((craneAccepted_still l v).trans still).trans (settle_act c x c).still⟩
  rw [settle_crane, line, craneAccepted_moves]
  split
  · rename_i own
    rw [own, crane_setCrane]
  · rename_i other
    exact crane_setCrane_other _ other _

theorem mustStop_of_line {q : Part} {l : CraneLine} (stops : l = .fault ∨ l = .locl) (active : (q.moves.crane l).filter.level = true) :
    mustStop q = true := by
  unfold mustStop
  rcases stops with rfl | rfl
  · rw [show q.craneFault = true from active]
    simp
  · rw [show q.craneLocal = true from active]
    simp

/-- An active crane-fault or crane-local stops the crane and halts the head move. -/
theorem settle_accepted_halts {q : Part} {l : CraneLine} (cause : HaltCause) (stops : l = .fault ∨ l = .locl)
    (left : settle c (halt cause (craneAccepted l true p)) = q) :
    q.span.decision = .stop ∧ ∀ m, headMove p = some m → m.phase ≠ .halted →
      ∃ y ∈ q.moves.queue, y.tag = m.tag ∧ y.halt = some (m.phase, cause) := by
  have lines := (settle_accepted (c := c) (p := p) l true (.inr ⟨cause, rfl⟩)).1 l
  have decides := settle_mustStop (c := c) (p := halt cause (craneAccepted l true p))
  have halts (m : Move) (head : headMove p = some m) (working : m.phase ≠ .halted) :=
    (settle_halt (c := c) ((craneAccepted_head l true).trans head) working cause).2
  rw [if_pos rfl] at lines
  rw [left] at lines decides
  refine ⟨decides (mustStop_of_line stops (by rw [lines])), fun m head working => ?_⟩
  obtain ⟨y, stands, tag, _, halted⟩ := halts m head working
  rw [left] at stands
  exact ⟨y, stands, tag, halted⟩

theorem craneLevel_of_event {l : CraneLine} {v : Bool} (seen : (p.moves.crane l).seen = true)
    (differs : (p.moves.crane l).filter.level ≠ v) (other : l ≠ .hook) :
    ∃ x, craneLevel c l v p = settle c x ∧ (x = craneAccepted l v p ∨ ∃ cause, x = halt cause (craneAccepted l v p)) := by
  refine ⟨_, craneLevel_changed seen differs, ?_⟩
  cases l with
  | hook => exact absurd rfl other
  | ready => exact .inl rfl
  | fault =>
    cases v with
    | true => exact .inr ⟨.craneFault, rfl⟩
    | false => exact .inl rfl
  | locl =>
    cases v with
    | true => exact .inr ⟨.craneLocal, rfl⟩
    | false => exact .inl rfl

theorem CraneStill.unpack {q : Part} (h : CraneStill p q) : q.beds = p.beds ∧ q.heat = p.heat ∧ q.out = p.out ∧ q.travel = p.travel
    ∧ q.clock = p.clock ∧ q.scan = p.scan ∧ q.maturity = p.maturity ∧ q.config = p.config ∧ q.run = p.run :=
  ⟨h.beds, h.heat, h.out, h.travel, h.clock, h.scan, h.maturity, h.config, h.run⟩

theorem level_of_crane {q : Part} {l : CraneLine} {v : Bool} (h : q.moves.crane l = ⟨⟨v, v, 5⟩, true⟩) :
    (q.moves.crane l).filter.level = v := by rw [h]

theorem settle_accepted_levels {l k : CraneLine} (v : Bool) {x : Part}
    (x_eq : x = craneAccepted l v p ∨ ∃ cause, x = halt cause (craneAccepted l v p)) :
    ((settle c x).moves.crane l).filter.level = v
      ∧ (k ≠ l → ((settle c x).moves.crane k).filter.level = (p.moves.crane k).filter.level) := by
  obtain ⟨lines, _⟩ := settle_accepted (c := c) l v x_eq
  rw [lines, lines, if_pos rfl]
  exact ⟨rfl, fun other => by rw [if_neg other]⟩

theorem filter_sample_eq (v : Bool) (f : Filter) :
    (v = f.last → f.sample v = ⟨f.level, v, min 5 (f.count + 1)⟩) ∧ (v ≠ f.last → f.sample v = ⟨f.level, v, 1⟩) := by
  unfold Filter.sample
  refine ⟨fun same => ?_, fun differs => ?_⟩
  · rw [if_pos same, same]
  · rw [if_neg differs]

/-- A change of crane-ready, crane-fault or crane-local. -/
theorem craneLevel_accepts {q : Part} {l : CraneLine} {v : Bool} (seen : (p.moves.crane l).seen = true)
    (differs : (p.moves.crane l).filter.level ≠ v) (other : l ≠ .hook) (left : craneLevel c l v p = q) :
    (q.moves.crane l).filter.level = v ∧ (∀ k, k ≠ l → (q.moves.crane k).filter.level = (p.moves.crane k).filter.level)
      ∧ CraneStill p q := by
  obtain ⟨x, event, x_eq⟩ := craneLevel_of_event (c := c) seen differs other
  have own := (settle_accepted_levels (c := c) (k := l) v x_eq).1
  have others (k : CraneLine) := (settle_accepted_levels (c := c) (k := k) v x_eq).2
  have still := (settle_accepted (c := c) l v x_eq).2
  rw [← event, left] at own still
  refine ⟨own, fun k other => ?_, still⟩
  rw [← left, event]
  exact others k other

theorem craneLevel_halts {q : Part} {l : CraneLine} {cause : HaltCause} (seen : (p.moves.crane l).seen = true)
    (differs : (p.moves.crane l).filter.level ≠ true) (stops : (l, cause) = (.fault, .craneFault) ∨ (l, cause) = (.locl, .craneLocal))
    (left : craneLevel c l true p = q) :
    q.span.decision = .stop ∧ ∀ m, headMove p = some m → m.phase ≠ .halted →
      ∃ y ∈ q.moves.queue, y.tag = m.tag ∧ y.halt = some (m.phase, cause) := by
  have changed := craneLevel_changed (c := c) seen differs
  rw [left] at changed
  rcases stops with h | h <;> obtain ⟨rfl, rfl⟩ := Prod.mk.inj h
  · exact settle_accepted_halts .craneFault (.inl rfl) changed.symm
  · exact settle_accepted_halts .craneLocal (.inr rfl) changed.symm

theorem acceptLevel_first {q : Part} {l : CraneLine} {v : Bool} (left : settle c (acceptLevel l v p) = q) :
    (q.moves.crane l).filter.level = v ∧ (q.moves.crane l).seen = true ∧ CraneStill p q
      ∧ ∀ r ∈ q.line.reports, r.kind = .craneLine → r ∈ p.line.reports := by
  have accepted : (settle c (acceptLevel l v p)).moves.crane l = ⟨⟨v, v, 5⟩, true⟩ :=
    (settle_crane c _ l).trans (crane_setCrane p.moves l _)
  have still := (acceptLevel_still (p := p) l v).trans (settle_act c _ c).still
  have reports := settle_announces c (acceptLevel l v p)
  rw [left] at accepted still reports
  refine ⟨by rw [accepted], by rw [accepted], still, fun r mem line => (reports r mem).resolve_right fun shippable => ?_⟩
  rw [line] at shippable
  cases shippable

/-- Settles O32. -/
theorem craneLinesAccepted : Obligations.CraneLinesAccepted := by
  intro s c p still runs
  refine ⟨fun v seen differs => completes_running runs rfl ?_, fun v seen differs => completes_running runs rfl ?_,
    fun v seen differs => completes_running runs rfl ?_, fun l v unseen => completes_running runs rfl ?_, fun l ten => ?_⟩
  · generalize left : craneLevel c .ready v s.part = q
    obtain ⟨level, others, rest⟩ := craneLevel_accepts (l := .ready) seen differs (by decide) left
    exact ⟨level, others .fault (by decide), rest.unpack⟩
  · generalize left : craneLevel c .fault v s.part = q
    obtain ⟨level, others, rest⟩ := craneLevel_accepts (l := .fault) seen differs (by decide) left
    refine ⟨level, rest.unpack, fun active => ?_⟩
    subst active
    exact craneLevel_halts (l := .fault) seen differs (.inl rfl) left
  · generalize left : craneLevel c .locl v s.part = q
    obtain ⟨level, others, rest⟩ := craneLevel_accepts (l := .locl) seen differs (by decide) left
    refine ⟨level, rest.unpack, fun active => ?_⟩
    subst active
    exact craneLevel_halts (l := .locl) seen differs (.inr rfl) left
  · rw [if_neg (by rw [show (s.part.moves.crane l).seen = false from unseen]; decide)]
    generalize left : settle c (acceptLevel l v s.part) = q
    obtain ⟨level, seen, rest, reports⟩ := acceptLevel_first left
    exact ⟨level, seen, rest.unpack, reports⟩
  · intro f v g
    have sampled : g = f.sample v := crane_tickPart runs ten l
    obtain ⟨same, differs⟩ := filter_sample_eq v f
    rw [sampled]
    refine ⟨same, differs, ?_⟩
    rw [craneEvent_mem_dueNow runs]
    exact and_iff_right ten

end Sys2Proof.Machine
end

