-- ==== Sys2Proof/Proofs/Timers.lean ====
section
/-! PROOFS. The timers and the jack-home inputs (02 R39, 03 R47, R55, R61, 09 R170). -/
namespace Sys2Proof.Machine
open Sys2Proof

variable {c : Settings} {p : Part}

/-! ### Timers (02 R39, 03 R55, R61, 09 R170) -/

theorem testTimeout_halts {m : Move} {t limit : Nat} {cause : HaltCause} (head : headMove p = some m) (start : m.start = some t)
    (limited : timeoutOf c m.phase = some (limit, cause)) (passed : limit ≤ p.now - t) : testTimeout c cause p = halt cause p := by
  refine if_pos ?_
  unfold timedOut
  simp only [head, limited, start, beq_self_eq_true, Bool.true_and, decide_eq_true_eq]
  exact passed

/-- A timeout that has passed halts the head move. -/
theorem settle_timeout {q : Part} {m : Move} {t limit : Nat} {cause : HaltCause} (head : headMove p = some m) (start : m.start = some t)
    (limited : timeoutOf c m.phase = some (limit, cause)) (passed : limit ≤ p.now - t)
    (left : settle c (testTimeout c cause p) = q) :
    craneFrame p q ∧ q.moves.target = none
      ∧ ∃ y ∈ q.moves.queue, y.tag = m.tag ∧ y.phase = .halted ∧ y.halt = some (m.phase, cause) := by
  have working : m.phase ≠ .halted := fun halted => by
    rw [halted] at limited
    cases limited
  rw [testTimeout_halts head start limited passed] at left
  have halts := settle_halt (c := c) head working cause
  have act := (halt_act c p cause).trans (settle_act c _ c)
  rw [left] at halts act
  exact ⟨act.frame, halts⟩

theorem onAssigned_of {b : Nat} (assigned : c.assigned b = true) (f : Settings → Part → Part) : onAssigned b f c p = f c p :=
  if_pos assigned

theorem demandOf_blind {b : Nat} (h : blindTooLong c p b = true) : demandOf c p b = 0 := by
  unfold demandOf
  rw [h, Bool.or_true]
  rfl

/-- A piece old enough passes its age test. -/
theorem findPiece_formAgeTest {id : Nat} {x : Piece} (found : findPiece p id = some x) (old : ageReached c p x = true) :
    findPiece (formAgeTest c id p) id = some { x with ageTest := true } := by
  refine (findPiece_updated found fun y => ?_).trans (congrArg some ?_)
  · split <;> rfl
  · split
    · rename_i passed
      rw [← passed]
    · rw [old]

theorem formAgeTest_act (id : Nat) : CraneAct c p (formAgeTest c id p) := updatePiece_act c p id _

/-- Settles O33. -/
theorem timersReached : Obligations.TimersReached := by
  refine ⟨?_, ?_, ?_, ?_⟩
  · intro s c m t p runs head start
    refine ⟨fun travel passed => completes_running runs rfl ?_, fun standing passed => completes_running runs rfl ?_⟩
    · refine settle_timeout head start ?_ passed rfl
      rcases travel with phase | phase <;> rw [phase] <;> rfl
    · refine settle_timeout head start ?_ passed rfl
      rcases standing with phase | phase <;> rw [phase] <;> rfl
  · intro s c b st p x start runs shaped assigned stage due last
    refine completes_running runs rfl ?_
    rw [onAssigned_of assigned]
    have acts : HeatAct c p (evaluateStage c b p) := evaluateStage_act c p c b
    exact ⟨bed_evaluateStage_enters (shaped_beds shaped b.isLt) stage due last, fun j other => bed_evaluateStage_other other,
      evaluateStage_heat _ _ _, evaluateStage_out _ _ _, acts.frame⟩
  · intro s c b p runs shaped assigned blind
    refine completes_running runs rfl ?_
    rw [onAssigned_of assigned]
    have acts : HeatAct c p (formDemand c b p) := formDemand_act c p b
    refine ⟨?_, fun j other => bed_formDemand_other other, acts.frame⟩
    rw [show (formDemand c b s.part).bed b = _ from bed_formDemand (shaped_beds shaped b.isLt), demandOf_blind blind]
  · intro s c id x runs found old
    refine completes_running runs rfl ?_
    have acts := (formAgeTest_act (c := c) (p := s.part) id).trans (settle_act c _ c)
    obtain ⟨v, after⟩ := settle_findPiece (c := c) (findPiece_formAgeTest found old)
    exact ⟨acts.frame, _, after, rfl⟩

end Sys2Proof.Machine

namespace Sys2Proof.Machine
open Sys2Proof

variable {c : Settings} {p : Part}

/-! ### Jack-home inputs (03 R47) -/

theorem bed_acceptJack {b : Nat} (inside : b < p.beds.length) (v : Bool) : (acceptJack b v p).bed b = { p.bed b with jack := ⟨v, v, 5⟩ } :=
  bed_withBed_same inside

theorem bed_acceptJack_other {b j : Nat} (other : j ≠ b) (v : Bool) : (acceptJack b v p).bed j = p.bed j := bed_withBed_other other

theorem bed_enterDetensioned_other {b j : Nat} (other : j ≠ b) : (enterDetensioned c b p).bed j = p.bed j :=
  (bed_setBedState_other _ _ other).trans (bed_withBed_other other)

theorem enterDetensioned_heat (b : Nat) (p : Part) : (enterDetensioned c b p).heat = p.heat :=
  (setBedState_heat _ _).trans (withBed_heat p b _)

theorem enterDetensioned_out (b : Nat) (p : Part) : (enterDetensioned c b p).out = p.out :=
  (setBedState_out _ _).trans (withBed_out p b _)

/-- What an accepted jack-home level changes beside the bed: the pin. -/
structure JackStill (b : Nat) (v : Bool) (p q : Part) : Prop where
  others : ∀ j, j ≠ b → q.bed j = p.bed j
  heat : q.heat = p.heat
  out : q.out = p.out
  scan : q.scan = p.scan
  maturity : q.maturity = p.maturity
  travel : q.travel = p.travel
  clock : q.clock = p.clock
  config : q.config = p.config
  run : q.run = p.run
  pins : q.pins = { p.pins with jhome := p.pins.jhome.set b v }
  line : p.line.keeps q.line
  mem : p.mem.keeps q.mem

theorem acceptJack_still (c : Settings) (b : Nat) (v : Bool) (p : Part) : JackStill b v p (acceptJack b v p) := by
  have acts : HeatAct c p (p.withBed b fun x => { x with jack := ⟨v, v, 5⟩ }) := .withBed c p b _ rfl
  exact ⟨fun j other => bed_acceptJack_other other v, withBed_heat p b _, withBed_out p b _, acts.scan, acts.maturity, acts.travel,
    acts.clock, acts.config, acts.run, rfl, acts.placed.keeps, acts.mem⟩

theorem JackStill.then {b : Nat} {v : Bool} {q r : Part} (h : JackStill b v p q) (act : PlantAct c q r)
    (others : ∀ j, j ≠ b → r.bed j = q.bed j) (heat : r.heat = q.heat) (out : r.out = q.out) : JackStill b v p r :=
  ⟨fun j other => (others j other).trans (h.others j other), heat.trans h.heat, out.trans h.out, act.scan.trans h.scan,
    act.maturity.trans h.maturity, act.travel.trans h.travel, act.clock.trans h.clock, act.config.trans h.config,
    act.run.trans h.run, act.pins.trans h.pins, LineUnit.keeps_trans h.line act.placed.keeps, MemPort.keeps_trans h.mem act.mem⟩

/-- A DETENSIONING bed whose jack is home is DETENSIONED. -/
theorem jackChanges_home {b : Nat} {q : Part} (inside : b < p.beds.length) (differs : (p.bed b).jack.level ≠ true)
    (state : (p.bed b).state = .detensioning) (left : jackChanges b true c p = q) :
    q.bed b = { p.bed b with jack := ⟨true, true, 5⟩, state := .detensioned, setpoint := (c.bed b).tf } ∧ JackStill b true p q := by
  have accepted := bed_acceptJack inside true
  have inside' : b < (acceptJack b true p).beds.length := by
    unfold acceptJack
    rw [withBed_beds_length]
    exact inside
  have entered : jackChanges b true c p = settle c (enterDetensioned c b (acceptJack b true p)) := by
    unfold jackChanges
    rw [if_neg differs]
    dsimp only
    rw [if_pos ⟨rfl, by rw [accepted]; exact state⟩]
  have crane := settle_act c (enterDetensioned c b (acceptJack b true p)) c
  have bed := (crane.bed b).trans (bed_enterDetensioned inside')
  rw [accepted] at bed
  have still := ((acceptJack_still c b true p).then (enterDetensioned_act c _ c b).toPlantAct
      (fun j other => bed_enterDetensioned_other other) (enterDetensioned_heat _ _) (enterDetensioned_out _ _)).then crane.toPlantAct
    (fun j _ => crane.bed j) crane.heat crane.out
  rw [← entered, left] at bed still
  exact ⟨bed, still⟩

/-- Otherwise the accepted level changes alone. -/
theorem jackChanges_level {b : Nat} {v : Bool} {q : Part} (inside : b < p.beds.length) (differs : (p.bed b).jack.level ≠ v)
    (other : ¬(v = true ∧ (p.bed b).state = .detensioning)) (left : jackChanges b v c p = q) :
    q.bed b = { p.bed b with jack := ⟨v, v, 5⟩ } ∧ JackStill b v p q := by
  have accepted := bed_acceptJack inside v
  have changed : jackChanges b v c p = settle c (acceptJack b v p) := by
    unfold jackChanges
    rw [if_neg differs]
    dsimp only
    rw [if_neg fun both => other ⟨both.1, by rw [accepted] at both; exact both.2⟩]
  have crane := settle_act c (acceptJack b v p) c
  have bed := (crane.bed b).trans accepted
  have still := (acceptJack_still c b v p).then crane.toPlantAct (fun j _ => crane.bed j) crane.heat crane.out
  rw [← changed, left] at bed still
  exact ⟨bed, still⟩

theorem jackHomeChange_mem_dueNow {b : Fin 4} {v : Bool} (runs : p.runs c) (assigned : c.assigned b = true) :
    Instr.jackHomeChange b v ∈ dueNow p ↔ p.clock.endsTen = true ∧ p.pins.jhome.getD b false = v ∧ v = (p.bed b).jack.last
      ∧ 4 ≤ (p.bed b).jack.count ∧ (p.bed b).jack.level ≠ v := by
  rw [mem_dueNow_of_part (k := .input) runs rfl]
  refine and_congr_right fun _ => ⟨fun due => ?_, fun ⟨pin, same, held, differs⟩ => ?_⟩
  · obtain ⟨k, due⟩ := due.resolve_right fun ⟨l, crane⟩ => jackHomeChange_not_mem_dueCrane crane
    obtain ⟨_, stable, differs, event⟩ := mem_dueJack.mp due
    obtain ⟨rfl, level⟩ := Instr.jackHomeChange.inj event
    rw [← level] at stable differs
    obtain ⟨same, held⟩ := stable_iff.mp stable
    exact ⟨level.symm, same, held, differs⟩
  · refine .inl ⟨b, mem_dueJack.mpr ⟨assigned, ?_, ?_, ?_⟩⟩
    · rw [pin]
      exact stable_iff.mpr ⟨same, held⟩
    · rw [pin]
      exact differs
    · rw [pin]

/-- Settles O34. -/
theorem jackHomeAccepted : Obligations.JackHomeAccepted := by
  intro s c b v p x runs shaped assigned
  have inside : b.val < p.beds.length := shaped_beds (p := p) shaped b.isLt
  refine ⟨fun differs => completes_running runs rfl ?_, fun ten => ?_⟩
  · rw [onAssigned_of assigned]
    generalize left : jackChanges b v c s.part = q
    by_cases home : v = true ∧ x.state = .detensioning
    · obtain ⟨rfl, state⟩ := home
      obtain ⟨bed, still⟩ := jackChanges_home inside differs state left
      rw [if_pos ⟨rfl, state⟩]
      refine ⟨bed, fun _ => .inl ?_, still.others, still.heat, still.out, still.scan, still.maturity, still.travel, still.clock,
        still.config, still.run, still.pins, still.line, still.mem⟩
      unfold permitRequest
      rw [bed]
      rfl
    · obtain ⟨bed, still⟩ := jackChanges_level inside differs home left
      rw [if_neg home]
      exact ⟨bed, fun active => .inr fun state => home ⟨active, state⟩, still.others, still.heat, still.out, still.scan,
        still.maturity, still.travel, still.clock, still.config, still.run, still.pins, still.line, still.mem⟩
  · rw [jackHomeChange_mem_dueNow runs assigned]
    exact and_iff_right ten

end Sys2Proof.Machine
end

