-- ==== Sys2Proof/Proofs/Alarms.lean ====
section
/-! PROOFS. Emergency and supply warning: what makes a station safe (05 R93 to R99). -/
namespace Sys2Proof.Machine
open Sys2Proof

variable {c : Settings} {p : Part}

/-! ### Demands formed for every bed (03 R59, R60) -/

theorem formDemand_emergency (b : Nat) (p : Part) : (formDemand c b p).out.emergency = p.out.emergency := by
  unfold formDemand
  dsimp only
  split
  · unfold quell
    split
    · exact withGen_emergency p b _
    · rfl
  · rw [computeGrant_emergency]
    exact congrArg OutputUnit.emergency (withBed_out p b _)

/-- A forced demand stays forced while other demands are formed. -/
theorem forcing_formDemand (b j : Nat) : forcing c (formDemand c j p) b = forcing c p b := by
  have act := formDemand_act c p j
  have fault : ((formDemand c j p).flow b).fault = (p.flow b).fault := by
    rw [(formDemand_outKept (c := c) (p := p) (b := j)).flow b]
  have temp : (formDemand c j p).bedTemp b = p.bedTemp b := by
    unfold Part.bedTemp
    rw [act.scan]
  have emergency : (formDemand c j p).emergencyActive = p.emergencyActive := by
    unfold Part.emergencyActive
    rw [formDemand_emergency]
  unfold forcing
  rw [fault, temp, emergency, act.inWarning]

/-- What one step of a fold over the beds brings about, and no step takes away, holds at its end. -/
theorem forAssigned_reaches {P ok : Part → Prop} {f : Nat → Part → Part} {b : Nat} (hb : b < 4) (assigned : c.assigned b = true)
    (keep : ∀ q j, ok q → ok (f j q)) (own : ∀ q, ok q → P (f b q)) (stays : ∀ q j, ok q → P q → P (f j q)) (hp : ok p) :
    P (p.forAssigned c f) := by
  unfold Part.forAssigned Part.forBeds
  have fold : ∀ (l : List Nat) (q : Part), ok q → b ∈ l ∨ P q → P (l.foldl (fun q j => if c.assigned j then f j q else q) q) := by
    intro l
    induction l with
    | nil => exact fun q _ h => h.resolve_left List.not_mem_nil
    | cons j l ih =>
      intro q hq h
      refine ih _ ?_ ?_
      · dsimp only
        split
        · exact keep q j hq
        · exact hq
      · rw [List.mem_cons, or_assoc] at h
        rcases h with rfl | later | holds
        · refine .inr ?_
          dsimp only
          rw [if_pos assigned]
          exact own q hq
        · exact .inl later
        · refine .inr ?_
          dsimp only
          split
          · exact stays q j hq holds
          · exact holds
  exact fold _ p hp (.inl (List.mem_range.mpr hb))

theorem forAssigned_preserves {α : Type} {g : Part → α} {f : Nat → Part → Part} (h : ∀ b q, g (f b q) = g q) (p : Part) :
    g (p.forAssigned c f) = g p := by
  unfold Part.forAssigned Part.forBeds
  refine foldl_preserves (fun q b => ?_) _ p
  dsimp only
  split
  · exact h b q
  · rfl

theorem formDemands_emergency (c : Settings) (p : Part) : (formDemands c p).out.emergency = p.out.emergency :=
  forAssigned_preserves (g := fun q => q.out.emergency) (fun b q => formDemand_emergency b q) p

/-- The beds' records but for their demands. -/
def demandless (p : Part) : Nat → Bed := fun b => { p.bed b with db := 0 }

theorem formDemand_demandless (b : Nat) (p : Part) : demandless (formDemand c b p) = demandless p := by
  funext j
  unfold demandless
  by_cases own : j = b
  · subst own
    by_cases inside : j < p.beds.length
    · rw [bed_formDemand inside]
    · have absent (q : Part) (h : q.beds.length = p.beds.length) : q.bed j = Bed.reset := by
        unfold Part.bed
        exact List.getD_eq_default _ _ (by omega)
      rw [absent _ formDemand_beds_length, absent p rfl]
  · rw [bed_formDemand_other own]

theorem formDemands_demandless (c : Settings) (p : Part) : demandless (formDemands c p) = demandless p :=
  forAssigned_preserves formDemand_demandless p

theorem bed_formDemands (c : Settings) (p : Part) (b : Nat) : (formDemands c p).bed b = { p.bed b with db := ((formDemands c p).bed b).db } := by
  have same := congrFun (formDemands_demandless c p) b
  unfold demandless at same
  generalize (formDemands c p).bed b = x at *
  generalize p.bed b = y at *
  cases x
  cases y
  injections
  subst_vars
  rfl

/-- Where a demand is forced, it is 0 and the heater rests. -/
theorem formDemands_forced {b : Nat} (hb : b < 4) (assigned : c.assigned b = true) (inside : b < p.beds.length) (forced : forcing c p b = true) :
    ((formDemands c p).bed b).db = 0 ∧ ((formDemands c p).gen b).onTime = 0 := by
  refine forAssigned_reaches (P := fun q => (q.bed b).db = 0 ∧ (q.gen b).onTime = 0)
    (ok := fun q => forcing c q b = true ∧ b < q.beds.length) hb assigned (fun q j ok => ?_) (fun q ok => ?_) (fun q j ok h => ?_)
    ⟨forced, inside⟩
  · rw [forcing_formDemand, formDemand_beds_length]
    exact ok
  · rw [bed_formDemand ok.2, demandOf_forcing ok.1]
    exact ⟨rfl, formDemand_forcing hb assigned ok.1⟩
  · obtain ⟨db, cold⟩ := h
    refine ⟨?_, formDemand_outKept.cold b cold⟩
    by_cases own : b = j
    · subst own
      rw [bed_formDemand ok.2, demandOf_forcing ok.1]
    · rw [bed_formDemand_other own]
      exact db

end Sys2Proof.Machine

namespace Sys2Proof.Machine
open Sys2Proof

variable {c : Settings} {p : Part}

/-! ### What makes a station safe (05 R93, R98, R99) -/

theorem settle_out_like {q x : Part} (h : CraneAct c x q) (b : Nat) : q.gen b = x.gen b ∧ q.flow b = x.flow b ∧ q.auxLine b = x.auxLine b := by
  unfold Part.gen Part.flow Part.auxLine
  rw [h.out]
  exact ⟨rfl, rfl, rfl⟩

/-- The demands formed anew and the crane settled: what emergency and supply warning have in common, at their beginning and their
end. -/
structure Reformed (c : Settings) (x q : Part) : Prop where
  act : PlantAct c x q
  beds : ∀ b, ∃ v, q.bed b = { x.bed b with db := v }
  emergency : q.out.emergency = x.out.emergency
  fault : ∀ b, (q.flow b).fault = (x.flow b).fault
  aux : ∀ k, (Settings.auxCfg c k).threshold = none → q.auxLine k = x.auxLine k

theorem Reformed.of_crane {x q : Part} (h : CraneAct c (formDemands c x) q) : Reformed c x q := by
  have kept := formDemands_outKept (c := c) (p := x)
  refine ⟨(formDemands_act c x).toPlantAct.trans h.toPlantAct, fun b => ⟨_, (h.bed b).trans (bed_formDemands c x b)⟩, ?_, fun b => ?_,
    fun k plain => (settle_out_like h k).2.2.trans (kept.aux k plain)⟩
  · rw [h.out, formDemands_emergency]
  · rw [(settle_out_like h b).2.1, kept.flow b]

theorem Reformed.emergencyActive {x q : Part} (h : Reformed c x q) : q.emergencyActive = x.emergencyActive := by
  unfold Part.emergencyActive
  rw [h.emergency]

/-- Under emergency or supply warning: safe lines and heaters, the head move halted, and no travel. -/
structure MadeSafe (c : Settings) (x q : Part) : Prop extends Reformed c x q where
  lines : ∀ n, (Settings.line c n).mask = true → pinLevel q n = (Settings.line c n).level
  heaters : ∀ b < 4, x.shaped → c.assigned b = true → heaterMasked c b = true → (q.bed b).db = 0 ∧ heaterRequest c q b = false
  head : ∀ m, headMove x = some m → m.phase ≠ .halted →
    ∃ y ∈ q.moves.queue, y.tag = m.tag ∧ y.phase = .halted ∧ y.halt = some (m.phase, .emergency)
  stop : q.span.decision = .stop

theorem madeSafe_of (runs : p.runs c) (danger : p.emergencyActive = true ∨ p.inWarning = true) :
    MadeSafe c p (settle c (halt .emergency (formDemands c p))) := by
  have heats := formDemands_act c p
  have halts := halt_act c (formDemands c p) .emergency
  have crane := halts.trans (settle_act c (halt .emergency (formDemands c p)) c)
  have reformed : Reformed c p (settle c (halt .emergency (formDemands c p))) := .of_crane crane
  have alarm : (halt .emergency (formDemands c p)).emergencyActive = p.emergencyActive := by
    unfold Part.emergencyActive
    rw [halts.out, formDemands_emergency]
  have warned : (halt .emergency (formDemands c p)).inWarning = p.inWarning := (heats.toPlantAct.trans halts.toPlantAct).inWarning
  have stop := settle_stops c (halt .emergency (formDemands c p)) (danger.elim (fun h => .inr (.inl (alarm.trans h)))
    fun h => .inr (.inr (.inl (warned.trans h))))
  have halted (m : Move) (head : headMove p = some m) (working : m.phase ≠ .halted) :=
    (settle_halt (c := c) ((headMove_of_moves heats.moves).trans head) working .emergency).2
  generalize settle c (halt .emergency (formDemands c p)) = q at *
  have danger' : (q.emergencyActive || q.inWarning) = true := by
    rw [reformed.emergencyActive, reformed.act.inWarning]
    rcases danger with h | h <;> rw [h]
    · rfl
    · exact Bool.or_true _
  refine ⟨reformed, fun n masked => ?_, fun b hb shaped assigned masked => ?_, halted, stop⟩
  · have run : q.run = .running := reformed.act.run.trans runs.1
    have config : q.config = some c := reformed.act.config.trans runs.2
    unfold pinLevel
    rw [run, config]
    refine if_pos ?_
    unfold madeSafe
    rw [masked, danger', Bool.and_self]
  · have forced : forcing c p b = true := by
      unfold forcing
      rw [masked]
      rcases danger with h | h <;> rw [h] <;> simp
    obtain ⟨db, cold⟩ := formDemands_forced hb assigned (shaped_beds shaped hb) forced
    refine ⟨by rw [crane.bed]; exact db, heaterRequest_of_cold ?_⟩
    rw [(settle_out_like crane b).1]
    exact cold

/-! ### Emergency (05 R97, R98) -/

/-- An emergency returns a DETENSIONING bed to CURING. -/
def Bed.interrupted (x : Bed) : Bed := if x.state = .detensioning then { x with state := .curing } else x

theorem bed_emergencyBed {b : Nat} (inside : b < p.beds.length) : (emergencyBed b p).bed b = (p.bed b).interrupted := by
  unfold emergencyBed Bed.interrupted
  split
  · exact bed_setBedState _ _ inside
  · rfl

theorem bed_emergencyBed_other {b j : Nat} (other : j ≠ b) : (emergencyBed b p).bed j = p.bed j := by
  unfold emergencyBed
  split
  · exact bed_setBedState_other _ _ other
  · rfl

theorem emergencyBed_beds_length (b : Nat) : (emergencyBed b p).beds.length = p.beds.length := by
  unfold emergencyBed
  split
  · unfold setBedState
    rw [report_beds, withBed_beds_length]
  · rfl

theorem emergencyBed_out (b : Nat) (p : Part) : (emergencyBed b p).out = p.out := by
  unfold emergencyBed
  split
  · exact setBedState_out _ _
  · rfl

/-- The part with the emergency accepted and reported, and the beds interrupted. -/
def alarmed (c : Settings) (p : Part) : Part :=
  ((acceptEmergency true p).report (.emergency p.now)).forAssigned c emergencyBed

theorem bed_alarmed (shaped : p.shaped) {b : Nat} (hb : b < 4) (assigned : c.assigned b = true) :
    (alarmed c p).bed b = (p.bed b).interrupted :=
  forAssigned_once (get := fun q => q.bed b) (ok := fun q => b < q.beds.length) (g := Bed.interrupted) hb assigned
    (fun q j ok => by rw [emergencyBed_beds_length]; exact ok) (fun q ok => bed_emergencyBed ok)
    (fun q j _ other => bed_emergencyBed_other other.symm) (shaped_beds shaped hb)

theorem alarmed_act (c : Settings) (p : Part) : HeatAct c (acceptEmergency true p) (alarmed c p) :=
  (HeatAct.report c _ _).trans (.forAssigned (fun b x => emergencyBed_act c x b) _)

theorem alarmed_out (c : Settings) (p : Part) : (alarmed c p).out = (acceptEmergency true p).out :=
  forAssigned_preserves (g := fun q => q.out) emergencyBed_out _

theorem emergencyLevel_begins (runs : p.runs c) (idle : p.out.emergency.accepted = some false) :
    emergencyLevel true p = settle c (halt .emergency (formDemands c (alarmed c p))) := by
  unfold emergencyLevel
  rw [if_neg (by rw [runs.1, idle]; simp)]
  exact onRunning_of_runs (p := acceptEmergency true p) runs emergencyBegins

theorem emergencyLevel_ends (runs : p.runs c) (active : p.out.emergency.accepted = some true) :
    emergencyLevel false p =
      settle c (formDemands c ((acceptEmergency false p).report (.emergencyEnd p.now (p.now - p.out.emergency.since)))) := by
  unfold emergencyLevel
  rw [if_neg (by rw [runs.1, active]; simp)]
  have now : p.emergencyActive = true := by
    unfold Part.emergencyActive
    rw [active]
    rfl
  dsimp only
  rw [if_neg Bool.false_ne_true, now, if_pos rfl]
  exact onRunning_of_runs (p := acceptEmergency false p) runs emergencyEnds

/-- The beginning of an emergency. -/
theorem emergency_begins {q : Part} (runs : p.runs c) (shaped : p.shaped) (left : settle c (halt .emergency (formDemands c (alarmed c p))) = q) :
    MadeSafe c (alarmed c p) q ∧ q.emergencyActive = true ∧ q.out.emergency.since = p.now
      ∧ ∀ b < 4, c.assigned b = true → (q.bed b).state = (if (p.bed b).state = .detensioning then .curing else (p.bed b).state)
          ∧ (q.bed b).releaseReady = (p.bed b).releaseReady ∧ (q.bed b).stage = (p.bed b).stage := by
  have active : (alarmed c p).emergencyActive = true := by
    unfold Part.emergencyActive
    rw [alarmed_out]
    rfl
  have safe : MadeSafe c (alarmed c p) q :=
    left ▸ madeSafe_of ⟨(alarmed_act c p).run.trans runs.1, (alarmed_act c p).config.trans runs.2⟩ (.inl active)
  refine ⟨safe, safe.emergencyActive.trans active, ?_, fun b hb assigned => ?_⟩
  · rw [safe.emergency, alarmed_out]
    rfl
  · obtain ⟨v, bed⟩ := safe.beds b
    rw [bed, bed_alarmed shaped hb assigned]
    unfold Bed.interrupted
    split <;> exact ⟨rfl, rfl, rfl⟩

end Sys2Proof.Machine

namespace Sys2Proof.Machine
open Sys2Proof

variable {c : Settings} {p : Part}

/-! ### The emergency filter at a tick (05 R97) -/

/-- What the emergency filter reads, and no counter or sample of a running station changes. -/
def alarmOf (q : Part) : Emergency × Pins × Clock := (q.out.emergency, q.pins, q.clock)

theorem sampleFlow_alarm (q : Part) (b : Fin 4) : alarmOf (sampleFlow c q b) = alarmOf q := by
  unfold sampleFlow
  split <;> rfl

theorem stepGen_alarm (q : Part) (b : Fin 4) : alarmOf (stepGen c q b) = alarmOf q := by
  unfold stepGen alarmOf
  split
  · rw [withGen_emergency, (withGen_act c _ _ _).pins, (withGen_act c _ _ _).clock]
  · rfl

theorem sampleJack_alarm (q : Part) (b : Fin 4) : alarmOf (sampleJack c q b) = alarmOf q := by
  unfold sampleJack alarmOf
  split
  · rw [withBed_out, (HeatAct.withBed c q b _ rfl).pins, (HeatAct.withBed c q b _ rfl).clock]
  · rfl

theorem sampleCrane_alarm (q : Part) (l : CraneLine) : alarmOf (sampleCrane q l) = alarmOf q := rfl

theorem stepRunning_alarm (c : Settings) (p : Part) : alarmOf (stepRunning c p) = alarmOf p := by
  have flows : alarmOf (stepScan c (fourBeds.foldl (sampleFlow c) (stepTravel c p))) = alarmOf p :=
    foldl_preserves (g := alarmOf) sampleFlow_alarm _ _
  unfold stepRunning
  dsimp only
  split
  · rw [foldl_preserves sampleCrane_alarm, foldl_preserves sampleJack_alarm, foldl_preserves stepGen_alarm, flows]
  · exact flows

theorem tickPart_emergency (runs : p.runs c) (ten : p.clock.endsTen = true) :
    (tickPart p).out.emergency = { p.out.emergency with last := some p.pins.emgn } := by
  have alarm := stepRunning_alarm c p
  unfold tickPart
  rw [if_neg (by rw [runs.1]; exact fun e => nomatch e), onRunning_of_runs runs]
  generalize stepRunning c p = q at *
  have emergency : q.out.emergency = p.out.emergency := congrArg (·.1) alarm
  have pins : q.pins = p.pins := congrArg (·.2.1) alarm
  have clock : q.clock = p.clock := congrArg (·.2.2) alarm
  unfold sampleEmergency
  rw [if_pos (show (stepRead q).clock.endsTen = true from (congrArg Clock.endsTen clock).trans ten)]
  unfold stepMs
  dsimp only
  rw [show (stepRead q).out.emergency = p.out.emergency from emergency, show (stepRead q).pins = p.pins from pins]
  split <;> rfl

theorem emergency_mem_dueNow (runs : p.runs c) (v : Bool) :
    (if v then Instr.emergencyAccepted else .emergencyReleased) ∈ dueNow p ↔ p.clock.endsTen = true ∧ p.pins.emgn = v
      ∧ p.out.emergency.last = some v ∧ p.out.emergency.accepted ≠ some v := by
  rw [mem_dueNow_of_part (k := .emergency) runs (by cases v <;> rfl)]
  show _ ∈ dueEmergency p ↔ _
  rw [mem_dueEmergency]
  refine and_congr_right fun _ => ⟨fun ⟨last, differs, event⟩ => ?_, fun ⟨pin, last, differs⟩ => ?_⟩
  · have pin : p.pins.emgn = v := by
      generalize p.pins.emgn = w at event
      cases v <;> cases w <;> first | rfl | cases event
    rw [pin] at last differs
    exact ⟨pin, last, differs⟩
  · rw [pin]
    exact ⟨last, differs, rfl⟩

theorem pinLevel_unmasked {q : Part} (runs : q.runs c) (calm : q.emergencyActive = false) (normal : q.inWarning = false) (n : Nat) :
    pinLevel q n = (requestedOf c q (Settings.line c n).source != (Settings.line c n).invert) := by
  unfold pinLevel
  rw [runs.1, runs.2]
  refine if_neg ?_
  unfold madeSafe
  rw [calm, normal, Bool.or_self, Bool.and_false]
  exact Bool.false_ne_true

/-- Settles O43. -/
theorem emergencyActs : Obligations.EmergencyActs := by
  intro s c p runs shaped
  refine ⟨fun idle => completes_of rfl ?_, fun active => completes_of rfl ?_, tickPart_emergency runs,
    emergency_mem_dueNow runs true, emergency_mem_dueNow runs false⟩
  · rw [show emergencyLevel true s.part = _ from emergencyLevel_begins runs idle]
    generalize left : settle c (halt .emergency (formDemands c (alarmed c s.part))) = q
    obtain ⟨safe, active, since, beds⟩ := emergency_begins runs shaped left
    have alarm := alarmed_act c p
    have moves : (alarmed c p).moves = p.moves := alarm.moves
    refine ⟨active, since, safe.lines, beds, fun b hb => safe.heaters b hb (alarm.shape shaped),
      fun m head => safe.head m ((headMove_of_moves moves).trans head), safe.stop, safe.act.clock.trans alarm.clock,
      safe.act.travel.trans alarm.travel, safe.act.scan.trans alarm.scan, safe.act.maturity.trans alarm.maturity,
      safe.act.supply.trans alarm.supply, safe.act.config.trans alarm.config, safe.act.run.trans alarm.run,
      LineUnit.keeps_trans alarm.placed.keeps safe.act.placed.keeps, MemPort.keeps_trans alarm.mem safe.act.mem⟩
  · rw [show emergencyLevel false s.part = _ from emergencyLevel_ends runs active]
    generalize r_def : (acceptEmergency false s.part).report (.emergencyEnd s.part.now (s.part.now - s.part.out.emergency.since)) = r
    have heats := formDemands_act c r
    have reformed : Reformed c r (settle c (formDemands c r)) := .of_crane (settle_act c _ c)
    have moves : r.moves = p.moves := by rw [← r_def]; rfl
    have moves' : (formDemands c r).moves = p.moves := heats.moves.trans moves
    have line : p.line.keeps r.line := by rw [← r_def]; exact placeReport_keeps _ _
    have calm : r.emergencyActive = false := by rw [← r_def]; rfl
    have memory : r.mem = p.mem := by rw [← r_def]; rfl
    have stays (m : Move) (mem : m ∈ p.moves.queue) : ∃ y ∈ (settle c (formDemands c r)).moves.queue, y.tag = m.tag := by
      obtain ⟨y, stands, same⟩ := settle_queue_mem (c := c) (p := formDemands c r) (by rw [moves']; exact mem)
      exact ⟨y, stands, same.tag⟩
    have rests (m : Move) (head : headMove p = some m) (halted : m.phase = .halted) :
        (settle c (formDemands c r)).moves.queue = p.moves.queue := by
      rw [settle_rests ((headMove_of_moves moves').trans head) (by rw [halted]; exact fun e => nomatch e)
        (by rw [halted]; exact fun e => nomatch e), moves']
    generalize settle c (formDemands c r) = q at *
    have act := reformed.act
    refine ⟨reformed.emergencyActive.trans calm, fun n normal => pinLevel_unmasked ⟨act.run.trans ?_, act.config.trans ?_⟩
      (reformed.emergencyActive.trans calm) (act.inWarning.trans ?_) n, fun b hb => ?_, fun m mem _ => stays m mem, rests,
      act.clock.trans ?_, act.travel.trans ?_, act.scan.trans ?_, act.maturity.trans ?_, act.supply.trans ?_, act.config.trans ?_,
      act.run.trans ?_, LineUnit.keeps_trans line act.placed.keeps, memory ▸ act.mem⟩
    · rw [← r_def]; exact runs.1
    · rw [← r_def]; exact runs.2
    · rw [← r_def]; exact normal
    · obtain ⟨v, bed⟩ := reformed.beds b
      rw [bed, ← r_def]
      rfl
    all_goals
      rw [← r_def]
      rfl

end Sys2Proof.Machine

namespace Sys2Proof.Machine
open Sys2Proof

variable {c : Settings} {p : Part}

/-! ### The supply warning (05 R99, 11 R198) -/

/-- The part with the supply warning begun and reported. -/
def warned (p : Part) : Part :=
  ({ p with
      supply := ⟨.warning, p.now⟩
      pins := { p.pins with vdd := min p.pins.vdd 2949 }
      mem := { p.mem with flush := if p.run = Run.inReset then [] else p.mem.flush } } : Part).report .supplyWarning

theorem supplyFalls_begins (runs : p.runs c) (normal : p.supply.state = .normal) :
    supplyFalls p = settle c (halt .emergency (formDemands c (warned p))) := by
  unfold supplyFalls
  rw [if_pos normal]
  refine (onRunning_of_runs ?_ warningBegins).trans rfl
  exact runs

/-- The part with the supply warning ended and reported. -/
def restored (p : Part) : Part :=
  ({ p with supply := ⟨.normal, p.supply.since⟩, pins := { p.pins with vdd := max p.pins.vdd 3051 } } : Part).report
    (.supplyOk (p.now - p.supply.since))

theorem supplyRises_ends (runs : p.runs c) (warning : p.supply.state = .warning) :
    supplyRises p = settle c (formDemands c (restored p)) := by
  unfold supplyRises
  rw [if_pos warning]
  refine (onRunning_of_runs ?_ (warningEnds p.supply.since)).trans rfl
  exact runs

/-- While the supply warns, no block write begins. -/
theorem exec_blockWriteBegin_warned {s : State} {q : Part} (runs : q.runs c) (warning : q.inWarning = true) :
    exec .blockWriteBegin { s with part := q } = .next { s with part := q } := by
  have idle : Part.onPort flushBegins writeBegins q = q := by
    rw [onPort_running runs]
    unfold writeBegins
    split
    · exact if_pos warning
    · rfl
  refine (show exec .blockWriteBegin { s with part := q } = .next { s with part := Part.onPort flushBegins writeBegins q } from rfl).trans ?_
  rw [idle]

theorem stationReady_of {q : Part} (runs : q.runs c) : stationReady q = (!q.inClash && !q.inWarning) := by
  unfold stationReady
  rw [runs.1, runs.2]
  rfl

/-- Settles O44. -/
theorem supplyMonitored : Obligations.SupplyMonitored := by
  intro s c p runs
  refine ⟨fun normal => completes_of rfl ?_, fun warning => completes_of rfl ?_⟩
  · rw [show supplyFalls s.part = _ from supplyFalls_begins runs normal]
    have memory : (warned p).mem = p.mem := by
      show ({ p.mem with flush := if p.run = Run.inReset then [] else p.mem.flush } : MemPort) = p.mem
      rw [if_neg (by rw [runs.1]; exact fun e => nomatch e)]
    have line : p.line.keeps (warned p).line := placeReport_keeps _ _
    have safe : MadeSafe c (warned p) (settle c (halt .emergency (formDemands c (warned p)))) :=
      madeSafe_of (p := warned p) runs (.inr rfl)
    have rest : (warned p).moves = p.moves ∧ (warned p).supply = ⟨.warning, p.now⟩ ∧ (warned p).out = p.out
        ∧ (warned p).clock = p.clock ∧ (warned p).travel = p.travel ∧ (warned p).scan = p.scan ∧ (warned p).maturity = p.maturity
        ∧ (warned p).config = p.config ∧ (warned p).run = p.run ∧ (p.shaped → (warned p).shaped) :=
      ⟨rfl, rfl, rfl, rfl, rfl, rfl, rfl, rfl, rfl, id⟩
    obtain ⟨moves, supply, out, clock, travel, scan, maturity, config, run, shape⟩ := rest
    generalize settle c (halt .emergency (formDemands c (warned p))) = q at *
    generalize warned p = r at *
    have act := safe.act
    have runs' : q.runs c := ⟨act.run.trans (run.trans runs.1), act.config.trans (config.trans runs.2)⟩
    have warning : q.inWarning = true := by
      unfold Part.inWarning
      rw [act.supply, supply]
      rfl
    refine ⟨act.supply.trans supply, safe.lines, fun b hb shaped => safe.heaters b hb (shape shaped),
      fun m head => safe.head m ((headMove_of_moves moves).trans head), ?_, safe.stop, fun b => ?_, fun k plain => ?_,
      exec_blockWriteBegin_warned runs' warning, act.clock.trans clock, act.travel.trans travel, act.scan.trans scan,
      act.maturity.trans maturity, act.config.trans config, act.run.trans run, LineUnit.keeps_trans line act.placed.keeps,
      memory ▸ act.mem⟩
    · rw [stationReady_of runs', warning]
      exact Bool.and_false _
    · rw [safe.fault b]
      unfold Part.flow
      rw [out]
    · rw [safe.aux k plain]
      unfold Part.auxLine
      rw [out]
  · rw [show supplyRises s.part = _ from supplyRises_ends runs warning]
    have line : p.line.keeps (restored p).line := placeReport_keeps _ _
    have reformed : Reformed c (restored p) (settle c (formDemands c (restored p))) := .of_crane (settle_act c _ c)
    have rest : (restored p).supply = ⟨.normal, p.supply.since⟩ ∧ (restored p).out = p.out
        ∧ (restored p).clock = p.clock ∧ (restored p).travel = p.travel ∧ (restored p).scan = p.scan
        ∧ (restored p).maturity = p.maturity ∧ (restored p).config = p.config ∧ (restored p).run = p.run ∧ (restored p).mem = p.mem
        ∧ (restored p).inClash = p.inClash :=
      ⟨rfl, rfl, rfl, rfl, rfl, rfl, rfl, rfl, rfl, congrArg Option.isSome line.clash⟩
    obtain ⟨supply, out, clock, travel, scan, maturity, config, run, memory, clash⟩ := rest
    generalize settle c (formDemands c (restored p)) = q at *
    generalize restored p = r at *
    have act := reformed.act
    have runs' : q.runs c := ⟨act.run.trans (run.trans runs.1), act.config.trans (config.trans runs.2)⟩
    have normal : q.inWarning = false := by
      unfold Part.inWarning
      rw [act.supply, supply]
      rfl
    refine ⟨by rw [act.supply, supply], ?_, fun b => ?_, fun k plain => ?_, act.clock.trans clock, act.travel.trans travel,
      act.scan.trans scan, act.maturity.trans maturity, act.config.trans config, act.run.trans run,
      LineUnit.keeps_trans line act.placed.keeps, memory ▸ act.mem⟩
    · rw [stationReady_of runs', normal, act.inClash, clash]
      exact Bool.and_true _
    · rw [reformed.fault b]
      unfold Part.flow
      rw [out]
    · rw [reformed.aux k plain]
      unfold Part.auxLine
      rw [out]

end Sys2Proof.Machine
end

