-- ==== Sys2Proof/Proofs/Interpolator.lean ====
section
/-! PROOFS. The travel interpolator: decoder, marks, microsteps, reference switch (06). -/
namespace Sys2Proof.Machine
open Sys2Proof

variable {c : Settings} {p q : Part}

/-! ### What the travel interpolator's events leave (06) -/

/-- Beds, heat, outputs, temperatures, maturity, clock and configuration stand; the line is only asked to send. -/
structure TravelStill (p q : Part) : Prop where
  beds : q.beds = p.beds
  heat : q.heat = p.heat
  out : q.out = p.out
  scan : q.scan = p.scan
  maturity : q.maturity = p.maturity
  clock : q.clock = p.clock
  config : q.config = p.config
  run : q.run = p.run
  line : p.line.keeps q.line

theorem TravelStill.trans {r : Part} (h : TravelStill p q) (k : TravelStill q r) : TravelStill p r :=
  ⟨k.beds.trans h.beds, k.heat.trans h.heat, k.out.trans h.out, k.scan.trans h.scan, k.maturity.trans h.maturity, k.clock.trans h.clock,
    k.config.trans h.config, k.run.trans h.run, LineUnit.keeps_trans h.line k.line⟩

theorem CraneAct.travelStill (h : CraneAct c p q) : TravelStill p q :=
  ⟨h.beds, h.heat, h.out, h.scan, h.maturity, h.clock, h.config, h.run, h.placed.keeps⟩

/-- Travel and pins changed alone. -/
theorem setTravel_still (t : TravelUnit) (x : Pins) : TravelStill p { p with travel := t, pins := x } :=
  ⟨rfl, rfl, rfl, rfl, rfl, rfl, rfl, rfl, rfl⟩

theorem handOccupancy_still (occ : List Nat) : TravelStill p (handOccupancy occ p) := ⟨rfl, rfl, rfl, rfl, rfl, rfl, rfl, rfl, rfl⟩

theorem positionLost_still : TravelStill p (positionLost c p) := ⟨rfl, rfl, rfl, rfl, rfl, rfl, rfl, rfl, rfl⟩

theorem faultPosition_still (k : PosFault) : TravelStill p (faultPosition c k p) := by
  unfold faultPosition
  dsimp only
  refine TravelStill.trans ?_ (CraneAct.reportIf c _ _ _).travelStill
  split
  · exact (setTravel_still _ p.pins).trans positionLost_still
  · exact setTravel_still _ p.pins

/-- A position fault: the flag, its cause, and no position; the rest of the decoder and the position's value stand. -/
theorem faultPosition_travel (k : PosFault) : ∃ lim occ, (faultPosition c k p).travel =
    { p.travel with fault := true, cause := some k, referenced := false, limit := lim, occupancy := occ } := by
  unfold faultPosition
  dsimp only
  rw [(CraneAct.reportIf c _ _ _).travel]
  split
  · exact ⟨_, _, rfl⟩
  · rename_i unknown
    exact ⟨p.travel.limit, p.travel.occupancy, by rw [← Bool.eq_false_iff.mpr unknown]⟩

/-- With the position unknown, travel stops. -/
theorem afterLoss_stops (before : Part) (unknown : p.travel.referenced = false) : (afterLoss c before p).span.decision = .stop := by
  have none : p.position = none := by
    unfold Part.position
    rw [unknown]
    rfl
  unfold afterLoss
  split
  · rw [formNotice_decision]
    refine settle_stops c _ (.inl ?_)
    rw [(halt_act c p _).position, none]
  · exact settle_stops c p (.inl none)

theorem afterLoss_travel (before : Part) : (afterLoss c before p).travel = p.travel := (afterLoss_act c p c before).travel

theorem afterLoss_still (before : Part) : TravelStill p (afterLoss c before p) := (afterLoss_act c p c before).travelStill

theorem TravelStill.unpack (h : TravelStill p q) : q.beds = p.beds ∧ q.heat = p.heat ∧ q.out = p.out ∧ q.scan = p.scan
    ∧ q.maturity = p.maturity ∧ q.clock = p.clock ∧ q.config = p.config ∧ q.run = p.run ∧ p.line.keeps q.line :=
  ⟨h.beds, h.heat, h.out, h.scan, h.maturity, h.clock, h.config, h.run, h.line⟩

/-! ### The direction decoder (06 R103, R104) -/

theorem sampleTracks_adopts {i : Nat} (h : p.travel.index = none ∨ 201 ≤ p.travel.uniform) :
    sampleTracks c (some i) p = { p with travel := p.travel.adopt i } := by
  unfold sampleTracks
  dsimp only
  cases index : p.travel.index with
  | none => rfl
  | some k => exact if_pos (h.resolve_left (by rw [index]; exact fun e => nomatch e))

theorem sampleTracks_uniform (h : p.travel.uniform ≠ 200) :
    sampleTracks c none p = { p with travel := { p.travel with uniform := min 201 (p.travel.uniform + 1) } } := by
  unfold sampleTracks
  dsimp only
  rw [if_neg h]
  rfl

theorem sampleTracks_sticks (h : p.travel.uniform = 200) :
    sampleTracks c none p = faultPosition c .stuck { p with travel := { p.travel with uniform := 201 } } := by
  unfold sampleTracks
  exact if_pos h

section
variable {i k : Nat} (index : p.travel.index = some k) (fresh : p.travel.uniform < 201)
include index fresh

theorem sampleTracks_held (h : i = k) : sampleTracks c (some i) p = { p with travel := { p.travel with uniform := 0 } } := by
  unfold sampleTracks
  dsimp only
  rw [index]
  dsimp only
  rw [if_neg (Nat.not_le.mpr fresh), if_pos h]

theorem sampleTracks_forward (h : i = (k + 1) % 6) (_ : k < 6) :
    sampleTracks c (some i) p = { p with travel := p.travel.step i .forward } := by
  unfold sampleTracks
  dsimp only
  rw [index]
  dsimp only
  rw [if_neg (Nat.not_le.mpr fresh), if_neg (by omega), if_pos h]

theorem sampleTracks_reverse (h : i = (k + 5) % 6) (_ : k < 6) :
    sampleTracks c (some i) p = { p with travel := p.travel.step i .reverse } := by
  unfold sampleTracks
  dsimp only
  rw [index]
  dsimp only
  rw [if_neg (Nat.not_le.mpr fresh), if_neg (by omega), if_neg (by omega), if_pos h]

theorem sampleTracks_skips (other : i ≠ k) (forward : i ≠ (k + 1) % 6) (reverse : i ≠ (k + 5) % 6) :
    sampleTracks c (some i) p = { faultPosition c .skip p with travel := (faultPosition c .skip p).travel.adopt i } := by
  unfold sampleTracks
  dsimp only
  rw [index]
  dsimp only
  rw [if_neg (Nat.not_le.mpr fresh), if_neg other, if_neg forward, if_neg reverse]

end

theorem sampleTracks_still (pat : Option Nat) : TravelStill p (sampleTracks c pat p) := by
  unfold sampleTracks
  dsimp only
  split
  · split
    · exact (setTravel_still _ p.pins).trans (faultPosition_still _)
    · exact setTravel_still _ p.pins
  · split
    · exact setTravel_still _ p.pins
    · split
      · exact setTravel_still _ p.pins
      · split
        · exact setTravel_still _ p.pins
        · split
          · exact setTravel_still _ p.pins
          · split
            · exact setTravel_still _ p.pins
            · exact (faultPosition_still _).trans (setTravel_still _ _)

/-- A step in a direction. -/
theorem step_spec (t : TravelUnit) (i : Nat) (d : Dir) : (t.step i d).index = some i ∧ (t.step i d).uniform = 0 ∧ (t.step i d).dir = d
    ∧ (t.step i d).fault = t.fault ∧ (t.step i d).referenced = t.referenced ∧ (t.step i d).base = t.base ∧ (t.step i d).u = t.u
    ∧ (t.dir ≠ d → (t.step i d).up = (d == .forward) ∧ (t.step i d).timer = 0) := by
  unfold TravelUnit.step
  dsimp only
  split
  · rename_i same
    exact ⟨rfl, rfl, rfl, rfl, rfl, rfl, rfl, fun h => absurd same h⟩
  · exact ⟨rfl, rfl, rfl, rfl, rfl, rfl, rfl, fun _ => ⟨rfl, rfl⟩⟩

/-- A STUCK fault and what follows it. -/
theorem afterLoss_stuck {before x : Part} {b u : Nat} (h : x = faultPosition c .stuck { p with travel := { p.travel with uniform := 201 } })
    (hb : p.travel.base = b) (hu : p.travel.u = u) (left : afterLoss c before x = q) :
    q.travel.uniform = 201 ∧ q.travel.fault = true ∧ q.travel.cause = some .stuck ∧ q.travel.referenced = false
      ∧ q.span.decision = .stop ∧ q.travel.base = b ∧ q.travel.u = u := by
  obtain ⟨lim, occ, travel⟩ := faultPosition_travel (c := c) (p := { p with travel := { p.travel with uniform := 201 } }) .stuck
  rw [← h] at travel
  have stop : q.span.decision = .stop := left ▸ afterLoss_stops before (by rw [travel])
  have same : q.travel = x.travel := left ▸ afterLoss_travel before
  rw [same, travel]
  exact ⟨rfl, rfl, rfl, rfl, stop, hb, hu⟩

/-- Settles O45. -/
theorem tracksDecode : Obligations.TracksDecode := by
  intro s c p t still stuck runs
  have sampled (ta tb tc : Bool) (post : Part → Prop) (k : ∀ x r q, x.travel = t → r = sampleTracks c (patternIndex ta tb tc) x →
      afterLoss c p r = q → TravelStill p q → q.travel = r.travel → post q) : Completes (.trackStep ta tb tc) s post :=
    completes_running runs rfl (k { p with pins := { p.pins with trkA := ta, trkB := tb, trkC := tc } } _ _ rfl rfl rfl
      (((setTravel_still p.travel _).trans (sampleTracks_still _)).trans (afterLoss_still p)) (afterLoss_travel p))
  refine ⟨fun k i ta tb tc index hk fresh pat => sampled ta tb tc _ fun x r q same r_eq left rest travel => ?_,
    fun i ta tb tc lost pat => sampled ta tb tc _ fun x r q same r_eq left rest travel => ?_,
    fun ta tb tc pat other => sampled ta tb tc _ fun x r q same r_eq left rest travel => ?_,
    fun ta tb tc pat full => sampled ta tb tc _ fun x r q same r_eq left rest travel => ?_, fun fresh => completes_running runs rfl ?_⟩
  · rw [pat] at r_eq
    rw [← same] at index fresh
    by_cases held : i = k
    · rw [sampleTracks_held index fresh held] at r_eq
      rw [show q.travel = { t with uniform := 0 } from travel.trans (by rw [r_eq, same])]
      exact ⟨by rw [held, ← same]; exact index, rfl, rest.unpack, fun _ => rfl, fun h => by omega, fun h => by omega,
        fun h => absurd held h, rfl, rfl⟩
    by_cases forward : i = (k + 1) % 6
    · rw [sampleTracks_forward index fresh forward hk] at r_eq
      obtain ⟨index', uniform, dir, fault, referenced, base, u, turn⟩ := step_spec t i .forward
      rw [show q.travel = t.step i .forward from travel.trans (by rw [r_eq, same])]
      exact ⟨index', uniform, rest.unpack, fun h => absurd h held, fun _ => ⟨dir, fault, referenced, turn⟩,
        fun h => by omega, fun _ h => absurd forward h, base, u⟩
    by_cases reverse : i = (k + 5) % 6
    · rw [sampleTracks_reverse index fresh reverse hk] at r_eq
      obtain ⟨index', uniform, dir, fault, referenced, base, u, turn⟩ := step_spec t i .reverse
      rw [show q.travel = t.step i .reverse from travel.trans (by rw [r_eq, same])]
      exact ⟨index', uniform, rest.unpack, fun h => absurd h held, fun h => absurd h forward,
        fun _ => ⟨dir, fault, referenced, turn⟩, fun _ _ h => absurd reverse h, base, u⟩
    · obtain ⟨lim, occ, faulty⟩ := faultPosition_travel (c := c) (p := x) .skip
      rw [sampleTracks_skips index fresh held forward reverse] at r_eq
      have lost : r.travel = ({ t with
          fault := true, cause := some .skip, referenced := false, limit := lim, occupancy := occ } : TravelUnit).adopt i := by
        rw [r_eq, faulty, same]
      have stop : q.span.decision = .stop := left ▸ afterLoss_stops p (by rw [lost]; rfl)
      rw [travel, lost]
      exact ⟨rfl, rfl, rest.unpack, fun h => absurd h held, fun h => absurd h forward, fun h => absurd h reverse,
        fun _ _ _ => ⟨rfl, rfl, rfl, rfl, stop⟩, rfl, rfl⟩
  · rw [pat, sampleTracks_adopts (by rw [same]; exact lost)] at r_eq
    exact ⟨travel.trans (by rw [r_eq, same]; rfl), rest.unpack⟩
  · rw [pat, sampleTracks_uniform (by rw [same]; exact other)] at r_eq
    exact ⟨travel.trans (by rw [r_eq, same]), rest.unpack⟩
  · rw [pat, sampleTracks_sticks (by rw [same]; exact full)] at r_eq
    exact ⟨afterLoss_stuck r_eq (congrArg TravelUnit.base same) (congrArg TravelUnit.u same) left, rest.unpack⟩
  · generalize left : trackSticks c s.part = q
    unfold trackSticks at left
    rw [if_neg (Nat.not_le.mpr fresh), sampleTracks_sticks rfl] at left
    have rest : TravelStill s.part q := left ▸ ((setTravel_still _ s.part.pins).trans
      ((setTravel_still _ s.part.pins).trans (faultPosition_still _))).trans (afterLoss_still _)
    exact ⟨afterLoss_stuck rfl rfl rfl left, rest.unpack⟩

end Sys2Proof.Machine

namespace Sys2Proof.Machine
open Sys2Proof

variable {c : Settings} {p q : Part}

/-! ### Position changes (06 R111..R113) -/

theorem positionChanged_still : TravelStill p (positionChanged c p) := by
  unfold positionChanged
  dsimp only
  split
  · exact (CraneAct.refl c p).travelStill
  · refine TravelStill.trans ?_ (CraneAct.reportIf c _ _ _).travelStill
    refine TravelStill.trans ?_ (CraneAct.markIf c _ _ _).travelStill
    exact (setTravel_still _ p.pins).trans (handOccupancy_still _)

/-- A position change leaves the decoder, the marks and the position's value. -/
theorem positionChanged_travel : ∃ known lim occ, (positionChanged c p).travel =
    { p.travel with lastKnown := known, limit := lim, occupancy := occ } := by
  unfold positionChanged
  dsimp only
  split
  · exact ⟨_, _, _, rfl⟩
  · rw [(CraneAct.reportIf c _ _ _).travel, (CraneAct.markIf c _ _ _).travel]
    exact ⟨_, _, _, rfl⟩

/-- A known position is handed on with its occupancy. -/
theorem positionChanged_known {n : Nat} (known : p.position = some n) : (positionChanged c p).travel =
    { p.travel with lastKnown := some n, limit := limitOf c n, occupancy := occupancyAt c n } := by
  unfold positionChanged
  rw [known]
  dsimp only
  rw [(CraneAct.reportIf c _ _ _).travel, (CraneAct.markIf c _ _ _).travel]
  rfl

/-! ### Marks (06 R105..R107) -/

/-- A mark event with a position beyond the range is a fault. -/
theorem markPassed_beyond {forward : Bool} (known : p.travel.referenced = true)
    (beyond : if forward then p.travel.base = 65535 else p.travel.base = 0) :
    markPassed c forward p = faultPosition c .range { p with travel := p.travel.period } := by
  unfold markPassed
  dsimp only
  refine if_pos ?_
  rw [show p.travel.period.referenced = true from known, Bool.and_true]
  cases forward with
  | true => exact decide_eq_true (show 65535 < p.travel.base + 1 by rw [show p.travel.base = 65535 from beyond]; decide)
  | false => exact decide_eq_true beyond

/-- The position at a mark. -/
def TravelUnit.atMark (t : TravelUnit) (forward : Bool) : TravelUnit := if forward then t.period.atForward else t.period.atReverse

theorem markPassed_within {forward : Bool} (within : p.travel.referenced = false ∨
    if forward then p.travel.base < 65535 else 0 < p.travel.base) :
    markPassed c forward p = positionChanged c { p with travel := p.travel.atMark forward } := by
  unfold markPassed
  dsimp only
  refine if_neg ?_
  rcases within with unknown | within
  · rw [show p.travel.period.referenced = false from unknown, Bool.and_false]
    exact Bool.false_ne_true
  · cases forward with
    | true =>
      have fits : ¬65535 < p.travel.period.base + 1 := by
        have : p.travel.base < 65535 := within
        show ¬65535 < p.travel.base + 1
        omega
      rw [if_pos rfl, decide_eq_false fits]
      exact Bool.false_ne_true
    | false =>
      have fits : ¬p.travel.period.base = 0 := Nat.ne_of_gt within
      rw [if_neg Bool.false_ne_true, decide_eq_false fits]
      exact Bool.false_ne_true

theorem markPassed_still (forward : Bool) : TravelStill p (markPassed c forward p) := by
  unfold markPassed
  dsimp only
  split
  all_goals
    split
    · exact (setTravel_still _ p.pins).trans (faultPosition_still _)
    · exact (setTravel_still _ p.pins).trans positionChanged_still

/-- The part at the exit from a mark. -/
def markOut (p : Part) : Part := { p with travel := { p.travel with mark := .out }, pins := { p.pins with mark := false } }

theorem markFalls_exit {forward : Bool} (exits : exitDirection p.travel.mark p.travel.dir = some (if forward then .forward else .reverse)) :
    markFalls c { p with pins := { p.pins with mark := false } } = markPassed c forward (markOut p) := by
  unfold markFalls
  dsimp only
  rw [exits]
  cases forward <;> rfl

theorem markFalls_none (exits : exitDirection p.travel.mark p.travel.dir = none) :
    markFalls c { p with pins := { p.pins with mark := false } } = markOut p := by
  unfold markFalls
  dsimp only
  rw [exits]
  rfl

theorem exitDirection_of {m : MarkRun} {d : Dir} (way : d = .forward ∨ d = .reverse) (entered : m = .entered d ∨ m = .entered .none) :
    exitDirection m d = some d := by
  rcases way with rfl | rfl <;> rcases entered with rfl | rfl <;> rfl

/-- A period is measured, from this mark on. -/
def timedFrom (t : TravelUnit) (q : Part) : Prop :=
  q.travel.counter = 0 ∧ q.travel.standstill = false ∧ q.travel.pprev = (if t.counter ≤ 20000 then some (max 1 t.counter) else none)

/-- What every mark event within the range leaves. -/
theorem markPassed_passes {r : Part} {forward : Bool} (within : p.travel.referenced = false ∨
    if forward then p.travel.base < 65535 else 0 < p.travel.base)
    (r_eq : r = markPassed c forward (markOut p)) (travel : q.travel = r.travel) :
    q.travel.base = (if forward then min 65535 (p.travel.base + 1) else p.travel.base - 1) ∧ q.travel.u = (if forward then 0 else 16)
      ∧ q.travel.up = forward ∧ q.travel.timer = 0 ∧ timedFrom p.travel q ∧ q.travel.mark = .out
      ∧ q.travel.referenced = p.travel.referenced := by
  rw [markPassed_within (p := markOut p) within] at r_eq
  obtain ⟨known, lim, occ, changed⟩ := positionChanged_travel (c := c) (p := { markOut p with travel := (markOut p).travel.atMark forward })
  rw [← r_eq] at changed
  unfold timedFrom
  rw [travel, changed]
  cases forward <;> exact ⟨rfl, rfl, rfl, rfl, ⟨rfl, rfl, rfl⟩, rfl, rfl⟩

/-- What a mark event beyond the range leaves. -/
theorem markPassed_faults {r : Part} {forward : Bool} (known : p.travel.referenced = true)
    (beyond : if forward then p.travel.base = 65535 else p.travel.base = 0)
    (r_eq : r = markPassed c forward (markOut p)) (left : afterLoss c p r = q) :
    q.travel.fault = true ∧ q.travel.cause = some .range ∧ q.travel.referenced = false ∧ q.travel.base = p.travel.base
      ∧ q.travel.u = p.travel.u ∧ q.travel.index = p.travel.index ∧ q.travel.dir = p.travel.dir ∧ timedFrom p.travel q
      ∧ q.span.decision = .stop := by
  rw [markPassed_beyond (p := markOut p) known beyond] at r_eq
  obtain ⟨lim, occ, faulty⟩ := faultPosition_travel (c := c) (p := { markOut p with travel := (markOut p).travel.period }) .range
  rw [← r_eq] at faulty
  have stop : q.span.decision = .stop := left ▸ afterLoss_stops p (by rw [faulty])
  have travel : q.travel = r.travel := left ▸ afterLoss_travel p
  unfold timedFrom
  rw [travel, faulty]
  exact ⟨rfl, rfl, rfl, rfl, rfl, rfl, rfl, ⟨rfl, rfl, rfl⟩, stop⟩

theorem TravelStill.four (h : TravelStill p q) : q.beds = p.beds ∧ q.heat = p.heat ∧ q.out = p.out ∧ q.clock = p.clock :=
  ⟨h.beds, h.heat, h.out, h.clock⟩

/-- Settles O46. -/
theorem marksPass : Obligations.MarksPass := by
  intro s c p t still timed passed beyond runs
  have exits (post : Part → Prop) (k : ∀ r q, r = markFalls c { p with pins := { p.pins with mark := false } } →
      afterLoss c p r = q → q.travel = r.travel → post q) : Completes .markEvent s post :=
    completes_running runs rfl (k _ _ rfl rfl (afterLoss_travel p))
  have rest {r q : Part} {forward : Bool} (r_eq : r = markPassed c forward (markOut p)) (left : afterLoss c p r = q) : still q := by
    subst r_eq
    subst left
    exact (((setTravel_still _ _).trans (markPassed_still _)).trans (afterLoss_still p)).four
  refine ⟨completes_running runs rfl rfl, fun entered dir => ?_, fun entered dir => ?_, fun none => exits _ fun r q r_eq left travel => ?_⟩
  · have exit : exitDirection p.travel.mark p.travel.dir = some (if true then .forward else .reverse) := by
      rw [show p.travel.dir = .forward from dir]
      exact exitDirection_of (.inl rfl) entered
    refine ⟨fun within => exits _ fun r q r_eq left travel => ?_, fun last known => exits _ fun r q r_eq left travel => ?_,
      fun last unknown => exits _ fun r q r_eq left travel => ?_⟩ <;> rw [markFalls_exit (forward := true) exit] at r_eq
    · obtain ⟨base, u, up, timer, timing, mark, referenced⟩ := markPassed_passes (forward := true) (.inr within) r_eq travel
      have base' : q.travel.base = t.base + 1 := base.trans (Nat.min_eq_right within)
      refine ⟨base', u, ?_, up, timer, timing, mark, referenced, rest r_eq left⟩
      unfold TravelUnit.count
      rw [base', u]
      rfl
    · obtain ⟨fault, cause, referenced, base, u, index, dir, timing, stop⟩ := markPassed_faults (forward := true) known last r_eq left
      exact ⟨fault, cause, referenced, base, u, index, dir, timing, stop, rest r_eq left⟩
    · obtain ⟨base, u, up, timer, timing, mark, referenced⟩ := markPassed_passes (forward := true) (.inl unknown) r_eq travel
      exact ⟨base.trans (by rw [show p.travel.base = 65535 from last]; rfl), u, up, timer, timing, mark, referenced, rest r_eq left⟩
  · have exit : exitDirection p.travel.mark p.travel.dir = some (if false then .forward else .reverse) := by
      rw [show p.travel.dir = .reverse from dir]
      exact exitDirection_of (.inr rfl) entered
    refine ⟨fun within => exits _ fun r q r_eq left travel => ?_, fun last known => exits _ fun r q r_eq left travel => ?_,
      fun last unknown => exits _ fun r q r_eq left travel => ?_⟩ <;> rw [markFalls_exit (forward := false) exit] at r_eq
    · obtain ⟨base, u, up, timer, timing, mark, referenced⟩ := markPassed_passes (forward := false) (.inr within) r_eq travel
      have base' : q.travel.base = t.base - 1 := base
      refine ⟨base', u, ?_, up, timer, timing, mark, referenced, rest r_eq left⟩
      have positive : 0 < t.base := within
      have u' : q.travel.u = 16 := u
      unfold TravelUnit.count
      rw [base', u']
      omega
    · obtain ⟨fault, cause, referenced, base, u, index, dir, timing, stop⟩ := markPassed_faults (forward := false) known last r_eq left
      exact ⟨fault, cause, referenced, base, u, index, dir, timing, stop, rest r_eq left⟩
    · obtain ⟨base, u, up, timer, timing, mark, referenced⟩ := markPassed_passes (forward := false) (.inl unknown) r_eq travel
      exact ⟨base.trans (by rw [show p.travel.base = 0 from last]; rfl), u, up, timer, timing, mark, referenced, rest r_eq left⟩
  · rw [markFalls_none none] at r_eq
    subst r_eq
    subst left
    exact ⟨travel, ((setTravel_still _ _).trans (afterLoss_still p)).four⟩

end Sys2Proof.Machine

namespace Sys2Proof.Machine
open Sys2Proof

variable {c : Settings} {p q : Part}

/-! ### Microsteps and standstill (06 R106, R108) -/

theorem micro_eq (t : TravelUnit) : t.micro = { t with
    u := if t.up then (if t.u < t.upperCap then t.u + 1 else t.u) else (if t.lowerCap < t.u then t.u - 1 else t.u) } := by
  unfold TravelUnit.micro
  split <;> split <;> rfl

/-- A microstep that is made: u moves within its caps, and the timer starts anew. -/
theorem microstepDue_travel (steps : p.travel.stepping = true) : ∃ known lim occ, (microstepDue c p).travel =
    { p.travel with
      u := if p.travel.up then (if p.travel.u < p.travel.upperCap then p.travel.u + 1 else p.travel.u)
        else (if p.travel.lowerCap < p.travel.u then p.travel.u - 1 else p.travel.u)
      timer := 0, lastKnown := known, limit := lim, occupancy := occ } := by
  have moved : (TravelUnit.micro { p.travel with timer := 0 }) = { p.travel with
      u := if p.travel.up then (if p.travel.u < p.travel.upperCap then p.travel.u + 1 else p.travel.u)
        else (if p.travel.lowerCap < p.travel.u then p.travel.u - 1 else p.travel.u)
      timer := 0 } := micro_eq _
  unfold microstepDue
  rw [if_pos steps]
  dsimp only
  split
  · rename_i stands
    refine ⟨p.travel.lastKnown, p.travel.limit, p.travel.occupancy, ?_⟩
    rw [moved] at stands
    exact congrArg (fun n => { p.travel with u := n, timer := 0 }) stands.symm
  · obtain ⟨known, lim, occ, changed⟩ := positionChanged_travel (c := c) (p := { p with travel := TravelUnit.micro { p.travel with timer := 0 } })
    refine ⟨known, lim, occ, changed.trans ?_⟩
    rw [moved]

theorem microstepDue_still : TravelStill p (microstepDue c p) := by
  unfold microstepDue
  split
  · dsimp only
    split
    · exact setTravel_still _ p.pins
    · exact (setTravel_still _ p.pins).trans positionChanged_still
  · exact (CraneAct.refl c p).travelStill

theorem microstepDue_pins : (microstepDue c p).pins = p.pins := by
  unfold microstepDue positionChanged
  split
  · dsimp only
    split
    · rfl
    · split
      · rfl
      · rw [(CraneAct.reportIf c _ _ _).pins, (CraneAct.markIf c _ _ _).pins]
        rfl
  · rfl

theorem microstepsStop_stops {d : Nat} (period : p.travel.pprev = some d) (short : 4 * d < 20001) : microstepsStop p =
    { p with travel := { p.travel with
        counter := max p.travel.counter (4 * d + 1)
        standstill := p.travel.standstill || max p.travel.counter (4 * d + 1) == 20001 } } := by
  unfold microstepsStop
  rw [period]
  exact if_pos short

theorem microstepsStop_idle (h : p.travel.pprev = none ∨ ∃ d, p.travel.pprev = some d ∧ 20001 ≤ 4 * d) : microstepsStop p = p := by
  unfold microstepsStop
  rcases h with none | ⟨d, period, long⟩
  · rw [none]
  · rw [period]
    exact if_neg (Nat.not_lt.mpr long)

theorem stepping_of {t : TravelUnit} {d : Nat} (period : t.pprev = some d) : t.stepping = true ↔ t.counter ≤ 4 * d := by
  unfold TravelUnit.stepping
  rw [period]
  exact decide_eq_true_iff

theorem microstep_mem_dueNow {d : Nat} (runs : p.runs c) (period : p.travel.pprev = some d) :
    Instr.microstep ∈ dueNow p ↔ p.travel.counter ≤ 4 * d ∧ max 1 (d / 16) ≤ p.travel.timer + 1 := by
  rw [mem_dueNow_of_part (k := .travel) runs rfl]
  show _ ∈ dueTravel p ↔ _
  rw [mem_dueTravel]
  constructor
  · rintro (⟨h, _⟩ | ⟨e, period', ⟨_, steps, spaced⟩ | ⟨h, _⟩⟩)
    · cases h
    · obtain rfl := Option.some.inj (period.symm.trans period')
      exact ⟨(stepping_of period).mp steps, spaced⟩
    · cases h
  · exact fun ⟨steps, spaced⟩ => .inr ⟨d, period, .inl ⟨rfl, (stepping_of period).mpr steps, spaced⟩⟩

theorem microstepStop_mem_dueNow {d : Nat} (runs : p.runs c) (period : p.travel.pprev = some d) :
    Instr.microstepStop ∈ dueNow p ↔ p.travel.counter = 4 * d := by
  rw [mem_dueNow_of_part (k := .travel) runs rfl]
  show _ ∈ dueTravel p ↔ _
  rw [mem_dueTravel]
  constructor
  · rintro (⟨h, _⟩ | ⟨e, period', ⟨h, _⟩ | ⟨_, counted⟩⟩)
    · cases h
    · cases h
    · rwa [Option.some.inj (period.symm.trans period')] at *
  · exact fun counted => .inr ⟨d, period, .inr ⟨rfl, counted⟩⟩

theorem standstill_mem_dueNow (runs : p.runs c) : Instr.standstill ∈ dueNow p ↔ p.travel.counter = 20000 := by
  rw [mem_dueNow_of_part (k := .travel) runs rfl]
  show _ ∈ dueTravel p ↔ _
  rw [mem_dueTravel]
  constructor
  · rintro (⟨_, counted⟩ | ⟨e, _, ⟨h, _⟩ | ⟨h, _⟩⟩)
    · exact counted
    · cases h
    · cases h
  · exact fun counted => .inl ⟨rfl, counted⟩

theorem sampleFlow_travel (q : Part) (b : Fin 4) : (sampleFlow c q b).travel = q.travel := by
  unfold sampleFlow
  split <;> rfl

theorem stepGen_travel (q : Part) (b : Fin 4) : (stepGen c q b).travel = q.travel := by
  unfold stepGen
  split
  · exact (withGen_act c _ _ _).travel
  · rfl

theorem sampleJack_travel (q : Part) (b : Fin 4) : (sampleJack c q b).travel = q.travel := by
  unfold sampleJack
  split
  · exact (HeatAct.withBed c q b _ rfl).travel
  · rfl

/-- The tick advances the interpolator's counters, and nothing else of it. -/
theorem tickPart_travel (runs : p.runs c) : (tickPart p).travel = (stepTravel c p).travel := by
  have flows : (stepScan c (fourBeds.foldl (sampleFlow c) (stepTravel c p))).travel = (stepTravel c p).travel :=
    foldl_preserves (g := Part.travel) sampleFlow_travel _ _
  have counted : (stepRunning c p).travel = (stepTravel c p).travel := by
    unfold stepRunning
    dsimp only
    split
    · rw [foldl_preserves (g := Part.travel) (f := sampleCrane) fun _ _ => rfl, foldl_preserves (g := Part.travel) sampleJack_travel,
        foldl_preserves (g := Part.travel) stepGen_travel, flows]
    · exact flows
  unfold tickPart
  rw [if_neg (by rw [runs.1]; exact fun e => nomatch e), onRunning_of_runs runs, ← counted]
  unfold stepMs sampleEmergency
  dsimp only
  split <;> split <;> rfl

/-- What microsteps, their stop and a standstill leave. -/
structure StepStill (p q : Part) : Prop extends TravelStill p q where
  pins : q.pins = p.pins

theorem settle_stepStill {x : Part} (h : TravelStill p x) (pins : x.pins = p.pins) : StepStill p (settle c x) :=
  ⟨h.trans (settle_act c x c).travelStill, (settle_act c x c).pins.trans pins⟩

theorem StepStill.unpack (h : StepStill p q) : q.beds = p.beds ∧ q.heat = p.heat ∧ q.out = p.out ∧ q.scan = p.scan
    ∧ q.maturity = p.maturity ∧ q.clock = p.clock ∧ q.pins = p.pins ∧ p.line.keeps q.line :=
  ⟨h.beds, h.heat, h.out, h.scan, h.maturity, h.clock, h.pins, h.line⟩

theorem settle_travel (c : Settings) (p : Part) : (settle c p).travel = p.travel := (settle_act c p c).travel

/-- After `settle`, the interpolator stands as an event left it. -/
theorem completes_step {i : Instr} {s : State} {f : Settings → Part → Part} {post : Part → Prop} (runs : s.part.runs c)
    (event : exec i s = .next (s.onPart (·.onRunning fun c p => settle c (f c p)))) (still : TravelStill s.part (f c s.part))
    (pins : (f c s.part).pins = s.part.pins) (k : ∀ q, q.travel = (f c s.part).travel → StepStill s.part q → post q) :
    Completes i s post :=
  completes_running runs event (k _ (settle_travel c _) (settle_stepStill still pins))

/-- Settles O47. -/
theorem microstepsWithinCaps : Obligations.MicrostepsWithinCaps := by
  intro s c p t still runs
  refine ⟨fun steps => ?_, fun rests => ?_, fun d period short => ?_, fun idle => ?_, ?_, congrArg TravelUnit.timer (tickPart_travel runs),
    fun d period => ⟨microstep_mem_dueNow runs period, microstepStop_mem_dueNow runs period⟩, standstill_mem_dueNow runs⟩
  · refine completes_step (f := microstepDue) runs rfl microstepDue_still microstepDue_pins fun q travel rest => ?_
    obtain ⟨known, lim, occ, moved⟩ := microstepDue_travel (c := c) (p := s.part) steps
    rw [travel, moved]
    exact ⟨rfl, rfl, rfl, rfl, rfl, rest.unpack⟩
  · refine completes_step (f := microstepDue) runs rfl microstepDue_still microstepDue_pins fun q travel rest => ?_
    have idle : microstepDue c s.part = s.part := if_neg (by rw [show s.part.travel.stepping = false from rests]; exact Bool.false_ne_true)
    exact ⟨travel.trans (congrArg Part.travel idle), rest.unpack⟩
  · have stops := microstepsStop_stops (p := s.part) period short
    refine completes_step (f := fun _ => microstepsStop) runs rfl ?_ ?_ fun q travel rest => ?_
    · rw [stops]
      exact setTravel_still _ s.part.pins
    · rw [stops]
    rw [stops] at travel
    refine ⟨?_, ?_, by rw [travel], rest.unpack⟩
    · rw [travel]
      refine Bool.eq_false_iff.mpr fun steps => ?_
      have counted := (stepping_of (d := d) (by exact period)).mp steps
      have beyond : 4 * d + 1 ≤ max p.travel.counter (4 * d + 1) := Nat.le_max_right _ _
      exact absurd (Nat.le_trans beyond counted) (by omega)
    · rw [travel]
      exact Nat.lt_of_lt_of_le (Nat.lt_succ_self _) (Nat.le_max_right _ _)
  · have stands := microstepsStop_idle (p := s.part) idle
    refine completes_step (f := fun _ => microstepsStop) runs rfl ?_ ?_ fun q travel rest => ?_
    · rw [stands]
      exact (CraneAct.refl c _).travelStill
    · rw [stands]
    · exact ⟨travel.trans (congrArg Part.travel stands), rest.unpack⟩
  · exact completes_step (f := fun _ => standstillReached) runs rfl (setTravel_still _ s.part.pins) rfl
      fun q travel rest => ⟨travel, rest.unpack⟩

/-! ### The reference switch (06 R110) -/

/-- The part referenced at the switch, before the position is handed on. -/
def referencedAt (c : Settings) (p : Part) : Part :=
  ({ p with
      travel := { p.travel with
        refLast := true, base := c.refPos / 16, u := c.refPos % 16, up := true, lastReverse := false, timer := 0
        mark := if p.travel.mark = MarkRun.out then MarkRun.out else MarkRun.unrecorded, referenced := true, fault := false }
      pins := { p.pins with refsw := c.refHigh } } : Part).report (.referenced c.refPos p.now p.position)

theorem referencedAt_position : (referencedAt c p).position = some c.refPos := by
  show some (c.refPos / 16 * 16 + c.refPos % 16) = _
  rw [Nat.div_add_mod']

theorem referenceEdge_forward (dir : p.travel.dir = .forward) : referenceEdge c p = settle c (positionChanged c (referencedAt c p)) := by
  unfold referenceEdge
  exact if_pos dir

theorem referenceEdge_other (dir : p.travel.dir ≠ .forward) : referenceEdge c p =
    { p with travel := { p.travel with refLast := true }, pins := { p.pins with refsw := c.refHigh } } := by
  unfold referenceEdge
  exact if_neg dir

/-- Settles O48. -/
theorem referenceTaken : Obligations.ReferenceTaken := by
  intro s c p t runs
  refine ⟨fun dir => completes_running runs rfl ?_, fun dir => completes_running runs rfl (referenceEdge_other dir)⟩
  rw [show referenceEdge c s.part = _ from referenceEdge_forward dir]
  have travel := (settle_travel c _).trans (positionChanged_known (c := c) (referencedAt_position (c := c) (p := p)))
  have rest : TravelStill p (settle c (positionChanged c (referencedAt c p))) :=
    (((setTravel_still _ _).trans (CraneAct.report c _ _).travelStill).trans positionChanged_still).trans (settle_act c _ c).travelStill
  generalize settle c (positionChanged c (referencedAt c s.part)) = q at *
  have position : q.position = some c.refPos := by
    refine Eq.trans ?_ (referencedAt_position (c := c) (p := p))
    unfold Part.position TravelUnit.count
    rw [travel]
  have unmarked (d : Dir) : q.travel.mark ≠ .entered d := by
    rw [travel]
    show (if p.travel.mark = MarkRun.out then MarkRun.out else MarkRun.unrecorded) ≠ .entered d
    split <;> exact fun e => nomatch e
  rw [travel] at unmarked ⊢
  exact ⟨position, rfl, rfl, rfl, rfl, rfl, rfl, rfl, unmarked, rfl, rfl, rfl, rfl, rest.four⟩

end Sys2Proof.Machine
end

