-- ==== Sys2Proof/Proofs/PeerAges.lean ====
section
/-! PROOFS. The ages of the peer records (07 R121). -/
namespace Sys2Proof.Machine
open Sys2Proof

variable {c : Settings} {p q : Part}

/-! ### The ages of the peer records (07 R121) -/

/-- In an ascending list, an element takes the place of the one with its key. -/
theorem putBy_replaces {α : Type} {key : α → Nat} {x y : α} (same : key y = key x) {l m : List α} (below : ∀ z ∈ l, key z < key x) :
    putBy key y (l ++ x :: m) = l ++ y :: m := by
  induction l with
  | nil =>
    show (if key y < key x then _ else if key y = key x then y :: m else _) = y :: m
    rw [if_neg (by omega), if_pos same]
  | cons z l ih =>
    have lower := below z List.mem_cons_self
    show (if key y < key z then _ else if key y = key z then _ else z :: putBy key y (l ++ x :: m)) = _
    rw [if_neg (by omega), if_neg (by omega), ih fun w mem => below w (List.mem_cons_of_mem _ mem)]
    rfl

theorem find_peer {x : Peer} {l m : List Peer} (below : ∀ z ∈ l, z.addr < x.addr) :
    (l ++ x :: m).find? (·.addr == x.addr) = some x := by
  have absent : l.find? (·.addr == x.addr) = none := List.find?_eq_none.mpr fun z mem same => by
    have := below z mem
    have := eq_of_beq same
    omega
  rw [List.find?_append, absent, List.find?_cons_of_pos (p := fun z : Peer => z.addr == x.addr) (beq_self_eq_true _)]
  rfl

/-- A peer record at an age. -/
def Peer.aged (x : Peer) (age : Nat) : Peer := { x with age := sat 65535 age }

/-- The report of a record that an age makes silent. -/
def silences (x : Peer) (age now : Nat) : List Report :=
  if x.age ≤ 3000 ∧ 3000 < sat 65535 age ∧ x.namedSpans ≠ [] then [.peerSilent x.addr x.namedSpans now] else []

theorem silent_aged (x : Peer) (age : Nat) : (!x.silent && (x.aged age).silent) = decide (x.age ≤ 3000 ∧ 3000 < sat 65535 age) := by
  unfold Peer.silent Peer.aged
  rw [← decide_not, ← Bool.decide_and]
  exact decide_eq_decide.mpr (and_congr_left' Nat.not_lt)

/-- Ageing a record changes it in its table, and reports it when it becomes silent and names a span. -/
theorem agePeer_eq {x : Peer} (age : Nat) (found : peerAt p x.addr = some x) : agePeer x.addr age p =
    (silences x age p.now).foldl (fun q r => q.report r) { p with span := { p.span with peers := putBy (·.addr) (x.aged age) p.span.peers } } := by
  unfold agePeer
  rw [found]
  dsimp only
  rw [show ({ x with age := sat 65535 age } : Peer) = x.aged age from rfl, silent_aged]
  unfold silentReport silences
  rw [show (x.aged age).namedSpans = x.namedSpans from rfl]
  by_cases crossed : x.age ≤ 3000 ∧ 3000 < sat 65535 age
  · rw [decide_eq_true crossed]
    by_cases unnamed : x.namedSpans = []
    · rw [if_pos unnamed, if_neg fun h => h.2.2 unnamed]
      rfl
    · rw [if_neg unnamed, if_pos ⟨crossed.1, crossed.2, unnamed⟩]
      rfl
  · rw [decide_eq_false crossed, if_neg (c := x.age ≤ 3000 ∧ _) fun h => crossed ⟨h.1, h.2.1⟩]
    generalize (if x.namedSpans = [] then none else some _ : Option Report) = o
    cases o <;> rfl

theorem foldl_report_sends (l : List Report) (room : p.waiting.length ≤ 8) : Sends p (l.foldl (fun q r => q.report r) p) l := by
  induction l generalizing p with
  | nil => exact .of_waiting rfl room
  | cons r l ih =>
    have one := report_sends r room
    exact one.trans (ih one.le)

theorem foldl_report_span (l : List Report) : (l.foldl (fun q r => q.report r) p).span = p.span := by
  induction l generalizing p with
  | nil => rfl
  | cons r l ih => exact ih

theorem agePeer_peers {x : Peer} (age : Nat) (found : peerAt p x.addr = some x) :
    (agePeer x.addr age p).span.peers = putBy (·.addr) (x.aged age) p.span.peers := by
  rw [agePeer_eq age found, foldl_report_span]

theorem agePeer_sends {x : Peer} (age : Nat) (found : peerAt p x.addr = some x) (room : p.waiting.length ≤ 8) :
    Sends p (agePeer x.addr age p) (silences x age p.now) := by
  rw [agePeer_eq age found]
  exact foldl_report_sends (p := { p with span := { p.span with peers := putBy (·.addr) (x.aged age) p.span.peers } }) _ room

/-- Ageing record after record of an ascending table. -/
theorem foldl_agePeer {rest : List Peer} : ∀ {before : List Peer} {q : Part}, q.span.peers = before ++ rest →
    (∀ x ∈ before, ∀ y ∈ rest, x.addr < y.addr) → rest.Pairwise (fun x y => x.addr < y.addr) →
    (rest.foldl (fun q x => agePeer x.addr (x.age + 1) q) q).span.peers = before ++ rest.map (fun x => x.aged (x.age + 1))
      ∧ (q.waiting.length ≤ 8 → Sends q (rest.foldl (fun q x => agePeer x.addr (x.age + 1) q) q)
          (rest.flatMap fun x => silences x (x.age + 1) q.now)) := by
  induction rest with
  | nil => exact fun peers _ _ => ⟨peers, fun room => .of_waiting rfl room⟩
  | cons x rest ih =>
    intro before q peers below sorted
    obtain ⟨first, sorted'⟩ := List.pairwise_cons.mp sorted
    have lower (z : Peer) (mem : z ∈ before) : z.addr < x.addr := below z mem x List.mem_cons_self
    have found : peerAt q x.addr = some x := by
      unfold peerAt
      rw [peers]
      exact find_peer lower
    have next : (agePeer x.addr (x.age + 1) q).span.peers = (before ++ [x.aged (x.age + 1)]) ++ rest := by
      rw [agePeer_peers _ found, peers, putBy_replaces (key := fun z : Peer => z.addr) (x := x) (y := x.aged (x.age + 1)) rfl lower, List.append_assoc]
      rfl
    obtain ⟨peers', sends⟩ := ih next (fun z mem y later => (List.mem_append.mp mem).elim
      (fun old => below z old y (List.mem_cons_of_mem _ later)) fun new => by
        rw [List.mem_singleton.mp new]
        exact first y later) sorted'
    refine ⟨?_, fun room => ?_⟩
    · rw [List.foldl_cons, peers', List.append_assoc]
      rfl
    · have one := agePeer_sends (x.age + 1) found room
      have now : (agePeer x.addr (x.age + 1) q).now = q.now := (agePeer_act default q x.addr (x.age + 1)).now
      have later := sends one.le
      rw [now] at later
      exact one.trans later

theorem flatMap_silences (l : List Peer) (now : Nat) : (l.flatMap fun x => silences x (x.age + 1) now) =
    (l.filter fun x => x.age == 3000 && x.namedSpans != []).map fun x => .peerSilent x.addr x.namedSpans now := by
  induction l with
  | nil => rfl
  | cons x l ih =>
    rw [List.flatMap_cons, ih]
    unfold silences sat
    by_cases falls : x.age = 3000 ∧ x.namedSpans ≠ []
    · rw [List.filter_cons_of_pos (by simpa using falls), if_pos ⟨by omega, by omega, falls.2⟩]
      rfl
    · rw [List.filter_cons_of_neg (by simpa using falls), if_neg fun h => falls ⟨by omega, h.2.2⟩]
      rfl

theorem mem_namedSpans {x : Peer} {k : Nat} : k ∈ x.namedSpans ↔ k < 32 ∧ ∃ e ∈ x.entries, e.span = k ∧ e.kind ≠ .claim := by
  unfold Peer.namedSpans Peer.names
  rw [List.mem_filter, List.mem_range, List.any_eq_true]
  simp only [Bool.and_eq_true, beq_iff_eq, bne_iff_ne]

/-- Settles O51. -/
theorem peersAge : Obligations.PeersAge := by
  intro s c p runs
  refine ⟨fun sorted => completes_running runs rfl ?_, fun addr x found => completes_running runs rfl ?_, fun x k => mem_namedSpans⟩
  · have settled := settle_settled c (agePeers p)
    have crane := (agePeers_act c p).trans (settle_act c (agePeers p) c)
    obtain ⟨peers, sends⟩ := foldl_agePeer (before := []) (q := p) rfl (fun _ mem => nomatch mem) sorted
    have table : (settle c (agePeers p)).span.peers = p.span.peers.map fun x => { x with age := min 65535 (x.age + 1) } :=
      settled.peers.trans peers
    have sent (room : p.line.reports.length ≤ 8) : Sends p (agePeers p) _ := sends (waiting_le room)
    have reports (room : p.line.reports.length ≤ 8) := settle_sendsFirst c (sent room)
    rw [flatMap_silences] at reports
    generalize settle c (agePeers s.part) = q at *
    exact ⟨table, crane.frame, reports⟩
  · obtain rfl : x.addr = addr := eq_of_beq (List.find?_some (p := fun z : Peer => z.addr == addr) found)
    have at_x : peerAt p x.addr = some x := found
    have falls : peerFallsSilent x.addr p = agePeer x.addr (max 3001 x.age) p := by
      unfold peerFallsSilent
      rw [at_x]
      rfl
    rw [show peerFallsSilent x.addr s.part = _ from falls]
    have crane := (agePeer_act c p x.addr (max 3001 x.age)).trans (settle_act c _ c)
    have silent : 3000 < sat 65535 (max 3001 x.age) := by
      unfold sat
      omega
    refine ⟨⟨x.aged (max 3001 x.age), ?_, rfl, decide_eq_true silent, rfl⟩, crane.frame, fun room => settle_sendsFirst c ?_⟩
    · rw [(settle_settled c _).peers, agePeer_peers _ at_x]
      exact mem_putBy _ _ _
    · have sends := agePeer_sends (max 3001 x.age) at_x (waiting_le room)
      unfold silences at sends
      simp only [silent, true_and] at sends
      exact sends

end Sys2Proof.Machine
end

