-- ==== Sys2Proof/Proofs/SpanNotices.lean ====
section
/-! PROOFS. A span notice taken: its peer record, contention, yielding and the double occupancy (07 R122, R128). -/
namespace Sys2Proof.Machine
open Sys2Proof

variable {c : Settings} {p q : Part}

/-! ### A SPAN notice, span by span (07 R122, R128) -/

/-- The parts of taking a notice: the record, the double holds, the contests and the answers to claims. -/
theorem takeSpanNotice_eq (c : Settings) (addr : Nat) (n : SpanNotice) (p : Part) : ∃ d t,
    d = ((freshEntries p addr n).filter (·.kind != .claim)).foldl (fun q e => resolveDouble c addr e q) (recordPeer addr n p)
      ∧ t = n.entries.foldl (fun q e => contest e q) d
      ∧ takeSpanNotice c addr n p = ((freshEntries p addr n).filter (·.kind == .claim)).foldl (fun q e => answerClaim c e q) t :=
  ⟨_, _, rfl, rfl, rfl⟩

/-- A new HELD or OCCUPIED entry takes a held span away. -/
def takesSpan (x : Span) (own : Rank) (k : Nat) (e : Entry) : Prop :=
  e.span = k ∧ e.kind ≠ .claim ∧ (e.kind = .occupied ∨ (x.occupied = false ∧ own.better e.rank = false))

theorem yieldsTo_iff {x : Span} {own : Rank} {e : Entry} :
    yieldsTo x own e = true ↔ e.kind = .occupied ∨ (x.occupied = false ∧ own.better e.rank = false) := by
  unfold yieldsTo
  simp only [Bool.or_eq_true, beq_iff_eq, Bool.and_eq_true, Bool.not_eq_true']

theorem any_yields_iff {x : Span} {own : Rank} {k : Nat} {l : List Entry} :
    ((l.filter (·.kind != .claim)).any fun e => e.span == k && yieldsTo x own e) = true ↔ ∃ e ∈ l, takesSpan x own k e := by
  simp only [List.any_eq_true, List.mem_filter, Bool.and_eq_true, beq_iff_eq, bne_iff_ne, yieldsTo_iff, takesSpan, and_assoc,
    and_left_comm]

section
variable (addr : Nat) (n : SpanNotice) {k : Nat} (undue : (releaseDue p).spanAt k = p.spanAt k)
include undue

theorem recordPeer_undue : (releaseDue (recordPeer addr n p)).spanAt k = (recordPeer addr n p).spanAt k := by
  rw [recordPeer_due, recordPeer_spanAt, undue]

/-- Of a span whose release is not due, a notice leaves what its double holds and its contests leave. -/
theorem takeSpanNotice_spanAt {d : Part}
    (doubles : d = ((freshEntries p addr n).filter (·.kind != .claim)).foldl (fun q e => resolveDouble c addr e q) (recordPeer addr n p)) :
    (takeSpanNotice c addr n p).spanAt k = (n.entries.foldl (fun q e => contest e q) d).spanAt k := by
  obtain ⟨d', t, rfl, rfl, parts⟩ := takeSpanNotice_eq c addr n p
  have still := doubles_undue c addr ((freshEntries p addr n).filter (·.kind != .claim)) (recordPeer_undue addr n undue)
  rw [← doubles] at still parts
  rw [parts]
  exact answers_spanAt c _ k _ ((contests_same n.entries d k).2.2.mpr still)

theorem takeSpanNotice_none (free : (p.spanAt k).role = .none) : (takeSpanNotice c addr n p).spanAt k = p.spanAt k := by
  have doubled := doubles_spanAt c addr ((freshEntries p addr n).filter (·.kind != .claim)) k _ (recordPeer_undue addr n undue)
  rw [recordPeer_spanAt, free] at doubled
  rw [takeSpanNotice_spanAt addr n undue rfl, contests_spanAt, doubled, free]

theorem takeSpanNotice_claim {r : Rank} {d : Option Nat} {contested : Bool} {sn : Nat} (claim : (p.spanAt k).role = .claim r d contested sn) :
    (takeSpanNotice c addr n p).spanAt k = { p.spanAt k with
      role := .claim r d (contested || n.entries.any fun e => e.span == k && e.kind == .claim && e.rank.better r) sn } := by
  have doubled := doubles_spanAt c addr ((freshEntries p addr n).filter (·.kind != .claim)) k _ (recordPeer_undue addr n undue)
  rw [recordPeer_spanAt, claim] at doubled
  rw [takeSpanNotice_spanAt addr n undue rfl, contests_spanAt, doubled, claim]

theorem takeSpanNotice_held {own : Rank} (held : (p.spanAt k).role = .held own) :
    ((∃ e ∈ freshEntries p addr n, takesSpan (p.spanAt k) own k e) → (takeSpanNotice c addr n p).spanAt k =
        { (p.spanAt k).dropRole with retry := some (p.msCount + 2 * c.window) })
      ∧ (¬(∃ e ∈ freshEntries p addr n, takesSpan (p.spanAt k) own k e) → (takeSpanNotice c addr n p).spanAt k = p.spanAt k) := by
  have doubled := doubles_spanAt c addr ((freshEntries p addr n).filter (·.kind != .claim)) k _ (recordPeer_undue addr n undue)
  have count : (recordPeer addr n p).msCount = p.msCount := by rw [recordPeer_rest]; rfl
  rw [recordPeer_spanAt, held, count] at doubled
  dsimp only at doubled
  rw [takeSpanNotice_spanAt addr n undue rfl, contests_spanAt, doubled]
  refine ⟨fun taken => ?_, fun kept => ?_⟩
  · rw [if_pos (any_yields_iff.mpr taken)]
    rfl
  · rw [if_neg fun any => kept (any_yields_iff.mp any), held]

end

/-- An entry that makes a station form a notice at once. -/
def answered (p : Part) (e : Entry) : Prop :=
  if e.kind = .claim then (p.spanAt e.span).role ≠ .none ∨ (p.spanAt e.span).occupied = true
  else (p.spanAt e.span).role.isHeld = true

theorem contests_formed (l : List Entry) (p : Part) : (l.foldl (fun q e => contest e q) p).span.formed = p.span.formed := by
  refine List.foldlRecOn (motive := fun q : Part => q.span.formed = p.span.formed) l _ rfl fun q same e _ => Eq.trans ?_ same
  unfold contest
  dsimp only
  split <;> rfl

/-- A notice is formed at once where an entry is answered, and takes with it the releases that were due; else none is formed. -/
theorem takeSpanNotice_forms (c : Settings) (addr : Nat) (n : SpanNotice) (p : Part) :
    ((∃ e ∈ freshEntries p addr n, answered p e) → Noticed (takeSpanNotice c addr n p)
        ∧ ∀ k, (releaseDue p).spanAt k ≠ p.spanAt k → ((takeSpanNotice c addr n p).spanAt k).role = .none)
      ∧ (¬(∃ e ∈ freshEntries p addr n, answered p e) → (takeSpanNotice c addr n p).span.formed = p.span.formed) := by
  obtain ⟨d, t, d_eq, t_eq, parts⟩ := takeSpanNotice_eq c addr n p
  rw [parts]
  have due {k : Nat} (h : (releaseDue p).spanAt k ≠ p.spanAt k) :
      (releaseDue (recordPeer addr n p)).spanAt k ≠ (recordPeer addr n p).spanAt k := by
    rw [recordPeer_due, recordPeer_spanAt]
    exact h
  rcases doubles_forms c addr ((freshEntries p addr n).filter (·.kind != .claim)) (recordPeer addr n p) with
    ⟨⟨e, mem, held⟩, noticed, gone⟩ | ⟨free, stands⟩
  · obtain ⟨fresh, kind⟩ := List.mem_filter.mp mem
    have answer : answered p e := by
      unfold answered
      rw [if_neg (by simpa using kind), ← recordPeer_spanAt addr n p]
      exact held
    rw [← d_eq] at noticed gone
    refine ⟨fun _ => ⟨?_, fun k h => ?_⟩, fun none => absurd ⟨e, fresh, answer⟩ none⟩
    · rw [t_eq]
      exact .foldl (fun q e h => h.answerClaim c e) _ _ (.foldl (fun q e h => h.contest e) _ _ noticed)
    · rw [t_eq]
      exact answers_none c _ k _ (contests_none _ k (gone k (due h)))
  · rw [stands] at d_eq
    have same (k : Nat) := contests_same n.entries d k
    rw [← t_eq] at same
    have spans (k : Nat) : d.spanAt k = p.spanAt k := by rw [d_eq, recordPeer_spanAt]
    rcases answers_forms c ((freshEntries p addr n).filter (·.kind == .claim)) t with ⟨⟨e, mem, own⟩, noticed, gone⟩ | ⟨free', stands'⟩
    · obtain ⟨fresh, kind⟩ := List.mem_filter.mp mem
      obtain ⟨role, occupied, _⟩ := same e.span
      rw [spans] at role occupied
      have answer : answered p e := by
        unfold answered
        rw [if_pos (by simpa using kind), ← occupied]
        exact own.imp_left (mt role.mpr)
      refine ⟨fun _ => ⟨noticed, fun k h => gone k fun still => due h ?_⟩, fun none => absurd ⟨e, fresh, answer⟩ none⟩
      rw [← d_eq]
      exact (same k).2.2.mp still
    · refine ⟨fun ⟨e, fresh, answer⟩ => ?_, fun _ => ?_⟩
      · exfalso
        unfold answered at answer
        by_cases claim : e.kind = .claim
        · rw [if_pos claim] at answer
          obtain ⟨none, empty⟩ := free' e (List.mem_filter.mpr ⟨fresh, by simpa using claim⟩)
          obtain ⟨role, occupied, _⟩ := same e.span
          rw [spans] at role occupied
          rcases answer with h | h
          · exact h (role.mp none)
          · rw [← occupied, empty] at h
            cases h
        · rw [if_neg claim] at answer
          have loose := free e (List.mem_filter.mpr ⟨fresh, by simpa using claim⟩)
          rw [recordPeer_spanAt, answer] at loose
          cases loose
      · rw [stands', t_eq, contests_formed, d_eq, recordPeer_rest]

end Sys2Proof.Machine

namespace Sys2Proof.Machine
open Sys2Proof

variable {c : Settings} {p q : Part}

/-! ### A SPAN notice and what follows it (07 R122) -/

theorem takeSpanNotice_spanned (c : Settings) (addr : Nat) (n : SpanNotice) (p : Part) :
    Spanned (recordPeer addr n p) (takeSpanNotice c addr n p) := by
  obtain ⟨d, t, rfl, rfl, parts⟩ := takeSpanNotice_eq c addr n p
  rw [parts]
  exact ((doubles_spanned c addr _ _).trans (contests_spanned _ _)).trans (answers_spanned c _ _)

theorem takeSpanNotice_peers (c : Settings) (addr : Nat) (n : SpanNotice) (p : Part) : (takeSpanNotice c addr n p).span.peers =
    putBy (·.addr) ⟨addr, n.pos, n.referenced, n.half, n.dir, n.speed, n.entries, 0⟩ p.span.peers :=
  (takeSpanNotice_spanned c addr n p).peers.trans (recordPeer_peers addr n p)

/-- The sender's own record names the spans that its notice names. -/
theorem takeSpanNotice_named {addr : Nat} {n : SpanNotice} {e : Entry} (mem : e ∈ n.entries) (kind : e.kind ≠ .claim) :
    peerPart (takeSpanNotice c addr n p) e.span ≠ [] := by
  have stands := mem_putBy (·.addr) (⟨addr, n.pos, n.referenced, n.half, n.dir, n.speed, n.entries, 0⟩ : Peer) p.span.peers
  rw [← takeSpanNotice_peers c addr n p] at stands
  refine List.ne_nil_of_mem (List.mem_filter.mpr ⟨stands, ?_⟩)
  exact List.any_eq_true.mpr ⟨e, mem, by simpa using kind⟩

/-- A span yielded to an entry is lost until its retry time, through what follows. -/
theorem settle_yielded {addr : Nat} {n : SpanNotice} {e : Entry} {own : Rank} (fresh : e ∈ freshEntries p addr n) (kind : e.kind ≠ .claim)
    (held : (p.spanAt e.span).role = .held own)
    (yields : e.kind = .occupied ∨ ((p.spanAt e.span).occupied = false ∧ own.better e.rank = false))
    (alone : (releaseDue p).spanAt e.span = p.spanAt e.span ∨ n.entries = [e]) :
    ((settle c (takeSpanNotice c addr n p)).spanAt e.span).role = .none
      ∧ ((settle c (takeSpanNotice c addr n p)).spanAt e.span).retry = some (p.msCount + 2 * c.window) := by
  have taken : (takeSpanNotice c addr n p).spanAt e.span =
      { (p.spanAt e.span).dropRole with retry := some (p.msCount + 2 * c.window) } := by
    rcases alone with undue | single
    · exact (takeSpanNotice_held addr n undue held).1 ⟨e, fresh, rfl, kind, yields⟩
    · have only : freshEntries p addr n = [e] := by
        unfold freshEntries at fresh ⊢
        rw [single] at fresh ⊢
        exact List.filter_cons_of_pos (List.mem_filter.mp fresh).2
      obtain ⟨d, t, d_eq, t_eq, parts⟩ := takeSpanNotice_eq c addr n p
      have role : ((recordPeer addr n p).spanAt e.span).role = .held own := by rw [recordPeer_spanAt, held]
      have double : [e].filter (·.kind != .claim) = [e] := List.filter_cons_of_pos (by simpa using kind)
      have claims : [e].filter (·.kind == .claim) = [] := List.filter_cons_of_neg (by simpa using kind)
      have count : (recordPeer addr n p).msCount = p.msCount := by rw [recordPeer_rest]; rfl
      have lost : d.spanAt e.span = { (p.spanAt e.span).dropRole with retry := some (p.msCount + 2 * c.window) } := by
        rw [d_eq, only, double]
        refine (resolveDouble_spanAt c addr role e.span).trans ?_
        rw [recordPeer_spanAt, count]
        exact if_pos ⟨rfl, yieldsTo_iff.mpr yields⟩
      rw [parts, only, claims, List.foldl_nil, t_eq, contests_spanAt, lost]
      rfl
  rw [settle_spanAt c _ e.span (by rw [taken]; rfl)
    (.inr ⟨by rw [taken]; rfl, takeSpanNotice_named (List.mem_of_mem_filter fresh) kind⟩), taken]
  exact ⟨rfl, rfl⟩

/-- A claim that a better one contests, and that still stands, is contested through what follows. -/
theorem settle_contested {addr : Nat} {n : SpanNotice} {e : Entry} {r : Rank} {d : Option Nat} {contested : Bool} {sn : Nat}
    (mem : e ∈ n.entries) (kind : e.kind = .claim) (claim : (p.spanAt e.span).role = .claim r d contested sn)
    (better : e.rank.better r = true) (undue : (releaseDue p).spanAt e.span = p.spanAt e.span)
    (stands : claimStands c (settle c (takeSpanNotice c addr n p)) e.span = true) :
    ((settle c (takeSpanNotice c addr n p)).spanAt e.span).role = .claim r d true sn := by
  have sp := takeSpanNotice_spanned c addr n p
  have freed : p.craneLocal = false := by
    have same : (settle c (takeSpanNotice c addr n p)).craneLocal = p.craneLocal := by
      unfold Part.craneLocal
      rw [(settle_lines c _).2.2.2, sp.rest, recordPeer_rest]
    cases locl : p.craneLocal with
    | false => rfl
    | true =>
      unfold claimStands at stands
      rw [same, locl] at stands
      split at stands
      · simp at stands
      · cases stands
  have loose : (p.spanAt e.span).releasing = false := by
    cases releasing : (p.spanAt e.span).releasing with
    | false => rfl
    | true =>
      rw [releaseDue_spanAt, freed, Bool.false_and, if_pos ⟨rfl, releasing⟩] at undue
      exact releasing.symm.trans (congrArg Span.releasing undue).symm
  have among : (n.entries.any fun x => x.span == e.span && x.kind == .claim && x.rank.better r) = true :=
    List.any_eq_true.mpr ⟨e, mem, by simp [kind, better]⟩
  have taken := takeSpanNotice_claim (c := c) addr n undue claim
  rw [among, Bool.or_true] at taken
  rw [settle_spanAt c _ e.span (by rw [taken]; exact loose) (.inl ⟨by rw [taken]; rfl, stands⟩), taken]

/-- A notice formed stands through what follows, and waits in its slot. -/
theorem settle_forms {addr : Nat} {n : SpanNotice} (answers : ∃ e ∈ freshEntries p addr n, answered p e) :
    (settle c (takeSpanNotice c addr n p)).span.formed = p.msCount
      ∧ (settle c (takeSpanNotice c addr n p)).line.spanSlot.isSome = true := by
  have noticed := (((takeSpanNotice_forms c addr n p).1 answers).1).settle c
  refine ⟨noticed.formed.trans ?_, noticed.waits⟩
  have clock : (settle c (takeSpanNotice c addr n p)).clock = p.clock := by
    rw [(settle_act c (takeSpanNotice c addr n p) c).clock, (takeSpanNotice_spanned c addr n p).rest, recordPeer_rest]
  unfold Part.msCount
  rw [clock]

/-! ### One double hold (07 R128, R135) -/

theorem getLast_placeReport (l : LineUnit) (r : Report) : (l.placeReport r).reports.getLast? = some r := by
  unfold LineUnit.placeReport
  dsimp only
  split <;> exact List.getLast?_concat

theorem resolveDouble_last {addr : Nat} {e : Entry} {own : Rank} (held : (p.spanAt e.span).role = .held own) :
    (resolveDouble c addr e p).line.reports.getLast? =
      some (.spanConflict e.span addr e.kind e.rank own (yieldsTo (p.spanAt e.span) own e) p.now) := by
  rw [resolveDouble_held c addr held]
  exact getLast_placeReport _ _

theorem resolveDouble_yieldStop {addr : Nat} {e : Entry} {own : Rank} (held : (p.spanAt e.span).role = .held own) :
    (resolveDouble c addr e p).span.yieldStop =
      if yieldsTo (p.spanAt e.span) own e = true then p.span.yieldStop || (onStretch c p e.span && !p.travel.standstill)
      else p.span.yieldStop := by
  rw [resolveDouble_held c addr held]
  split <;> rfl

theorem onStretch_iff {k : Nat} : onStretch c p k = true ↔ ∃ n, p.position = some n
    ∧ intersects (c.spans.getD k default) (stretch c n p.span.decision).1 (stretch c n p.span.decision).2 = true := by
  unfold onStretch
  cases p.position with
  | none => exact ⟨fun h => Bool.noConfusion h, fun ⟨_, h, _⟩ => Option.noConfusion rfl (heq_of_eq h)⟩
  | some n => exact ⟨fun h => ⟨n, rfl, h⟩, fun ⟨_, h, on⟩ => Option.some.inj h ▸ on⟩

/-- What a double hold leaves of its span, of the yield stop and of the line. -/
theorem resolveDouble_law (c : Settings) (p : Part) (addr : Nat) (e : Entry) (own : Rank) (held : (p.spanAt e.span).role = .held own) :
    let x := p.spanAt e.span
    let q := resolveDouble c addr e p
    let y := q.spanAt e.span
    let yields := e.kind = .occupied ∨ (x.occupied = false ∧ own.better e.rank = false)
    (yields → y.role = .none ∧ y.retry = some (p.msCount + 2 * c.window)
        ∧ q.line.reports.getLast? = some (.spanConflict e.span addr e.kind e.rank own true p.now)
        ∧ (p.span.yieldStop = false → (q.span.yieldStop = true ↔ p.travel.standstill = false
            ∧ ∃ n, p.position = some n
                ∧ intersects (c.spans.getD e.span default) (stretch c n p.span.decision).1 (stretch c n p.span.decision).2 = true)))
      ∧ (¬yields → (x.releasing = false → y = x) ∧ q.span.yieldStop = p.span.yieldStop
        ∧ q.line.reports.getLast? = some (.spanConflict e.span addr e.kind e.rank own false p.now))
      ∧ q.line.spanSlot.isSome = true ∧ q.span.formed = p.msCount := by
  intro x q y yields
  have span : y = _ := resolveDouble_spanAt c addr held e.span
  have last : q.line.reports.getLast? = _ := resolveDouble_last held
  have stops : q.span.yieldStop = _ := resolveDouble_yieldStop held
  have noticed : Noticed q := resolveDouble_noticed c addr held
  have count : q.msCount = p.msCount := (resolveDouble_spanned c addr e p).msCount
  refine ⟨fun yield => ?_, fun keep => ?_, noticed.waits, noticed.formed.trans count⟩
  · have given : yieldsTo (p.spanAt e.span) own e = true := yieldsTo_iff.mpr yield
    rw [if_pos ⟨rfl, given⟩] at span
    rw [given] at last
    rw [if_pos given] at stops
    refine ⟨by rw [span]; rfl, by rw [span], last, fun free => ?_⟩
    rw [stops, free, Bool.false_or, Bool.and_eq_true, onStretch_iff, Bool.not_eq_true']
    exact and_comm
  · have kept : yieldsTo (p.spanAt e.span) own e = false := Bool.eq_false_iff.mpr fun given => keep (yieldsTo_iff.mp given)
    rw [kept] at last span stops
    rw [if_neg fun h => Bool.false_ne_true h.2] at span
    refine ⟨fun loose => ?_, stops.trans (if_neg Bool.false_ne_true), last⟩
    rw [span, releaseDue_spanAt]
    exact if_neg fun due => Bool.false_ne_true (loose.symm.trans due.2)

theorem contest_law (p : Part) (e : Entry) (r : Rank) (d : Option Nat) (contested : Bool) (sn : Nat)
    (claim : (p.spanAt e.span).role = .claim r d contested sn) :
    (e.kind = .claim → contest e p = p.setSpan e.span { p.spanAt e.span with role := .claim r d (contested || e.rank.better r) sn })
      ∧ (e.kind ≠ .claim → contest e p = p) := by
  unfold contest
  dsimp only
  rw [claim]
  refine ⟨fun kind => by rw [kind], fun kind => ?_⟩
  cases other : e.kind with
  | claim => exact absurd other kind
  | held => rfl
  | occupied => rfl

/-- A yield stop stops travel, and ends at standstill, with the position unknown, or with the target. -/
theorem yieldStop_law (c : Settings) (p : Part) (yielded : p.span.yieldStop = true) : travelDecision c p = .stop
    ∧ (settleYield p).span.yieldStop = (!p.travel.standstill && p.travel.referenced)
    ∧ ∀ t, (setTarget t p).span.yieldStop = !(p.moves.target.isSome && t.isNone) := by
  refine ⟨?_, ?_, fun t => ?_⟩
  · have stop : mustStop p = true := by
      unfold mustStop
      rw [yielded, Bool.or_true]
    unfold travelDecision
    split
    · exact if_pos stop
    · rfl
  · show (p.span.yieldStop && _ && _) = _
    rw [yielded, Bool.true_and]
  · rw [setTarget_span, yielded, Bool.true_and]

theorem readSpan_unreferenced {pl : List Byte} {n : SpanNotice} (read : readSpan pl = .notice n) (unknown : n.referenced = false) :
    n.pos = none := by
  unfold readSpan at read
  dsimp only at read
  split at read
  · cases read
  · split at read
    · cases read
    · split at read
      · cases read
      · split at read
        · cases read
        · obtain rfl := SpanRead.notice.inj read
          exact if_neg fun known => of_decide_eq_false unknown known.1

theorem spanPayload_notice {src : Byte} {pl : List Byte} {n : SpanNotice} (runs : p.runs c) (read : readSpan pl = .notice n) :
    spanPayload src pl p = settle c (takeSpanNotice c src.toNat n p) := by
  unfold spanPayload
  rw [read]
  exact onRunning_of_runs runs _

/-- Settles O50. -/
theorem spanNoticeTaken : Obligations.SpanNoticeTaken := by
  refine ⟨?_, fun c p addr e own held => resolveDouble_law c p addr e own held, contest_law, ?_, yieldStop_law⟩
  · intro s c src target pl p runs receives foreign
    have arrives : exec (.spanNoticeReceived src target pl) s = .next { s with part := spanPayload src pl (heard p) } := by
      refine (show exec _ s = .next (s.onPart (receive src (spanPayload src pl))) from rfl).trans ?_
      unfold State.onPart
      rw [receive_eq runs receives foreign]
    refine ⟨fun n read => completes_of arrives ?_, fun short => ?_, fun bad => completes_of arrives ?_⟩
    · rw [spanPayload_notice (c := c) (show (heard p).runs c from runs) read]
      have crane := (takeSpanNotice_act c (heard p) c src.toNat n).trans (settle_act c (takeSpanNotice c src.toNat n (heard p)) c)
      have peers := (settle_settled c (takeSpanNotice c src.toNat n (heard p))).peers.trans (takeSpanNotice_peers c src.toNat n (heard p))
      refine ⟨peers, readSpan_unreferenced read, crane.heat, crane.frame, rfl, fun room => ?_, ?_, ?_, ?_⟩
      · have sends := heard_sendsFirst (settle_sendsFirst c (takeSpanNotice_sends c src.toNat n (heard p) room))
        have same := conflictReports_congr (p := p) (q := heard p) (fun _ => rfl) (fun _ => rfl) rfl
        rw [same] at sends
        exact sends
      · exact fun e fresh own kind held yields alone => settle_yielded (p := heard p) fresh kind held yields (alone.imp_left not_not.mp)
      · exact fun e mem r d contested sn kind claim better undue stands =>
          settle_contested (p := heard p) mem kind claim better (not_not.mp undue) stands
      · exact fun e fresh answer => settle_forms (p := heard p) ⟨e, fresh, answer⟩
    · rw [arrives]
      unfold spanPayload
      rw [short]
    · unfold spanPayload
      rw [bad]
      rfl
  · intro c p addr n fresh q forms
    obtain ⟨formed, none⟩ := takeSpanNotice_forms c addr n p
    refine ⟨fun k => ⟨fun undue => ⟨fun free => takeSpanNotice_none addr n undue free, fun own held => ?_,
      fun r d contested sn claim => takeSpanNotice_claim addr n undue claim⟩, fun due answers => (formed answers).2 k due⟩,
      fun answers => ⟨(formed answers).1.formed.trans ?_, (formed answers).1.waits⟩, none⟩
    · exact takeSpanNotice_held addr n undue held
    · rw [(takeSpanNotice_spanned c addr n p).msCount]
      rw [recordPeer_rest]
      rfl

end Sys2Proof.Machine
end

