-- ==== Sys2Proof/Proofs/Clearing.lean ====
section
/-! PROOFS. CLEAR_BED: the moves and the pieces of a bed taken out (03 R50, 09 R174). -/
namespace Sys2Proof.Machine
open Sys2Proof

variable {c : Settings} {p : Part}

/-! ### CLEAR_BED (03 R50, 09 R174) -/

section
variable {b : Nat} (inside : b < p.beds.length)
include inside

theorem bed_enterEmpty (w : BedCause) : (enterEmpty c b w p).bed b =
    { p.bed b with hold := false, setpoint := (c.bed b).tf, state := .empty, db := 0 } := by
  have inside' : b < (p.withBed b fun x => { x with hold := false, setpoint := (c.bed b).tf }).beds.length := by
    rw [withBed_beds_length]
    exact inside
  have entered := bed_setBedState .empty w inside'
  rw [bed_withBed_same inside] at entered
  have inside'' : b < (setBedState b .empty w (p.withBed b fun x => { x with hold := false, setpoint := (c.bed b).tf })).beds.length := by
    unfold setBedState
    rw [report_beds, withBed_beds_length]
    exact inside'
  unfold enterEmpty
  rw [bed_formDemand inside'', entered]
  unfold demandOf
  rw [entered]
  rfl

end

theorem bed_enterEmpty_other {b j : Nat} (other : j ≠ b) (w : BedCause) : (enterEmpty c b w p).bed j = p.bed j := by
  unfold enterEmpty
  rw [bed_formDemand_other other, bed_setBedState_other _ _ other, bed_withBed_other other]

/-- The id a record carries. -/
def idAt (p : Part) (n : Nat) : Option Nat := (recordAt p n).map (·.id)

theorem findRecord_iff {id n : Nat} : findRecord p id = some n ↔ idAt p n = some id ∧ ∀ k < n, idAt p k ≠ some id := by
  have first {n : Nat} (found : findRecord p id = some n) : idAt p n = some id ∧ ∀ k < n, idAt p k ≠ some id := by
    obtain ⟨_, ⟨x, record, own⟩, low⟩ := findRecord_spec found
    refine ⟨by unfold idAt; rw [record]; exact congrArg some own, fun k below carries => ?_⟩
    obtain ⟨y, at_k, same⟩ := Option.map_eq_some_iff.mp carries
    exact low k below y at_k same
  refine ⟨first, fun ⟨carries, low⟩ => ?_⟩
  cases found : findRecord p id with
  | some m =>
    obtain ⟨carries', low'⟩ := first found
    rcases Nat.lt_trichotomy m n with below | same | above
    · exact absurd carries' (low m below)
    · rw [same]
    · exact absurd carries (low' n above)
  | none =>
    obtain ⟨x, record, own⟩ := Option.map_eq_some_iff.mp carries
    unfold findRecord at found
    rw [List.findIdx?_eq_none_iff] at found
    unfold recordAt at record
    rw [List.getD_eq_getElem?_getD] at record
    have mem : some x ∈ p.pieces.register := by
      cases entry : p.pieces.register[n]? with
      | none => rw [entry] at record; cases record
      | some o =>
        rw [entry] at record
        exact record ▸ List.mem_of_getElem? entry
    have other := found _ mem
    rw [Option.any_some, own, beq_self_eq_true] at other
    cases other

/-- Where the same records carry an id, the same one is found by it. -/
theorem findRecord_congr {q : Part} {id : Nat} (same : ∀ n, idAt q n = some id ↔ idAt p n = some id) :
    findRecord q id = findRecord p id := by
  refine Option.ext fun n => ?_
  show findRecord q id = some n ↔ findRecord p id = some n
  rw [findRecord_iff, findRecord_iff]
  simp only [ne_eq, same]

theorem findRecord_of_ids {q : Part} (same : ∀ n, idAt q n = idAt p n) (id : Nat) : findRecord q id = findRecord p id :=
  findRecord_congr fun n => by rw [same]

theorem idAt_removePiece (id n : Nat) : idAt (removePiece id p) n = if findRecord p id = some n then none else idAt p n := by
  unfold idAt
  by_cases own : findRecord p id = some n
  · rw [if_pos own, recordAt_removePiece own]
    rfl
  · rw [if_neg own]
    unfold removePiece
    split
    · rename_i m found
      rw [recordAt_setRecord, if_neg fun same => own (by rw [found, same.1])]
    · rfl

/-- Removing a piece leaves the records of the others in their places. -/
theorem findRecord_removePiece_other {i id n : Nat} (other : i ≠ id) (found : findRecord p id = some n) :
    findRecord (removePiece i p) id = some n := by
  obtain ⟨carries, low⟩ := findRecord_iff.mp found
  refine findRecord_iff.mpr ⟨?_, fun k below => ?_⟩
  · rw [idAt_removePiece, if_neg fun same => ?_]
    · exact carries
    · obtain ⟨carries', _⟩ := findRecord_iff.mp same
      exact other (Option.some.inj (carries'.symm.trans carries))
  · rw [idAt_removePiece]
    split
    · exact fun e => nomatch e
    · exact low k below

/-- Pieces removed one after the other. -/
def removePieces (l : List Nat) (p : Part) : Part := l.foldl (fun q i => removePiece i q) p

theorem idAt_removePieces_free {n : Nat} (l : List Nat) : ∀ p : Part, idAt p n = none → idAt (removePieces l p) n = none := by
  induction l with
  | nil => exact fun _ free => free
  | cons i l ih => exact fun p free => ih _ (by rw [idAt_removePiece, free, ite_self])

theorem idAt_removePieces_kept {id n : Nat} (l : List Nat) (other : id ∉ l) :
    ∀ p : Part, idAt p n = some id → idAt (removePieces l p) n = some id := by
  induction l with
  | nil => exact fun _ stands => stands
  | cons i l ih =>
    intro p stands
    obtain ⟨differs, other⟩ := not_or.mp (fun e => other (List.mem_cons.mpr e))
    refine ih other _ ?_
    rw [idAt_removePiece, if_neg fun found => ?_]
    · exact stands
    · obtain ⟨carries, _⟩ := findRecord_iff.mp found
      exact differs (Option.some.inj (stands.symm.trans carries))

theorem idAt_removePieces_gone {id n : Nat} (l : List Nat) (mem : id ∈ l) :
    ∀ p : Part, findRecord p id = some n → idAt (removePieces l p) n = none := by
  induction l with
  | nil => cases mem
  | cons i l ih =>
    intro p found
    by_cases own : i = id
    · subst own
      exact idAt_removePieces_free l _ (by rw [idAt_removePiece, if_pos found])
    · exact ih ((List.mem_cons.mp mem).resolve_left fun e => own e.symm) _ (findRecord_removePiece_other own found)

theorem removePieces_moves (l : List Nat) (p : Part) : (removePieces l p).moves = p.moves :=
  foldl_preserves (g := Part.moves) (fun _ i => removePiece_moves i) l p

/-! The QUEUED moves of the bed leave the queue. -/

theorem dropQueued_queue (m : Move) : (dropQueued p m).moves.queue = p.moves.queue.filter (·.tag != m.tag) := by
  unfold dropQueued
  rw [report_moves, removeMove_queue, releaseMark_moves]

theorem idAt_dropQueued (m : Move) (n : Nat) : idAt (dropQueued p m) n = idAt p n := by
  show idAt (removeMove m (releaseMark m.tag m.piece p)) n = idAt p n
  unfold idAt
  rw [recordAt_removeMove, findRecord_releaseMark, recordAt_releaseMark]
  by_cases own : findRecord p m.piece = some n
  · simp only [if_pos own, Option.map_map]
    rfl
  · simp only [if_neg own]

/-- Of the queue stays what carries another tag than every move dropped. -/
theorem mem_dropQueued {x : Move} (l : List Move) : ∀ p : Part, x ∈ (l.foldl dropQueued p).moves.queue →
    x ∈ p.moves.queue ∧ ∀ m ∈ l, x.tag ≠ m.tag := by
  induction l with
  | nil => exact fun _ mem => ⟨mem, fun _ none => nomatch none⟩
  | cons m l ih =>
    intro p mem
    obtain ⟨stood, others⟩ := ih _ mem
    rw [dropQueued_queue, List.mem_filter] at stood
    obtain ⟨stood, differs⟩ := stood
    refine ⟨stood, List.forall_mem_cons.mpr ⟨?_, others⟩⟩
    simpa using differs

/-- The moves and pieces of bed `b` taken out. -/
def unloaded (b : Nat) (p : Part) : Part :=
  let q := (p.moves.queue.filter fun m => m.phase == .queued && (slotIds p b).contains m.piece).foldl dropQueued p
  (removePieces (slotIds p b) q).reportIf (!(slotIds p b).isEmpty) (.piecesRemoved b (slotIds p b).length q.now)

theorem clearBed_eq (b : Nat) : clearBed c b p =
    enterEmpty c b .order ((unloaded b p).withBed b fun x => { x with slots := x.slots.map fun _ => none }) := rfl

theorem unloaded_act (c : Settings) (b : Nat) (p : Part) : CraneAct c p (unloaded b p) :=
  ((CraneAct.foldl (fun q m => dropQueued_act c q m) _ p).trans
    (CraneAct.foldl (fun q i => removePiece_act c q i) _ _)).trans (.reportIf c _ _ _)

section
variable {b : Nat}

theorem unloaded_moves : (unloaded b p).moves =
    ((p.moves.queue.filter fun m => m.phase == .queued && (slotIds p b).contains m.piece).foldl dropQueued p).moves := by
  unfold unloaded
  dsimp only
  rw [reportIf_moves, removePieces_moves]

theorem idAt_unloaded (n : Nat) : ∃ q : Part, (∀ k, idAt q k = idAt p k) ∧ idAt (unloaded b p) n = idAt (removePieces (slotIds p b) q) n := by
  refine ⟨(p.moves.queue.filter fun m => m.phase == .queued && (slotIds p b).contains m.piece).foldl dropQueued p,
    fun k => foldl_preserves (g := (idAt · k)) (fun _ m => idAt_dropQueued m k) _ p, ?_⟩
  unfold unloaded Part.reportIf
  dsimp only
  split <;> rfl

/-- No move carries a piece of the bed, where none under way does. -/
theorem unloaded_queue (idle : ∀ m ∈ p.moves.queue, m.phase ≠ .queued → m.piece ∉ slotIds p b) {m : Move}
    (mem : m ∈ (unloaded b p).moves.queue) : m.piece ∉ slotIds p b := by
  intro carries
  rw [unloaded_moves] at mem
  obtain ⟨stood, others⟩ := mem_dropQueued _ _ mem
  have waits : m.phase = .queued := by
    by_contra working
    exact idle m stood working carries
  refine others m (List.mem_filter.mpr ⟨stood, ?_⟩) rfl
  rw [waits, List.contains_iff_mem.mpr carries]
  rfl

theorem clearBed_moves : (clearBed c b p).moves = (unloaded b p).moves := by
  rw [clearBed_eq, (enterEmpty_act c _ b .order).moves, withBed_moves]

theorem clearBed_pieces : (clearBed c b p).pieces = (unloaded b p).pieces := by
  rw [clearBed_eq, (enterEmpty_act c _ b .order).pieces, withBed_pieces]

theorem bed_clearBed (inside : b < p.beds.length) : (clearBed c b p).bed b = { p.bed b with
    slots := (p.bed b).slots.map fun _ => none, hold := false, setpoint := (c.bed b).tf, state := .empty, db := 0 } := by
  have inside' : b < (unloaded b p).beds.length := by rw [(unloaded_act c b p).beds]; exact inside
  rw [clearBed_eq, bed_enterEmpty (by rw [withBed_beds_length]; exact inside'), bed_withBed_same inside', (unloaded_act c b p).bed]

theorem bed_clearBed_other {j : Nat} (other : j ≠ b) : (clearBed c b p).bed j = p.bed j := by
  rw [clearBed_eq, bed_enterEmpty_other other, bed_withBed_other other, (unloaded_act c b p).bed]

end

theorem settle_idAt (n : Nat) : idAt (settle c p) n = idAt p n := by
  obtain ⟨v, after⟩ := (settle_recorded c p).records n
  unfold idAt
  rw [after, Option.map_map]
  rfl

theorem idAt_of_pieces {q : Part} (h : q.pieces = p.pieces) (n : Nat) : idAt q n = idAt p n :=
  congrArg (Option.map _) (recordAt_of_pieces h n)

/-- Settles O25. -/
theorem clearBedChecked : Obligations.ClearBedChecked := by
  intro s c src tag ps p b x takes shaped enough hb
  have inside : b < p.beds.length := shaped_beds (p := p) shaped hb
  have checks : orderClearBed ps c p = if !c.assigned b then refuse .range p
      else if x.state = .empty ∨ x.state = .curing ∨ x.state = .detensioning then refuse .badState p
      else if (p.moves.queue.any fun m => m.phase != .queued && (slotIds p b).contains m.piece) then refuse .badState p
      else doneSettled c (clearBed c b p) := rfl
  have wrong_iff : (x.state = .empty ∨ x.state = .curing ∨ x.state = .detensioning) ↔ x.state ≠ .casting ∧ x.state ≠ .detensioned := by
    cases x.state <;> decide
  have busy_iff : (p.moves.queue.any fun m => m.phase != .queued && (slotIds p b).contains m.piece) = true ↔
      ∃ m ∈ p.moves.queue, m.phase ≠ .queued ∧ m.piece ∈ slotIds p b := by
    simp only [List.any_eq_true, Bool.and_eq_true, bne_iff_ne, List.contains_iff_mem]
  simp only [wrong_iff, busy_iff] at checks
  split_ifs with assigned wrong busy
  · exact completes_refused rfl takes enough (checks.trans (by rw [assigned]; rfl))
  · exact completes_refused rfl takes enough (checks.trans (by rw [if_neg (by simpa using assigned), if_pos wrong]))
  · exact completes_refused rfl takes enough (checks.trans (by rw [if_neg (by simpa using assigned), if_neg wrong, if_pos busy]))
  have carried : orderClearBed ps c p = doneSettled c (clearBed c b p) :=
    checks.trans (by rw [if_neg (by simpa using assigned), if_neg wrong, if_neg busy])
  have act : PlantAct c p (clearBed c b p) := clearBed_act c p b
  refine completes_settled rfl takes enough carried act.toActs fun y q settled answered rest keeps => ?_
  have beds (j : Nat) : q.bed j = (clearBed c b p).bed j :=
    (bed_of_beds (by rw [rest, settled]) j).trans ((settle_act c _ c).bed j)
  have ids (n : Nat) : idAt q n = idAt (unloaded b p) n := by
    rw [idAt_of_pieces (show q.pieces = (settle c (clearBed c b p)).pieces by rw [rest, settled]), settle_idAt,
      idAt_of_pieces clearBed_pieces]
  have own := (beds b).trans (bed_clearBed inside)
  refine ⟨answered, ?_, fun m mem => ?_, fun id n listed found => ?_, fun n z record other => ?_,
    fun j other => (beds j).trans (bed_clearBed_other other),
    (act.trans (settled ▸ (settle_act c _ c).toPlantAct)).frame_answered rest keeps⟩
  · refine ⟨by rw [own], by rw [own], by rw [own], by rw [own], ?_, by rw [own], by rw [own], by rw [own], by rw [own]⟩
    unfold slotIds
    rw [own]
    simp
  · rw [show q.moves = (settle c (clearBed c b p)).moves by rw [rest, settled]] at mem
    obtain ⟨z, stood, same⟩ := mem_settle_queue mem
    rw [clearBed_moves] at stood
    rw [show m.piece = z.piece by rw [same]]
    exact unloaded_queue (fun m mem working carries => busy ⟨m, mem, working, carries⟩) stood
  · obtain ⟨r, same, after⟩ := idAt_unloaded (p := p) (b := b) n
    have gone := idAt_removePieces_gone _ listed r ((findRecord_of_ids same id).trans found)
    exact Option.map_eq_none_iff.mp ((ids n).trans (after.trans gone))
  · obtain ⟨r, same, after⟩ := idAt_unloaded (p := p) (b := b) n
    have stands : idAt p n = some z.id := congrArg (Option.map _) record
    exact (ids n).trans (after.trans (idAt_removePieces_kept _ other r ((same n).trans stands)))

end Sys2Proof.Machine
end

