-- ==== Sys2Proof/Proofs/Casting.lean ====
section
/-! PROOFS. CAST_START accepted: the records and the slots of a part (03 R43, R44, 08 R141). -/
namespace Sys2Proof.Machine
open Sys2Proof

variable {c : Settings} {p : Part} {b : Nat}

/-! ### The records and the slots of a part (03 R43, R44, 08 R141) -/

theorem idAt_setRecord (n k : Nat) (x : Option Piece) :
    idAt (p.setRecord n x) k = if n = k ∧ n < p.pieces.register.length then x.map (·.id) else idAt p k := by
  unfold idAt
  rw [recordAt_setRecord, apply_ite (Option.map _)]

theorem lowestFree_spec {n : Nat} (h : lowestFree p = some n) : n < p.pieces.register.length ∧ recordAt p n = none := by
  unfold lowestFree at h
  obtain ⟨inside, free, _⟩ := List.findIdx?_eq_some_iff_getElem.mp h
  refine ⟨inside, ?_⟩
  unfold recordAt
  rw [List.getD_eq_getElem?_getD, List.getElem?_eq_getElem inside]
  exact Option.isNone_iff_eq_none.mp free

theorem exists_lowestFree (room : 0 < freeRecords p) : ∃ n, lowestFree p = some n := by
  unfold freeRecords at room
  obtain ⟨o, mem⟩ := List.exists_mem_of_length_pos room
  obtain ⟨mem, free⟩ := List.mem_filter.mp mem
  cases found : lowestFree p with
  | some n => exact ⟨n, rfl⟩
  | none =>
    unfold lowestFree at found
    rw [List.findIdx?_eq_none_iff] at found
    rw [found o mem] at free
    cases free

section
variable {mix t : Nat} {e : PartEntry}

/-- A record is created in a free block; with none free, nothing is created. -/
theorem createPiece_free {n : Nat} (free : lowestFree p = some n) : createPiece c b mix t e p =
    p.setRecord n (some { newPiece b mix t e with ageTest := ageReached c p (newPiece b mix t e) }) := by
  unfold createPiece
  rw [free]

theorem createPiece_full (full : lowestFree p = none) : createPiece c b mix t e p = p := by
  unfold createPiece
  rw [full]

theorem recordAt_createPiece {n : Nat} {x : Piece} (record : recordAt p n = some x) :
    recordAt (createPiece c b mix t e p) n = some x := by
  cases free : lowestFree p with
  | none => rw [createPiece_full free, record]
  | some m =>
    have vacant := (lowestFree_spec free).2
    rw [createPiece_free free, recordAt_setRecord, if_neg fun same => ?_, record]
    rw [same.1, record] at vacant
    cases vacant

/-- Another piece is found where it was. -/
theorem findRecord_createPiece_other {id : Nat} (other : e.id ≠ id) :
    findRecord (createPiece c b mix t e p) id = findRecord p id := by
  cases free : lowestFree p with
  | none => rw [createPiece_full free]
  | some m =>
    rw [createPiece_free free]
    refine findRecord_congr fun n => ?_
    rw [idAt_setRecord]
    split
    · rename_i same
      rw [← same.1, show idAt p m = none from congrArg (Option.map _) (lowestFree_spec free).2]
      exact ⟨fun carries => absurd (Option.some.inj carries) other, fun none => nomatch none⟩
    · rfl

theorem findPiece_createPiece_other {id : Nat} {x : Piece} (other : e.id ≠ id) (found : findPiece p id = some x) :
    findPiece (createPiece c b mix t e p) id = some x := by
  unfold findPiece at *
  rw [findRecord_createPiece_other other]
  obtain ⟨n, at_n, record⟩ := Option.bind_eq_some_iff.mp found
  exact Option.bind_eq_some_iff.mpr ⟨n, at_n, recordAt_createPiece record⟩

/-- The record of a new piece. -/
theorem findPiece_createPiece (fresh : findRecord p e.id = none) (room : 0 < freeRecords p) :
    ∃ v, findPiece (createPiece c b mix t e p) e.id = some { newPiece b mix t e with ageTest := v } := by
  obtain ⟨n, free⟩ := exists_lowestFree room
  obtain ⟨inside, _⟩ := lowestFree_spec free
  refine ⟨ageReached c p (newPiece b mix t e), ?_⟩
  rw [createPiece_free free]
  have unused (k : Nat) : idAt p k ≠ some e.id := by
    intro carries
    have exists_first : ∃ k, idAt p k = some e.id := ⟨k, carries⟩
    have first := findRecord_iff.mpr ⟨Nat.find_spec exists_first, fun k below => Nat.find_min exists_first below⟩
    rw [fresh] at first
    cases first
  have found : findRecord (p.setRecord n (some { newPiece b mix t e with ageTest := ageReached c p (newPiece b mix t e) })) e.id = some n := by
    refine findRecord_iff.mpr ⟨?_, fun k below => ?_⟩
    · rw [idAt_setRecord, if_pos ⟨rfl, inside⟩]
      rfl
    · rw [idAt_setRecord, if_neg fun same => Nat.ne_of_gt below same.1]
      exact unused k
  unfold findPiece
  rw [found]
  exact (recordAt_setRecord p n n _).trans (if_pos ⟨rfl, inside⟩)

theorem freeRecords_createPiece : freeRecords p ≤ freeRecords (createPiece c b mix t e p) + 1 := by
  cases free : lowestFree p with
  | none => rw [createPiece_full free]; exact Nat.le_succ _
  | some n =>
    obtain ⟨inside, _⟩ := lowestFree_spec free
    rw [createPiece_free free]
    unfold freeRecords
    rw [setRecord_register, ← List.countP_eq_length_filter, ← List.countP_eq_length_filter, List.countP_set inside]
    split <;> simp only [Option.isNone_some] <;> omega

end

/-! #### One entry after the other -/

/-- One entry of a part: its record and its slot. -/
def placeEntry (c : Settings) (b : Nat) (p : Part) (e : PartEntry) : Part :=
  (createPiece c b (p.bed b).mix (p.bed b).castTime e p).withBed b fun x => { x with slots := x.slots.set e.slot (some e.id) }

theorem createPart_eq (es : List PartEntry) (p : Part) : createPart c b es p = es.foldl (placeEntry c b) p := rfl

theorem placeEntry_pieces (e : PartEntry) :
    (placeEntry c b p e).pieces = (createPiece c b (p.bed b).mix (p.bed b).castTime e p).pieces := withBed_pieces _ b _

/-- The slots of a bed with the entries of a part in them. -/
def filled (es : List PartEntry) (l : List (Option Nat)) : List (Option Nat) :=
  es.foldl (fun l e => l.set e.slot (some e.id)) l

theorem filled_length (es : List PartEntry) (l : List (Option Nat)) : (filled es l).length = l.length := by
  induction es generalizing l with
  | nil => rfl
  | cons e es ih => exact (ih _).trans List.length_set

theorem getD_filled_other {i : Nat} (es : List PartEntry) (other : ∀ e ∈ es, e.slot ≠ i) (l : List (Option Nat)) :
    (filled es l).getD i none = l.getD i none := by
  induction es generalizing l with
  | nil => rfl
  | cons e es ih =>
    obtain ⟨first, rest⟩ := List.forall_mem_cons.mp other
    refine (ih rest _).trans ?_
    rw [List.getD_eq_getElem?_getD, List.getD_eq_getElem?_getD, List.getElem?_set_ne first]

theorem getD_filled {e : PartEntry} (es : List PartEntry) (distinct : (es.map (·.slot)).Nodup) (mem : e ∈ es)
    (l : List (Option Nat)) (inside : e.slot < l.length) : (filled es l).getD e.slot none = some e.id := by
  induction es generalizing l with
  | nil => cases mem
  | cons a es ih =>
    obtain ⟨fresh, distinct⟩ := List.nodup_cons.mp distinct
    rcases List.mem_cons.mp mem with rfl | later
    · refine (getD_filled_other es (fun x among same => fresh (List.mem_map.mpr ⟨x, among, same⟩)) _).trans ?_
      rw [List.getD_eq_getElem?_getD, List.getElem?_set_self inside]
      rfl
    · exact ih distinct later _ (by rw [List.length_set]; exact inside)

section
variable (inside : b < p.beds.length)
include inside

theorem bed_placeEntry (e : PartEntry) :
    (placeEntry c b p e).bed b = { p.bed b with slots := (p.bed b).slots.set e.slot (some e.id) } := by
  have created : CraneAct c p (createPiece c b (p.bed b).mix (p.bed b).castTime e p) := createPiece_act c p _ _ _ _ _
  unfold placeEntry
  rw [bed_withBed_same (by rw [created.beds]; exact inside), created.bed]

end

theorem placeEntry_beds_length (e : PartEntry) : (placeEntry c b p e).beds.length = p.beds.length := by
  unfold placeEntry
  rw [withBed_beds_length, (createPiece_act c p c _ _ _ e).beds]

theorem createPart_beds_length (es : List PartEntry) : (createPart c b es p).beds.length = p.beds.length :=
  foldl_preserves (g := fun q : Part => q.beds.length) (fun _ e => placeEntry_beds_length e) es p

theorem bed_createPart (es : List PartEntry) : ∀ p : Part, b < p.beds.length →
    (createPart c b es p).bed b = { p.bed b with slots := filled es (p.bed b).slots } := by
  induction es with
  | nil => exact fun _ _ => rfl
  | cons e es ih =>
    intro p inside
    refine (ih (placeEntry c b p e) (by rw [placeEntry_beds_length]; exact inside)).trans ?_
    rw [bed_placeEntry inside]
    rfl

theorem bed_createPart_other {j : Nat} (other : j ≠ b) (es : List PartEntry) (p : Part) :
    (createPart c b es p).bed j = p.bed j := by
  refine foldl_preserves (g := (·.bed j)) (fun q e => ?_) es p
  exact (bed_withBed_other other).trans ((createPiece_act c q c _ _ _ _).bed j)

theorem recordAt_createPart {n : Nat} {x : Piece} (es : List PartEntry) : ∀ p : Part, recordAt p n = some x →
    recordAt (createPart c b es p) n = some x := by
  induction es with
  | nil => exact fun _ record => record
  | cons e es ih =>
    exact fun p record => ih _ ((recordAt_of_pieces (placeEntry_pieces e) n).trans (recordAt_createPiece record))

theorem findPiece_createPart_other {id : Nat} {x : Piece} (es : List PartEntry) (other : ∀ e ∈ es, e.id ≠ id) :
    ∀ p : Part, findPiece p id = some x → findPiece (createPart c b es p) id = some x := by
  induction es with
  | nil => exact fun _ found => found
  | cons e es ih =>
    intro p found
    obtain ⟨first, rest⟩ := List.forall_mem_cons.mp other
    exact ih rest _ ((findPiece_of_pieces (placeEntry_pieces e) id).trans (findPiece_createPiece_other first found))

/-- Each entry of a part has its record. -/
theorem findPiece_createPart {e : PartEntry} (es : List PartEntry) (distinct : (es.map (·.id)).Nodup) (mem : e ∈ es) :
    ∀ p : Part, b < p.beds.length → (∀ a ∈ es, findRecord p a.id = none) → es.length ≤ freeRecords p →
    ∃ v, findPiece (createPart c b es p) e.id = some { newPiece b (p.bed b).mix (p.bed b).castTime e with ageTest := v } := by
  induction es with
  | nil => cases mem
  | cons a es ih =>
    intro p inside unknown room
    rw [List.length_cons] at room
    obtain ⟨fresh, distinct⟩ := List.nodup_cons.mp distinct
    obtain ⟨first, rest⟩ := List.forall_mem_cons.mp unknown
    rcases List.mem_cons.mp mem with rfl | later
    · obtain ⟨v, made⟩ := findPiece_createPiece (c := c) (b := b) (mix := (p.bed b).mix) (t := (p.bed b).castTime) first (by omega)
      exact ⟨v, findPiece_createPart_other es (fun x among same => fresh (List.mem_map.mpr ⟨x, among, same⟩)) _
        ((findPiece_of_pieces (placeEntry_pieces e) e.id).trans made)⟩
    · have used := freeRecords_createPiece (c := c) (p := p) (b := b) (mix := (p.bed b).mix) (t := (p.bed b).castTime) (e := a)
      have same : freeRecords (placeEntry c b p a) = freeRecords (createPiece c b (p.bed b).mix (p.bed b).castTime a p) := by
        unfold freeRecords
        rw [placeEntry_pieces]
      have unknown' : ∀ x ∈ es, findRecord (placeEntry c b p a) x.id = none := by
        intro x among
        rw [findRecord_of_pieces (placeEntry_pieces a),
          findRecord_createPiece_other fun same => fresh (List.mem_map.mpr ⟨x, among, same.symm⟩)]
        exact rest x among
      obtain ⟨v, made⟩ := ih distinct later _ (by rw [placeEntry_beds_length]; exact inside) unknown' (by omega)
      rw [bed_placeEntry inside] at made
      exact ⟨v, made⟩

/-! #### The checks on the entries -/

theorem nodup_of_noRepeat : ∀ l : List Nat, noRepeat l = true → l.Nodup
  | [], _ => List.nodup_nil
  | x :: l, h => by
    unfold noRepeat at h
    obtain ⟨fresh, rest⟩ := Bool.and_eq_true_iff.mp h
    exact List.nodup_cons.mpr ⟨of_decide_eq_true fresh, nodup_of_noRepeat l rest⟩

theorem entriesNew_spec {es : List PartEntry} (h : entriesNew p es = true) :
    (es.map (·.id)).Nodup ∧ (es.map (·.slot)).Nodup ∧ ∀ e ∈ es, findRecord p e.id = none := by
  unfold entriesNew at h
  obtain ⟨distinct, unknown⟩ := Bool.and_eq_true_iff.mp h
  obtain ⟨ids, slots⟩ := Bool.and_eq_true_iff.mp distinct
  exact ⟨nodup_of_noRepeat _ ids, nodup_of_noRepeat _ slots,
    fun e mem => Option.isNone_iff_eq_none.mp (List.all_eq_true.mp unknown e mem)⟩

theorem entriesInRange_slot {es : List PartEntry} {n : Nat} (h : entriesInRange n es = true) {e : PartEntry} (mem : e ∈ es) :
    e.slot < n :=
  of_decide_eq_true (Bool.and_eq_true_iff.mp (List.all_eq_true.mp h e mem)).2

end Sys2Proof.Machine

namespace Sys2Proof.Machine
open Sys2Proof

variable {c : Settings} {p : Part} {b : Nat}

/-! ### CAST_START accepted (03 R43, R44) -/

/-- What is carried out when every row of the checks is passed. -/
theorem orderCastStart_taken {ps : List Byte} {es : List PartEntry} (read : readPartEntries 6 (ps.drop 4) = some es)
    (range : c.assigned (par ps 0) = true ∧ (c.curve (par ps 1)).isSome = true ∧ 1 ≤ par ps 2 ∧ par ps 2 ≤ par ps 3
      ∧ par ps 3 ≤ 5 ∧ 1 ≤ es.length ∧ es.length ≤ 4)
    (entries : entriesInRange (c.bed (par ps 0)).picks.length es = true)
    (fits : partFits (p.bed (par ps 0)) (par ps 1) (par ps 2) (par ps 3) = true) (new : entriesNew p es = true)
    (free : par ps 2 = 1 ∨ slotsFree (p.bed (par ps 0)) es = true) (room : es.length ≤ freeRecords p) :
    orderCastStart ps c p = doneSettled c (if par ps 2 = 1 then startCast c (par ps 0) (par ps 1) (par ps 3) es p
      else continueCast c (par ps 0) es p) := by
  have vacant : (par ps 2 != 1 && !slotsFree (p.bed (par ps 0)) es) = false := by
    rcases free with first | vacant
    · rw [first]; rfl
    · rw [vacant, Bool.not_true, Bool.and_false]
  rw [orderCastStart_read read, castRange_iff.mpr range, entries, fits, new, vacant]
  exact if_neg (Nat.not_lt.mpr room)

/-- Where the bed is and stays, each entry has its slot and each other slot stands. -/
theorem filled_spec {es : List PartEntry} {l : List (Option Nat)} {n : Nat} (distinct : (es.map (·.slot)).Nodup)
    (entries : entriesInRange n es = true) (slots : l.length = n) :
    (∀ e ∈ es, (filled es l).getD e.slot none = some e.id) ∧ (filled es l).length = l.length
      ∧ ∀ i, (∀ e ∈ es, e.slot ≠ i) → (filled es l).getD i none = l.getD i none :=
  ⟨fun _ mem => getD_filled es distinct mem l (by rw [slots]; exact entriesInRange_slot entries mem), filled_length es l,
    fun _ other => getD_filled_other es other l⟩

/-! #### A later part -/

theorem bed_continueCast (inside : b < p.beds.length) (es : List PartEntry) : (continueCast c b es p).bed b =
    { p.bed b with slots := filled es (p.bed b).slots, received := (p.bed b).received + 1 } := by
  unfold continueCast
  rw [bed_withBed_same (by rw [createPart_beds_length]; exact inside), bed_createPart es p inside]

theorem bed_continueCast_other {j : Nat} (other : j ≠ b) (es : List PartEntry) : (continueCast c b es p).bed j = p.bed j :=
  (bed_withBed_other other).trans (bed_createPart_other other es p)

theorem continueCast_pieces (es : List PartEntry) : (continueCast c b es p).pieces = (createPart c b es p).pieces :=
  withBed_pieces _ b _

/-- A part's entries leave heat and outputs. -/
theorem continueCast_heat_out (es : List PartEntry) :
    (continueCast c b es p).heat = p.heat ∧ (continueCast c b es p).out = p.out := by
  have placed : (createPart c b es p).heat = p.heat ∧ (createPart c b es p).out = p.out :=
    Prod.mk.inj (foldl_preserves (g := fun q : Part => (q.heat, q.out)) (fun q e => by
      have created : CraneAct c q (createPiece c b (q.bed b).mix (q.bed b).castTime e q) := createPiece_act c q _ _ _ _ _
      exact Prod.ext ((withBed_heat _ b _).trans created.heat) ((withBed_out _ b _).trans created.out)) es p)
  exact ⟨(withBed_heat _ b _).trans placed.1, (withBed_out _ b _).trans placed.2⟩

/-- Settles O19. -/
theorem castStartLaterPart : Obligations.CastStartLaterPart := by
  intro s c src tag ps es p b k takes shaped hb enough k2 kn n5 read assigned mix e1 e4 entries casting expected sameMix next slots
    new free room
  have inside : b < p.beds.length := shaped_beds (p := p) shaped hb
  have fits : partFits (p.bed b) (par ps 1) k (par ps 3) = true := by
    unfold partFits
    rw [if_neg (show ¬k = 1 by omega), casting, ← expected, ← sameMix, ← next]
    simp
  have carried : orderCastStart ps c p = doneSettled c (continueCast c b es p) :=
    (orderCastStart_taken read ⟨assigned, mix, Nat.le_of_succ_le k2, kn, n5, e1, e4⟩ entries fits new (.inr free) room).trans
      (congrArg (doneSettled c) (if_neg (show ¬k = 1 by omega)))
  obtain ⟨ids, distinct, unknown⟩ := entriesNew_spec new
  obtain ⟨taken, length, others⟩ := filled_spec distinct entries slots
  have act : PlantAct c p (continueCast c b es p) := continueCast_act c p b es
  refine completes_settled rfl takes enough carried act.toActs fun y q settled answered rest keeps => ?_
  have crane : CraneAct c (continueCast c b es p) y := settled ▸ settle_act c _ c
  have own : q.bed b = { p.bed b with slots := filled es (p.bed b).slots, received := (p.bed b).received + 1 } :=
    (bed_of_beds (by rw [rest]) b).trans ((crane.bed b).trans (bed_continueCast inside es))
  have stood := continueCast_heat_out (c := c) (p := p) (b := b) es
  refine ⟨answered, ?_, ?_, ?_, fun i other => ?_, fun n x record => ?_, fun e mem => ?_, fun j other => ?_, ?_, ?_, ?_, ?_,
    (act.trans crane.toPlantAct).frame_answered rest keeps⟩
  · rw [own, ← next]
  · rw [own]; exact taken
  · rw [own]; exact length
  · rw [own]; exact others i other
  · obtain ⟨v, after⟩ := (settle_recorded c (continueCast c b es p)).records n
    rw [recordAt_of_pieces (continueCast_pieces es), recordAt_createPart es p record] at after
    exact ⟨{ x with announced := v },
      (recordAt_of_pieces (show q.pieces = (settle c (continueCast c b es p)).pieces by rw [rest, settled]) n).trans after, rfl⟩
  · obtain ⟨v, made⟩ := findPiece_createPart (c := c) (b := b) es ids mem p inside unknown room
    obtain ⟨w, after⟩ := settle_findPiece (c := c) ((findPiece_of_pieces (continueCast_pieces es) _).trans made)
    exact ⟨_, (findPiece_of_pieces (show q.pieces = (settle c (continueCast c b es p)).pieces by rw [rest, settled]) _).trans after,
      rfl, rfl, rfl, rfl, rfl⟩
  · exact (bed_of_beds (by rw [rest]) j).trans ((crane.bed j).trans (bed_continueCast_other other es))
  · rw [rest]; exact crane.maturity.trans act.maturity
  · rw [rest]; exact crane.scan.trans act.scan
  · rw [rest]; exact crane.heat.trans stood.1
  · rw [rest]; exact crane.out.trans stood.2

end Sys2Proof.Machine

namespace Sys2Proof.Machine
open Sys2Proof

variable {c : Settings} {p : Part} {b : Nat}

/-! ### The retired flags and the accumulators of a bed that begins a cast (01 R11, 02 R23) -/

theorem clearRetired_channel (k j : Nat) : (clearRetired k p).channel j = (p.setRetired k false).channel j := by
  unfold clearRetired
  dsimp only
  split <;> rfl

theorem clearRetired_channels_length (k : Nat) : (clearRetired k p).scan.channels.length = p.scan.channels.length := by
  have set : (p.setRetired k false).scan.channels.length = p.scan.channels.length := List.length_set
  unfold clearRetired
  dsimp only
  split
  · exact set
  · exact set

theorem clearRetired_keeps (k : Nat) : (clearRetired k p).beds = p.beds ∧ (clearRetired k p).maturity = p.maturity
    ∧ (clearRetired k p).pieces = p.pieces := by
  unfold clearRetired
  dsimp only
  split <;> exact ⟨rfl, rfl, rfl⟩

/-- A flag that is cleared, or stood clear, is clear. -/
theorem foldl_clearRetired {j : Nat} (l : List Nat) : ∀ p : Part, j < p.scan.channels.length →
    (j ∉ l → (p.channel j).retired = false) → ((l.foldl (fun q k => clearRetired k q) p).channel j).retired = false := by
  induction l with
  | nil => exact fun _ _ clear => clear (fun e => nomatch e)
  | cons k l ih =>
    intro p inside clear
    refine ih _ (by rw [clearRetired_channels_length]; exact inside) fun later => ?_
    rw [clearRetired_channel, channel_setRetired]
    split
    · rfl
    · rename_i other
      refine clear fun mem => ?_
      rcases List.mem_cons.mp mem with same | mem
      · exact other ⟨same.symm, same ▸ inside⟩
      · exact later mem

theorem clearBedRetired_channel {k : Nat} (inside : k < p.scan.channels.length) (own : k ∈ c.bedChannels b) :
    ((clearBedRetired c b p).channel k).retired = false := by
  unfold clearBedRetired
  dsimp only
  split
  · rename_i none
    have clear := List.filter_eq_nil_iff.mp none k own
    simpa using clear
  · rw [evaluateBed_rest]
    refine foldl_clearRetired _ p inside fun clear => ?_
    rw [List.mem_filter, not_and] at clear
    simpa using clear own

/-- Clearing the flags leaves beds, accumulators and records. -/
theorem clearBedRetired_keeps : (clearBedRetired c b p).beds = p.beds ∧ (clearBedRetired c b p).maturity = p.maturity
    ∧ (clearBedRetired c b p).pieces = p.pieces := by
  have kept (l : List Nat) : let q := l.foldl (fun q k => clearRetired k q) p
      (q.beds, q.maturity, q.pieces) = (p.beds, p.maturity, p.pieces) :=
    foldl_preserves (g := fun q : Part => (q.beds, q.maturity, q.pieces)) (fun q k => by
      obtain ⟨beds, maturity, pieces⟩ := clearRetired_keeps (p := q) k
      rw [beds, maturity, pieces]) l p
  unfold clearBedRetired
  dsimp only
  split
  · exact ⟨rfl, rfl, rfl⟩
  · obtain ⟨beds, both⟩ := Prod.mk.inj (kept ((c.bedChannels b).filter fun k => (p.channel k).retired))
    obtain ⟨maturity, pieces⟩ := Prod.mk.inj both
    rw [evaluateBed_rest]
    exact ⟨beds, maturity, pieces⟩

/-! #### Zeroing -/

/-- The accumulators of a bed at 0, and its published maturity. -/
def zeroed (c : Settings) (b : Nat) (p : Part) : Part :=
  ({ p with maturity := { p.maturity with
    accs := p.maturity.accs.mapIdx fun k a => if k ∈ c.bedChannels b then ⟨0, 0⟩ else a
    credit := p.maturity.credit.set b p.now } }.markDirty .channels).withBed b fun x => { x with mg := 0 }

theorem zeroed_acc {k : Nat} (own : k ∈ c.bedChannels b) : (zeroed c b p).maturity.accs.getD k ⟨0, 0⟩ = ⟨0, 0⟩ := by
  unfold zeroed
  rw [withBed_maturity, List.getD_eq_getElem?_getD]
  simp only [markDirty_maturity, List.getElem?_mapIdx]
  cases p.maturity.accs[k]? with
  | none => rfl
  | some a => exact congrArg (Option.getD · _) (congrArg some (if_pos own))

theorem zeroed_credit (inside : b < p.maturity.credit.length) : (zeroed c b p).maturity.credit.getD b 0 = p.now := by
  unfold zeroed
  rw [withBed_maturity, List.getD_eq_getElem?_getD]
  simp only [markDirty_maturity, List.getElem?_set_self inside]
  rfl

/-- The least of zeros. -/
theorem least_zeros : ∀ {l : List Nat}, (∀ x ∈ l, x = 0) → least l = none ∨ least l = some 0
  | [], _ => .inl rfl
  | x :: l, zeros => by
    obtain ⟨zero, _⟩ := List.forall_mem_cons.mp zeros
    refine .inr (congrArg some ?_)
    split
    · rw [zero]; exact Nat.zero_min _
    · exact zero

theorem publish_zeroed : publish 0 (governingMinimum c (zeroed c b p) b) = 0 := by
  have zeros : ∀ x ∈ ((c.bedChannels b).filter fun k => !((zeroed c b p).channel k).retired).map
      (fun k => ((zeroed c b p).maturity.accs.getD k ⟨0, 0⟩).m), x = 0 := by
    intro x mem
    obtain ⟨k, own, rfl⟩ := List.mem_map.mp mem
    exact congrArg Acc.m (zeroed_acc (List.mem_filter.mp own).1)
  unfold governingMinimum
  rcases least_zeros zeros with none | zero
  · rw [none]; rfl
  · rw [zero]; rfl

theorem zeroed_beds (c : Settings) (b : Nat) (p : Part) :
    (zeroed c b p).beds = (p.withBed b fun x => { x with mg := 0 }).beds := by
  unfold zeroed
  rw [withBed_beds, withBed_beds]
  rfl

/-- A bed that is not EMPTY begins with maturity 0 and the tests at 0. -/
theorem zeroBed_eq (inside : b < p.beds.length) (state : (p.bed b).state ≠ .empty) : zeroBed c b p =
    (zeroed c b p).withBed b fun x => formBedTests c { x with mg := 0 } := by
  have own : (zeroed c b p).bed b = { p.bed b with mg := 0 } :=
    (bed_of_beds (zeroed_beds c b p) b).trans (bed_withBed_same inside)
  show computeGoverning c b (zeroed c b p) = _
  unfold computeGoverning
  rw [if_neg (by rw [own]; exact state)]
  have old : ((zeroed c b p).bed b).mg = 0 := by rw [own]
  dsimp only
  rw [old, publish_zeroed, if_pos rfl]

section
variable (inside : b < p.beds.length) (state : (p.bed b).state ≠ .empty)
include inside state

theorem bed_zeroBed : (zeroBed c b p).bed b = formBedTests c { p.bed b with mg := 0 } := by
  have inside' : b < (zeroed c b p).beds.length := by rw [zeroed_beds, withBed_beds_length]; exact inside
  rw [zeroBed_eq inside state, bed_withBed_same inside', bed_of_beds (zeroed_beds c b p), bed_withBed_same inside]

theorem bed_zeroBed_other {j : Nat} (other : j ≠ b) : (zeroBed c b p).bed j = p.bed j := by
  rw [zeroBed_eq inside state, bed_withBed_other other, bed_of_beds (zeroed_beds c b p), bed_withBed_other other]

theorem zeroBed_beds_length : (zeroBed c b p).beds.length = p.beds.length := by
  rw [zeroBed_eq inside state, withBed_beds_length, zeroed_beds, withBed_beds_length]

/-- Zeroing leaves the channels and the records. -/
theorem zeroBed_keeps : (zeroBed c b p).scan = p.scan ∧ (zeroBed c b p).pieces = p.pieces
    ∧ (zeroBed c b p).maturity = (zeroed c b p).maturity := by
  rw [zeroBed_eq inside state, withBed_scan, withBed_pieces, withBed_maturity]
  unfold zeroed
  rw [withBed_scan, withBed_pieces]
  exact ⟨rfl, rfl, rfl⟩

end

/-! ### CAST_START of a first part (03 R43) -/

/-- The record of a bed that begins a cast. -/
def beginning (c : Settings) (b mix n t : Nat) (x : Bed) : Bed :=
  { x with
    mix := mix, castTime := t, expected := n, received := 1, hold := false, releaseReady := false,
    stage := .preset, stageStart := t, setpoint := (c.bed b).tf,
    slots := List.replicate (c.bed b).picks.length none }

/-- The part with the bed CASTING and its flags clear. -/
def begun (c : Settings) (b mix n : Nat) (p : Part) : Part :=
  clearBedRetired c b (setBedState b .casting .order (p.withBed b (beginning c b mix n p.now)))

theorem startCast_eq (mix n : Nat) (es : List PartEntry) : startCast c b mix n es p =
    formDemand c b (createPart c b es (zeroBed c b (begun c b mix n p))) := rfl

section
variable {mix n : Nat}

theorem begun_beds : (begun c b mix n p).beds =
    (setBedState b .casting .order (p.withBed b (beginning c b mix n p.now))).beds := clearBedRetired_keeps.1

theorem bed_begun (inside : b < p.beds.length) :
    (begun c b mix n p).bed b = { beginning c b mix n p.now (p.bed b) with state := .casting } := by
  rw [bed_of_beds begun_beds, bed_setBedState _ _ (by rw [withBed_beds_length]; exact inside), bed_withBed_same inside]

theorem bed_begun_other {j : Nat} (other : j ≠ b) : (begun c b mix n p).bed j = p.bed j := by
  rw [bed_of_beds begun_beds, bed_setBedState_other _ _ other, bed_withBed_other other]

theorem begun_beds_length : (begun c b mix n p).beds.length = p.beds.length := by
  rw [begun_beds]
  unfold setBedState
  rw [report_beds, withBed_beds_length, withBed_beds_length]

theorem begun_pieces : (begun c b mix n p).pieces = p.pieces := by
  refine clearBedRetired_keeps.2.2.trans ?_
  unfold setBedState
  rw [report_pieces, withBed_pieces, withBed_pieces]

theorem begun_maturity : (begun c b mix n p).maturity = p.maturity := by
  refine clearBedRetired_keeps.2.1.trans ?_
  unfold setBedState
  rw [report_maturity, withBed_maturity, withBed_maturity]

theorem begun_channel {k : Nat} (inside : k < p.scan.channels.length) (own : k ∈ c.bedChannels b) :
    ((begun c b mix n p).channel k).retired = false := by
  refine clearBedRetired_channel ?_ own
  unfold setBedState
  rw [report_scan, withBed_scan, withBed_scan]
  exact inside

theorem begun_now : (begun c b mix n p).now = p.now := by
  have act : Quiet c p (begun c b mix n p) :=
    ((HeatAct.withBed c p b _ rfl).trans (setBedState_act c _ b _ _)).toQuiet.trans (clearBedRetired_act c _ c b)
  unfold Part.now
  rw [act.clock]

end

end Sys2Proof.Machine

namespace Sys2Proof.Machine
open Sys2Proof

variable {c : Settings} {p : Part} {b : Nat}

/-! ### CAST_START of a first part, carried out (03 R43) -/

/-- A bed with its cast begun, its slots filled and its tests formed. -/
def firstPart (c : Settings) (b mix n : Nat) (es : List PartEntry) (p : Part) : Bed :=
  let x := formBedTests c { beginning c b mix n p.now (p.bed b) with state := .casting, mg := 0 }
  { x with slots := filled es x.slots }

/-- What the entries and the demand leave is what zeroing left. -/
theorem startCast_after {mix n : Nat} {es : List PartEntry} : PlantAct c (zeroBed c b (begun c b mix n p)) (startCast c b mix n es p) :=
  (createPart_act c _ b es).trans (formDemand_act c _ b).toPlantAct

section
variable {mix n : Nat} {es : List PartEntry} (inside : b < p.beds.length)
include inside

theorem begun_stands : b < (begun c b mix n p).beds.length ∧ ((begun c b mix n p).bed b).state ≠ .empty := by
  rw [begun_beds_length, bed_begun inside]
  exact ⟨inside, fun e => nomatch e⟩

theorem bed_startCast : ∃ d, (startCast c b mix n es p).bed b = { firstPart c b mix n es p with db := d } := by
  obtain ⟨inside', casting⟩ := begun_stands (c := c) (mix := mix) (n := n) inside
  have zeroedLength : b < (zeroBed c b (begun c b mix n p)).beds.length := by
    rw [zeroBed_beds_length inside' casting]
    exact inside'
  rw [startCast_eq, bed_formDemand (by rw [createPart_beds_length]; exact zeroedLength), bed_createPart es _ zeroedLength,
    bed_zeroBed inside' casting, bed_begun inside]
  exact ⟨_, rfl⟩

theorem bed_startCast_other {j : Nat} (other : j ≠ b) : (startCast c b mix n es p).bed j = p.bed j := by
  obtain ⟨inside', casting⟩ := begun_stands (c := c) (mix := mix) (n := n) inside
  rw [startCast_eq, bed_formDemand_other other, bed_createPart_other other, bed_zeroBed_other inside' casting other,
    bed_begun_other other]

theorem startCast_channel {k : Nat} (enough : k < p.scan.channels.length) (own : k ∈ c.bedChannels b) :
    ((startCast c b mix n es p).channel k).retired = false := by
  obtain ⟨inside', casting⟩ := begun_stands (c := c) (mix := mix) (n := n) inside
  have scan : (startCast c b mix n es p).scan = (begun c b mix n p).scan :=
    startCast_after.scan.trans (zeroBed_keeps inside' casting).1
  rw [channel_of_scan scan]
  exact begun_channel enough own

theorem startCast_maturity : (startCast c b mix n es p).maturity = (zeroed c b (begun c b mix n p)).maturity := by
  obtain ⟨inside', casting⟩ := begun_stands (c := c) (mix := mix) (n := n) inside
  exact startCast_after.maturity.trans (zeroBed_keeps inside' casting).2.2

/-- Each entry of a first part has its record. -/
theorem findPiece_startCast {e : PartEntry} (distinct : (es.map (·.id)).Nodup) (mem : e ∈ es)
    (unknown : ∀ a ∈ es, findRecord p a.id = none) (room : es.length ≤ freeRecords p) :
    ∃ v, findPiece (startCast c b mix n es p) e.id = some { newPiece b mix p.now e with ageTest := v } := by
  obtain ⟨inside', casting⟩ := begun_stands (c := c) (mix := mix) (n := n) inside
  have pieces : (zeroBed c b (begun c b mix n p)).pieces = p.pieces := (zeroBed_keeps inside' casting).2.1.trans begun_pieces
  have free : freeRecords (zeroBed c b (begun c b mix n p)) = freeRecords p := by
    unfold freeRecords
    rw [pieces]
  obtain ⟨v, made⟩ := findPiece_createPart (c := c) (b := b) es distinct mem (zeroBed c b (begun c b mix n p))
    (by rw [zeroBed_beds_length inside' casting]; exact inside')
    (fun a among => (findRecord_of_pieces pieces a.id).trans (unknown a among)) (by rw [free]; exact room)
  rw [bed_zeroBed inside' casting, bed_begun inside] at made
  rw [startCast_eq, findPiece_of_pieces (formDemand_act c _ b).pieces]
  exact ⟨v, made⟩

end

/-- Settles O18. -/
theorem castStartFirstPart : Obligations.CastStartFirstPart := by
  intro s c src tag ps es p b mix n takes shaped hb enough first read assigned curve n1 n5 e1 e4 entries empty new room
  have inside : b < p.beds.length := shaped_beds (p := p) shaped hb
  obtain ⟨_, _, channels, _, credit, _⟩ := shaped
  have fits : partFits (p.bed b) mix (par ps 2) n = true := by
    unfold partFits
    rw [if_pos first, empty]
    rfl
  have carried : orderCastStart ps c p = doneSettled c (startCast c b mix n es p) :=
    (orderCastStart_taken read ⟨assigned, curve, by omega, by omega, n5, e1, e4⟩ entries fits new (.inl first) room).trans
      (congrArg (doneSettled c) (if_pos first))
  obtain ⟨ids, distinct, unknown⟩ := entriesNew_spec new
  obtain ⟨taken, _, _⟩ := filled_spec distinct entries (List.length_replicate (n := (c.bed b).picks.length) (a := none))
  have act : Quiet c p (startCast c b mix n es p) := startCast_act c p b mix n es
  refine completes_settled rfl takes enough carried act.toActs fun y q settled answered rest keeps => ?_
  have crane : CraneAct c (startCast c b mix n es p) y := settled ▸ settle_act c _ c
  have quiet : Quiet c p y := act.trans crane.toQuiet
  have beds (j : Nat) : q.bed j = (startCast c b mix n es p).bed j := (bed_of_beds (by rw [rest]) j).trans (crane.bed j)
  have maturity : q.maturity = (zeroed c b (begun c b mix n p)).maturity := by
    rw [rest]
    exact crane.maturity.trans (startCast_maturity inside)
  have scan : q.scan = (startCast c b mix n es p).scan := by rw [rest]; exact crane.scan
  obtain ⟨d, own⟩ := bed_startCast (c := c) (mix := mix) (n := n) (es := es) inside
  refine ⟨answered, ?_, fun k mem => ⟨?_, ?_⟩, ?_, fun e mem => ?_, fun j other => (beds j).trans (bed_startCast_other inside other),
    ?_, ?_, ?_, ?_, ?_, keeps, ?_⟩
  · dsimp only
    rw [beds, own]
    exact ⟨rfl, rfl, rfl, rfl, rfl, rfl, rfl, rfl, rfl, rfl, taken⟩
  · have enough : k < p.scan.channels.length := by
      rw [show p.scan.channels.length = 23 from channels]
      exact Nat.lt_trans (bedChannel_lt mem) (by decide)
    rw [channel_of_scan scan]
    exact startCast_channel inside enough mem
  · rw [maturity]
    exact zeroed_acc mem
  · have credit' : b < (begun c b mix n p).maturity.credit.length := by
      rw [begun_maturity, show p.maturity.credit.length = 4 from credit]
      exact hb
    rw [maturity, zeroed_credit credit', begun_now]
  · obtain ⟨v, made⟩ := findPiece_startCast (c := c) (mix := mix) (n := n) inside ids mem unknown room
    obtain ⟨w, after⟩ := settle_findPiece (c := c) made
    exact ⟨_, (findPiece_of_pieces (show q.pieces = (settle c (startCast c b mix n es p)).pieces by rw [rest, settled]) _).trans after,
      rfl, rfl, rfl, rfl, rfl, rfl, rfl, rfl⟩
  · rw [rest]; exact quiet.clock
  · rw [rest]; exact quiet.travel
  · rw [rest]; exact quiet.pins
  · rw [rest]; exact quiet.config
  · rw [rest]; exact quiet.run
  · rw [rest]; exact quiet.mem

end Sys2Proof.Machine
end

