-- ==== Sys2Proof/Proofs/ClaimNotices.lean ====
section
/-! PROOFS. A notice formed where a claim opens beyond the end of the span table (07 R124, R131). -/
namespace Sys2Proof.Machine
open Sys2Proof

/-! ### A span table shorter than the table of the settings (07 R124, R131) -/

/-- Settings with one span. -/
def oneSpan : Settings := { (default : Settings) with spans := [⟨0, 100, 32⟩] }

/-- A crane under way to a place in that span, whose own span table is empty, with a decision to go. -/
def emptyTable : Part :=
  { Part.reset RecMem.blank ⟨.normal, 0⟩ Pins.rest 0 with
    run := .running
    config := some oneSpan
    travel := { TravelUnit.reset with referenced := true }
    span := { SpanUnit.reset with decision := .go true .creep }
    moves := { MoveUnit.reset with
      queue := [{ tag := 1, kind := .lift, piece := 1, pick := 0, place := 50, stack := none, phase := .toPlace, start := none,
                  halt := none, picked := true }]
      target := some ⟨50, 1⟩
      locl := ⟨⟨false, false, 5⟩, true⟩ } }

/-- The next span lies in no table, so its claim opens nowhere; but the second notice is formed, with the decision of by then. -/
theorem emptyTable_notice : claimed (settle oneSpan (formNotice oneSpan emptyTable)) = none
    ∧ (settle oneSpan (formNotice oneSpan emptyTable)).line.spanSlot.map (·.speed) = some none := by decide +kernel

/-- Refutes O52: a claim that opens beyond the end of the span table leaves no span claimed, and its notice carries the new decision's
class, not that of the decision before. -/
theorem not_claimsSettle : ¬ Obligations.ClaimsSettle := by
  intro ⟨_, _, _, _, _, interval, _⟩
  have runs : emptyTable.runs oneSpan := ⟨rfl, rfl⟩
  obtain ⟨q, completes, ⟨n, slot, _, _, _, _, first, _⟩, _⟩ := interval ⟨emptyTable, []⟩ oneSpan runs
  obtain ⟨r, gives, same⟩ := completes_running (post := fun r => r = settle oneSpan (formNotice oneSpan emptyTable))
    (s := ⟨emptyTable, []⟩) (i := .spanNoticeInterval) runs rfl rfl
  have is : q = settle oneSpan (formNotice oneSpan emptyTable) := by
    rw [← same]
    have both := completes.symm.trans gives
    injection both with both
    exact congrArg State.part both
  obtain ⟨unclaimed, halted⟩ := emptyTable_notice
  rw [← is] at unclaimed halted
  obtain ⟨_, speed⟩ := first (.inl unclaimed)
  rw [slot, Option.map_some, speed] at halted
  cases halted

end Sys2Proof.Machine
end

