-- ==== Sys2Proof/Proofs/Scanning.lean ====
section
/-! PROOFS. A scan completes: channels, temperature records, maturity and demands of a sample handed on (01, 02 R40, 03 R54 to R61). -/
namespace Sys2Proof.Machine
open Sys2Proof

variable {c : Settings} {p : Part} {k : Nat}

/-! ### The samples of a scan (01 R5 to R9) -/

theorem applySample_rest (k : Nat) (s : Classified) (p : Part) : applySample k s p =
    { p with
      scan := { p.scan with channels := p.scan.channels.set k ((p.channel k).apply s) }
      line := (applySample k s p).line } := by
  unfold applySample
  dsimp only
  split <;> rfl

theorem channel_applySample (k : Nat) (s : Classified) (p : Part) (j : Nat) : (applySample k s p).channel j =
    if k = j ∧ k < p.scan.channels.length then (p.channel k).apply s else p.channel j := by
  rw [applySample_rest]
  unfold Part.channel
  simp only [List.getD_eq_getElem?_getD, List.getElem?_set]
  by_cases same : k = j
  · subst same
    by_cases inside : k < p.scan.channels.length <;> simp [inside]
  · simp [same]

theorem applySample_channels_length (k : Nat) (s : Classified) (p : Part) :
    (applySample k s p).scan.channels.length = p.scan.channels.length := by
  rw [applySample_rest]
  exact List.length_set

/-- Samples of several channels. -/
def applySamples (samples : Nat → Classified) (l : List Nat) (p : Part) : Part :=
  l.foldl (fun q k => applySample k (samples k) q) p

section
variable (samples : Nat → Classified) (l : List Nat) (p : Part)

theorem applySamples_rest : applySamples samples l p =
    { p with
      scan := { p.scan with channels := (applySamples samples l p).scan.channels }
      line := (applySamples samples l p).line } := by
  unfold applySamples
  induction l generalizing p with
  | nil => rfl
  | cons k l ih =>
    rw [List.foldl_cons, ih, applySample_rest]

theorem applySamples_channels_length : (applySamples samples l p).scan.channels.length = p.scan.channels.length :=
  foldl_preserves (g := fun q : Part => q.scan.channels.length) (fun q k => applySample_channels_length k _ q) l p

/-- Each channel named takes its sample, and no other takes one. -/
theorem channel_applySamples (distinct : l.Nodup) {j : Nat} (inside : j < p.scan.channels.length) :
    (applySamples samples l p).channel j = if j ∈ l then (p.channel j).apply (samples j) else p.channel j := by
  obtain ⟨named, others⟩ := foldl_once (f := fun q k => applySample k (samples k) q) (get := fun q => q.channel j)
    (g := fun x => x.apply (samples j)) (ok := fun q => j < q.scan.channels.length) (k := j)
    (fun q i ok => by rw [applySample_channels_length]; exact ok)
    (fun q ok => by rw [channel_applySample, if_pos ⟨rfl, ok⟩])
    (fun q i _ other => by rw [channel_applySample, if_neg fun same => other same.1]) l distinct p inside
  split
  · exact named ‹_›
  · exact others ‹_›

end

theorem channelsInUse_nodup (c : Settings) : (channelsInUse c).Nodup := by
  unfold channelsInUse
  refine List.nodup_append.mpr ⟨List.nodup_range.filter _, List.nodup_singleton _, fun k mem j last => ?_⟩
  have below := List.mem_range.mp (List.mem_filter.mp mem).1
  rw [List.mem_singleton.mp last]
  omega

theorem channelsInUse_lt (h : k ∈ channelsInUse c) : k < 23 := by
  unfold channelsInUse at h
  rcases List.mem_append.mp h with mem | last
  · have := List.mem_range.mp (List.mem_filter.mp mem).1
    omega
  · rw [List.mem_singleton.mp last]
    decide

theorem missAll_eq (c : Settings) (p : Part) : missAll c p = applySamples (fun _ => .invalid .missed) (channelsInUse c) p := rfl

/-- The check of the reference codes. -/
def referenceChecked (ref1 ref2 : Nat) (p : Part) : Part :=
  if accepted ref1 ref2 then
    if p.scan.refGood then p else { p with scan := { p.scan with refGood := true } }.report (.referenceOk p.now)
  else if p.scan.refGood then { p with scan := { p.scan with refGood := false } }.report (.referenceFault ref1 ref2 p.now) else p

theorem referenceChecked_rest (ref1 ref2 : Nat) (p : Part) : referenceChecked ref1 ref2 p =
    { p with scan := { p.scan with refGood := accepted ref1 ref2 }, line := (referenceChecked ref1 ref2 p).line } := by
  unfold referenceChecked
  cases good : accepted ref1 ref2 <;> cases was : p.scan.refGood
  · rw [if_neg (by decide), if_neg (by decide), ← was]
  · rw [if_neg (by decide), if_pos rfl]
    rfl
  · rw [if_pos rfl, if_neg (by decide)]
    rfl
  · rw [if_pos rfl, if_pos rfl, ← was]

/-- A scan: the references, and then each channel in use. -/
theorem applyScan_eq (c : Settings) (ref1 ref2 : Nat) (codes : List Code) (p : Part) : applyScan c ref1 ref2 codes p =
    applySamples (scanSample c ref1 ref2 codes) (channelsInUse c) (referenceChecked ref1 ref2 p) := by
  unfold applyScan referenceChecked
  cases good : accepted ref1 ref2
  · have missed : scanSample c ref1 ref2 codes = fun _ => .invalid .missed := by
      funext k
      unfold scanSample
      rw [good]
      rfl
    rw [missed]
    rfl
  · have converted : scanSample c ref1 ref2 codes = fun k => classifySample (codes.getD k 0).toNat ((ref1 + ref2) / 2)
        (if k = 22 then c.ambZ else (c.channel k).z) (if k = 22 then c.ambK else (c.channel k).k) := by
      funext k
      unfold scanSample
      rw [good]
      rfl
    rw [converted]
    rfl

/-! ### A sample handed on (01 R13 to R15, 02 R40) -/

theorem forAssigned_scan_beds {f : Nat → Part → Part} (h : ∀ b q, (f b q).scan = { q.scan with beds := (f b q).scan.beds }) (p : Part) :
    (p.forAssigned c f).scan = { p.scan with beds := (p.forAssigned c f).scan.beds } := by
  have same := forAssigned_preserves (c := c) (g := fun q : Part => { q.scan with beds := [] }) (f := f)
    (fun b q => by rw [h b q]) p
  generalize (p.forAssigned c f).scan = x at *
  generalize p.scan = y at *
  cases x
  cases y
  injection same
  subst_vars
  rfl

theorem maturityTakes_scan (x : Sample) : (maturityTakes c x p).scan = p.scan := by
  have advanced : (advanceAll c x p).scan = p.scan := by
    unfold advanceAll
    split
    · rfl
    · exact markIf_scan _ _ _
  have governed : ((advanceAll c x p).forAssigned c (computeGoverning c)).scan = p.scan :=
    (forAssigned_preserves (g := Part.scan) (fun b q => (computeGoverning_act c q c b).scan) _).trans advanced
  unfold maturityTakes
  dsimp only
  rw [markDirty_scan]
  split
  · exact governed
  · exact (formShipTests_act c _ c).scan.trans governed

/-- The beds evaluated. -/
def evaluated (c : Settings) (p : Part) : Part := p.forAssigned c (evaluateBed c)

theorem handOn_eq (interval endTime : Nat) : handOn c interval endTime p =
    settle c (bedsTake c (maturityTakes c ⟨usableAll c (evaluated c p), interval, endTime⟩ (evaluated c p))) := rfl

/-- What is handed on changes of the scan unit the beds' temperature records alone. -/
theorem handOn_scan (interval endTime : Nat) : (handOn c interval endTime p).scan = (evaluated c p).scan := by
  rw [handOn_eq, (settle_act c _ c).scan, (bedsTake_act c _).scan, maturityTakes_scan]

theorem evaluated_scan (c : Settings) (p : Part) : (evaluated c p).scan = { p.scan with beds := (evaluated c p).scan.beds } :=
  forAssigned_scan_beds (fun b q => by rw [evaluateBed_rest]) p

end Sys2Proof.Machine

namespace Sys2Proof.Machine
open Sys2Proof

variable {c : Settings} {p : Part} {b : Nat}

/-! ### The temperature record of a bed (01 R13 to R15) -/

theorem bedTemp_setBedTemp (x : BedTemp) (j : Nat) : (p.setBedTemp b x).bedTemp j =
    if b = j ∧ b < p.scan.beds.length then x else p.bedTemp j := by
  unfold Part.setBedTemp Part.bedTemp
  simp only [List.getD_eq_getElem?_getD, List.getElem?_set]
  by_cases same : b = j
  · subst same
    by_cases inside : b < p.scan.beds.length <;> simp [inside]
  · simp [same]

theorem bedTemp_setBedTemp_same (inside : b < p.scan.beds.length) (x : BedTemp) : (p.setBedTemp b x).bedTemp b = x := by
  rw [bedTemp_setBedTemp, if_pos ⟨rfl, inside⟩]

theorem bedTemp_setBedTemp_other {j : Nat} (other : j ≠ b) (x : BedTemp) : (p.setBedTemp b x).bedTemp j = p.bedTemp j := by
  rw [bedTemp_setBedTemp, if_neg fun same => other same.1.symm]

/-- A temperature record with its control temperature formed, and its flags after it. -/
def BedTemp.formed (x : BedTemp) (tc : Option Int) (now : Nat) (tmax : Int) : BedTemp :=
  { tc := tc
    blindSince := if tc.isNone then some (x.blindSince.getD now) else none
    overheat := match tc with
      | none => x.overheat
      | some v => if x.overheat then decide (tmax - 20 < v) else decide (tmax < v) }

section
variable (inside : b < p.scan.beds.length)
include inside

theorem bedTemp_settleBlind : (settleBlind b p).bedTemp b =
    { p.bedTemp b with blindSince := if (p.bedTemp b).tc.isNone then some ((p.bedTemp b).blindSince.getD p.now) else none } := by
  unfold settleBlind
  dsimp only
  generalize record : p.bedTemp b = x
  rcases x with ⟨_ | v, _ | since, hot⟩
  · exact bedTemp_setBedTemp_same inside _
  · exact record
  · exact record
  · exact bedTemp_setBedTemp_same inside _

theorem bedTemp_settleOverheat : (settleOverheat c b p).bedTemp b =
    { p.bedTemp b with overheat := match (p.bedTemp b).tc with
      | none => (p.bedTemp b).overheat
      | some v => if (p.bedTemp b).overheat then decide ((c.bed b).tmax - 20 < v) else decide ((c.bed b).tmax < v) } := by
  unfold settleOverheat
  dsimp only
  generalize record : p.bedTemp b = x
  rcases x with ⟨_ | v, blind, _ | _⟩
  · exact record
  · exact record
  · simp only [Bool.not_false, true_and, false_and, Bool.false_eq_true, if_false]
    by_cases high : (c.bed b).tmax < v
    · rw [if_pos high, decide_eq_true high]
      exact bedTemp_setBedTemp_same inside _
    · rw [if_neg high, decide_eq_false high]
      exact record
  · simp only [Bool.not_true, true_and, false_and, Bool.false_eq_true, if_false, if_true]
    by_cases low : v ≤ (c.bed b).tmax - 20
    · rw [if_pos low, decide_eq_false (not_lt.mpr low)]
      exact bedTemp_setBedTemp_same inside _
    · rw [if_neg low, decide_eq_true (not_le.mp low)]
      exact record

end

theorem settleBlind_beds_length : (settleBlind b p).scan.beds.length = p.scan.beds.length := by
  unfold settleBlind
  dsimp only
  split
  · exact List.length_set
  · exact List.length_set
  · rfl

theorem settleOverheat_beds_length : (settleOverheat c b p).scan.beds.length = p.scan.beds.length := by
  unfold settleOverheat
  dsimp only
  split
  · rfl
  · split
    · exact List.length_set
    · split
      · exact List.length_set
      · rfl

theorem bedTemp_settleBlind_other {j : Nat} (other : j ≠ b) : (settleBlind b p).bedTemp j = p.bedTemp j := by
  unfold settleBlind
  dsimp only
  split
  · exact bedTemp_setBedTemp_other other _
  · exact bedTemp_setBedTemp_other other _
  · rfl

theorem bedTemp_settleOverheat_other {j : Nat} (other : j ≠ b) : (settleOverheat c b p).bedTemp j = p.bedTemp j := by
  unfold settleOverheat
  dsimp only
  split
  · rfl
  · split
    · exact bedTemp_setBedTemp_other other _
    · split
      · exact bedTemp_setBedTemp_other other _
      · rfl

theorem bedTemp_evaluateBed (inside : b < p.scan.beds.length) (evaluating : p.scan.evaluating = true) :
    (evaluateBed c b p).bedTemp b = (p.bedTemp b).formed (controlTemp c p b) p.now (c.bed b).tmax := by
  have inside' (x : BedTemp) : b < (p.setBedTemp b x).scan.beds.length := Nat.lt_of_lt_of_eq inside List.length_set.symm
  unfold evaluateBed
  rw [if_pos evaluating, bedTemp_settleOverheat (by rw [settleBlind_beds_length]; exact inside' _),
    bedTemp_settleBlind (inside' _), bedTemp_setBedTemp_same inside]
  rfl

theorem bedTemp_evaluateBed_other {j : Nat} (other : j ≠ b) : (evaluateBed c b p).bedTemp j = p.bedTemp j := by
  unfold evaluateBed
  split
  · rw [bedTemp_settleOverheat_other other, bedTemp_settleBlind_other other, bedTemp_setBedTemp_other other]
  · rfl

theorem evaluateBed_beds_length : (evaluateBed c b p).scan.beds.length = p.scan.beds.length := by
  unfold evaluateBed
  split
  · rw [settleOverheat_beds_length, settleBlind_beds_length]
    exact List.length_set
  · rfl

/-- The temperature record of an assigned bed after the beds have been evaluated. -/
theorem bedTemp_evaluated (hb : b < 4) (assigned : c.assigned b = true) (inside : b < p.scan.beds.length)
    (evaluating : p.scan.evaluating = true) :
    (evaluated c p).bedTemp b = (p.bedTemp b).formed (controlTemp c p b) p.now (c.bed b).tmax := by
  refine forAssigned_once (get := fun q => q.bedTemp b) (g := fun x => x.formed (controlTemp c p b) p.now (c.bed b).tmax)
    (ok := fun q => b < q.scan.beds.length ∧ q.scan = { p.scan with beds := q.scan.beds } ∧ q.clock = p.clock)
    hb assigned (fun q j ok => ?_) (fun q ok => ?_) (fun q j _ other => bedTemp_evaluateBed_other other.symm) ⟨inside, rfl, rfl⟩
  · obtain ⟨inside, scan, clock⟩ := ok
    refine ⟨by rw [evaluateBed_beds_length]; exact inside, ?_, (evaluateBed_act c q c j).clock.trans clock⟩
    rw [evaluateBed_rest, scan]
  · obtain ⟨inside, scan, clock⟩ := ok
    have control : controlTemp c q b = controlTemp c p b := by
      unfold controlTemp Part.channel
      rw [scan]
    rw [bedTemp_evaluateBed inside (by rw [scan]; exact evaluating), control, show q.now = p.now from congrArg Clock.now clock]

/-! ### The bed record at a sample handed on (02 R26, R36, 03 R54, R59) -/

/-- A bed with its governing maturity published and its tests formed. -/
def Bed.governed (c : Settings) (least : Option Nat) (x : Bed) : Bed :=
  if x.state = .empty then x else formBedTests c { x with mg := publish x.mg least }

theorem bed_governed (hb : b < 4) (assigned : c.assigned b = true) (inside : b < p.beds.length) :
    (p.forAssigned c (computeGoverning c)).bed b = (p.bed b).governed c (governingMinimum c p b) := by
  refine forAssigned_once (get := fun q => q.bed b) (g := Bed.governed c (governingMinimum c p b))
    (ok := fun q => b < q.beds.length ∧ q.scan = p.scan ∧ q.maturity = p.maturity)
    hb assigned (fun q j ok => ?_) (fun q ok => ?_) (fun q j _ other => bed_computeGoverning_other other.symm) ⟨inside, rfl, rfl⟩
  · obtain ⟨inside, scan, maturity⟩ := ok
    have act := computeGoverning_act c q c j
    exact ⟨by rw [computeGoverning_beds_length]; exact inside, act.scan.trans scan, act.maturity.trans maturity⟩
  · obtain ⟨inside, scan, maturity⟩ := ok
    have minimum : governingMinimum c q b = governingMinimum c p b := by
      unfold governingMinimum Part.channel
      rw [scan, maturity]
    rw [bed_computeGoverning inside, minimum]
    rfl

theorem governed_beds_length : (p.forAssigned c (computeGoverning c)).beds.length = p.beds.length :=
  forAssigned_preserves (g := fun q : Part => q.beds.length) (fun _ _ => computeGoverning_beds_length) p

end Sys2Proof.Machine

namespace Sys2Proof.Machine
open Sys2Proof

variable {c : Settings} {p : Part} {b : Nat}

/-! ### Release test, fraction and demand at a sample handed on (03 R54, R59 to R61) -/

/-- A bed with its release test evaluated. -/
def Bed.released (x : Bed) : Bed := { x with releaseReady := x.releaseReady || (x.state == .curing && x.releaseTest) }

/-- A bed with its fraction formed from a control temperature, and its demand from that. -/
def Bed.demanded (g : BedCfg) (tc : Option Int) (stops : Bool) (x : Bed) : Bed :=
  let f := match tc with
    | some v => fractionOf g.gain x.setpoint v
    | none => x.f
  { x with f := f, db := if x.state == .empty || stops then 0 else f * g.pmax / 1000 }

theorem bed_released (hb : b < 4) (assigned : c.assigned b = true) (inside : b < p.beds.length) :
    (p.forAssigned c evaluateRelease).bed b = (p.bed b).released :=
  forAssigned_once (get := fun q => q.bed b) (g := Bed.released) (ok := fun q => b < q.beds.length) hb assigned
    (fun _ _ ok => by rw [evaluateRelease_beds_length]; exact ok) (fun _ ok => bed_evaluateRelease ok)
    (fun _ _ _ other => bed_evaluateRelease_other other.symm) inside

theorem released_beds_length : (p.forAssigned c evaluateRelease).beds.length = p.beds.length :=
  forAssigned_preserves (g := fun q : Part => q.beds.length) (fun _ _ => evaluateRelease_beds_length) p

/-- A fraction formed changes the bed record. -/
theorem formFraction_cases (c : Settings) (b : Nat) (p : Part) :
    (p.bedTemp b).tc = none ∧ formFraction c b p = p
      ∨ ∃ v, (p.bedTemp b).tc = some v
        ∧ formFraction c b p = p.withBed b fun x => { x with f := fractionOf (c.bed b).gain x.setpoint v } := by
  unfold formFraction
  cases tc : (p.bedTemp b).tc with
  | none => exact .inl ⟨rfl, rfl⟩
  | some v => exact .inr ⟨v, rfl, rfl⟩

/-- What forces a demand is read from scan, outputs and supply. -/
theorem forcing_congr {q : Part} (scan : q.scan = p.scan) (out : q.out = p.out) (supply : q.supply = p.supply) :
    forcing c q b = forcing c p b := by
  unfold forcing Part.bedTemp Part.flow Part.emergencyActive Part.inWarning
  rw [scan, out, supply]

theorem blindTooLong_congr {q : Part} (scan : q.scan = p.scan) (clock : q.clock = p.clock) :
    blindTooLong c q b = blindTooLong c p b := by
  unfold blindTooLong Part.bedTemp Part.now
  rw [scan, clock]

theorem formFraction_leaves (j : Nat) : HeatAct c p (formFraction c j p) ∧ (formFraction c j p).out = p.out
    ∧ (formFraction c j p).beds.length = p.beds.length ∧ ∀ k, k ≠ j → (formFraction c j p).bed k = p.bed k := by
  rcases formFraction_cases c j p with ⟨_, same⟩ | ⟨v, _, formed⟩
  · rw [same]
    exact ⟨.refl c p, rfl, rfl, fun _ _ => rfl⟩
  · rw [formed]
    exact ⟨HeatAct.withBed c p j _ rfl, withBed_out p j _, withBed_beds_length, fun k other => bed_withBed_other other⟩

/-- The fraction and the demand of one bed. -/
theorem bed_formFraction_demand (inside : b < p.beds.length) : (formDemand c b (formFraction c b p)).bed b =
    (p.bed b).demanded (c.bed b) (p.bedTemp b).tc (forcing c p b || blindTooLong c p b) := by
  obtain ⟨act, out, length, _⟩ := formFraction_leaves (c := c) (p := p) b
  have fraction : (formFraction c b p).bed b = { p.bed b with f := match (p.bedTemp b).tc with
      | some v => fractionOf (c.bed b).gain (p.bed b).setpoint v
      | none => (p.bed b).f } := by
    rcases formFraction_cases c b p with ⟨blind, same⟩ | ⟨v, seen, formed⟩
    · rw [same, blind]
    · rw [formed, seen, bed_withBed_same inside]
  rw [bed_formDemand (by rw [length]; exact inside)]
  unfold demandOf
  rw [forcing_congr act.scan out act.supply, blindTooLong_congr act.scan act.clock, fraction]
  unfold Bed.demanded
  dsimp only
  rw [Bool.or_assoc]

/-- The fractions and demands of the assigned beds. -/
def demandsTaken (c : Settings) (p : Part) : Part := p.forAssigned c fun b r => formDemand c b (formFraction c b r)

theorem forcing_demandsTaken : forcing c (demandsTaken c p) b = forcing c p b := by
  refine forAssigned_preserves (g := fun q : Part => forcing c q b) (fun j q => ?_) p
  obtain ⟨act, out, _, _⟩ := formFraction_leaves (c := c) (p := q) j
  exact (forcing_formDemand b j).trans (forcing_congr act.scan out act.supply)

theorem demandsTaken_act : HeatAct c p (demandsTaken c p) :=
  HeatAct.forAssigned (fun j q => (formFraction_leaves (p := q) j).1.trans (formDemand_act c _ j)) p

theorem bed_demandsTaken (hb : b < 4) (assigned : c.assigned b = true) (inside : b < p.beds.length) :
    (demandsTaken c p).bed b = (p.bed b).demanded (c.bed b) (p.bedTemp b).tc (forcing c p b || blindTooLong c p b) := by
  refine forAssigned_once (get := fun q => q.bed b)
    (g := Bed.demanded (c.bed b) (p.bedTemp b).tc (forcing c p b || blindTooLong c p b))
    (ok := fun q => b < q.beds.length ∧ q.scan = p.scan ∧ q.clock = p.clock ∧ forcing c q b = forcing c p b)
    hb assigned (fun q j ok => ?_) (fun q ok => ?_) (fun q j _ other => ?_) ⟨inside, rfl, rfl, rfl⟩
  · obtain ⟨inside, scan, clock, forced⟩ := ok
    obtain ⟨act, out, length, _⟩ := formFraction_leaves (c := c) (p := q) j
    have both := act.trans (formDemand_act c (formFraction c j q) j)
    refine ⟨by rw [formDemand_beds_length, length]; exact inside, both.scan.trans scan, both.clock.trans clock, ?_⟩
    rw [forcing_formDemand, forcing_congr act.scan out act.supply, forced]
  · obtain ⟨inside, scan, clock, forced⟩ := ok
    have temp : q.bedTemp b = p.bedTemp b := by unfold Part.bedTemp; rw [scan]
    rw [bed_formFraction_demand inside, forced, blindTooLong_congr scan clock, temp]
  · rw [bed_formDemand_other other.symm, (formFraction_leaves (c := c) (p := q) j).2.2.2 b other.symm]

/-- A computation of the grant leaves what forces a demand. -/
theorem forcing_computeGrant (l : List Nat) : forcing c (computeGrant c l p) b = forcing c p b := by
  have act : HeatAct c p (computeGrant c l p) := computeGrant_act c p l
  have fault : ((computeGrant c l p).flow b).fault = (p.flow b).fault := by
    rw [(computeGrant_outKept (c := c) (p := p) l).flow b]
  have temp : (computeGrant c l p).bedTemp b = p.bedTemp b := by
    unfold Part.bedTemp
    rw [act.scan]
  have emergency : (computeGrant c l p).emergencyActive = p.emergencyActive := by
    unfold Part.emergencyActive
    rw [computeGrant_emergency]
  unfold forcing
  rw [fault, temp, emergency, act.inWarning]

theorem bedsTake_eq : bedsTake c p = computeGrant c [] (demandsTaken c (p.forAssigned c evaluateRelease)) := rfl

/-- What the bed controller makes of a bed at a sample. -/
theorem bed_bedsTake (hb : b < 4) (assigned : c.assigned b = true) (inside : b < p.beds.length) :
    (bedsTake c p).bed b = (p.bed b).released.demanded (c.bed b) (p.bedTemp b).tc
      (forcing c (bedsTake c p) b || blindTooLong c (bedsTake c p) b) := by
  have releases : HeatAct c p (p.forAssigned c evaluateRelease) := HeatAct.forAssigned (fun j q => evaluateRelease_act c q j) p
  have grants : HeatAct c (demandsTaken c (p.forAssigned c evaluateRelease)) (bedsTake c p) := computeGrant_act c _ []
  have after := demandsTaken_act.trans grants
  have forced : forcing c (bedsTake c p) b = forcing c (p.forAssigned c evaluateRelease) b :=
    (forcing_computeGrant []).trans forcing_demandsTaken
  have temp : (p.forAssigned c evaluateRelease).bedTemp b = p.bedTemp b := by
    unfold Part.bedTemp
    rw [releases.scan]
  rw [forced, blindTooLong_congr after.scan after.clock, bedsTake_eq, bed_of_beds (computeGrant_beds _ c _),
    bed_demandsTaken hb assigned (by rw [released_beds_length]; exact inside), bed_released hb assigned inside, temp]

end Sys2Proof.Machine

namespace Sys2Proof.Machine
open Sys2Proof

variable {c : Settings} {p : Part} {b : Nat}

/-! ### A completed sample, from the channels to the demands (01 R7, 02 R40, 03 R59) -/

theorem advanceAll_beds (x : Sample) : (advanceAll c x p).beds = p.beds := by
  unfold advanceAll
  split
  · rfl
  · exact markIf_beds _ _ _

theorem advanceAll_scan (x : Sample) : (advanceAll c x p).scan = p.scan := by
  unfold advanceAll
  split
  · rfl
  · exact markIf_scan _ _ _

/-- Accumulators are advanced by what beds and accumulators say. -/
theorem advanceAll_congr {q : Part} (beds : q.beds = p.beds) (maturity : q.maturity = p.maturity) (x : Sample) :
    (advanceAll c x q).maturity = (advanceAll c x p).maturity := by
  unfold advanceAll
  split
  · exact maturity
  · have same (k : Nat) (a : Acc) : advanceChannel c q x k a = advanceChannel c p x k a := by
      unfold advanceChannel Part.bed
      rw [beds, maturity]
    simp only [markIf_maturity, maturity, same]

theorem governingMinimum_congr {q : Part} (scan : q.scan.channels = p.scan.channels) (maturity : q.maturity = p.maturity) :
    governingMinimum c q b = governingMinimum c p b := by
  unfold governingMinimum Part.channel
  rw [scan, maturity]

theorem bed_maturityTakes (hb : b < 4) (assigned : c.assigned b = true) (inside : b < p.beds.length) (x : Sample) :
    (maturityTakes c x p).bed b = (p.bed b).governed c (governingMinimum c (advanceAll c x p) b) := by
  have governed := bed_governed (c := c) (p := advanceAll c x p) hb assigned (by rw [advanceAll_beds]; exact inside)
  rw [bed_of_beds (advanceAll_beds x)] at governed
  unfold maturityTakes
  dsimp only
  rw [bed_of_beds (markDirty_beds _ _)]
  split
  · exact governed
  · exact ((formShipTests_act c _ c).bed b).trans governed

theorem maturityTakes_beds_length (x : Sample) : (maturityTakes c x p).beds.length = p.beds.length := by
  have governed : ((advanceAll c x p).forAssigned c (computeGoverning c)).beds.length = p.beds.length := by
    rw [governed_beds_length, advanceAll_beds]
  unfold maturityTakes
  dsimp only
  rw [markDirty_beds]
  split
  · exact governed
  · rw [(formShipTests_act c _ c).beds]
    exact governed

theorem maturityTakes_maturity (x : Sample) : (maturityTakes c x p).maturity = (advanceAll c x p).maturity := by
  have governed : ((advanceAll c x p).forAssigned c (computeGoverning c)).maturity = (advanceAll c x p).maturity :=
    forAssigned_preserves (g := Part.maturity) (fun j q => (computeGoverning_act c q c j).maturity) _
  unfold maturityTakes
  dsimp only
  rw [markDirty_maturity]
  split
  · exact governed
  · exact (formShipTests_act c _ c).maturity.trans governed

theorem evaluated_keeps (c : Settings) (p : Part) : (evaluated c p).beds = p.beds ∧ (evaluated c p).maturity = p.maturity :=
  Prod.mk.inj (forAssigned_preserves (g := fun q : Part => (q.beds, q.maturity)) (fun j q => by rw [evaluateBed_rest]) p)

/-! #### Handed on -/

section
variable (i t : Nat)

theorem handOn_maturity : (handOn c i t p).maturity = (advanceAll c ⟨usableAll c (handOn c i t p), i, t⟩ p).maturity := by
  have usable : usableAll c (handOn c i t p) = usableAll c (evaluated c p) := by
    unfold usableAll Part.channel
    rw [handOn_scan]
  obtain ⟨beds, maturity⟩ := evaluated_keeps c p
  rw [usable, ← advanceAll_congr beds maturity, ← maturityTakes_maturity, handOn_eq, (settle_act c _ c).maturity,
    (bedsTake_act c _).maturity]

theorem handOn_bedTemp (hb : b < 4) (assigned : c.assigned b = true) (inside : b < p.scan.beds.length)
    (evaluating : p.scan.evaluating = true) :
    (handOn c i t p).bedTemp b = (p.bedTemp b).formed (controlTemp c (handOn c i t p) b) p.now (c.bed b).tmax := by
  have control : controlTemp c (handOn c i t p) b = controlTemp c p b := by
    unfold controlTemp Part.channel
    rw [handOn_scan, evaluated_scan]
  have temp : (handOn c i t p).bedTemp b = (evaluated c p).bedTemp b := by
    unfold Part.bedTemp
    rw [handOn_scan]
  rw [temp, control, bedTemp_evaluated hb assigned inside evaluating]

/-- The bed record after a sample has been handed on. -/
theorem handOn_bed (hb : b < 4) (assigned : c.assigned b = true) (inside : b < p.beds.length) : (handOn c i t p).bed b =
    ((p.bed b).governed c (governingMinimum c (handOn c i t p) b)).released.demanded (c.bed b) ((handOn c i t p).bedTemp b).tc
      (forcing c (handOn c i t p) b || blindTooLong c (handOn c i t p) b) := by
  obtain ⟨beds, _⟩ := evaluated_keeps c p
  have inside' : b < (evaluated c p).beds.length := by rw [beds]; exact inside
  rw [handOn_eq]
  generalize x_def : (⟨usableAll c (evaluated c p), i, t⟩ : Sample) = x
  have taken := bed_maturityTakes (c := c) hb assigned inside' x
  have took := bed_bedsTake (c := c) (p := maturityTakes c x (evaluated c p)) hb assigned
    (by rw [maturityTakes_beds_length]; exact inside')
  have heats : HeatAct c (maturityTakes c x (evaluated c p)) (bedsTake c (maturityTakes c x (evaluated c p))) := bedsTake_act c _
  have crane := settle_act c (bedsTake c (maturityTakes c x (evaluated c p))) c
  have minimum : governingMinimum c (settle c (bedsTake c (maturityTakes c x (evaluated c p)))) b =
      governingMinimum c (advanceAll c x (evaluated c p)) b := by
    refine governingMinimum_congr ?_ ?_
    · rw [crane.scan, heats.scan, maturityTakes_scan, advanceAll_scan]
    · rw [crane.maturity, heats.maturity, maturityTakes_maturity]
  have temp : (settle c (bedsTake c (maturityTakes c x (evaluated c p)))).bedTemp b = (maturityTakes c x (evaluated c p)).bedTemp b := by
    unfold Part.bedTemp
    rw [crane.scan, heats.scan]
  rw [crane.bed, took, taken, minimum, temp, forcing_congr crane.scan crane.out crane.supply, blindTooLong_congr crane.scan crane.clock,
    bed_of_beds beds]

end

end Sys2Proof.Machine

namespace Sys2Proof.Machine
open Sys2Proof

variable {c : Settings} {p : Part} {b k : Nat}

/-! ### A scan completes (01 R3 to R7) -/

/-- What a sample makes of a bed record. -/
theorem sampled_bed (x : Bed) (least : Option Nat) (g : BedCfg) (tc : Option Int) (stops : Bool) :
    let y := ((x.governed c least).released).demanded g tc stops
    y.state = x.state
      ∧ (x.state ≠ .empty → y.mg = publish x.mg least ∧ y.releaseTest = reached c x.mix Curve.release (mixStrength c x.mix y.mg))
      ∧ y.releaseReady = (x.releaseReady || (x.state == .curing && y.releaseTest))
      ∧ (∀ v, tc = some v → y.f = fractionOf g.gain x.setpoint v) ∧ (tc = none → y.f = x.f)
      ∧ y.db = (if x.state = .empty ∨ stops = true then 0 else y.f * g.pmax / 1000) := by
  have demand (z : Bed) : (z.demanded g tc stops).db =
      if z.state = .empty ∨ stops = true then 0 else (z.demanded g tc stops).f * g.pmax / 1000 := by
    have same : (z.state == .empty || stops) = decide (z.state = .empty ∨ stops = true) := by
      rw [Bool.decide_or, Bool.decide_eq_true]
      rfl
    unfold Bed.demanded
    dsimp only
    rw [same]
    simp only [decide_eq_true_eq]
  have fraction (z : Bed) : (∀ v, tc = some v → (z.demanded g tc stops).f = fractionOf g.gain z.setpoint v)
      ∧ (tc = none → (z.demanded g tc stops).f = z.f) := by
    refine ⟨fun v seen => ?_, fun blind => ?_⟩
    · rw [seen]; rfl
    · rw [blind]; rfl
  by_cases empty : x.state = .empty
  · have same : x.governed c least = x := if_pos empty
    dsimp only
    rw [same]
    refine ⟨rfl, fun other => absurd empty other, rfl, (fraction _).1, (fraction _).2, demand _⟩
  · have governed : x.governed c least = formBedTests c { x with mg := publish x.mg least } := if_neg empty
    dsimp only
    rw [governed]
    refine ⟨rfl, fun _ => ⟨rfl, rfl⟩, rfl, (fraction _).1, (fraction _).2, demand _⟩

theorem handOn_channel (i t : Nat) : (handOn c i t p).channel k = p.channel k := by
  unfold Part.channel
  rw [handOn_scan, evaluated_scan]

/-- The scan unit's state beside channels and beds. -/
def scanState (p : Part) : Option ScanRun × List Nat × Bool × Bool :=
  (p.scan.run, p.scan.skipped, p.scan.refGood, p.scan.evaluating)

theorem handOn_scanState (i t : Nat) : scanState (handOn c i t p) = scanState p := by
  unfold scanState
  rw [handOn_scan, evaluated_scan]

/-- A skipped boundary: a missed sample of every channel in use, handed on. -/
def skippedSample (c : Settings) (p : Part) (t : Nat) : Part := handOn c c.ts t (missAll c p)

theorem skippedSample_scanState (t : Nat) : scanState (skippedSample c p t) = scanState p := by
  unfold skippedSample
  rw [handOn_scanState, missAll_eq, applySamples_rest]
  rfl

theorem skippedSample_channels_length (t : Nat) : (skippedSample c p t).scan.channels.length = p.scan.channels.length := by
  unfold skippedSample
  rw [handOn_scan, evaluated_scan, missAll_eq]
  exact applySamples_channels_length _ _ _

theorem channel_skippedSample (t : Nat) (inside : k < p.scan.channels.length) : (skippedSample c p t).channel k =
    if k ∈ channelsInUse c then (p.channel k).apply (.invalid .missed) else p.channel k := by
  unfold skippedSample
  rw [handOn_channel, missAll_eq, channel_applySamples _ _ _ (channelsInUse_nodup c) inside]

theorem channel_skippedSamples (l : List Nat) : ∀ p : Part, k < p.scan.channels.length →
    (k ∈ channelsInUse c → (l.foldl (skippedSample c) p).channel k = l.foldl (fun x _ => x.apply (.invalid .missed)) (p.channel k))
      ∧ (k ∉ channelsInUse c → (l.foldl (skippedSample c) p).channel k = p.channel k) := by
  induction l with
  | nil => exact fun _ _ => ⟨fun _ => rfl, fun _ => rfl⟩
  | cons t l ih =>
    intro p inside
    obtain ⟨used, unused⟩ := ih (skippedSample c p t) (by rw [skippedSample_channels_length]; exact inside)
    have first := channel_skippedSample (c := c) t inside
    refine ⟨fun mem => ?_, fun other => ?_⟩
    · rw [if_pos mem] at first
      rw [List.foldl_cons, List.foldl_cons, used mem, first]
    · rw [if_neg other] at first
      rw [List.foldl_cons, unused other, first]

/-- The scan's own samples taken. -/
def scanned (c : Settings) (ref1 ref2 : Nat) (codes : List Code) (p : Part) : Part :=
  applyScan c ref1 ref2 codes { p with scan := { p.scan with run := none, evaluating := true } }

theorem completeScan_eq (run : ScanRun) (ref1 ref2 : Nat) (codes : List Code) : completeScan c run ref1 ref2 codes p =
    let r := handOn c (if run.initial then 0 else c.ts) run.endTime (scanned c ref1 ref2 codes p)
    r.scan.skipped.foldl (skippedSample c) { r with scan := { r.scan with skipped := [] } } := by
  have step : (fun x t => handOn c c.ts t (missAll c x)) = skippedSample c := by
    funext x t
    rw [skippedSample]
  unfold completeScan scanned
  dsimp only
  rw [step]

section
variable (ref1 ref2 : Nat) (codes : List Code)

theorem scanned_rest : scanned c ref1 ref2 codes p =
    { p with
      scan := { p.scan with
        run := none, evaluating := true, refGood := accepted ref1 ref2
        channels := (scanned c ref1 ref2 codes p).scan.channels }
      line := (scanned c ref1 ref2 codes p).line } := by
  unfold scanned
  rw [applyScan_eq, applySamples_rest, referenceChecked_rest]

theorem channel_scanned (inside : k < p.scan.channels.length) : (scanned c ref1 ref2 codes p).channel k =
    if k ∈ channelsInUse c then (p.channel k).apply (scanSample c ref1 ref2 codes k) else p.channel k := by
  have kept : (referenceChecked ref1 ref2 { p with scan := { p.scan with run := none, evaluating := true } }).scan.channels =
      p.scan.channels := by rw [referenceChecked_rest]
  have same : (referenceChecked ref1 ref2 { p with scan := { p.scan with run := none, evaluating := true } }).channel k = p.channel k := by
    unfold Part.channel
    rw [kept]
  unfold scanned
  rw [applyScan_eq, channel_applySamples _ _ _ (channelsInUse_nodup c) (by rw [kept]; exact inside), same]

theorem scanned_channels_length : (scanned c ref1 ref2 codes p).scan.channels.length = p.scan.channels.length := by
  unfold scanned
  rw [applyScan_eq, applySamples_channels_length, referenceChecked_rest]

end

end Sys2Proof.Machine

namespace Sys2Proof.Machine
open Sys2Proof

variable {c : Settings} {p : Part} {b k : Nat}

/-! ### SCAN_COMPLETION (01 R3 to R7) -/

theorem handOn_channels (i t : Nat) : (handOn c i t p).scan.channels = p.scan.channels := by
  rw [handOn_scan, evaluated_scan]

/-- What the scan's own sample leaves, before the skipped boundaries. -/
structure Sampled (c : Settings) (p : Part) (run : ScanRun) (samples : Nat → Classified) (good : Bool) (r : Part) : Prop where
  state : scanState r = (none, p.scan.skipped, good, true)
  length : r.scan.channels.length = p.scan.channels.length
  used : ∀ k ∈ channelsInUse c, k < p.scan.channels.length → r.channel k = (p.channel k).apply (samples k)
  unused : ∀ k, k ∉ channelsInUse c → k < p.scan.channels.length → r.channel k = p.channel k
  maturity : r.maturity = (advanceAll c ⟨usableAll c r, if run.initial then 0 else c.ts, run.endTime⟩ p).maturity
  temps : ∀ b < 4, c.assigned b = true → b < p.scan.beds.length →
    r.bedTemp b = (p.bedTemp b).formed (controlTemp c r b) p.now (c.bed b).tmax
  beds : ∀ b < 4, c.assigned b = true → b < p.beds.length →
    r.bed b = ((p.bed b).governed c (governingMinimum c r b)).released.demanded (c.bed b) (r.bedTemp b).tc
      (forcing c r b || blindTooLong c r b)

theorem sampled_handOn (run : ScanRun) (ref1 ref2 : Nat) (codes : List Code) :
    Sampled c p run (scanSample c ref1 ref2 codes) (accepted ref1 ref2)
      (handOn c (if run.initial then 0 else c.ts) run.endTime (scanned c ref1 ref2 codes p)) := by
  have rest := scanned_rest (c := c) (p := p) ref1 ref2 codes
  have length := scanned_channels_length (c := c) (p := p) ref1 ref2 codes
  have channel (k : Nat) (inside : k < p.scan.channels.length) := channel_scanned (c := c) ref1 ref2 codes inside
  generalize scanned c ref1 ref2 codes p = z at *
  have beds : z.beds = p.beds := by rw [rest]
  have maturity : z.maturity = p.maturity := by rw [rest]
  have temps : z.scan.beds = p.scan.beds := by rw [rest]
  have now : z.now = p.now := by rw [rest]; rfl
  have evaluating : z.scan.evaluating = true := by rw [rest]
  refine ⟨?_, ?_, fun k mem inside => ?_, fun k other inside => ?_, ?_, fun b hb assigned inside => ?_, fun b hb assigned inside => ?_⟩
  · rw [handOn_scanState, rest]
    rfl
  · rw [handOn_channels, length]
  · rw [handOn_channel, channel k inside, if_pos mem]
  · rw [handOn_channel, channel k inside, if_neg other]
  · rw [← advanceAll_congr beds maturity]
    exact handOn_maturity _ _
  · have same : z.bedTemp b = p.bedTemp b := by unfold Part.bedTemp; rw [temps]
    rw [handOn_bedTemp _ _ hb assigned (by rw [temps]; exact inside) evaluating, same, now]
  · rw [← bed_of_beds beds]
    exact handOn_bed _ _ hb assigned (by rw [beds]; exact inside)

theorem skippedSamples_scanState (l : List Nat) (p : Part) : scanState (l.foldl (skippedSample c) p) = scanState p :=
  foldl_preserves (fun _ t => skippedSample_scanState t) l p

theorem completeScan_sampled (run : ScanRun) (ref1 ref2 : Nat) (codes : List Code) :
    ∃ r, Sampled c p run (scanSample c ref1 ref2 codes) (accepted ref1 ref2) r
      ∧ completeScan c run ref1 ref2 codes p = p.scan.skipped.foldl (skippedSample c) { r with scan := { r.scan with skipped := [] } } := by
  have sampled := sampled_handOn (c := c) (p := p) run ref1 ref2 codes
  refine ⟨_, sampled, ?_⟩
  rw [completeScan_eq]
  dsimp only
  obtain ⟨_, rest⟩ := Prod.mk.inj sampled.state
  obtain ⟨skipped, _⟩ := Prod.mk.inj rest
  rw [skipped]

/-- The scan unit after a completed scan. -/
theorem completeScan_channels (shaped : p.shaped) (run : ScanRun) (ref1 ref2 : Nat) (codes : List Code) {q : Part}
    (done : completeScan c run ref1 ref2 codes p = q) :
    scanState q = (none, [], accepted ref1 ref2, true)
      ∧ (∀ k ∈ channelsInUse c, q.channel k = p.scan.skipped.foldl (fun x _ => x.apply (.invalid .missed))
          ((p.channel k).apply (scanSample c ref1 ref2 codes k)))
      ∧ ∀ k, k ∉ channelsInUse c → q.channel k = p.channel k := by
  obtain ⟨_, _, channels, _⟩ := shaped
  obtain ⟨r, sampled, left⟩ := completeScan_sampled (c := c) (p := p) run ref1 ref2 codes
  have state : scanState { r with scan := { r.scan with skipped := [] } } = (none, [], accepted ref1 ref2, true) := by
    obtain ⟨runs, rest⟩ := Prod.mk.inj sampled.state
    obtain ⟨_, good⟩ := Prod.mk.inj rest
    exact Prod.ext runs (Prod.ext rfl good)
  rw [← done, left, skippedSamples_scanState]
  refine ⟨state, fun k mem => ?_, fun k other => ?_⟩
  · have inside : k < p.scan.channels.length := by rw [show p.scan.channels.length = 23 from channels]; exact channelsInUse_lt mem
    obtain ⟨used, _⟩ := channel_skippedSamples (c := c) p.scan.skipped { r with scan := { r.scan with skipped := [] } }
      (k := k) (by rw [show ({ r with scan := { r.scan with skipped := [] } } : Part).scan.channels = r.scan.channels from rfl,
        sampled.length]; exact inside)
    rw [used mem, ← sampled.used k mem inside]
    rfl
  · by_cases inside : k < p.scan.channels.length
    · obtain ⟨_, unused⟩ := channel_skippedSamples (c := c) p.scan.skipped { r with scan := { r.scan with skipped := [] } }
        (k := k) (by rw [show ({ r with scan := { r.scan with skipped := [] } } : Part).scan.channels = r.scan.channels from rfl,
          sampled.length]; exact inside)
      rw [unused other, ← sampled.unused k other inside]
      rfl
    · have absent (s : Part) (length : s.scan.channels.length = p.scan.channels.length) : s.channel k = Channel.reset :=
        List.getD_eq_default _ _ (by omega)
      rw [absent p rfl, absent]
      rw [foldl_preserves (g := fun q : Part => q.scan.channels.length) fun _ t => skippedSample_channels_length t]
      exact sampled.length

theorem completeScan_unskipped (none : p.scan.skipped = []) (run : ScanRun) (ref1 ref2 : Nat) (codes : List Code) :
    Sampled c p run (scanSample c ref1 ref2 codes) (accepted ref1 ref2) (completeScan c run ref1 ref2 codes p) := by
  obtain ⟨r, sampled, left⟩ := completeScan_sampled (c := c) (p := p) run ref1 ref2 codes
  obtain ⟨_, rest⟩ := Prod.mk.inj sampled.state
  obtain ⟨skipped, _⟩ := Prod.mk.inj rest
  have same : { r with scan := { r.scan with skipped := [] } } = r := by
    rw [← none, ← skipped]
  rw [left, none, List.foldl_nil, same]
  exact sampled

/-! ### The scan in flight at a tick (01 R4) -/

theorem scan_tickPart (runs : p.runs c) : (tickPart p).scan.run = p.scan.run.map (·.tick c p) := by
  have flows : inputsOf (fourBeds.foldl (sampleFlow c) (stepTravel c p)) = inputsOf p :=
    foldl_preserves (g := inputsOf) sampleFlow_inputs _ _
  have flown : (fourBeds.foldl (sampleFlow c) (stepTravel c p)).scan = p.scan :=
    foldl_preserves (g := Part.scan) (fun q b => by unfold sampleFlow; split <;> rfl) _ _
  have stepped : (stepScan c (fourBeds.foldl (sampleFlow c) (stepTravel c p))).scan.run = p.scan.run.map (·.tick c p) := by
    generalize fourBeds.foldl (sampleFlow c) (stepTravel c p) = q at *
    have pins : q.pins = p.pins := congrArg Prod.snd flows
    have same : (fun r : ScanRun => r.tick c q) = fun r => r.tick c p := by
      funext r
      unfold ScanRun.tick conversion
      rw [pins]
    unfold stepScan
    dsimp only
    rw [same, flown]
  have counted : (stepRunning c p).scan.run = p.scan.run.map (·.tick c p) := by
    unfold stepRunning
    dsimp only
    split
    · rw [foldl_preserves (g := Part.scan) (f := sampleCrane) fun _ _ => rfl,
        foldl_preserves (g := Part.scan) (f := sampleJack c) fun q b => by unfold sampleJack; split <;> simp,
        foldl_preserves (g := Part.scan) (f := stepGen c) fun q b => by
          unfold stepGen; split <;> [exact (withGen_act c _ _ _).scan; rfl]]
      exact stepped
    · exact stepped
  unfold tickPart
  rw [if_neg (by rw [runs.1]; exact fun e => nomatch e), onRunning_of_runs runs, ← counted]
  unfold stepMs sampleEmergency
  dsimp only
  split <;> split <;> rfl

theorem ScanRun.tick_codes {r : ScanRun} (upto : r.codes.length = min (conversions c) (r.time / 6)) :
    (r.tick c p).codes.length = min (conversions c) ((r.time + 5) / 6) := by
  unfold ScanRun.tick
  dsimp only
  split
  · rw [List.length_append, List.length_singleton]
    omega
  · omega

theorem scanCompletion_due {r : ScanRun} (runs : p.runs c) (flight : p.scan.run = some r) :
    (∃ a b l, Instr.scanCompletion a b l ∈ dueNow p) ↔ (r.tick c p).codes.length = conversions c := by
  have due : dueScan c p = if (r.tick c p).codes.length = conversions c then
      [.scanCompletion ((r.tick c p).codes.headD 0) ((r.tick c p).codes.getLastD 0) (codesByChannel c (r.tick c p).codes)] else [] := by
    unfold dueScan
    rw [flight]
    rfl
  have falls (a b : Code) (l : List Code) : Instr.scanCompletion a b l ∈ dueNow p ↔ Instr.scanCompletion a b l ∈ dueScan c p :=
    mem_dueNow_of_part (k := .scan) runs rfl
  simp only [falls, due]
  refine ⟨fun ⟨a, b, l, mem⟩ => ?_, fun full => ?_⟩
  · by_contra part
    rw [if_neg part] at mem
    cases mem
  · rw [if_pos full]
    exact ⟨_, _, _, List.mem_singleton.mpr rfl⟩

/-- Settles O11. -/
theorem scanCompletes : Obligations.ScanCompletes := by
  refine ⟨fun s c r ref1 ref2 codes runs shaped flight => ?_, fun p c r runs flight => ⟨?_, rfl, fun upto => ?_⟩⟩
  · have ends : scanEnds ref1 ref2 codes c s.part = completeScan c r ref1.toNat ref2.toNat codes s.part := by
      unfold scanEnds
      rw [flight]
    refine completes_running runs rfl ?_
    rw [ends]
    have act : Quiet c s.part (completeScan c r ref1.toNat ref2.toNat codes s.part) := completeScan_act c _ r _ _ codes
    have unskipped (none : s.part.scan.skipped = []) := completeScan_unskipped (c := c) none r ref1.toNat ref2.toNat codes
    generalize left : completeScan c r ref1.toNat ref2.toNat codes s.part = q at *
    obtain ⟨state, used, unused⟩ := completeScan_channels shaped r ref1.toNat ref2.toNat codes left
    obtain ⟨landed, state⟩ := Prod.mk.inj state
    obtain ⟨skipped, state⟩ := Prod.mk.inj state
    obtain ⟨good, evaluating⟩ := Prod.mk.inj state
    refine ⟨landed, skipped, evaluating, good, used, unused, fun none => (unskipped none).maturity, fun none b hb assigned => ?_,
      act.run, act.config, act.clock, act.travel, act.pins, act.supply, act.placed.keeps, act.mem⟩
    obtain ⟨beds, temps, _⟩ := shaped
    have temp := (unskipped none).temps b hb assigned (Nat.lt_of_lt_of_eq hb temps.symm)
    have bed := (unskipped none).beds b hb assigned (Nat.lt_of_lt_of_eq hb beds.symm)
    have control : (q.bedTemp b).tc = controlTemp c q b := by rw [temp]; rfl
    obtain ⟨same, tests, ready, fraction, stands, demand⟩ := sampled_bed (c := c) (s.part.bed b) (governingMinimum c q b) (c.bed b)
      (q.bedTemp b).tc (forcing c q b || blindTooLong c q b)
    rw [← bed] at same tests ready fraction stands demand
    refine ⟨control, fun blind => ?_, fun v seen => ?_, same, tests, ready, fraction, stands, ?_⟩
    · rw [control] at blind
      rw [temp, blind]
      exact ⟨rfl, rfl⟩
    · rw [control] at seen
      rw [temp, seen]
      exact ⟨rfl, rfl⟩
    · rw [demand]
      simp only [Bool.or_eq_true]
  · rw [scan_tickPart runs, flight]
    rfl
  · have length := ScanRun.tick_codes (p := p) upto
    refine ⟨length, (scanCompletion_due runs flight).trans ?_⟩
    rw [length]
    omega

end Sys2Proof.Machine
end

