-- ==== Sys2Proof/Proofs/ClockEvents.lean ====
section
/-! PROOFS. Clock events: flow windows, stages, demands, age tests and timeouts at a second event (01 R1 to R3, 05 R86, R87). -/
namespace Sys2Proof.Machine
open Sys2Proof

variable {c : Settings} {p : Part} {b : Nat}

/-! ### The flow windows at a second event (05 R86, R87) -/

/-- A fold over the assigned beds that keeps one property up to the turn of bed `b`, and another from there on. -/
theorem forAssigned_turn {before after : Part → Prop} {f : Nat → Part → Part} (hb : b < 4) (assigned : c.assigned b = true)
    (waits : ∀ q j, j ≠ b → before q → before (f j q)) (own : ∀ q, before q → after (f b q))
    (stays : ∀ q j, j ≠ b → after q → after (f j q)) (start : before p) : after (p.forAssigned c f) := by
  unfold Part.forAssigned Part.forBeds
  have fold : ∀ (l : List Nat), l.Nodup → ∀ q : Part,
      (b ∉ l → after q → after (l.foldl (fun q j => if c.assigned j then f j q else q) q))
        ∧ (b ∈ l → before q → after (l.foldl (fun q j => if c.assigned j then f j q else q) q)) := by
    intro l
    induction l with
    | nil => exact fun _ q => ⟨fun _ h => h, fun mem => nomatch mem⟩
    | cons j l ih =>
      intro distinct q
      obtain ⟨fresh, distinct⟩ := List.nodup_cons.mp distinct
      obtain ⟨passed, coming⟩ := ih distinct (if c.assigned j then f j q else q)
      refine ⟨fun absent h => ?_, fun mem h => ?_⟩
      · have other : j ≠ b := fun same => absent (List.mem_cons.mpr (.inl same.symm))
        refine passed (fun later => absent (List.mem_cons_of_mem _ later)) ?_
        split
        · exact stays q j other h
        · exact h
      · by_cases same : j = b
        · subst same
          rw [if_pos assigned] at passed
          rw [List.foldl_cons, if_pos assigned]
          exact passed fresh (own q h)
        · refine coming ((List.mem_cons.mp mem).resolve_left fun e => same e.symm) ?_
          split
          · exact waits q j same h
          · exact h
  exact (fold (List.range 4) List.nodup_range p).2 (List.mem_range.mpr hb) start

/-- An allocation that is buffered, or that finds the generator at rest, breaks no window. -/
theorem takeAllocation_flow {j alloc : Nat} {v : Bool} (calm : j = b → v = true → (p.gen b).onTime = 0) :
    (takeAllocation c j alloc v p).flow b = p.flow b := by
  by_cases same : j = b
  · subst same
    unfold takeAllocation
    rw [withGen_unbroken]
    · rfl
    · cases v with
      | false =>
        rw [if_neg Bool.false_ne_true]
        exact Bool.and_not_self _
      | true =>
        have rests : (p.gen j).request = false := by
          unfold Gen.request
          rw [calm rfl rfl]
          exact decide_eq_false (Nat.not_lt_zero _)
        rw [rests]
        exact Bool.false_and _
  · exact (withGen_other fun e => same e.symm).2

/-- A computation of the grant that does not force bed `b` leaves its flow monitor; in CLASH its generator has to rest already. -/
theorem computeGrant_flow {l : List Nat} (unforced : b ∉ l) (calm : p.inClash = true → (p.gen b).onTime = 0) :
    (computeGrant c l p).flow b = p.flow b := by
  have shed (level : Nat) (q : Part) : (takeShed c level q).flow b = q.flow b := by
    unfold Part.flow
    rw [takeShed_outs]
  have fold : ∀ (bs : List Nat) (q : Part), (p.inClash = true → (q.gen b).onTime = 0) →
      ((bs.foldl (fun x k => if c.assigned k then takeAllocation c k ((shareOf c p).alloc.getD k 0)
        (decide (k ∈ l) || p.inClash) x else x) q).flow b) = q.flow b := by
    intro bs
    induction bs with
    | nil => exact fun _ _ => rfl
    | cons k bs ih =>
      intro q calm
      rw [List.foldl_cons, ih _ fun clash => ?_]
      · split
        · refine takeAllocation_flow fun same forced => calm ?_
          rw [same, decide_eq_false unforced, Bool.false_or] at forced
          exact forced
        · rfl
      · split
        · exact (takeAllocation_outKept _ _).cold b (calm clash)
        · exact calm clash
  unfold computeGrant
  dsimp only
  rw [shed]
  exact fold (List.range 4) { p with heat := shareOf c p } calm

/-- The demand of another bed leaves the flow monitor of bed `b`. -/
theorem formDemand_flow_other {j : Nat} (other : j ≠ b) (calm : p.inClash = true → (p.gen b).onTime = 0) :
    (formDemand c j p).flow b = p.flow b := by
  unfold formDemand
  dsimp only
  split
  · unfold quell
    split
    · exact takeAllocation_flow fun same => absurd same other
    · rfl
  · have forced : b ∉ (if demandOf c p j = 0 ∧ forcing c p j = true then [j] else []) := by
      split
      · exact fun mem => other (List.mem_singleton.mp mem).symm
      · exact fun mem => nomatch mem
    have clashes : (p.withBed j fun x => { x with db := demandOf c p j }).inClash = p.inClash := by
      unfold Part.inClash
      rw [withBed_line]
    have out := withBed_out p j fun x => { x with db := demandOf c p j }
    rw [computeGrant_flow forced fun clash => ?_]
    · unfold Part.flow
      rw [out]
    · unfold Part.gen
      rw [out]
      exact calm (clashes.symm.trans clash)

/-! #### A window closes -/

/-- A part with one window closed, before its demand. -/
structure WindowClosed (c : Settings) (j : Nat) (p q : Part) : Prop where
  own : j < p.out.flows.length → q.flow j = (p.flow j).close (c.bed j) (p.gen j).request
  others : ∀ k, k ≠ j → q.flow k = p.flow k
  gens : ∀ k, q.gen k = p.gen k
  clash : q.inClash = p.inClash
  beds : q.beds = p.beds

theorem closeWindow_cases (c : Settings) (j : Nat) (p : Part) :
    ∃ q, WindowClosed c j p q ∧ (closeWindow c j p = q ∨ closeWindow c j p = formDemand c j q) := by
  have set : WindowClosed c j p (p.setFlow j ((p.flow j).close (c.bed j) (p.gen j).request)) :=
    ⟨fun inside => flow_setFlow_same _ inside, fun k other => flow_setFlow_other _ other, fun _ => rfl, rfl, rfl⟩
  generalize q_def : p.setFlow j ((p.flow j).close (c.bed j) (p.gen j).request) = q at set
  have told (r : Report) : WindowClosed c j p (q.report r) :=
    ⟨fun inside => set.own inside, fun k other => set.others k other, fun k => set.gens k,
      (CraneAct.report c q r).inClash.trans set.clash, set.beds⟩
  unfold closeWindow
  dsimp only
  rw [q_def]
  split
  · exact ⟨_, told _, .inr rfl⟩
  · exact ⟨_, set, .inl rfl⟩

theorem closeWindow_cold (j : Nat) (cold : (p.gen b).onTime = 0) : ((closeWindow c j p).gen b).onTime = 0 := by
  obtain ⟨q, closed, same | formed⟩ := closeWindow_cases c j p
  · rw [same, closed.gens]
    exact cold
  · rw [formed]
    exact formDemand_outKept.cold b (by rw [closed.gens]; exact cold)

/-- The window of another bed that closes leaves the flow monitor of bed `b`. -/
theorem closeWindow_flow_other {j : Nat} (other : j ≠ b) (calm : p.inClash = true → (p.gen b).onTime = 0) :
    (closeWindow c j p).flow b = p.flow b := by
  obtain ⟨q, closed, same | formed⟩ := closeWindow_cases c j p
  · rw [same, closed.others b other.symm]
  · rw [formed, formDemand_flow_other other fun clash => ?_, closed.others b other.symm]
    rw [closed.gens]
    exact calm (closed.clash.symm.trans clash)

theorem closeWindow_flow (inside : b < p.out.flows.length) :
    Flow.like ((p.flow b).close (c.bed b) (p.gen b).request) ((closeWindow c b p).flow b) := by
  obtain ⟨q, closed, same | formed⟩ := closeWindow_cases c b p
  · rw [same, closed.own inside]
    exact .refl _
  · rw [formed, ← closed.own inside]
    exact formDemand_outKept.flow b

theorem closeWindow_flow_like {j : Nat} (other : j ≠ b) : Flow.like (p.flow b) ((closeWindow c j p).flow b) := by
  obtain ⟨q, closed, same | formed⟩ := closeWindow_cases c j p
  · rw [same, closed.others b other.symm]
    exact .refl _
  · rw [formed, ← closed.others b other.symm]
    exact formDemand_outKept.flow b

/-- After the windows have closed, the flow monitor is that of its own window closed, but for a window broken since. -/
theorem closeWindows_flow (hb : b < 4) (assigned : c.assigned b = true) (shaped : p.shaped)
    (calm : p.inClash = true → (p.gen b).onTime = 0) :
    ∃ request, Flow.like ((p.flow b).close (c.bed b) request) ((p.forAssigned c (closeWindow c)).flow b) := by
  refine forAssigned_turn (before := fun q => q.flow b = p.flow b ∧ (q.inClash = true → (q.gen b).onTime = 0) ∧ q.shaped)
    (after := fun q => ∃ request, Flow.like ((p.flow b).close (c.bed b) request) (q.flow b)) hb assigned
    (fun q j other h => ?_) (fun q h => ?_) (fun q j other h => ?_) ⟨rfl, calm, shaped⟩
  · obtain ⟨flow, calm, shaped⟩ := h
    have act : HeatAct c q (closeWindow c j q) := closeWindow_act c q j
    exact ⟨(closeWindow_flow_other other calm).trans flow,
      fun clash => closeWindow_cold j (calm (act.inClash.symm.trans clash)), act.shape shaped⟩
  · obtain ⟨flow, _, shaped⟩ := h
    obtain ⟨_, _, _, _, _, _, flows, _⟩ := shaped
    refine ⟨_, flow ▸ closeWindow_flow ?_⟩
    rw [show q.out.flows.length = 4 from flows]
    exact hb
  · obtain ⟨request, like⟩ := h
    exact ⟨request, like.trans (closeWindow_flow_like other)⟩

/-- Closing windows changes of the bed records their demands alone. -/
theorem closeWindow_demandless (j : Nat) (p : Part) : demandless (closeWindow c j p) = demandless p := by
  obtain ⟨q, closed, same | formed⟩ := closeWindow_cases c j p
  · rw [same]
    unfold demandless Part.bed
    rw [closed.beds]
  · rw [formed, formDemand_demandless]
    unfold demandless Part.bed
    rw [closed.beds]

end Sys2Proof.Machine

namespace Sys2Proof.Machine
open Sys2Proof

variable {c : Settings} {p : Part} {b : Nat}

/-! ### The stages at a second event (03 R55 to R57) -/

/-- The place of a stage in their order. -/
def Stage.place : Stage → Nat
  | .preset => 0
  | .ramp => 1
  | .hold => 2
  | .cool => 3
  | .finished => 4

theorem nextStage_place {g : BedCfg} {st next : Stage} {start : Int} {elapsed : Nat} (h : nextStage g st start elapsed = some next) :
    next.place = st.place + 1 := by
  cases st <;> simp only [nextStage, Option.ite_none_right_eq_some, Option.some.injEq, reduceCtorEq] at h
  all_goals
    obtain ⟨_, rfl⟩ := h
    rfl

/-- A transition leaves none due, or the bed one stage further. -/
theorem stageStep_further {n : Nat} (inside : b < p.beds.length) (h : dueStage c b p = none ∨ n ≤ (p.bed b).stage.place) :
    dueStage c b (stageStep c b p) = none ∨ n + 1 ≤ ((stageStep c b p).bed b).stage.place := by
  cases due : dueStage c b p with
  | none => exact .inl (by rw [stageStep_none due, due])
  | some st =>
    have far := h.resolve_left (by rw [due]; exact fun e => nomatch e)
    refine .inr ?_
    rw [bed_stageStep inside due]
    show n + 1 ≤ st.place
    rw [nextStage_place due]
    omega

/-- After four transitions none is due. -/
theorem stageSteps_end (inside : b < p.beds.length) :
    dueStage c b (stageStep c b (stageStep c b (stageStep c b (stageStep c b p)))) = none := by
  have step1 := stageStep_further (c := c) (n := 0) inside (.inr (Nat.zero_le _))
  have step2 := stageStep_further (p := stageStep c b p) (by rw [stageStep_beds_length]; exact inside) step1
  have step3 := stageStep_further (p := stageStep c b (stageStep c b p)) (by simp only [stageStep_beds_length]; exact inside) step2
  have step4 := stageStep_further (p := stageStep c b (stageStep c b (stageStep c b p)))
    (by simp only [stageStep_beds_length]; exact inside) step3
  refine step4.elim id fun far => ?_
  generalize stageStep c b (stageStep c b (stageStep c b (stageStep c b p))) = q at *
  unfold dueStage
  cases stage : (q.bed b).stage <;> rw [stage] at far <;> first | rfl | exact absurd far (by decide)

/-- What the evaluation of the stage makes of a bed, at a control temperature and a time. -/
structure Staged (g : BedCfg) (tc : Option Int) (now : Nat) (x y : Bed) : Prop where
  rest : y = { x with stage := y.stage, stageStart := y.stageStart, rampStart := y.rampStart, setpoint := y.setpoint }
  idle : x.stageRuns = false → y = x
  ends : x.stageRuns = true → nextStage g y.stage y.rampStart (y.elapsed now) = none
    ∧ y.setpoint = stageSetpoint g y.stage y.rampStart (y.elapsed now)
  stands : x.stageRuns = true → nextStage g x.stage x.rampStart (x.elapsed now) = none →
    y.stage = x.stage ∧ y.stageStart = x.stageStart ∧ y.rampStart = x.rampStart
  enters : x.stageRuns = true → ∀ st, nextStage g x.stage x.rampStart (x.elapsed now) = some st →
    nextStage g st (if st = .ramp then max g.tf (tc.getD g.tf) else x.rampStart) 0 = none →
      y.stage = st ∧ y.stageStart = now ∧ y.rampStart = if st = .ramp then max g.tf (tc.getD g.tf) else x.rampStart

theorem bed_evaluateStage_staged (inside : b < p.beds.length) :
    Staged (c.bed b) (p.bedTemp b).tc p.now (p.bed b) ((evaluateStage c b p).bed b) := by
  obtain ⟨st, n, t, v, rest⟩ := bed_evaluateStage_rest (c := c) inside
  refine ⟨by rw [rest], fun idle => by rw [evaluateStage_idle idle], fun runs => ?_, fun runs none => ?_, fun runs st due last => ?_⟩
  · have none := stageSteps_end (c := c) inside
    unfold dueStage at none
    rw [bed_evaluateStage inside runs]
    simp only [stageStep_now] at none
    exact ⟨none, rfl⟩
  · rw [bed_evaluateStage_stands inside runs none]
    exact ⟨rfl, rfl, rfl⟩
  · rw [bed_evaluateStage_enters inside runs due last]
    exact ⟨rfl, rfl, rfl⟩

theorem bed_evaluateStages (hb : b < 4) (assigned : c.assigned b = true) (inside : b < p.beds.length) :
    Staged (c.bed b) (p.bedTemp b).tc p.now (p.bed b) ((p.forAssigned c (evaluateStage c)).bed b) := by
  refine forAssigned_turn (before := fun q => q.bed b = p.bed b ∧ q.scan = p.scan ∧ q.clock = p.clock ∧ b < q.beds.length)
    (after := fun q => Staged (c.bed b) (p.bedTemp b).tc p.now (p.bed b) (q.bed b)) hb assigned
    (fun q j other h => ?_) (fun q h => ?_) (fun q j other h => ?_) ⟨rfl, rfl, rfl, inside⟩
  · obtain ⟨bed, scan, clock, inside⟩ := h
    have act : HeatAct c q (evaluateStage c j q) := evaluateStage_act c q c j
    exact ⟨(bed_evaluateStage_other other.symm).trans bed, act.scan.trans scan, act.clock.trans clock,
      by rw [evaluateStage_beds_length]; exact inside⟩
  · obtain ⟨bed, scan, clock, inside⟩ := h
    have staged := bed_evaluateStage_staged (c := c) inside
    have temp : q.bedTemp b = p.bedTemp b := by unfold Part.bedTemp; rw [scan]
    rwa [bed, temp, show q.now = p.now from congrArg Clock.now clock] at staged
  · rw [bed_evaluateStage_other other.symm]
    exact h

/-! ### The demands -/

/-- Each assigned bed's demand is what its conditions say. -/
theorem bed_formDemands_demand (hb : b < 4) (assigned : c.assigned b = true) (inside : b < p.beds.length) :
    (formDemands c p).bed b = { p.bed b with db := demandOf c p b } := by
  refine forAssigned_turn (before := fun q => q.bed b = p.bed b ∧ q.scan = p.scan ∧ q.clock = p.clock ∧ b < q.beds.length
      ∧ forcing c q b = forcing c p b)
    (after := fun q => q.bed b = { p.bed b with db := demandOf c p b }) hb assigned
    (fun q j other h => ?_) (fun q h => ?_) (fun q j other h => ?_) ⟨rfl, rfl, rfl, inside, rfl⟩
  · obtain ⟨bed, scan, clock, inside, forced⟩ := h
    have act : HeatAct c q (formDemand c j q) := formDemand_act c q j
    exact ⟨(bed_formDemand_other other.symm).trans bed, act.scan.trans scan, act.clock.trans clock,
      by rw [formDemand_beds_length]; exact inside, (forcing_formDemand b j).trans forced⟩
  · obtain ⟨bed, scan, clock, inside, forced⟩ := h
    have demand : demandOf c q b = demandOf c p b := by
      unfold demandOf
      rw [bed, forced, blindTooLong_congr scan clock]
    rw [bed_formDemand inside, bed, demand]
  · rw [bed_formDemand_other other.symm]
    exact h

theorem forcing_formDemands : forcing c (formDemands c p) b = forcing c p b :=
  forAssigned_preserves (g := fun q => forcing c q b) (fun j _ => forcing_formDemand b j) p

theorem demandOf_eq : demandOf c p b = if (p.bed b).state = .empty ∨ forcing c p b = true ∨ blindTooLong c p b = true then 0
    else (p.bed b).f * (c.bed b).pmax / 1000 := by
  unfold demandOf
  simp only [Bool.or_eq_true, beq_iff_eq, or_assoc]

end Sys2Proof.Machine

namespace Sys2Proof.Machine
open Sys2Proof

variable {c : Settings} {p : Part} {b : Nat}

/-! ### SECOND_EVENT, part by part (01 R1, R2) -/

/-- The second begun. -/
def secondBegun (c : Settings) (p : Part) : Part := { p with clock := p.clock.second c }

/-- The flow windows closed, and then the stages evaluated. -/
def windowsClosed (c : Settings) (p : Part) : Part := (secondBegun c p).forAssigned c (closeWindow c)
def stagesTested (c : Settings) (p : Part) : Part := (windowsClosed c p).forAssigned c (evaluateStage c)

theorem secondPasses_eq : secondPasses c p = settle c (testTimeout c .timeout (testTimeout c .claimTimeout
    (formAgeTests c (formDemands c (stagesTested c p))))) := by
  unfold secondPasses secondWork stagesTested windowsClosed secondBegun formDemands
  rfl

theorem windowsClosed_act : HeatAct c (secondBegun c p) (windowsClosed c p) := HeatAct.forAssigned (fun j x => closeWindow_act c x j) _

theorem stagesTested_act : HeatAct c (windowsClosed c p) (stagesTested c p) := HeatAct.forAssigned (fun j x => evaluateStage_act c x c j) _

theorem stagesTested_out : (stagesTested c p).out = (windowsClosed c p).out :=
  forAssigned_preserves (g := Part.out) (fun j q => evaluateStage_out c q j) _

theorem demanded_act : HeatAct c (secondBegun c p) (formDemands c (stagesTested c p)) :=
  (windowsClosed_act.trans stagesTested_act).trans (formDemands_act c _)

/-- What follows the demands is the crane's. -/
theorem secondPasses_crane : CraneAct c (formDemands c (stagesTested c p)) (secondPasses c p) := by
  rw [secondPasses_eq]
  exact (((formAgeTests_act c _ c).trans (testTimeout_act c _ c .claimTimeout)).trans (testTimeout_act c _ c .timeout)).trans
    (settle_act c _ c)

theorem secondPasses_act : PlantAct c (secondBegun c p) (secondPasses c p) :=
  demanded_act.toPlantAct.trans secondPasses_crane.toPlantAct

theorem secondPasses_now : (secondPasses c p).now = (secondBegun c p).now := secondPasses_act.now

/-! #### Flow -/

theorem secondPasses_flow (hb : b < 4) (assigned : c.assigned b = true) (shaped : p.shaped)
    (calm : p.inClash = true → (p.gen b).onTime = 0) :
    ∃ request, Flow.like ((p.flow b).close (c.bed b) request) ((secondPasses c p).flow b) := by
  obtain ⟨request, closed⟩ := closeWindows_flow (c := c) (p := secondBegun c p) hb assigned shaped calm
  have kept : Flow.like ((windowsClosed c p).flow b) ((secondPasses c p).flow b) := by
    have demands := (formDemands_outKept (c := c) (p := stagesTested c p)).flow b
    rw [(settle_out_like secondPasses_crane b).2.1]
    unfold Part.flow at *
    rwa [stagesTested_out] at demands
  exact ⟨request, closed.trans kept⟩

theorem forcing_secondPasses : forcing c (secondPasses c p) b = forcing c (stagesTested c p) b := by
  have crane := secondPasses_crane (c := c) (p := p)
  rw [forcing_congr crane.scan crane.out crane.supply, forcing_formDemands]

/-! #### Beds -/

theorem bed_of_demandless {q : Part} (h : demandless q = demandless p) (b : Nat) : q.bed b = { p.bed b with db := (q.bed b).db } := by
  have same := congrFun h b
  unfold demandless at same
  generalize q.bed b = x at *
  generalize p.bed b = y at *
  cases x
  cases y
  injections
  subst_vars
  rfl

theorem bed_windowsClosed : ∃ d, (windowsClosed c p).bed b = { p.bed b with db := d } := by
  have same : demandless (windowsClosed c p) = demandless (secondBegun c p) := forAssigned_preserves closeWindow_demandless _
  exact ⟨_, bed_of_demandless same b⟩

theorem stagesTested_beds_length (shaped : p.shaped) : (stagesTested c p).beds.length = 4 := by
  have act : HeatAct c (secondBegun c p) (stagesTested c p) := windowsClosed_act.trans stagesTested_act
  obtain ⟨beds, _⟩ := act.shape (show (secondBegun c p).shaped from shaped)
  exact beds

/-- The bed record after a second event. -/
theorem bed_secondPasses (hb : b < 4) (assigned : c.assigned b = true) (shaped : p.shaped) :
    ∃ d y, Staged (c.bed b) (p.bedTemp b).tc (secondPasses c p).now { p.bed b with db := d } y
      ∧ (secondPasses c p).bed b = { y with
          db := if y.state = .empty ∨ forcing c (secondPasses c p) b = true ∨ blindTooLong c (secondPasses c p) b = true then 0
            else y.f * (c.bed b).pmax / 1000 } := by
  obtain ⟨d, begun⟩ := bed_windowsClosed (c := c) (p := p) (b := b)
  have windows := windowsClosed_act (c := c) (p := p)
  have staged := bed_evaluateStages (c := c) (p := windowsClosed c p) hb assigned
    (shaped_beds (windows.shape (show (secondBegun c p).shaped from shaped)) hb)
  have temp : (windowsClosed c p).bedTemp b = p.bedTemp b := by
    unfold Part.bedTemp
    rw [windows.scan]
    rfl
  have crane := secondPasses_crane (c := c) (p := p)
  have demands := formDemands_act c (stagesTested c p)
  have own := bed_formDemands_demand (c := c) (p := stagesTested c p) hb assigned (by rw [stagesTested_beds_length shaped]; exact hb)
  rw [begun, temp, windows.now, ← secondPasses_now] at staged
  refine ⟨d, _, staged, ?_⟩
  rw [crane.bed, own, demandOf_eq, forcing_secondPasses,
    blindTooLong_congr (crane.scan.trans demands.scan) (crane.clock.trans demands.clock)]
  rfl

theorem secondPasses_forced (hb : b < 4) (assigned : c.assigned b = true) (shaped : p.shaped)
    (forced : forcing c (secondPasses c p) b = true) :
    ((secondPasses c p).bed b).db = 0 ∧ heaterRequest c (secondPasses c p) b = false := by
  rw [forcing_secondPasses] at forced
  have crane := secondPasses_crane (c := c) (p := p)
  obtain ⟨db, cold⟩ := formDemands_forced (p := stagesTested c p) hb assigned (by rw [stagesTested_beds_length shaped]; exact hb) forced
  refine ⟨by rw [crane.bed]; exact db, heaterRequest_of_cold ?_⟩
  rw [(settle_out_like crane b).1]
  exact cold

/-! #### Records -/

theorem recordAt_formAgeTests (n : Nat) : recordAt (formAgeTests c p) n =
    (recordAt p n).map fun x => if x.ageTest then x else { x with ageTest := ageReached c p x } := by
  unfold formAgeTests Part.mapPieces recordAt
  simp only [List.getD_eq_getElem?_getD, List.getElem?_map]
  cases p.pieces.register[n]? with
  | none => rfl
  | some o => rfl

theorem halt_pieces (cause : HaltCause) : (halt cause p).pieces = p.pieces := by
  unfold halt
  split
  · split
    · rfl
    · rw [report_pieces, setTarget_pieces, updateMove_pieces]
  · rfl

theorem testTimeout_pieces (cause : HaltCause) : (testTimeout c cause p).pieces = p.pieces := by
  unfold testTimeout
  split
  · exact halt_pieces cause
  · rfl

theorem ageReached_congr {q : Part} (now : q.now = p.now) (x : Piece) : ageReached c q x = ageReached c p x := by
  unfold ageReached pieceAge
  rw [now]

theorem record_secondPasses {n : Nat} {x : Piece} (record : recordAt p n = some x) :
    ∃ y, recordAt (secondPasses c p) n = some y ∧ y.ageTest = (x.ageTest || ageReached c (secondPasses c p) x)
      ∧ y = { x with ageTest := y.ageTest, announced := y.announced } := by
  have stood : recordAt (formDemands c (stagesTested c p)) n = some x :=
    (recordAt_of_pieces (demanded_act (c := c) (p := p)).pieces n).trans record
  have now : (formDemands c (stagesTested c p)).now = (secondPasses c p).now := (secondPasses_crane (c := c) (p := p)).now.symm
  have tested := recordAt_formAgeTests (c := c) (p := formDemands c (stagesTested c p)) n
  rw [stood, Option.map_some, ageReached_congr now] at tested
  obtain ⟨v, after⟩ := (settle_recorded c (testTimeout c .timeout (testTimeout c .claimTimeout
    (formAgeTests c (formDemands c (stagesTested c p)))))).records n
  rw [recordAt_of_pieces ((testTimeout_pieces .timeout).trans (testTimeout_pieces .claimTimeout)), tested, ← secondPasses_eq] at after
  refine ⟨_, after, ?_, ?_⟩
  · cases old : x.ageTest
    · rfl
    · exact old
  · cases x.ageTest <;> rfl

/-! #### Timeouts -/

theorem timedOut_other {m : Move} {cause k : HaltCause} {limit : Nat} (head : headMove p = some m)
    (limited : timeoutOf c m.phase = some (limit, k)) (other : k ≠ cause) : timedOut c p cause = false := by
  unfold timedOut
  rw [head]
  dsimp only
  rw [limited]
  cases m.start with
  | none => rfl
  | some t => exact Bool.and_eq_false_iff.mpr (.inl (beq_eq_false_iff_ne.mpr other))

theorem timedOut_unlimited {m : Move} {cause : HaltCause} (head : headMove p = some m) (unlimited : timeoutOf c m.phase = none) :
    timedOut c p cause = false := by
  unfold timedOut
  rw [head]
  dsimp only
  rw [unlimited]

theorem secondPasses_timeout {m : Move} {t limit : Nat} {cause : HaltCause} (head : headMove p = some m) (start : m.start = some t)
    (limited : timeoutOf c m.phase = some (limit, cause)) (passed : limit ≤ (secondPasses c p).now - t) :
    (secondPasses c p).moves.target = none
      ∧ ∃ y ∈ (secondPasses c p).moves.queue, y.tag = m.tag ∧ y.phase = .halted ∧ y.halt = some (m.phase, cause) := by
  have head' : headMove (formAgeTests c (formDemands c (stagesTested c p))) = some m :=
    (headMove_of_moves (demanded_act (c := c) (p := p)).moves).trans head
  have now : (formAgeTests c (formDemands c (stagesTested c p))).now = (secondPasses c p).now :=
    (secondPasses_crane (c := c) (p := p)).now.symm
  rw [← now] at passed
  rw [secondPasses_eq]
  generalize formAgeTests c (formDemands c (stagesTested c p)) = z at *
  have halted : testTimeout c .timeout (testTimeout c .claimTimeout z) = halt cause z := by
    have halts := testTimeout_halts head' start limited passed
    have working : m.phase ≠ .halted := fun halted => by
      rw [halted] at limited
      cases limited
    by_cases claims : cause = .claimTimeout
    · subst claims
      obtain ⟨x, _, _, after⟩ := halt_head head' working .claimTimeout
      rw [halts]
      unfold testTimeout
      rw [timedOut_unlimited after rfl]
      rfl
    · have first : testTimeout c .claimTimeout z = z := by
        unfold testTimeout
        rw [timedOut_other head' limited claims]
        rfl
      have cause_eq : cause = .timeout := by
        cases phase : m.phase <;> rw [phase] at limited <;> cases limited
        · exact absurd rfl claims
        · rfl
        · exact absurd rfl claims
        · rfl
      rw [first, ← cause_eq, halts]
  have working : m.phase ≠ .halted := fun halted => by
    rw [halted] at limited
    cases limited
  rw [halted]
  exact settle_halt head' working cause

end Sys2Proof.Machine

namespace Sys2Proof.Machine
open Sys2Proof

variable {c : Settings} {p : Part} {b : Nat}

/-! ### Clock events (01 R1 to R3, 05 R86, R87, 03 R55, 02 R39, 09 R170) -/

/-- The run count and the fault of a window that closes, case by case. -/
theorem close_spec {x y : Flow} {g : BedCfg} {request : Bool} (like : Flow.like (x.close g request) y) :
    y.edges = 0 ∧ y.flow = x.edges
      ∧ (x.run < 3 → x.broken = true ∨ g.flowCheck = false ∨ x.fault = true → y.run = x.run ∧ y.fault = x.fault)
      ∧ (x.broken = false → g.flowCheck = true → x.fault = false →
          (g.fmin ≤ x.edges → x.edges ≤ g.fmax → y.run = 0 ∧ y.fault = false)
            ∧ (x.edges < g.fmin ∨ g.fmax < x.edges →
                (x.run < 2 → y.run = x.run + 1 ∧ y.fault = false) ∧ (x.run = 2 → y.run = 0 ∧ y.fault = true))) := by
  have run : y.run = if x.runAfter g = 3 then 0 else x.runAfter g := by rw [like]; rfl
  have fault : y.fault = (x.fault || x.runAfter g == 3) := by rw [like]; rfl
  have goes {n : Nat} (after : x.runAfter g = n) (few : n < 3) : y.run = n ∧ y.fault = x.fault := by
    have other : (n == 3) = false := beq_eq_false_iff_ne.mpr (Nat.ne_of_lt few)
    rw [run, fault, after, if_neg (Nat.ne_of_lt few), other, Bool.or_false]
    exact ⟨rfl, rfl⟩
  refine ⟨by rw [like]; rfl, by rw [like]; rfl, fun few stopped => goes ?_ few, fun whole check faultless => ?_⟩
  · unfold Flow.runAfter
    rw [if_pos ?_]
    simp only [Bool.or_eq_true, Bool.not_eq_true']
    exact or_assoc.mpr stopped
  · have counted : x.runAfter g = if g.fmin ≤ x.edges ∧ x.edges ≤ g.fmax then 0 else x.run + 1 := by
      unfold Flow.runAfter
      rw [whole, check, faultless]
      rfl
    rw [← faultless]
    refine ⟨fun low high => goes (counted.trans (if_pos ⟨low, high⟩)) (by decide), fun outside => ?_⟩
    have more : x.runAfter g = x.run + 1 := counted.trans (if_neg (by omega))
    refine ⟨fun few => goes more (by omega), fun two => ?_⟩
    rw [run, fault, more, two]
    exact ⟨rfl, Bool.or_true _⟩

theorem secondEvent_due (runs : p.runs c) : Instr.secondEvent ∈ dueNow p ↔ p.clock.endsMs = true ∧ 999 ≤ p.clock.msPhase := by
  rw [mem_dueNow_of_part (k := .milli) runs rfl]
  refine and_congr_right fun _ => ⟨fun due => ?_, secondEvent_mem_dueMs⟩
  rcases mem_dueMs due with ⟨_, full⟩ | other | other | ⟨_, other⟩ | other
  · exact full
  all_goals cases other

theorem boundary_due (runs : p.runs c) : (Instr.sampleIntervalBoundary ∈ dueNow p ↔ p.clock.sampleDue = true)
    ∧ (Instr.heatPeriodBoundary ∈ dueNow p ↔ p.clock.heatDue = true) := by
  rw [mem_dueNow_of_part (k := .boundary) runs rfl, mem_dueNow_of_part (k := .boundary) runs rfl]
  refine ⟨mem_dueBoundaries.trans ?_, mem_dueBoundaries.trans ?_⟩
  · simp
  · simp

/-- A sample interval boundary starts a scan, or is counted as skipped. -/
theorem sampleBoundary_spec (p : Part) :
    sampleBoundary p = { p with
        clock := { p.clock with samplePhase := 0, sampleDue := false }
        scan := { p.scan with run := (sampleBoundary p).scan.run, skipped := (sampleBoundary p).scan.skipped } }
      ∧ (p.scan.run = none → (sampleBoundary p).scan.run = some ⟨false, p.now, [], 0⟩ ∧ (sampleBoundary p).scan.skipped = p.scan.skipped)
      ∧ ∀ r, p.scan.run = some r → (sampleBoundary p).scan.run = some r
          ∧ (sampleBoundary p).scan.skipped.length = (if p.scan.skipped.length < 255 then p.scan.skipped.length + 1
              else p.scan.skipped.length) := by
  unfold sampleBoundary
  dsimp only
  cases flight : p.scan.run with
  | none => exact ⟨rfl, fun _ => ⟨rfl, rfl⟩, fun r e => (Option.some_ne_none r e.symm).elim⟩
  | some r =>
    dsimp only
    split
    · refine ⟨by rw [← flight], fun e => (Option.some_ne_none r e).elim, fun s same => ⟨same, ?_⟩⟩
      exact List.length_append
    · exact ⟨rfl, fun e => (Option.some_ne_none r e).elim, fun s same => ⟨flight.trans same, rfl⟩⟩

/-- Settles O10. -/
theorem clockEventsTurn : Obligations.ClockEventsTurn := by
  intro s c runs
  refine ⟨fun shaped => completes_running runs rfl ?_, completes_running runs rfl (sampleBoundary_spec s.part), secondEvent_due runs,
    boundary_due runs⟩
  have act := secondPasses_act (c := c) (p := s.part)
  have flows (b : Nat) (hb : b < 4) (assigned : c.assigned b = true) (calm : s.part.inClash = true → (s.part.gen b).onTime = 0) :=
    secondPasses_flow hb assigned shaped calm
  have beds (b : Nat) (hb : b < 4) (assigned : c.assigned b = true) := bed_secondPasses hb assigned shaped
  have forces (b : Nat) (hb : b < 4) (assigned : c.assigned b = true) := secondPasses_forced (p := s.part) hb assigned shaped
  have records (n : Nat) (x : Piece) := record_secondPasses (c := c) (p := s.part) (n := n) (x := x)
  have timeouts (m : Move) (t limit : Nat) (cause : HaltCause) := secondPasses_timeout (c := c) (p := s.part) (m := m) (t := t)
    (limit := limit) (cause := cause)
  generalize secondPasses c s.part = q at *
  have clock : q.clock = s.part.clock.second c := act.clock
  refine ⟨?_, ?_, fun due => ?_, ?_, fun due => ?_, fun inv b hb assigned => ?_, fun b hb assigned => ?_, records,
    fun m t head start => ⟨fun phase passed => timeouts m t _ _ head start ?_ passed,
      fun phase passed => timeouts m t _ _ head start ?_ passed⟩,
    act.run, act.config, act.travel, act.scan, act.maturity, act.pins, act.supply, act.placed.keeps, act.mem⟩
  · rw [clock]; rfl
  · rw [clock]; rfl
  · rw [clock]
    exact Bool.or_eq_true_iff.mpr (.inr (decide_eq_true due))
  · rw [clock]; rfl
  · rw [clock]
    exact Bool.or_eq_true_iff.mpr (.inr (decide_eq_true due))
  · obtain ⟨request, like⟩ := flows b hb assigned fun clash => (inv c runs clash b hb assigned).1
    obtain ⟨edges, flow, stopped, counted⟩ := close_spec like
    refine ⟨edges, flow, stopped, fun whole check faultless => ?_⟩
    obtain ⟨within, outside⟩ := counted whole check faultless
    refine ⟨within, fun out => ⟨(outside out).1, fun two => ?_⟩⟩
    obtain ⟨run, fault⟩ := (outside out).2 two
    have forced : forcing c q b = true := by
      unfold forcing
      rw [fault]
      simp
    obtain ⟨db, rests⟩ := forces b hb assigned forced
    exact ⟨run, fault, db, rests⟩
  · obtain ⟨d, y, staged, bed⟩ := beds b hb assigned
    have rest := staged.rest
    dsimp only
    rw [bed]
    refine ⟨by rw [rest], fun idle => ?_, fun stages => ?_, by rw [rest], ?_⟩
    · rw [staged.idle idle]
      exact ⟨rfl, rfl, rfl, rfl⟩
    · exact ⟨(staged.ends stages).1, (staged.ends stages).2, staged.stands stages, fun st => staged.enters stages st⟩
    · rw [rest]
  · rcases phase with phase | phase <;> rw [phase] <;> rfl
  · rcases phase with phase | phase <;> rw [phase] <;> rfl

end Sys2Proof.Machine
end

