-- ==== Sys2Proof/Proofs/RestoreSteps.lean ====
section
/-! PROOFS. What each step of the reconciliation does to records, stacks and moves (08 R154, 09 R176). -/
namespace Sys2Proof.Machine
open Sys2Proof

variable {p q r : Part}

/-! ### Dirty marks (11 R195) -/

theorem Block.round_injective : Function.Injective Block.round := by
  intro a b same
  cases a <;> cases b <;> grind [Block.round]

theorem mem_putBy_of_mem {α : Type} {key : α → Nat} (inj : Function.Injective key) (x : α) {y : α} {l : List α} (h : y ∈ l) :
    y ∈ putBy key x l := by
  induction l with
  | nil => cases h
  | cons z zs ih =>
    unfold putBy
    split
    · exact List.mem_cons_of_mem _ h
    · rcases List.mem_cons.mp h with rfl | later
      · split
        · rename_i same
          exact inj same ▸ List.mem_cons_self
        · exact List.mem_cons_self
      · split
        · exact List.mem_cons_of_mem _ later
        · exact List.mem_cons_of_mem _ (ih later)

theorem markDirty_dirty (b : Block) : b ∈ (p.markDirty b).mem.dirty := mem_putBy _ _ _

theorem markDirty_dirtier (a : Block) {b : Block} (h : b ∈ p.mem.dirty) : b ∈ (p.markDirty a).mem.dirty :=
  mem_putBy_of_mem Block.round_injective a h

theorem markIf_dirtier (v : Bool) (a : Block) {b : Block} (h : b ∈ p.mem.dirty) : b ∈ (p.markIf v a).mem.dirty := by
  cases v
  · exact h
  · exact markDirty_dirtier a h

/-! ### What the reconciliation may change (08 R154, 09 R176) -/

/-- What is left of a piece record that is kept: all but its tag and its tier, which may be a lower one. -/
structure Piece.Kept (x y : Piece) : Prop where
  rest : y = { x with place := y.place, tag := y.tag }
  place : y.place = x.place ∨ ∃ l k i j, x.place = .inStock l k i ∧ y.place = .inStock l k j ∧ j ≤ i

theorem Piece.Kept.refl (x : Piece) : x.Kept x := ⟨rfl, .inl rfl⟩

theorem Piece.Kept.untagged (x : Piece) (t : Option Nat) : x.Kept { x with tag := t } := ⟨rfl, .inl rfl⟩

theorem Piece.Kept.trans {x y z : Piece} (h : x.Kept y) (k : y.Kept z) : x.Kept z := by
  refine ⟨by rw [k.rest, h.rest], ?_⟩
  rcases k.place with same | ⟨l, n, i, j, above, tier, le⟩
  · rw [same]
    exact h.place
  · rcases h.place with same | ⟨l', n', i', j', above', tier', le'⟩
    · exact .inr ⟨l, n, i, j, same ▸ above, tier, le⟩
    · have both := tier'.symm.trans above
      injection both with lane number height
      subst lane number height
      exact .inr ⟨l', n', i', j, above', tier, le.trans le'⟩

/-- The fields of a move that no reconciliation changes. -/
def Move.fixed (m : Move) : Nat × MoveKind × Nat × Nat × Nat × Option (Nat × Nat) :=
  (m.tag, m.kind, m.piece, m.pick, m.place, m.stack)

/-- The mark of a stack is kept, released, or made again as the reservation of a move of the queue. -/
def MarkKept (queue : List Move) (i : Nat) (old new : PendMark) : Prop :=
  new = old ∨ new = .none
    ∨ ∃ x ∈ queue, ∃ l n mass, x.stack = some (l, n) ∧ stackIndex l n = i ∧ new = .reservation x.tag x.piece mass

/-- What a step of the reconciliation does to the records, the stacks and the queue: it removes, brings into line, and makes nothing
but a reservation of a move that stands. -/
structure Reconciles (p q : Part) : Prop where
  dirty : ∀ b ∈ p.mem.dirty, b ∈ q.mem.dirty
  lines : q.moves = { p.moves with queue := q.moves.queue }
  queue : (q.moves.queue.map Move.fixed).Sublist (p.moves.queue.map Move.fixed)
  lists : ∀ i, (q.stackAt i).list.Sublist (p.stackAt i).list
  marks : ∀ i, MarkKept p.moves.queue i (p.stackAt i).mark (q.stackAt i).mark
  records : ∀ n y, recordAt q n = some y → ∃ x, recordAt p n = some x ∧ x.Kept y

theorem Reconciles.refl (p : Part) : Reconciles p p :=
  ⟨fun _ h => h, rfl, .refl _, fun _ => .refl _, fun _ => .inl rfl, fun _ y h => ⟨y, h, .refl y⟩⟩

/-- A mark made for a move of a queue is made for a move of the queue it was left from. -/
theorem MarkKept.widen {l m : List Move} {i : Nat} {old new : PendMark} (h : MarkKept l i old new)
    (sub : (l.map Move.fixed).Sublist (m.map Move.fixed)) : MarkKept m i old new := by
  rcases h with same | none | ⟨x, mem, lane, n, mass, stack, index, made⟩
  · exact .inl same
  · exact .inr (.inl none)
  · obtain ⟨y, stood, same⟩ := List.mem_map.mp (sub.subset (List.mem_map_of_mem mem))
    unfold Move.fixed at same
    injection same with tag rest
    injection rest with _ rest
    injection rest with piece rest
    injection rest with _ rest
    injection rest with _ same
    exact .inr (.inr ⟨y, stood, lane, n, mass, same.trans stack, index, by rw [made, tag, piece]⟩)

theorem Reconciles.trans (h : Reconciles p q) (k : Reconciles q r) : Reconciles p r := by
  refine ⟨fun b mem => k.dirty b (h.dirty b mem), by rw [k.lines, h.lines], k.queue.trans h.queue,
    fun i => (k.lists i).trans (h.lists i), fun i => ?_, fun n z record => ?_⟩
  · rcases (k.marks i).widen h.queue with same | none | made
    · rw [same]
      exact h.marks i
    · exact .inr (.inl none)
    · exact .inr (.inr made)
  · obtain ⟨y, at_n, kept⟩ := k.records n z record
    obtain ⟨x, found, kept'⟩ := h.records n y at_n
    exact ⟨x, found, kept'.trans kept⟩

theorem Reconciles.foldl {α : Type} {f : Part → α → Part} (h : ∀ p x, Reconciles p (f p x)) (l : List α) (p : Part) :
    Reconciles p (l.foldl f p) := by
  induction l generalizing p with
  | nil => exact .refl p
  | cons x l ih => exact (h p x).trans (ih _)

/-- What leaves the piece store and the move controller alone. -/
theorem Reconciles.ofStill (pieces : q.pieces = p.pieces) (moves : q.moves = p.moves)
    (dirty : ∀ b ∈ p.mem.dirty, b ∈ q.mem.dirty) : Reconciles p q := by
  have table := stackAt_of_table (congrArg PieceStore.stackTable pieces)
  refine ⟨dirty, by rw [moves], by rw [moves], fun i => by rw [table], fun i => .inl (by rw [table]), fun n y record => ?_⟩
  exact ⟨y, (recordAt_of_pieces pieces n).symm.trans record, .refl y⟩

/-! ### Step by step -/

variable (p)

theorem report_reconciles (x : Report) : Reconciles p (p.report x) := .ofStill rfl rfl fun _ h => h

theorem withBed_reconciles (b : Nat) (f : Bed → Bed) : Reconciles p (p.withBed b f) :=
  .ofStill (withBed_pieces ..) (withBed_moves ..) fun _ h => markIf_dirtier _ _ h

theorem setBedState_reconciles (b : Nat) (st : BedState) (w : BedCause) : Reconciles p (setBedState b st w p) :=
  (withBed_reconciles p b _).trans (report_reconciles _ _)

/-- A record is removed, or one written that keeps what the record at the block was. -/
theorem setRecord_reconciles (n : Nat) {o : Option Piece} (h : ∀ y, o = some y → ∃ x, recordAt p n = some x ∧ x.Kept y) :
    Reconciles p (p.setRecord n o) := by
  have moves : (p.setRecord n o).moves = p.moves := by unfold Part.setRecord; rw [markIf_moves]
  have table : (p.setRecord n o).pieces.stackTable = p.pieces.stackTable := by unfold Part.setRecord; rw [markIf_pieces]
  refine ⟨fun _ h => markIf_dirtier _ _ h, by rw [moves], by rw [moves], fun i => by rw [stackAt_of_table table],
    fun i => .inl (by rw [stackAt_of_table table]), fun k y record => ?_⟩
  rw [recordAt_setRecord] at record
  split at record
  · rename_i own
    exact own.1 ▸ h y record
  · exact ⟨y, record, .refl y⟩

theorem updatePiece_reconciles (id : Nat) (f : Piece → Piece) (h : ∀ x, findPiece p id = some x → x.Kept (f x)) :
    Reconciles p (updatePiece id f p) := by
  unfold updatePiece
  split
  · rename_i n found
    refine setRecord_reconciles p n fun y written => ?_
    obtain ⟨x, record, rfl⟩ := Option.map_eq_some_iff.mp written
    refine ⟨x, record, h x ?_⟩
    unfold findPiece
    rw [found]
    exact record
  · exact .refl p

theorem untag_reconciles (id : Nat) : Reconciles p (updatePiece id (fun x => { x with tag := none }) p) :=
  updatePiece_reconciles p id _ fun x _ => .untagged x none

theorem setStackAt_reconciles (i : Nat) {x : Stack} (list : x.list.Sublist (p.stackAt i).list)
    (mark : MarkKept p.moves.queue i (p.stackAt i).mark x.mark) : Reconciles p (p.setStackAt i x) := by
  have moves := setStackAt_moves (p := p) i x
  refine ⟨fun _ h => markIf_dirtier _ _ h, by rw [moves], by rw [moves], fun k => ?_, fun k => ?_, fun n y record => ?_⟩
  · rw [stackAt_setStackAt]
    split
    · rename_i own
      exact own.1 ▸ list
    · exact .refl _
  · rw [stackAt_setStackAt]
    split
    · rename_i own
      exact own.1 ▸ mark
    · exact .inl rfl
  · exact ⟨y, (recordAt_setStackAt ..).symm.trans record, .refl y⟩

theorem setQueue_reconciles {l : List Move} (h : (l.map Move.fixed).Sublist (p.moves.queue.map Move.fixed)) :
    Reconciles p (p.setQueue l) := by
  have table : ∀ i, (p.setQueue l).stackAt i = p.stackAt i :=
    stackAt_of_table (congrArg PieceStore.stackTable (setQueue_pieces (p := p) l))
  refine ⟨fun _ h => markIf_dirtier _ _ h, by rw [setQueue_moves], by rw [setQueue_moves]; exact h, fun i => by rw [table],
    fun i => .inl (by rw [table]), fun n y record => ⟨y, ?_, .refl y⟩⟩
  rw [← recordAt_of_pieces (setQueue_pieces (p := p) l)]
  exact record

/-- A move is changed in its phase, start, halt and picked flag alone. -/
theorem updateMove_reconciles (tag : Nat) {f : Move → Move} (h : ∀ m, (f m).fixed = m.fixed) : Reconciles p (updateMove tag f p) := by
  refine setQueue_reconciles p ?_
  rw [List.map_map]
  have same : (Move.fixed ∘ fun m => if m.tag = tag then f m else m) = Move.fixed := by
    funext m
    rw [Function.comp_apply]
    split
    · exact h m
    · rfl
  rw [same]

theorem clearMark_reconciles (tag : Nat) : Reconciles p (clearMark tag p) := by
  unfold clearMark
  split
  · exact setStackAt_reconciles p _ (.refl _) (.inr (.inl rfl))
  · exact .refl p

theorem releaseMark_reconciles (tag id : Nat) : Reconciles p (releaseMark tag id p) :=
  (clearMark_reconciles p tag).trans (untag_reconciles _ id)

theorem removeMove_reconciles (m : Move) : Reconciles p (removeMove m p) :=
  (setQueue_reconciles p (List.filter_sublist.map _)).trans (untag_reconciles _ m.piece)

end Sys2Proof.Machine

namespace Sys2Proof.Machine
open Sys2Proof

variable (c : Settings) (p : Part)

/-! ### Records and beds (03 R64, R65, 08 R154) -/

theorem dropRecord_reconciles (n : Nat) : Reconciles p (dropRecord n p) := by
  unfold dropRecord
  split
  · exact (setRecord_reconciles p n (o := none) fun y h => by cases h).trans (report_reconciles _ _)
  · exact .refl p

theorem dropRecords_reconciles (bad : Part → Nat → Piece → Bool) : Reconciles p (dropRecords bad p) := by
  refine .foldl (fun q n => ?_) _ p
  split
  · split
    · exact dropRecord_reconciles q n
    · exact .refl q
  · exact .refl q

theorem cleanSlots_reconciles (keep : Part → Nat → Nat → Nat → Bool) (b : Nat) : Reconciles p (cleanSlots c keep b p) := by
  unfold cleanSlots
  dsimp only
  split
  · exact ((withBed_reconciles p b _).trans (withBed_reconciles _ b _)).trans (setBedState_reconciles _ b _ _)
  · exact withBed_reconciles p b _

theorem settleDetensioning_reconciles (b : Nat) : Reconciles p (settleDetensioning b p) := by
  unfold settleDetensioning
  split
  · exact (withBed_reconciles p b _).trans (setBedState_reconciles _ b _ _)
  · exact .refl p

theorem restoreBed_reconciles (clockLost : Bool) (b : Nat) : Reconciles p (restoreBed c clockLost b p) := by
  unfold restoreBed
  split
  · refine Reconciles.trans ?_ (cleanSlots_reconciles c _ _ b)
    refine Reconciles.trans ?_ (settleDetensioning_reconciles _ b)
    split
    · exact withBed_reconciles p b _
    · exact .refl p
  · exact withBed_reconciles p b _

/-! ### The list of a stack closes over its gaps (08 R154 step 3) -/

theorem entryAgrees_iff {lane n tier id : Nat} :
    entryAgrees p lane n tier id = true ↔ ∃ x, findPiece p id = some x ∧ x.place = .inStock lane n tier := by
  unfold entryAgrees
  rw [Option.any_eq_true]
  simp only [beq_iff_eq]

/-- The entries of a list that stand where their records are. -/
def closedList (lane n : Nat) (l : List Nat) : List Nat :=
  (l.zipIdx 1).filterMap fun e => if entryAgrees p lane n e.2 e.1 then some e.1 else none

theorem closeStack_eq (lane n : Nat) : closeStack lane n p =
    retier lane n (closedList p lane n (p.stackAt (stackIndex lane n)).list)
      (p.setStackAt (stackIndex lane n)
        { p.stackAt (stackIndex lane n) with list := closedList p lane n (p.stackAt (stackIndex lane n)).list }) := rfl

theorem closedList_sublist (lane n : Nat) (l : List Nat) : (closedList p lane n l).Sublist l := by
  have drops (l : List Nat) (k : Nat) :
      ((l.zipIdx k).filterMap fun e => if entryAgrees p lane n e.2 e.1 then some e.1 else none).Sublist l := by
    induction l generalizing k with
    | nil => exact .refl _
    | cons x l ih =>
      rw [List.zipIdx_cons, List.filterMap_cons]
      split
      · exact (ih (k + 1)).cons x
      · rename_i y kept
        split at kept
        · injection kept with same
          exact same ▸ (ih (k + 1)).cons_cons x
        · cases kept
  exact drops l 1

/-- No id stands twice in the closed list, since its record has one tier. -/
theorem closedList_nodup (lane n : Nat) (l : List Nat) : (closedList p lane n l).Nodup := by
  have distinct : (l.zipIdx 1).Nodup := by
    refine List.Nodup.of_map Prod.snd ?_
    rw [List.zipIdx_map_snd]
    exact List.nodup_range'
  refine List.Nodup.filterMap (fun a a' id one other => ?_) distinct
  rw [Option.mem_def, Option.ite_none_right_eq_some, Option.some.injEq] at one other
  obtain ⟨agrees, rfl⟩ := one
  obtain ⟨agrees', same⟩ := other
  obtain ⟨x, found, place⟩ := (entryAgrees_iff p).mp agrees
  obtain ⟨y, found', place'⟩ := (entryAgrees_iff p).mp agrees'
  rw [same, found] at found'
  injection found' with own
  rw [← own, place] at place'
  injection place' with _ _ tier
  exact Prod.ext same.symm tier

/-- An entry of the closed list stands no higher than it did. -/
theorem closedList_lower {lane n : Nat} {l : List Nat} {id j : Nat} (h : (id, j) ∈ (closedList p lane n l).zipIdx 1) :
    ∃ t, j ≤ t ∧ entryAgrees p lane n t id = true := by
  have lower (l : List Nat) : ∀ a b, a ≤ b →
      (id, j) ∈ (((l.zipIdx b).filterMap fun e => if entryAgrees p lane n e.2 e.1 then some e.1 else none).zipIdx a) →
      ∃ t, j ≤ t ∧ entryAgrees p lane n t id = true := by
    induction l with
    | nil => exact fun _ _ _ mem => nomatch mem
    | cons x l ih =>
      intro a b le mem
      rw [List.zipIdx_cons, List.filterMap_cons] at mem
      split at mem
      · exact ih a (b + 1) (Nat.le_succ_of_le le) mem
      · rename_i y kept
        rw [Option.ite_none_right_eq_some, Option.some.injEq] at kept
        obtain ⟨agrees, rfl⟩ := kept
        rw [List.zipIdx_cons] at mem
        rcases List.mem_cons.mp mem with own | later
        · injection own with same tier
          exact ⟨b, tier ▸ le, same ▸ agrees⟩
        · exact ih (a + 1) (b + 1) (Nat.succ_le_succ le) later
  exact lower l 1 1 (Nat.le_refl 1) h

/-- Tiers written to distinct pieces, none above the tier its record has, keep the records. -/
theorem retiers_reconciles {lane n : Nat} (l : List (Nat × Nat)) (distinct : (l.map Prod.fst).Nodup)
    (lower : ∀ e ∈ l, ∃ t, e.2 ≤ t ∧ entryAgrees p lane n t e.1 = true) :
    Reconciles p (l.foldl (fun q e => updatePiece e.1 (fun x => { x with place := .inStock lane n e.2 }) q) p) := by
  induction l generalizing p with
  | nil => exact .refl p
  | cons e l ih =>
    obtain ⟨fresh, distinct⟩ := List.nodup_cons.mp distinct
    refine Reconciles.trans (updatePiece_reconciles p e.1 _ fun x found => ⟨rfl, .inr ?_⟩) (ih _ distinct fun e' later => ?_)
    · obtain ⟨t, le, agrees⟩ := lower e List.mem_cons_self
      obtain ⟨x', found', place⟩ := (entryAgrees_iff p).mp agrees
      have same : x' = x := Option.some.inj (found'.symm.trans found)
      exact ⟨lane, n, t, e.2, same ▸ place, rfl, le⟩
    · obtain ⟨t, le, agrees⟩ := lower e' (List.mem_cons_of_mem _ later)
      obtain ⟨x, found, place⟩ := (entryAgrees_iff p).mp agrees
      have other : e'.1 ≠ e.1 := fun same => fresh (same ▸ List.mem_map_of_mem later)
      refine ⟨t, le, (entryAgrees_iff _).mpr ⟨x, ?_, place⟩⟩
      rw [findPiece_update _ _ (fun x => { x with place := .inStock lane n e.2 }) (fun _ => rfl), found, Option.map_some,
        if_neg other]

theorem closeStack_reconciles (lane n : Nat) : Reconciles p (closeStack lane n p) := by
  rw [closeStack_eq]
  generalize is : closedList p lane n (p.stackAt (stackIndex lane n)).list = l
  have shorter : Reconciles p (p.setStackAt (stackIndex lane n) { p.stackAt (stackIndex lane n) with list := l }) :=
    setStackAt_reconciles p _ (is ▸ closedList_sublist ..) (.inl rfl)
  refine shorter.trans ?_
  refine retiers_reconciles _ (l.zipIdx 1) ?_ fun e mem => ?_
  · rw [List.zipIdx_map_fst]
    exact is ▸ closedList_nodup ..
  · obtain ⟨t, le, agrees⟩ := closedList_lower p (is ▸ mem)
    obtain ⟨x, found, place⟩ := (entryAgrees_iff p).mp agrees
    exact ⟨t, le, (entryAgrees_iff _).mpr ⟨x, (findPiece_setStackAt ..).trans found, place⟩⟩

theorem trimStack_reconciles (g : StackCfg) (i fuel : Nat) : Reconciles p (trimStack g i fuel p) := by
  induction fuel generalizing p with
  | zero => exact .refl p
  | succ k ih =>
    unfold trimStack
    dsimp only
    have shorter : Reconciles p (p.setStackAt i { p.stackAt i with list := (p.stackAt i).list.dropLast }) :=
      setStackAt_reconciles p i (List.dropLast_sublist _) (.inl rfl)
    split
    · refine Reconciles.trans ?_ (ih _)
      split
      · exact shorter.trans (dropRecord_reconciles _ _)
      · exact shorter
    · exact .refl p

theorem trimStacks_reconciles : Reconciles p (trimStacks c p) := by
  refine .foldl (fun q ln => ?_) _ p
  dsimp only
  split
  · exact trimStack_reconciles q _ _ _
  · exact setStackAt_reconciles q _ (List.nil_sublist _) (.inl rfl)

theorem cleanAssigned_reconciles : Reconciles p (p.forAssigned c (cleanSlots c slotAgrees)) := by
  refine .foldl (fun q b => ?_) _ p
  dsimp only
  split
  · exact cleanSlots_reconciles c q slotAgrees b
  · exact .refl q

/-- Steps 1 to 3 of 08 R154. -/
theorem reconcilePlaces_reconciles : Reconciles p (reconcilePlaces c p) := by
  have beds := ((dropRecords_reconciles p isDuplicate).trans
    (dropRecords_reconciles _ fun q _ x => !onItsBed c q x)).trans (cleanAssigned_reconciles c _)
  have closed := beds.trans (.foldl (fun q ln => closeStack_reconciles q ln.1 ln.2) stackNumbers _)
  exact (closed.trans (dropRecords_reconciles _ fun q _ x => !inItsStack c q x)).trans (trimStacks_reconciles c _)

/-! ### Moves (09 R176) -/

theorem dropMove_reconciles (m : Move) : Reconciles p (dropMove m p) :=
  ((releaseMark_reconciles p m.tag m.piece).trans (removeMove_reconciles _ m)).trans (report_reconciles _ _)

theorem alignMove_reconciles (m : Move) : Reconciles p (alignMove c p m) := by
  unfold alignMove
  split
  · exact updateMove_reconciles p m.tag fun _ => rfl
  · exact dropMove_reconciles p m

theorem settleMark_reconciles (ln : Nat × Nat) : Reconciles p (settleMark c p ln) := by
  unfold settleMark
  split
  · exact .refl p
  · dsimp only
    split
    · exact ((releaseMark_reconciles p _ _).trans (removeMove_reconciles _ _)).trans (report_reconciles _ _)
    · exact releaseMark_reconciles p _ _

/-- A move of the queue has its reservation made again. -/
theorem reserveAgain_reconciles {m : Move} (mem : m ∈ p.moves.queue) : Reconciles p (reserveAgain c p m) := by
  unfold reserveAgain
  split
  · exact .refl p
  · split
    · rename_i l n x stack _
      dsimp only
      split
      · exact setStackAt_reconciles p _ (.refl _) (.inr (.inr ⟨m, mem, l, n, x.mass, stack, rfl, rfl⟩))
      · exact .refl p
    · exact .refl p

theorem reserves_reconciles (l : List Move) (mem : ∀ m ∈ l, m ∈ p.moves.queue) : Reconciles p (l.foldl (reserveAgain c) p) := by
  induction l generalizing p with
  | nil => exact .refl p
  | cons m l ih =>
    refine (reserveAgain_reconciles c p (mem m List.mem_cons_self)).trans (ih _ fun x later => ?_)
    rw [(reserveAgain_keeps p c m).1]
    exact mem x (List.mem_cons_of_mem _ later)

theorem haltRestored_reconciles (m : Move) : Reconciles p (haltRestored m p) :=
  (updateMove_reconciles p m.tag (f := fun x => { x with phase := .halted, start := none, halt := some (m.phase, .restored) })
    fun _ => rfl).trans (report_reconciles _ _)

theorem settlePicked_reconciles (m : Move) : Reconciles p (settlePicked p m) := by
  unfold settlePicked
  split
  · exact haltRestored_reconciles p m
  · exact dropMove_reconciles p m

/-- Step 4 of 08 R154, with 09 R176. -/
theorem reconcileMoves_reconciles : Reconciles p (reconcileMoves c p) := by
  unfold reconcileMoves haltHeads
  refine Reconciles.trans ?_ (.foldl (fun q m => settlePicked_reconciles q m) _ _)
  refine Reconciles.trans ?_ (.foldl (fun q m => haltRestored_reconciles q m) _ _)
  refine Reconciles.trans ?_ (reserves_reconciles c _ _ fun _ mem => mem)
  exact (Reconciles.foldl (fun q m => alignMove_reconciles c q m) _ p).trans
    (.foldl (fun q ln => settleMark_reconciles c q ln) stackNumbers _)

/-! ### The tags of the records (08 R154 step 5) -/

/-- One record is written anew. -/
def renewed (f : Piece → Piece) (q : Part) (n : Nat) : Part :=
  match recordAt q n with
  | some x => q.setRecord n (some (f x))
  | none => q

theorem mapRecords_eq (f : Piece → Piece) : mapRecords f p = (List.range 256).foldl (renewed f) p := rfl

theorem record_inside {n : Nat} {x : Piece} (record : recordAt p n = some x) : n < p.pieces.register.length := by
  by_contra beyond
  unfold recordAt at record
  rw [List.getD_eq_default _ _ (Nat.le_of_not_lt beyond)] at record
  cases record

theorem recordAt_renewed (f : Piece → Piece) (k n : Nat) :
    recordAt (renewed f p k) n = if k = n then (recordAt p n).map f else recordAt p n := by
  unfold renewed
  by_cases own : k = n
  · subst own
    rw [if_pos rfl]
    cases record : recordAt p k with
    | none => exact record
    | some x =>
      dsimp only
      rw [recordAt_setRecord, if_pos ⟨rfl, record_inside p record⟩]
      rfl
  · rw [if_neg own]
    split
    · rw [recordAt_setRecord, if_neg fun both => own both.1]
    · rfl

/-- Every record is written anew. -/
theorem recordAt_mapRecords (f : Piece → Piece) (n : Nat) :
    recordAt (mapRecords f p) n = if n < 256 then (recordAt p n).map f else recordAt p n := by
  have fold (l : List Nat) : l.Nodup → ∀ q : Part,
      recordAt (l.foldl (renewed f) q) n = if n ∈ l then (recordAt q n).map f else recordAt q n := by
    induction l with
    | nil => exact fun _ q => (if_neg List.not_mem_nil).symm
    | cons k l ih =>
      intro distinct q
      obtain ⟨fresh, distinct⟩ := List.nodup_cons.mp distinct
      rw [List.foldl_cons, ih distinct, recordAt_renewed]
      by_cases own : k = n
      · subst own
        rw [if_neg fresh, if_pos rfl, if_pos List.mem_cons_self]
      · rw [if_neg own]
        simp only [List.mem_cons, Ne.symm own, false_or]
  rw [mapRecords_eq, fold _ List.nodup_range]
  simp only [List.mem_range]

theorem mapRecords_tags_reconciles {f : Piece → Piece} (h : ∀ x, Piece.Kept x (f x)) : Reconciles p (mapRecords f p) := by
  refine .foldl (fun q n => ?_) _ p
  split
  · rename_i x record
    refine setRecord_reconciles q n fun y written => ⟨x, record, ?_⟩
    exact Option.some.inj written ▸ h x
  · exact .refl q

theorem reconcileHook_eq : reconcileHook p =
    mapRecords (carrierTag (dropRecords (fun r _ x => !onItsHook r x) p)) (dropRecords (fun r _ x => !onItsHook r x) p) := rfl

theorem reconcileHook_reconciles : Reconciles p (reconcileHook p) := by
  rw [reconcileHook_eq]
  have dropped := dropRecords_reconciles p fun r _ x => !onItsHook r x
  generalize dropRecords (fun r _ x => !onItsHook r x) p = q at dropped
  exact dropped.trans (mapRecords_tags_reconciles q (f := carrierTag q) fun _ => ⟨rfl, .inl rfl⟩)

/-- What the owners do once the maturity unit has its credits and ambient bases: bed by bed, then the reconciliation. -/
def bedsRestored (c : Settings) (lost : List Block) (p : Part) : Part :=
  (restoreMaturity (lost.contains .clock) p).forBeds (restoreBed c (lost.contains .clock))

theorem restore_eq (lost : List Block) : restore c lost p =
    reconcileHook (reconcileMoves c (reconcilePlaces c (bedsRestored c lost p))) := rfl

theorem restore_reconciles (lost : List Block) :
    Reconciles (restoreMaturity (lost.contains .clock) p) (restore c lost p) := by
  rw [restore_eq]
  have beds : Reconciles (restoreMaturity (lost.contains .clock) p) (bedsRestored c lost p) :=
    .foldl (fun q b => restoreBed_reconciles c q _ b) _ _
  exact ((beds.trans (reconcilePlaces_reconciles c _)).trans (reconcileMoves_reconciles c _)).trans (reconcileHook_reconciles _)

end Sys2Proof.Machine
end

