-- ==== Sys2Proof/Proofs/RestoredBeds.lean ====
section
/-! PROOFS. The bed records in a restore (03 R64, R65). -/
namespace Sys2Proof.Machine
open Sys2Proof

variable {c : Settings} {p : Part} {b : Nat}

/-! ### The bed records in a restore (03 R64, R65) -/

/-- An operation over the beds, each of which changes its own bed record alone and no piece record: a bed meets it as it stood. -/
theorem bed_forBeds {f : Nat → Part → Part} (hb : b < 4) (elsewhere : ∀ q j k, k ≠ j → (f j q).bed k = q.bed k)
    (length : ∀ q j, (f j q).beds.length = q.beds.length) (pieces : ∀ q j, (f j q).pieces = q.pieces) :
    ∃ q, q.bed b = p.bed b ∧ q.beds.length = p.beds.length ∧ q.pieces = p.pieces ∧ (p.forBeds f).bed b = (f b q).bed b := by
  have steps : p.forBeds f = f 3 (f 2 (f 1 (f 0 p))) := rfl
  rw [steps]
  match b, hb with
  | 0, _ =>
    refine ⟨p, rfl, rfl, rfl, ?_⟩
    rw [elsewhere _ 3 0 (by decide), elsewhere _ 2 0 (by decide), elsewhere _ 1 0 (by decide)]
  | 1, _ =>
    refine ⟨f 0 p, elsewhere _ 0 1 (by decide), length _ _, pieces _ _, ?_⟩
    rw [elsewhere _ 3 1 (by decide), elsewhere _ 2 1 (by decide)]
  | 2, _ =>
    refine ⟨f 1 (f 0 p), ?_, (length _ _).trans (length _ _), (pieces _ _).trans (pieces _ _), ?_⟩
    · rw [elsewhere _ 1 2 (by decide), elsewhere _ 0 2 (by decide)]
    · rw [elsewhere _ 3 2 (by decide)]
  | 3, _ =>
    refine ⟨f 2 (f 1 (f 0 p)), ?_, ?_, ?_, rfl⟩
    · rw [elsewhere _ 2 3 (by decide), elsewhere _ 1 3 (by decide), elsewhere _ 0 3 (by decide)]
    · rw [length, length, length]
    · rw [pieces, pieces, pieces]

theorem forBeds_length {f : Nat → Part → Part} (length : ∀ q j, (f j q).beds.length = q.beds.length) :
    (p.forBeds f).beds.length = p.beds.length := by
  show (f 3 (f 2 (f 1 (f 0 p)))).beds.length = _
  rw [length, length, length, length]

theorem forBeds_pieces {f : Nat → Part → Part} (pieces : ∀ q j, (f j q).pieces = q.pieces) : (p.forBeds f).pieces = p.pieces := by
  show (f 3 (f 2 (f 1 (f 0 p)))).pieces = _
  rw [pieces, pieces, pieces, pieces]

theorem forBeds_moves {f : Nat → Part → Part} (moves : ∀ q j, (f j q).moves = q.moves) : (p.forBeds f).moves = p.moves := by
  show (f 3 (f 2 (f 1 (f 0 p)))).moves = _
  rw [moves, moves, moves, moves]

/-! ### One bed -/

/-- A slot list at the present slot count, without the entries that fail a test. -/
def cleanedSlots (n : Nat) (keep : Nat → Nat → Bool) (l : List (Option Nat)) : List (Option Nat) :=
  (resize n l).mapIdx fun i o => o.filter (keep i)

theorem cleanedSlots_length (n : Nat) (keep : Nat → Nat → Bool) (l : List (Option Nat)) : (cleanedSlots n keep l).length = n := by
  unfold cleanedSlots resize
  rw [List.length_mapIdx, List.length_map, List.length_range]

theorem cleanedSlots_getD (n : Nat) (keep : Nat → Nat → Bool) (l : List (Option Nat)) (i : Nat) :
    (cleanedSlots n keep l).getD i none = if i < n then (l.getD i none).filter (keep i) else none := by
  unfold cleanedSlots resize
  rw [List.getD_eq_getElem?_getD, List.getElem?_mapIdx, List.getElem?_map]
  split
  · rename_i inside
    rw [List.getElem?_range inside]
    rfl
  · rename_i beyond
    rw [List.getElem?_eq_none (by rw [List.length_range]; exact Nat.le_of_not_lt beyond)]
    rfl

theorem getD_cleanedSlots_of_some {n : Nat} {keep : Nat → Nat → Bool} {l : List (Option Nat)} {i id : Nat}
    (h : (cleanedSlots n keep l).getD i none = some id) : l.getD i none = some id := by
  rw [cleanedSlots_getD] at h
  split at h
  · exact Option.eq_some_of_filter_eq_some h
  · cases h

/-- A slot list is empty when no slot holds an id. -/
theorem all_isNone_iff {l : List (Option Nat)} : l.all Option.isNone = true ↔ ∀ i, l.getD i none = none := by
  rw [List.all_eq_true]
  refine ⟨fun free i => ?_, fun free o mem => ?_⟩
  · rw [List.getD_eq_getElem?_getD]
    cases entry : l[i]? with
    | none => rfl
    | some o => exact Option.isNone_iff_eq_none.mp (free o (List.mem_of_getElem? entry))
  · obtain ⟨i, entry⟩ := List.mem_iff_getElem?.mp mem
    have := free i
    rw [List.getD_eq_getElem?_getD, entry] at this
    exact Option.isNone_iff_eq_none.mpr this

theorem any_isSome_iff {l : List (Option Nat)} : l.any Option.isSome = true ↔ ¬ l.all Option.isNone = true := by
  rw [List.any_eq_true, List.all_eq_true]
  push Not
  simp only [Bool.not_eq_true, Option.isNone_eq_false_iff]

/-- A bed with its cleaned slot list. -/
def Bed.withSlots (tf : Int) (l : List (Option Nat)) (x : Bed) : Bed :=
  if x.state = .detensioned ∧ x.slots.any Option.isSome ∧ l.all Option.isNone then
    { x with slots := l, hold := false, setpoint := tf, state := .empty }
  else { x with slots := l }

theorem cleanSlots_eq (keep : Part → Nat → Nat → Nat → Bool) : cleanSlots c keep b p =
    let l := cleanedSlots (c.bed b).picks.length (keep p b) (p.bed b).slots
    if (p.bed b).state = .detensioned ∧ (p.bed b).slots.any Option.isSome ∧ l.all Option.isNone then
      emptiedAtRestore c b (p.withBed b fun x => { x with slots := l })
    else p.withBed b fun x => { x with slots := l } := rfl

theorem bed_cleanSlots (keep : Part → Nat → Nat → Nat → Bool) (inside : b < p.beds.length) : (cleanSlots c keep b p).bed b =
    (p.bed b).withSlots (c.bed b).tf (cleanedSlots (c.bed b).picks.length (keep p b) (p.bed b).slots) := by
  rw [cleanSlots_eq]
  dsimp only
  generalize cleanedSlots (c.bed b).picks.length (keep p b) (p.bed b).slots = l
  unfold Bed.withSlots
  have slots := bed_withBed_same (f := fun x => { x with slots := l }) inside
  have inside' : b < (p.withBed b fun x => { x with slots := l }).beds.length := by
    rw [withBed_beds_length]
    exact inside
  split
  · unfold emptiedAtRestore
    rw [bed_setBedState _ _ (by rw [withBed_beds_length]; exact inside'), bed_withBed_same inside', slots]
  · exact slots

theorem bed_cleanSlots_other (keep : Part → Nat → Nat → Nat → Bool) {k : Nat} (other : k ≠ b) :
    (cleanSlots c keep b p).bed k = p.bed k := by
  rw [cleanSlots_eq]
  dsimp only
  split
  · unfold emptiedAtRestore
    rw [bed_setBedState_other _ _ other, bed_withBed_other other, bed_withBed_other other]
  · exact bed_withBed_other other

theorem setBedState_length (b : Nat) (st : BedState) (w : BedCause) : (setBedState b st w p).beds.length = p.beds.length :=
  withBed_beds_length

theorem setBedState_pieces (b : Nat) (st : BedState) (w : BedCause) : (setBedState b st w p).pieces = p.pieces :=
  withBed_pieces ..

theorem setBedState_moves (b : Nat) (st : BedState) (w : BedCause) : (setBedState b st w p).moves = p.moves :=
  withBed_moves ..

theorem cleanSlots_rest (keep : Part → Nat → Nat → Nat → Bool) (b : Nat) (p : Part) :
    (cleanSlots c keep b p).beds.length = p.beds.length ∧ (cleanSlots c keep b p).pieces = p.pieces
      ∧ (cleanSlots c keep b p).moves = p.moves := by
  rw [cleanSlots_eq]
  dsimp only
  split
  · unfold emptiedAtRestore
    refine ⟨?_, ?_, ?_⟩
    · rw [setBedState_length, withBed_beds_length, withBed_beds_length]
    · rw [setBedState_pieces, withBed_pieces, withBed_pieces]
    · rw [setBedState_moves, withBed_moves, withBed_moves]
  · exact ⟨withBed_beds_length, withBed_pieces .., withBed_moves ..⟩

/-- A DETENSIONING bed is taken as CURING, release-ready. -/
def Bed.settled (x : Bed) : Bed := if x.state = .detensioning then { x with releaseReady := true, state := .curing } else x

theorem bed_settleDetensioning (inside : b < p.beds.length) : (settleDetensioning b p).bed b = (p.bed b).settled := by
  unfold settleDetensioning Bed.settled
  split
  · rw [bed_setBedState _ _ (by rw [withBed_beds_length]; exact inside), bed_withBed_same inside]
  · rfl

theorem bed_settleDetensioning_other {k : Nat} (other : k ≠ b) : (settleDetensioning b p).bed k = p.bed k := by
  unfold settleDetensioning
  split
  · rw [bed_setBedState_other _ _ other, bed_withBed_other other]
  · rfl

theorem settleDetensioning_rest (b : Nat) (p : Part) : (settleDetensioning b p).beds.length = p.beds.length
    ∧ (settleDetensioning b p).pieces = p.pieces ∧ (settleDetensioning b p).moves = p.moves := by
  unfold settleDetensioning
  split
  · refine ⟨?_, ?_, ?_⟩
    · rw [setBedState_length, withBed_beds_length]
    · rw [setBedState_pieces, withBed_pieces]
    · rw [setBedState_moves, withBed_moves]
  · exact ⟨rfl, rfl, rfl⟩

/-- The stage start of a bed with the clock block lost. -/
def stageAtRestore (clockLost : Bool) (b : Nat) (p : Part) : Part :=
  if clockLost then p.withBed b fun x => { x with stageStart := 0 } else p

def Bed.staged (clockLost : Bool) (x : Bed) : Bed := if clockLost then { x with stageStart := 0 } else x

theorem restoreBed_eq (clockLost : Bool) : restoreBed c clockLost b p =
    if c.assigned b then
      cleanSlots c (fun r _ _ id => (findRecord r id).isSome) b (settleDetensioning b (stageAtRestore clockLost b p))
    else p.withBed b fun _ => Bed.reset := rfl

theorem bed_stageAtRestore (clockLost : Bool) (inside : b < p.beds.length) :
    (stageAtRestore clockLost b p).bed b = (p.bed b).staged clockLost := by
  unfold stageAtRestore Bed.staged
  split
  · rw [bed_withBed_same inside]
  · rfl

theorem stageAtRestore_rest (clockLost : Bool) (b : Nat) (p : Part) : (stageAtRestore clockLost b p).beds.length = p.beds.length
    ∧ (stageAtRestore clockLost b p).pieces = p.pieces ∧ (stageAtRestore clockLost b p).moves = p.moves := by
  unfold stageAtRestore
  split
  · exact ⟨withBed_beds_length, withBed_pieces .., withBed_moves ..⟩
  · exact ⟨rfl, rfl, rfl⟩

/-- Where a bed assigned to casting stands after its own restore. -/
theorem bed_restoreBed (clockLost : Bool) (inside : b < p.beds.length) (assigned : c.assigned b = true) :
    (restoreBed c clockLost b p).bed b = (((p.bed b).staged clockLost).settled).withSlots (c.bed b).tf
      (cleanedSlots (c.bed b).picks.length (fun _ id => (findRecord p id).isSome) (p.bed b).slots) := by
  rw [restoreBed_eq, if_pos assigned]
  obtain ⟨length, pieces, _⟩ := stageAtRestore_rest clockLost b p
  have bed := bed_stageAtRestore clockLost inside
  generalize stageAtRestore clockLost b p = q at length pieces bed
  obtain ⟨length', pieces', _⟩ := settleDetensioning_rest b q
  have bed' := bed_settleDetensioning (p := q) (by rw [length]; exact inside)
  generalize settleDetensioning b q = r at length' pieces' bed'
  have found (id : Nat) : findRecord r id = findRecord p id := findRecord_of_pieces (pieces'.trans pieces) id
  have slots : (r.bed b).slots = (p.bed b).slots := by
    rw [bed', bed]
    unfold Bed.settled Bed.staged
    split <;> split <;> rfl
  rw [bed_cleanSlots _ (by rw [length', length]; exact inside), slots, bed', bed]
  simp only [found]

theorem bed_restoreBed_unassigned (clockLost : Bool) (inside : b < p.beds.length) (unassigned : c.assigned b = false) :
    (restoreBed c clockLost b p).bed b = Bed.reset := by
  rw [restoreBed_eq, if_neg (by rw [unassigned]; decide)]
  exact bed_withBed_same inside

theorem bed_restoreBed_other (clockLost : Bool) {k : Nat} (other : k ≠ b) : (restoreBed c clockLost b p).bed k = p.bed k := by
  rw [restoreBed_eq]
  split
  · rw [bed_cleanSlots_other _ other, bed_settleDetensioning_other other]
    unfold stageAtRestore
    split
    · exact bed_withBed_other other
    · rfl
  · exact bed_withBed_other other

theorem restoreBed_rest (clockLost : Bool) (b : Nat) (p : Part) : (restoreBed c clockLost b p).beds.length = p.beds.length
    ∧ (restoreBed c clockLost b p).pieces = p.pieces ∧ (restoreBed c clockLost b p).moves = p.moves := by
  rw [restoreBed_eq]
  split
  · obtain ⟨length, pieces, moves⟩ := stageAtRestore_rest clockLost b p
    obtain ⟨length', pieces', moves'⟩ := settleDetensioning_rest b (stageAtRestore clockLost b p)
    obtain ⟨length'', pieces'', moves''⟩ := cleanSlots_rest (c := c) (fun r _ _ id => (findRecord r id).isSome) b
      (settleDetensioning b (stageAtRestore clockLost b p))
    exact ⟨length''.trans (length'.trans length), pieces''.trans (pieces'.trans pieces), moves''.trans (moves'.trans moves)⟩
  · exact ⟨withBed_beds_length, withBed_pieces .., withBed_moves ..⟩

/-! ### What cleaning leaves of a bed -/

/-- A bed whose slot list has been cleaned, once or more. -/
structure Bed.Cleans (g : BedCfg) (x y : Bed) : Prop where
  rest : y = { x with state := y.state, hold := y.hold, slots := y.slots, setpoint := g.tf }
  emptied : x.state = .detensioned →
    y.state = if x.slots.any Option.isSome = true ∧ y.slots.all Option.isNone = true then .empty else .detensioned
  stands : x.state ≠ .detensioned → y.state = x.state
  hold : y.hold = if x.state = .detensioned ∧ y.state = .empty then false else x.hold
  size : y.slots.length = g.picks.length
  slots : ∀ i id, y.slots.getD i none = some id → x.slots.getD i none = some id

theorem Bed.withSlots_cleans {g : BedCfg} {x : Bed} (setpoint : x.setpoint = g.tf) {keep : Nat → Nat → Bool} :
    x.Cleans g (x.withSlots g.tf (cleanedSlots g.picks.length keep x.slots)) := by
  have size := cleanedSlots_length g.picks.length keep x.slots
  have slots (i id : Nat) := getD_cleanedSlots_of_some (n := g.picks.length) (keep := keep) (l := x.slots) (i := i) (id := id)
  generalize cleanedSlots g.picks.length keep x.slots = l at size slots
  by_cases emptied : x.state = .detensioned ∧ x.slots.any Option.isSome ∧ l.all Option.isNone
  · have is : x.withSlots g.tf l = { x with slots := l, hold := false, setpoint := g.tf, state := .empty } := if_pos emptied
    rw [is]
    obtain ⟨state, full, free⟩ := emptied
    exact ⟨rfl, fun _ => (if_pos ⟨full, free⟩).symm, fun other => absurd state other, (if_pos ⟨state, rfl⟩).symm, size, slots⟩
  · have is : x.withSlots g.tf l = { x with slots := l } := if_neg emptied
    rw [is]
    refine ⟨by rw [← setpoint], fun state => ?_, fun _ => rfl, ?_, size, slots⟩
    · rw [if_neg fun both => emptied ⟨state, both⟩]
      exact state
    · rw [if_neg]
      rintro ⟨detensioned, empty⟩
      exact nomatch detensioned.symm.trans empty

theorem Bed.Cleans.trans {g : BedCfg} {x y z : Bed} (h : x.Cleans g y) (k : y.Cleans g z) : x.Cleans g z := by
  have slots : ∀ i id, z.slots.getD i none = some id → x.slots.getD i none = some id :=
    fun i id held => h.slots i id (k.slots i id held)
  have free : y.slots.all Option.isNone = true → z.slots.all Option.isNone = true := by
    rw [all_isNone_iff, all_isNone_iff]
    refine fun free i => Option.eq_none_iff_forall_ne_some.mpr fun id held => ?_
    exact nomatch (free i).symm.trans (k.slots i id held)
  have full : y.slots.any Option.isSome = true → x.slots.any Option.isSome = true := by
    rw [any_isSome_iff, any_isSome_iff, all_isNone_iff, all_isNone_iff]
    refine fun full free => full fun i => Option.eq_none_iff_forall_ne_some.mpr fun id held => ?_
    exact nomatch (free i).symm.trans (h.slots i id held)
  by_cases state : x.state = .detensioned
  · by_cases emptied : x.slots.any Option.isSome = true ∧ y.slots.all Option.isNone = true
    · have empty : y.state = .empty := (h.emptied state).trans (if_pos emptied)
      have stays : z.state = .empty := by rw [k.stands (by rw [empty]; decide), empty]
      have hold : y.hold = false := h.hold.trans (if_pos ⟨state, empty⟩)
      refine ⟨by rw [k.rest, h.rest], fun _ => ?_, fun other => absurd state other, ?_, k.size, slots⟩
      · rw [stays, if_pos ⟨emptied.1, free emptied.2⟩]
      · rw [if_pos ⟨state, stays⟩, k.hold, if_neg (fun both => by cases empty.symm.trans both.1), hold]
    · have remains : y.state = .detensioned := (h.emptied state).trans (if_neg emptied)
      have hold : y.hold = x.hold := h.hold.trans (if_neg fun both => by cases remains.symm.trans both.2)
      have same : (y.slots.any Option.isSome = true ∧ z.slots.all Option.isNone = true)
          ↔ (x.slots.any Option.isSome = true ∧ z.slots.all Option.isNone = true) := by
        refine ⟨fun both => ⟨full both.1, both.2⟩, fun both => ⟨?_, both.2⟩⟩
        rw [any_isSome_iff]
        exact fun none => emptied ⟨both.1, none⟩
      refine ⟨by rw [k.rest, h.rest], fun _ => ?_, fun other => absurd state other, ?_, k.size, slots⟩
      · rw [k.emptied remains]
        simp only [same]
      · rw [k.hold, hold]
        simp only [remains, state]
  · have stands := h.stands state
    have other : y.state ≠ .detensioned := by rw [stands]; exact state
    refine ⟨by rw [k.rest, h.rest], fun is => absurd is state, fun _ => (k.stands other).trans stands, ?_, k.size, slots⟩
    rw [k.hold, if_neg fun both => other both.1, h.hold, if_neg fun both => state both.1, if_neg fun both => state both.1]

end Sys2Proof.Machine

namespace Sys2Proof.Machine
open Sys2Proof

variable {c : Settings} {p : Part} {b : Nat}

/-! ### The bed records at the end of a restore (03 R64, R65) -/

theorem clearCredits_rest (p : Part) : (clearCredits p).beds = p.beds ∧ (clearCredits p).pieces = p.pieces
    ∧ (clearCredits p).moves = p.moves := by
  rw [clearCredits_eq]
  exact ⟨markIf_beds .., markIf_pieces .., markIf_moves ..⟩

theorem creditsRestored_rest (clockLost : Bool) (p : Part) : (creditsRestored clockLost p).beds = p.beds
    ∧ (creditsRestored clockLost p).pieces = p.pieces ∧ (creditsRestored clockLost p).moves = p.moves := by
  unfold creditsRestored
  split
  · exact clearCredits_rest p
  · exact ⟨rfl, rfl, rfl⟩

theorem restoreMaturity_eq (clockLost : Bool) (p : Part) : restoreMaturity clockLost p =
    mapRecords (capAlift (creditsRestored clockLost p).maturity.ambient.m) (creditsRestored clockLost p) := rfl

theorem restoreMaturity_beds (clockLost : Bool) (p : Part) : (restoreMaturity clockLost p).beds = p.beds := by
  rw [restoreMaturity_eq, (mapRecords_act default _ _).beds, (creditsRestored_rest clockLost p).1]

/-- Steps 1 and 2 of 08 R154, for the records. -/
def recordsPlaced (c : Settings) (p : Part) : Part := dropRecords (fun q _ x => !onItsBed c q x) (dropRecords isDuplicate p)

/-- Step 3 of 08 R154. -/
def stacksSettled (c : Settings) (p : Part) : Part :=
  trimStacks c (dropRecords (fun q _ x => !inItsStack c q x) (stackNumbers.foldl (fun q ln => closeStack ln.1 ln.2 q) p))

theorem reconcilePlaces_eq : reconcilePlaces c p = stacksSettled c ((recordsPlaced c p).forAssigned c (cleanSlots c slotAgrees)) :=
  rfl

theorem recordsPlaced_beds : (recordsPlaced c p).beds = p.beds :=
  ((dropRecords_act c p isDuplicate).trans (dropRecords_act c _ fun q _ x => !onItsBed c q x)).beds

theorem stacksSettled_beds : (stacksSettled c p).beds = p.beds :=
  (((CraneAct.foldl (fun q (ln : Nat × Nat) => closeStack_act c q ln.1 ln.2) stackNumbers p).trans
    (dropRecords_act c _ fun q _ x => !inItsStack c q x)).trans (trimStacks_act c _ c)).beds

/-- The cleaning of the slot lists of step 2, for the beds assigned to casting. -/
def cleanAssigned (c : Settings) (b : Nat) (p : Part) : Part := if c.assigned b then cleanSlots c slotAgrees b p else p

theorem bed_cleanAssigned_other (q : Part) (j k : Nat) (other : k ≠ j) : (cleanAssigned c j q).bed k = q.bed k := by
  unfold cleanAssigned
  split
  · exact bed_cleanSlots_other _ other
  · rfl

theorem cleanAssigned_rest (q : Part) (j : Nat) : (cleanAssigned c j q).beds.length = q.beds.length
    ∧ (cleanAssigned c j q).pieces = q.pieces := by
  unfold cleanAssigned
  split
  · obtain ⟨length, pieces, _⟩ := cleanSlots_rest (c := c) slotAgrees j q
    exact ⟨length, pieces⟩
  · exact ⟨rfl, rfl⟩

theorem bed_reconcilePlaces (hb : b < 4) : ∃ q, q.bed b = p.bed b ∧ q.beds.length = p.beds.length
    ∧ (reconcilePlaces c p).bed b = (cleanAssigned c b q).bed b := by
  obtain ⟨q, bed, length, _, cleaned⟩ := bed_forBeds (p := recordsPlaced c p) (f := cleanAssigned c) hb bed_cleanAssigned_other
    (fun q j => (cleanAssigned_rest q j).1) (fun q j => (cleanAssigned_rest q j).2)
  refine ⟨q, bed.trans (bed_of_beds recordsPlaced_beds b), length.trans (congrArg List.length recordsPlaced_beds), ?_⟩
  rw [reconcilePlaces_eq, bed_of_beds stacksSettled_beds]
  exact cleaned

theorem bed_bedsRestored (lost : List Block) (hb : b < 4) : ∃ q, q.bed b = p.bed b ∧ q.beds.length = p.beds.length
    ∧ q.pieces = (restoreMaturity (lost.contains .clock) p).pieces
    ∧ (bedsRestored c lost p).bed b = (restoreBed c (lost.contains .clock) b q).bed b := by
  have beds := restoreMaturity_beds (lost.contains .clock) p
  obtain ⟨q, bed, length, pieces, same⟩ := bed_forBeds (p := restoreMaturity (lost.contains .clock) p)
    (f := restoreBed c (lost.contains .clock)) hb (fun q j k other => bed_restoreBed_other _ other)
    (fun q j => (restoreBed_rest _ j q).1) (fun q j => (restoreBed_rest _ j q).2.1)
  exact ⟨q, bed.trans (bed_of_beds beds b), length.trans (congrArg List.length beds), pieces, same⟩

theorem bedsRestored_length (lost : List Block) : (bedsRestored c lost p).beds.length = p.beds.length :=
  (forBeds_length fun q j => (restoreBed_rest _ j q).1).trans (congrArg List.length (restoreMaturity_beds _ p))

/-- The bed records after the reconciliation of the places; the rest of a restore leaves them alone. -/
theorem bed_restore (lost : List Block) (b : Nat) :
    (restore c lost p).bed b = (reconcilePlaces c (bedsRestored c lost p)).bed b := by
  rw [restore_eq]
  exact bed_of_beds ((reconcileMoves_act c _ c).trans (reconcileHook_act c _)).beds b

section
variable (lost : List Block) (hb : b < 4) (length : p.beds.length = 4)
include hb length

theorem bed_restore_unassigned (unassigned : c.assigned b = false) : (restore c lost p).bed b = Bed.reset := by
  obtain ⟨q, bed, same, _, restored⟩ := bed_bedsRestored (c := c) (p := p) lost hb
  obtain ⟨r, bed', _, cleaned⟩ := bed_reconcilePlaces (c := c) (p := bedsRestored c lost p) hb
  have stays : cleanAssigned c b r = r := if_neg (by rw [unassigned]; decide)
  rw [bed_restore, cleaned, stays, bed', restored]
  exact bed_restoreBed_unassigned _ (by rw [same, length]; exact hb) unassigned

/-- A bed assigned to casting has its stage start and its state settled, and its slot list cleaned. -/
theorem bed_restore_cleans (assigned : c.assigned b = true) (setpoint : (p.bed b).setpoint = (c.bed b).tf) :
    (((p.bed b).staged (lost.contains .clock)).settled).Cleans (c.bed b) ((restore c lost p).bed b) := by
  obtain ⟨q, bed, same, _, restored⟩ := bed_bedsRestored (c := c) (p := p) lost hb
  obtain ⟨r, bed', same', cleaned⟩ := bed_reconcilePlaces (c := c) (p := bedsRestored c lost p) hb
  have inside : b < q.beds.length := by rw [same, length]; exact hb
  have inside' : b < r.beds.length := by rw [same', bedsRestored_length, length]; exact hb
  have turn : cleanAssigned c b r = cleanSlots c slotAgrees b r := if_pos assigned
  rw [bed_restore, cleaned, turn, bed_cleanSlots _ inside', bed', restored, bed_restoreBed _ inside assigned, bed]
  generalize lost.contains .clock = clockLost
  have slots : (((p.bed b).staged clockLost).settled).slots = (p.bed b).slots := by
    unfold Bed.settled Bed.staged
    split <;> split <;> rfl
  have settled : (((p.bed b).staged clockLost).settled).setpoint = (c.bed b).tf := by
    rw [← setpoint]
    unfold Bed.settled Bed.staged
    split <;> split <;> rfl
  rw [← slots]
  have once := Bed.withSlots_cleans settled (keep := fun _ id => (findRecord q id).isSome)
  refine once.trans (Bed.withSlots_cleans ?_)
  rw [once.rest]

end

end Sys2Proof.Machine
end

