-- ==== Sys2Proof/Proofs/RestoredMoves.lean ====
section
/-! PROOFS. The move queue at the end of a restore, and the blocks as taken (09 R176, 11 R197). -/
namespace Sys2Proof.Machine
open Sys2Proof

variable {c : Settings} {p : Part}

/-! ### The move queue at the end of a restore (09 R176) -/

theorem setRecord_rest (n : Nat) (o : Option Piece) (p : Part) :
    (p.setRecord n o).moves = p.moves ∧ (p.setRecord n o).pieces.stackTable = p.pieces.stackTable := by
  unfold Part.setRecord
  rw [markIf_moves, markIf_pieces]
  exact ⟨rfl, rfl⟩

theorem mapRecords_rest (f : Piece → Piece) (p : Part) :
    (mapRecords f p).moves = p.moves ∧ (mapRecords f p).pieces.stackTable = p.pieces.stackTable := by
  have one (q : Part) (n : Nat) : (renewed f q n).moves = q.moves ∧ (renewed f q n).pieces.stackTable = q.pieces.stackTable := by
    unfold renewed
    split
    · exact setRecord_rest n _ q
    · exact ⟨rfl, rfl⟩
  rw [mapRecords_eq]
  exact ⟨foldl_preserves (g := Part.moves) (fun q n => (one q n).1) _ p,
    foldl_preserves (g := fun q => q.pieces.stackTable) (fun q n => (one q n).2) _ p⟩

theorem dropRecords_moves (bad : Part → Nat → Piece → Bool) (p : Part) : (dropRecords bad p).moves = p.moves := by
  refine foldl_preserves (g := Part.moves) (fun q n => ?_) _ p
  split
  · split
    · unfold dropRecord
      split
      · exact (setRecord_rest n none q).1
      · rfl
    · rfl
  · rfl

theorem reconcileHook_moves (p : Part) : (reconcileHook p).moves = p.moves := by
  rw [reconcileHook_eq, (mapRecords_rest _ _).1, dropRecords_moves]

/-- Every record has the tag of the move that carries its piece, if one does. -/
theorem reconcileHook_tag {n : Nat} {y : Piece} (hn : n < 256) (record : recordAt (reconcileHook p) n = some y) :
    y.tag = ((reconcileHook p).moves.queue.find? (·.piece == y.id)).map (·.tag) := by
  rw [reconcileHook_moves, ← dropRecords_moves fun r _ x => !onItsHook r x]
  rw [reconcileHook_eq, recordAt_mapRecords, if_pos hn] at record
  generalize dropRecords (fun r _ x => !onItsHook r x) p = q at record
  obtain ⟨x, _, rfl⟩ := Option.map_eq_some_iff.mp record
  rfl

/-- A move halted at restore in a phase. -/
def Move.haltedIn (ph : Phase) (x : Move) : Move := { x with phase := .halted, start := none, halt := some (ph, .restored) }

theorem haltRestored_queue (m : Move) (p : Part) : (haltRestored m p).moves.queue =
    p.moves.queue.map fun x => if x.tag = m.tag then x.haltedIn m.phase else x := by
  show (updateMove m.tag (Move.haltedIn m.phase) p).moves.queue = _
  unfold updateMove
  rw [setQueue_moves]

theorem dropMove_queue (m : Move) (p : Part) : (dropMove m p).moves.queue = p.moves.queue.filter (·.tag != m.tag) := by
  show (removeMove m (releaseMark m.tag m.piece p)).moves.queue = _
  rw [removeMove_queue, releaseMark_moves]

/-- No move is under way. -/
def AtRest (p : Part) : Prop := ∀ x ∈ p.moves.queue, x.phase = .queued ∨ x.phase = .halted

/-- The moves under way are halted, one tag after the other. -/
theorem halts_atRest (l : List Move) (p : Part)
    (h : ∀ x ∈ p.moves.queue, (x.phase = .queued ∨ x.phase = .halted) ∨ x.tag ∈ l.map (·.tag)) :
    AtRest (l.foldl (fun q m => haltRestored m q) p) := by
  induction l generalizing p with
  | nil => exact fun x mem => (h x mem).resolve_right List.not_mem_nil
  | cons m l ih =>
    refine ih _ fun x mem => ?_
    rw [haltRestored_queue] at mem
    obtain ⟨y, stood, rfl⟩ := List.mem_map.mp mem
    split
    · exact .inl (.inr rfl)
    · rename_i other
      exact (h y stood).imp_right fun tag => (List.mem_cons.mp tag).resolve_left other

theorem haltHeads_atRest (p : Part) : AtRest (haltHeads p) := by
  refine halts_atRest _ p fun x mem => ?_
  by_cases queued : x.phase = .queued
  · exact .inl (.inl queued)
  · exact .inr (List.mem_map_of_mem (List.mem_filter.mpr ⟨mem, bne_iff_ne.mpr queued⟩))

theorem settlePicked_atRest (m : Move) (h : AtRest p) : AtRest (settlePicked p m) := by
  unfold settlePicked
  split
  · intro x mem
    rw [haltRestored_queue] at mem
    obtain ⟨y, stood, rfl⟩ := List.mem_map.mp mem
    split
    · exact .inr rfl
    · exact h y stood
  · intro x mem
    rw [dropMove_queue] at mem
    exact h x (List.mem_filter.mp mem).1

/-- The queue with its marks and records in line, before moves are halted. -/
def movesAligned (c : Settings) (p : Part) : Part :=
  let q := stackNumbers.foldl (settleMark c) (p.moves.queue.foldl (alignMove c) p)
  q.moves.queue.foldl (reserveAgain c) q

theorem reconcileMoves_eq : reconcileMoves c p =
    ((haltHeads (movesAligned c p)).moves.queue.filter fun m => m.phase == .queued && m.picked).foldl settlePicked
      (haltHeads (movesAligned c p)) := by
  unfold reconcileMoves movesAligned
  dsimp only

theorem reconcileMoves_atRest : AtRest (reconcileMoves c p) := by
  rw [reconcileMoves_eq]
  generalize (haltHeads (movesAligned c p)).moves.queue.filter _ = l
  have start := haltHeads_atRest (movesAligned c p)
  generalize haltHeads (movesAligned c p) = q at start
  induction l generalizing q with
  | nil => exact start
  | cons m l ih => exact ih _ (settlePicked_atRest m start)

theorem restore_atRest (lost : List Block) : AtRest (restore c lost p) := by
  rw [restore_eq]
  unfold AtRest
  rw [reconcileHook_moves]
  exact reconcileMoves_atRest

/-! ### The blocks as taken (11 R197) -/

theorem takeBlocks_beds (m : RecMem) (p : Part) : (takeBlocks c m p).beds = (List.range 4).map (bedAsRead c m) := rfl

theorem bed_takeBlocks (m : RecMem) {b : Nat} (hb : b < 4) : (takeBlocks c m p).bed b = bedAsRead c m b := by
  unfold Part.bed
  rw [takeBlocks_beds, List.getD_eq_getElem?_getD, List.getElem?_map, List.getElem?_range hb]
  rfl

theorem recordAt_takeBlocks (m : RecMem) (n : Nat) :
    recordAt (takeBlocks c m p) n = if n < 256 then recordAsRead m n else none := by
  show ((List.range 256).map (recordAsRead m)).getD n none = _
  rw [List.getD_eq_getElem?_getD, List.getElem?_map]
  split
  · rename_i inside
    rw [List.getElem?_range inside]
    rfl
  · rename_i beyond
    rw [List.getElem?_eq_none (by rw [List.length_range]; exact Nat.le_of_not_lt beyond)]
    rfl

theorem channel_takeBlocks (m : RecMem) (k : Nat) : (takeBlocks c m p).channel k =
    if k < p.scan.channels.length then { p.channel k with
      retired := (m.channels.getD ⟨List.replicate 22 ⟨0, 0⟩, List.replicate 4 0, List.replicate 22 false⟩).retired.getD k false }
    else Channel.reset := by
  show (p.scan.channels.mapIdx _).getD k Channel.reset = _
  rw [List.getD_eq_getElem?_getD, List.getElem?_mapIdx]
  split
  · rename_i inside
    have stands : p.channel k = p.scan.channels[k] := by
      unfold Part.channel
      rw [List.getD_eq_getElem?_getD, List.getElem?_eq_getElem inside]
      rfl
    rw [stands, List.getElem?_eq_getElem inside]
    rfl
  · rename_i beyond
    rw [List.getElem?_eq_none (Nat.le_of_not_lt beyond)]
    rfl

/-- Announcing the lost blocks leaves every record in its place. -/
theorem announceLost_still (lost : List Block) (p : Part) : CraneAct default p (announceLost lost p)
    ∧ (announceLost lost p).pieces = p.pieces ∧ (announceLost lost p).moves = p.moves := by
  have report (q : Part) (k : Nat) : (lostReport lost k q).pieces = q.pieces ∧ (lostReport lost k q).moves = q.moves := by
    unfold lostReport
    split <;> exact ⟨rfl, rfl⟩
  refine ⟨announceLost_act default p lost, ?_, ?_⟩
  · exact (foldl_preserves (g := Part.pieces) (fun q k => (report q k).1) _ _).trans
      (foldl_preserves (g := Part.pieces) (fun q (b : Block) => (rfl : (q.markDirty b).pieces = q.pieces)) lost p)
  · exact (foldl_preserves (g := Part.moves) (fun q k => (report q k).2) _ _).trans
      (foldl_preserves (g := Part.moves) (fun q (b : Block) => (rfl : (q.markDirty b).moves = q.moves)) lost p)

/-- Every lost block is to be written again. -/
theorem announceLost_dirty {lost : List Block} {b : Block} (mem : b ∈ lost) (p : Part) : b ∈ (announceLost lost p).mem.dirty := by
  have marks (l : List Block) : ∀ q : Part, b ∈ l ∨ b ∈ q.mem.dirty → b ∈ (l.foldl (fun q b => q.markDirty b) q).mem.dirty := by
    induction l with
    | nil => exact fun q h => h.resolve_left List.not_mem_nil
    | cons a l ih =>
      refine fun q h => ih _ ?_
      rcases h with own | marked
      · rcases List.mem_cons.mp own with rfl | later
        · exact .inr (markDirty_dirty b)
        · exact .inl later
      · exact .inr (markDirty_dirtier a marked)
  have report (q : Part) (k : Nat) : (lostReport lost k q).mem = q.mem := by
    unfold lostReport
    split <;> rfl
  unfold announceLost
  rw [foldl_preserves (g := Part.mem) report]
  exact marks lost p (.inl mem)

theorem mem_allBlocks (b : Block) : b ∈ allBlocks := by
  unfold allBlocks
  cases b <;> simp [List.mem_finRange]

/-- The maturity unit takes its credits and ambient bases: the records below them are capped, and nothing else moves. -/
theorem restoreMaturity_rest (clockLost : Bool) (p : Part) : (restoreMaturity clockLost p).moves = p.moves
    ∧ (restoreMaturity clockLost p).pieces.stackTable = p.pieces.stackTable
    ∧ ∀ n, recordAt (restoreMaturity clockLost p) n =
      if n < 256 then (recordAt p n).map (capAlift p.maturity.ambient.m) else recordAt p n := by
  obtain ⟨_, pieces, moves⟩ := creditsRestored_rest clockLost p
  have ambient : (creditsRestored clockLost p).maturity.ambient = p.maturity.ambient := by
    unfold creditsRestored
    split
    · rw [clearCredits_maturity]
    · rfl
  rw [restoreMaturity_eq]
  obtain ⟨moves', table⟩ := mapRecords_rest (capAlift (creditsRestored clockLost p).maturity.ambient.m) (creditsRestored clockLost p)
  refine ⟨moves'.trans moves, table.trans (congrArg PieceStore.stackTable pieces), fun n => ?_⟩
  rw [recordAt_mapRecords, recordAt_of_pieces pieces, ambient]

theorem restoreMaturity_dirty (clockLost : Bool) {b : Block} (mem : b ∈ p.mem.dirty) : b ∈ (restoreMaturity clockLost p).mem.dirty := by
  have credits : b ∈ (creditsRestored clockLost p).mem.dirty := by
    unfold creditsRestored
    split
    · rw [clearCredits_eq]
      exact markIf_dirtier _ _ mem
    · exact mem
  rw [restoreMaturity_eq, mapRecords_eq]
  generalize creditsRestored clockLost p = q at credits
  generalize List.range 256 = l
  generalize capAlift q.maturity.ambient.m = f
  induction l generalizing q with
  | nil => exact credits
  | cons n l ih =>
    refine ih _ ?_
    unfold renewed
    split
    · exact markIf_dirtier _ _ credits
    · exact credits

end Sys2Proof.Machine
end

