-- ==== Sys2Proof/Proofs/CoherentRecords.lean ====
section
/-! PROOFS. Records in which nothing disagrees stay as they stand (03 R64, R65, 08 R154). -/
namespace Sys2Proof.Machine
open Sys2Proof

variable {c : Settings} {p q : Part}

/-! ### Writing what stands changes nothing -/

theorem set_getD_self {α : Type} (l : List α) (i : Nat) (d : α) : l.set i (l.getD i d) = l := by
  by_cases inside : i < l.length
  · rw [List.getD_eq_getElem _ _ inside, List.set_getElem_self]
  · exact List.set_eq_of_length_le (Nat.le_of_not_lt inside)

theorem markIf_self {α : Type} [BEq α] [LawfulBEq α] (x : α) (b : Block) (p : Part) : p.markIf (x != x) b = p := by
  rw [bne_self_eq_false]
  rfl

theorem setRecord_self (n : Nat) (p : Part) : p.setRecord n (recordAt p n) = p := by
  unfold Part.setRecord recordAt
  rw [set_getD_self]
  exact markIf_self _ _ _

theorem setStackAt_self (i : Nat) (p : Part) : p.setStackAt i (p.stackAt i) = p := by
  unfold Part.setStackAt Part.setStacks Part.stackAt
  rw [set_getD_self]
  exact markIf_self _ _ _

theorem setQueue_self (p : Part) : p.setQueue p.moves.queue = p := by
  unfold Part.setQueue
  exact markIf_self _ _ _

theorem withBed_self {b : Nat} {f : Bed → Bed} (h : f (p.bed b) = p.bed b) : p.withBed b f = p := by
  unfold Part.withBed
  dsimp only
  rw [h]
  unfold Part.bed
  rw [set_getD_self]
  exact markIf_self _ _ _

theorem updatePiece_self {id : Nat} {f : Piece → Piece} (h : ∀ x, findPiece p id = some x → f x = x) : updatePiece id f p = p := by
  unfold updatePiece
  split
  · rename_i n found
    have same : (recordAt p n).map f = recordAt p n := by
      cases record : recordAt p n with
      | none => rfl
      | some x =>
        refine congrArg some (h x ?_)
        unfold findPiece
        rw [found]
        exact record
    rw [same, setRecord_self]
  · rfl

theorem updateMove_self {tag : Nat} {f : Move → Move} (h : ∀ x ∈ p.moves.queue, x.tag = tag → f x = x) : updateMove tag f p = p := by
  have same : (p.moves.queue.map fun m => if m.tag = tag then f m else m) = p.moves.queue := by
    refine (List.map_congr_left fun x mem => ?_).trans (List.map_id _)
    split
    · rename_i own
      exact h x mem own
    · rfl
  unfold updateMove
  rw [same, setQueue_self]

/-- A fold of steps that change nothing. -/
theorem foldl_self {α β : Type} {f : β → α → β} {x : β} (l : List α) (h : ∀ a ∈ l, f x a = x) : l.foldl f x = x := by
  induction l with
  | nil => rfl
  | cons a l ih =>
    rw [List.foldl_cons, h a List.mem_cons_self]
    exact ih fun b later => h b (List.mem_cons_of_mem _ later)

/-! ### Coherent records stay as they stand (08 R154) -/

theorem dropRecords_self {bad : Part → Nat → Piece → Bool} (h : ∀ n x, recordAt p n = some x → bad p n x = false) :
    dropRecords bad p = p := by
  refine foldl_self _ fun n _ => ?_
  split
  · rename_i x record
    rw [h n x record]
    rfl
  · rfl

theorem cleanedSlots_self {n : Nat} {keep : Nat → Nat → Bool} {l : List (Option Nat)} (size : l.length = n)
    (h : ∀ i id, l.getD i none = some id → keep i id = true) : cleanedSlots n keep l = l := by
  refine List.ext_getElem ((cleanedSlots_length ..).trans size.symm) fun i inside inside' => ?_
  have entry := cleanedSlots_getD n keep l i
  rw [if_pos (size ▸ inside'), List.getD_eq_getElem _ _ inside] at entry
  rw [entry, ← List.getD_eq_getElem l none inside']
  cases held : l.getD i none with
  | none => rfl
  | some id => rw [Option.filter_some, if_pos (h i id held)]

theorem cleanSlots_self {b : Nat} {keep : Part → Nat → Nat → Nat → Bool} (size : (p.bed b).slots.length = (c.bed b).picks.length)
    (h : ∀ i id, (p.bed b).slots.getD i none = some id → keep p b i id = true) : cleanSlots c keep b p = p := by
  rw [cleanSlots_eq, cleanedSlots_self size h]
  dsimp only
  rw [if_neg]
  · exact withBed_self rfl
  · rintro ⟨_, full, free⟩
    exact any_isSome_iff.mp full free

section
variable {lane n : Nat} {l : List Nat}

theorem closedList_self (h : ∀ e ∈ l.zipIdx 1, entryAgrees p lane n e.2 e.1 = true) : closedList p lane n l = l := by
  unfold closedList
  have all : (l.zipIdx 1).filterMap (fun e => if entryAgrees p lane n e.2 e.1 then some e.1 else none)
      = (l.zipIdx 1).filterMap fun e => some e.1 := List.filterMap_congr fun e mem => if_pos (h e mem)
  rw [all, List.filterMap_eq_map', List.zipIdx_map_fst]

theorem retier_self (h : ∀ e ∈ l.zipIdx 1, entryAgrees p lane n e.2 e.1 = true) : retier lane n l p = p := by
  refine foldl_self _ fun e mem => updatePiece_self fun x found => ?_
  obtain ⟨y, found', place⟩ := (entryAgrees_iff p).mp (h e mem)
  have same : y = x := Option.some.inj (found'.symm.trans found)
  rw [← place, same]

theorem closeStack_self (h : ∀ e ∈ (p.stackAt (stackIndex lane n)).list.zipIdx 1, entryAgrees p lane n e.2 e.1 = true) :
    closeStack lane n p = p := by
  rw [closeStack_eq, closedList_self h]
  have same : p.setStackAt (stackIndex lane n) { p.stackAt (stackIndex lane n) with list := (p.stackAt (stackIndex lane n)).list } = p :=
    setStackAt_self _ p
  rw [same]
  exact retier_self h

end

theorem trimStack_self {g : StackCfg} {i : Nat} (tiers : (p.stackAt i).list.length ≤ g.tiers)
    (load : loadOf p (p.stackAt i).list ≤ g.load) (fuel : Nat) : trimStack g i fuel p = p := by
  cases fuel with
  | zero => rfl
  | succ k =>
    unfold trimStack
    dsimp only
    exact if_neg fun above => above.elim (Nat.not_lt.mpr tiers) (Nat.not_lt.mpr load)

section
variable (h : Coherent c p)
include h

theorem Coherent.trimStacks : trimStacks c p = p := by
  refine foldl_self _ fun ln mem => ?_
  have limits := h.limits ln.1 ln.2 mem
  dsimp only
  split
  · rename_i g stands
    rw [stands] at limits
    exact trimStack_self limits.1 limits.2 _
  · rename_i none
    rw [none] at limits
    have same : ({ p.stackAt (stackIndex ln.1 ln.2) with list := [] } : Stack) = p.stackAt (stackIndex ln.1 ln.2) := by
      rw [← limits]
    rw [same, setStackAt_self]

/-- Steps 1 to 3 find nothing to change. -/
theorem Coherent.reconcilePlaces : reconcilePlaces c p = p := by
  have placed : recordsPlaced c p = p := by
    have once : dropRecords isDuplicate p = p := by
      refine dropRecords_self fun n x record => ?_
      unfold isDuplicate
      rw [h.ids n x record, Option.any_some, decide_eq_false (Nat.lt_irrefl n)]
    unfold recordsPlaced
    rw [once]
    exact dropRecords_self fun n x record => by rw [h.onBeds n x record]; rfl
  have cleaned : p.forAssigned c (cleanSlots c slotAgrees) = p := by
    unfold Part.forAssigned Part.forBeds
    refine foldl_self _ fun b mem => ?_
    dsimp only
    split
    · rename_i assigned
      have hb := List.mem_range.mp mem
      exact cleanSlots_self (h.slotCount b hb assigned) (h.slots b hb assigned)
    · rfl
  have closed : stackNumbers.foldl (fun q ln => closeStack ln.1 ln.2 q) p = p :=
    foldl_self _ fun ln mem => closeStack_self (h.entries ln.1 ln.2 mem)
  rw [reconcilePlaces_eq, placed, cleaned]
  unfold stacksSettled
  have held : dropRecords (fun q _ x => !inItsStack c q x) p = p :=
    dropRecords_self fun n x record => by rw [h.stacked n x record]; rfl
  rw [closed, held, h.trimStacks]

/-- A move is known by its tag. -/
theorem Coherent.tag_inj {m x : Move} (mem : m ∈ p.moves.queue) (mem' : x ∈ p.moves.queue) (same : x.tag = m.tag) : x = m :=
  List.inj_on_of_nodup_map h.tags mem' mem same

/-- Every mark and every move is in line. -/
theorem Coherent.movesAligned : movesAligned c p = p := by
  have aligned : p.moves.queue.foldl (alignMove c) p = p := by
    refine foldl_self _ fun m mem => ?_
    unfold alignMove
    rw [h.aligned m mem]
    refine updateMove_self fun x mem' same => ?_
    rw [h.tag_inj mem mem' same]
  have marked : stackNumbers.foldl (settleMark c) p = p := by
    refine foldl_self _ fun ln mem => ?_
    unfold settleMark
    rw [if_pos (h.marks ln.1 ln.2 mem)]
  unfold Machine.movesAligned
  rw [aligned]
  dsimp only
  rw [marked]
  exact foldl_self _ fun m mem => reserveAgain_of_has p (h.reserved m mem)

end

end Sys2Proof.Machine

namespace Sys2Proof.Machine
open Sys2Proof

variable {c : Settings} {p q : Part}

/-! ### Coherence does not see the ambient bases, nor the states of the beds -/

/-- The same records but for their ambient bases, with the same stacks, queue and slots. -/
structure Capped (c : Settings) (a : Nat) (p q : Part) : Prop where
  records : ∀ n, recordAt q n = (recordAt p n).map (capAlift a)
  table : q.pieces.stackTable = p.pieces.stackTable
  queue : q.moves.queue = p.moves.queue
  slots : ∀ b, c.assigned b = true → (q.bed b).slots = (p.bed b).slots

section
variable {a : Nat} (h : Capped c a p q)
include h

theorem Capped.findRecord (id : Nat) : findRecord q id = findRecord p id := by
  refine findRecord_of_ids (fun n => ?_) id
  unfold idAt
  rw [h.records, Option.map_map]
  rfl

theorem Capped.findPiece (id : Nat) : findPiece q id = (findPiece p id).map (capAlift a) := by
  unfold Machine.findPiece
  rw [h.findRecord]
  cases Machine.findRecord p id with
  | none => rfl
  | some n => exact h.records n

theorem Capped.any (id : Nat) {t : Piece → Bool} (same : ∀ x, t (capAlift a x) = t x) :
    (Machine.findPiece q id).any t = (Machine.findPiece p id).any t := by
  rw [h.findPiece, Option.any_map]
  exact congrArg (Option.any · _) (funext same)

theorem Capped.findPiece_isSome (id : Nat) : (Machine.findPiece q id).isSome = (Machine.findPiece p id).isSome := by
  rw [h.findPiece, Option.isSome_map]

theorem Capped.stackAt (i : Nat) : q.stackAt i = p.stackAt i := stackAt_of_table h.table i

theorem Capped.findMove (t : Nat) : findMove q t = findMove p t := by
  unfold Machine.findMove
  rw [h.queue]

theorem Capped.onItsBed (x : Piece) : onItsBed c q (capAlift a x) = onItsBed c p x := by
  have same (b s : Nat) (o : Option Nat) : (c.assigned b && (q.bed b).slots.getD s none == o)
      = (c.assigned b && (p.bed b).slots.getD s none == o) := by
    cases assigned : c.assigned b with
    | false => rfl
    | true => rw [h.slots b assigned]
  unfold Machine.onItsBed
  simp only [same]
  rfl

theorem Capped.slotAgrees (b i id : Nat) : slotAgrees q b i id = slotAgrees p b i id := h.any id fun _ => rfl

theorem Capped.entryAgrees (l n t id : Nat) : entryAgrees q l n t id = entryAgrees p l n t id := h.any id fun _ => rfl

theorem Capped.inItsStack (x : Piece) : inItsStack c q (capAlift a x) = inItsStack c p x := by
  unfold Machine.inItsStack
  simp only [h.stackAt]
  rfl

theorem Capped.loadOf (l : List Nat) : loadOf q l = loadOf p l := by
  unfold Machine.loadOf
  refine congrArg List.sum (List.map_congr_left fun id _ => ?_)
  rw [h.findPiece, Option.map_map]
  rfl

theorem Capped.reservationFits (l n mass : Nat) : reservationFits c q l n mass = reservationFits c p l n mass := by
  unfold Machine.reservationFits
  simp only [h.stackAt, h.loadOf]

theorem Capped.markStands (l n : Nat) : markStands c q l n = markStands c p l n := by
  have hook (id : Nat) : ((Machine.findPiece q id).any fun x => x.place == .onHook)
      = (Machine.findPiece p id).any fun x => x.place == .onHook := h.any id fun _ => rfl
  unfold Machine.markStands
  simp only [h.stackAt, h.findMove, h.findPiece_isSome, h.reservationFits, hook]

theorem Capped.restoredPicked (m : Move) : restoredPicked c q m = restoredPicked c p m := by
  unfold Machine.restoredPicked
  rw [h.findPiece]
  cases Machine.findPiece p m.piece with
  | none => rfl
  | some x =>
    rw [show q.stackAt = p.stackAt from funext h.stackAt]
    rfl

theorem Capped.hasReservation (m : Move) : hasReservation q m = hasReservation p m := by
  unfold Machine.hasReservation
  simp only [h.stackAt]

theorem Capped.onItsHook (x : Piece) : onItsHook q (capAlift a x) = onItsHook p x := by
  unfold Machine.onItsHook
  rw [h.queue]
  rfl

/-- What holds of every record of a part holds of the capped ones. -/
theorem Capped.eachRecord {P : Nat → Piece → Prop} (each : ∀ n x, recordAt p n = some x → P n (capAlift a x)) :
    ∀ n x, recordAt q n = some x → P n x := by
  intro n y record
  rw [h.records] at record
  obtain ⟨x, stood, rfl⟩ := Option.map_eq_some_iff.mp record
  exact each n x stood

theorem Capped.coherent (k : Coherent c p) : Coherent c q where
  ids := h.eachRecord fun n x record => (h.findRecord x.id).trans (k.ids n x record)
  onBeds := h.eachRecord fun n x record => (h.onItsBed x).trans (k.onBeds n x record)
  slotCount b hb assigned := (congrArg List.length (h.slots b assigned)).trans (k.slotCount b hb assigned)
  slots b hb assigned i id held :=
    (h.slotAgrees b i id).trans (k.slots b hb assigned i id (h.slots b assigned ▸ held))
  stacked := h.eachRecord fun n x record => (h.inItsStack x).trans (k.stacked n x record)
  entries l n mem e entry := (h.entryAgrees l n e.2 e.1).trans (k.entries l n mem e (h.stackAt (stackIndex l n) ▸ entry))
  limits l n mem := by
    rw [h.stackAt, h.loadOf]
    exact k.limits l n mem
  marks l n mem := (h.markStands l n).trans (k.marks l n mem)
  tags := by
    rw [h.queue]
    exact k.tags
  aligned m mem := (h.restoredPicked m).trans (k.aligned m (h.queue ▸ mem))
  reserved m mem := (h.hasReservation m).trans (k.reserved m (h.queue ▸ mem))
  notPicked m mem := k.notPicked m (h.queue ▸ mem)
  hooks := h.eachRecord fun n x record => (h.onItsHook x).trans (k.hooks n x record)

end

/-! ### The moves of coherent records are halted (09 R176) -/

/-- A move as it comes back: halted, when it was under way. -/
def Move.restored (x : Move) : Move := if x.phase = .queued then x else x.haltedIn x.phase

theorem halts_queue (l : List Move) (distinct : (l.map (·.tag)).Nodup) (p : Part) :
    (l.foldl (fun q m => haltRestored m q) p).moves.queue = p.moves.queue.map fun x =>
      match l.find? (·.tag == x.tag) with
      | some m => x.haltedIn m.phase
      | none => x := by
  induction l generalizing p with
  | nil => exact (List.map_id _).symm
  | cons m l ih =>
    obtain ⟨fresh, distinct⟩ := List.nodup_cons.mp distinct
    rw [List.foldl_cons, ih distinct, haltRestored_queue, List.map_map]
    refine List.map_congr_left fun x _ => ?_
    rw [Function.comp_apply, List.find?_cons]
    by_cases own : x.tag = m.tag
    · have absent : l.find? (·.tag == m.tag) = none :=
        List.find?_eq_none.mpr fun y later same => fresh (List.mem_map.mpr ⟨y, later, beq_iff_eq.mp same⟩)
      have tag : (x.haltedIn m.phase).tag = m.tag := own
      simp only [own, if_true, beq_self_eq_true, tag, absent]
    · have other : (m.tag == x.tag) = false := beq_eq_false_iff_ne.mpr (Ne.symm own)
      simp only [own, if_false, other]

theorem haltHeads_pieces (p : Part) : (haltHeads p).pieces = p.pieces :=
  foldl_preserves (g := Part.pieces) (f := fun q m => haltRestored m q)
    (fun q m => updateMove_pieces (p := q) m.tag (Move.haltedIn m.phase)) _ p

section
variable (h : Coherent c p)
include h

theorem Coherent.haltHeads_queue : (haltHeads p).moves.queue = p.moves.queue.map Move.restored := by
  have distinct : ((p.moves.queue.filter (·.phase != .queued)).map (·.tag)).Nodup :=
    h.tags.sublist (List.filter_sublist.map _)
  refine (halts_queue _ distinct p).trans (List.map_congr_left fun x mem => ?_)
  unfold Move.restored
  have own {m : Move} (found : (p.moves.queue.filter (·.phase != .queued)).find? (·.tag == x.tag) = some m) :
      m = x ∧ x.phase ≠ .queued := by
    obtain ⟨stands, away⟩ := List.mem_filter.mp (List.mem_of_find?_eq_some found)
    have same : m = x := h.tag_inj mem stands (beq_iff_eq.mp (List.find?_some (p := fun y : Move => y.tag == x.tag) found))
    exact ⟨same, same ▸ bne_iff_ne.mp away⟩
  split
  · rename_i m found
    obtain ⟨same, away⟩ := own found
    rw [if_neg away, same]
  · rename_i none
    refine (if_pos ?_).symm
    by_contra away
    exact List.find?_eq_none.mp none x (List.mem_filter.mpr ⟨mem, bne_iff_ne.mpr away⟩) (beq_self_eq_true _)

theorem Coherent.reconcileMoves : reconcileMoves c p = haltHeads p := by
  rw [reconcileMoves_eq, h.movesAligned, h.haltHeads_queue]
  have none : ((p.moves.queue.map Move.restored).filter fun m => m.phase == .queued && m.picked) = [] := by
    refine List.filter_eq_nil_iff.mpr fun x mem waits => ?_
    obtain ⟨m, stands, rfl⟩ := List.mem_map.mp mem
    rw [Bool.and_eq_true, beq_iff_eq] at waits
    unfold Move.restored at waits
    split at waits
    · rename_i queued
      rw [h.notPicked m stands queued] at waits
      exact nomatch waits.2
    · exact nomatch waits.1
  rw [none]
  rfl

/-- Every piece on the hook has its picked move, before its moves are halted and after. -/
theorem Coherent.onHook {n : Nat} {x : Piece} (record : recordAt (haltHeads p) n = some x) : onItsHook (haltHeads p) x = true := by
  rw [recordAt_of_pieces (haltHeads_pieces p)] at record
  have stands := h.hooks n x record
  unfold onItsHook at *
  rw [h.haltHeads_queue, List.any_map]
  refine Eq.trans (congrArg _ (congrArg (List.any _) (funext fun m => ?_))) stands
  rw [Function.comp_apply]
  unfold Move.restored
  split <;> rfl

/-- Of coherent records, the reconciliation halts moves and writes tags. -/
theorem Coherent.reconcile : reconcileHook (Machine.reconcileMoves c (Machine.reconcilePlaces c p)) =
    mapRecords (carrierTag (haltHeads p)) (haltHeads p) := by
  have held : dropRecords (fun r _ x => !onItsHook r x) (haltHeads p) = haltHeads p :=
    dropRecords_self fun n x record => by rw [h.onHook record]; rfl
  rw [h.reconcilePlaces, h.reconcileMoves, reconcileHook_eq, held]

end

end Sys2Proof.Machine
end

