-- ==== Sys2Proof/Proofs/RecordsRead.lean ====
section
/-! PROOFS. RECORD_READ_COMPLETE: what is made of a record memory (11 R197). -/
namespace Sys2Proof.Machine
open Sys2Proof

variable {c : Settings} {m : RecMem} {p : Part} {b : Nat}

/-! ### The part read back from the record memory (11 R197) -/

/-- The blocks as taken, with the lost ones announced. -/
def taken (c : Settings) (m : RecMem) (p : Part) : Part := announceLost (allBlocks.filter m.isLost) (takeBlocks c m p)

/-- What the owners make of a record memory. -/
def readBack (c : Settings) (m : RecMem) (p : Part) : Part := restore c (allBlocks.filter m.isLost) (taken c m p)

theorem recordsRead_eq {bad : List Block} (run : p.run = .readingRecords) (config : p.config = some c) :
    recordsRead bad p = { readBack c (bad.foldl RecMem.spoil p.mem.mem) p with run := .restored } := by
  unfold recordsRead
  rw [run, config]
  rfl

theorem mem_lost {a : Block} : a ∈ allBlocks.filter m.isLost ↔ m.isLost a = true := by
  rw [List.mem_filter]
  exact ⟨And.right, fun lost => ⟨mem_allBlocks a, lost⟩⟩

theorem clockLost_eq : (allBlocks.filter m.isLost).contains .clock = m.clock.isNone := by
  rw [Bool.eq_iff_iff, List.contains_iff_mem, mem_lost]
  rfl

theorem readBack_restores : Restores (takeBlocks c m p) (readBack c m p) := takenBlocks_restores c _ _

theorem taken_beds : (taken c m p).beds = (List.range 4).map (bedAsRead c m) :=
  (announceLost_still _ (takeBlocks c m p)).1.beds

theorem taken_length : (taken c m p).beds.length = 4 := by
  rw [taken_beds, List.length_map, List.length_range]

theorem bed_taken (hb : b < 4) : (taken c m p).bed b = bedAsRead c m b :=
  (bed_of_beds (announceLost_still _ (takeBlocks c m p)).1.beds b).trans (bed_takeBlocks m hb)

theorem recordAt_taken (n : Nat) : recordAt (taken c m p) n = recordAt (takeBlocks c m p) n :=
  recordAt_of_pieces (announceLost_still _ (takeBlocks c m p)).2.1 n

/-! ### Maturity -/

theorem taken_maturity : (taken c m p).maturity = (takeBlocks c m p).maturity :=
  (announceLost_still _ (takeBlocks c m p)).1.maturity

theorem readBack_maturity : (readBack c m p).maturity =
    { (takeBlocks c m p).maturity with
      credit := if m.clock = none then List.replicate 4 0 else (takeBlocks c m p).maturity.credit } := by
  unfold readBack
  rw [(restore_restoring c _ _).maturity, clockLost_eq]
  unfold creditsRestored
  cases m.clock with
  | none => exact (clearCredits_maturity _).trans (by rw [taken_maturity]; rfl)
  | some k => exact taken_maturity

theorem ambient_readBack : (readBack c m p).maturity.ambient = ((m.clock.map (·.ambient)).getD ⟨0, 0⟩) := by
  rw [readBack_maturity]
  show (m.clock.getD ⟨0, ⟨0, 0⟩, none⟩).ambient = _
  cases m.clock <;> rfl

/-! ### Beds -/

theorem Bed.staged_eq (clockLost : Bool) (x : Bed) :
    x.staged clockLost = { x with stageStart := if clockLost then 0 else x.stageStart } := by
  cases clockLost <;> rfl

theorem Bed.settled_eq (x : Bed) : x.settled =
    { x with
      state := if x.state = .detensioning then .curing else x.state
      releaseReady := if x.state = .detensioning then true else x.releaseReady } := by
  unfold Bed.settled
  split <;> rfl

/-- What a bed record is before its slot list is cleaned: the kept fields as written, the stage start and the state settled. -/
theorem settledAsRead (clockLost : Bool) {x z : Bed} (is : x = (m.beds.getD b none).getD Bed.reset)
    (settled : ((bedAsRead c m b).staged clockLost).settled = z) :
    z = { x with
        state := z.state, stageStart := z.stageStart, releaseReady := z.releaseReady
        setpoint := (c.bed b).tf, f := 0, db := 0, strength := 0, releaseTest := false, jack := ⟨false, false, 0⟩ }
      ∧ z.stageStart = (if clockLost then 0 else x.stageStart)
      ∧ z.state = (if x.state = .detensioning then .curing else x.state)
      ∧ z.releaseReady = (if x.state = .detensioning then true else x.releaseReady) := by
  unfold bedAsRead at settled
  rw [← is, Bed.staged_eq, Bed.settled_eq] at settled
  rw [← settled]
  exact ⟨rfl, rfl, rfl, rfl⟩

theorem readBack_bed (hb : b < 4) (assigned : c.assigned b = true) {x y : Bed} (is : x = (m.beds.getD b none).getD Bed.reset)
    (restored : y = (readBack c m p).bed b) :
    y = { x with
        state := y.state, stageStart := y.stageStart, hold := y.hold, releaseReady := y.releaseReady, slots := y.slots
        setpoint := (c.bed b).tf, f := 0, db := 0, strength := 0, releaseTest := false, jack := ⟨false, false, 0⟩ }
      ∧ y.stageStart = (if m.clock = none then 0 else x.stageStart)
      ∧ (x.state = .detensioning → y.state = .curing ∧ y.releaseReady = true)
      ∧ (x.state ≠ .detensioning → y.releaseReady = x.releaseReady)
      ∧ (x.state = .detensioned →
          y.state = (if x.slots.any Option.isSome = true ∧ y.slots.all Option.isNone = true then .empty else .detensioned))
      ∧ (x.state ≠ .detensioning → x.state ≠ .detensioned → y.state = x.state)
      ∧ y.hold = (if x.state = .detensioned ∧ y.state = .empty then false else x.hold)
      ∧ y.slots.length = (c.bed b).picks.length
      ∧ ∀ i id, y.slots.getD i none = some id → x.slots.getD i none = some id := by
  have setpoint : ((taken c m p).bed b).setpoint = (c.bed b).tf := by rw [bed_taken hb]; rfl
  have cleans : (((bedAsRead c m b).staged m.clock.isNone).settled).Cleans (c.bed b) y := by
    rw [restored, ← bed_taken (p := p) hb, ← clockLost_eq]
    exact bed_restore_cleans _ hb taken_length assigned setpoint
  generalize settled : ((bedAsRead c m b).staged m.clock.isNone).settled = z at cleans
  obtain ⟨rest, start, state, ready⟩ := settledAsRead m.clock.isNone is settled
  have slots : z.slots = x.slots := by rw [rest]
  have hold : z.hold = x.hold := by rw [rest]
  have start' : y.stageStart = z.stageStart := by rw [cleans.rest]
  have ready' : y.releaseReady = z.releaseReady := by rw [cleans.rest]
  have lost : (if m.clock.isNone then 0 else x.stageStart) = if m.clock = none then 0 else x.stageStart := by
    simp only [Option.isNone_iff_eq_none]
  refine ⟨?_, start'.trans (start.trans lost), fun detensioning => ?_, fun other => ?_, fun detensioned => ?_, fun other other' => ?_, ?_,
    cleans.size, fun i id held => slots ▸ cleans.slots i id held⟩
  · refine cleans.rest.trans ?_
    rw [start', ready', rest]
  · rw [if_pos detensioning] at state ready
    exact ⟨(cleans.stands (by rw [state]; decide)).trans state, ready'.trans ready⟩
  · rw [ready', ready, if_neg other]
  · rw [if_neg (by rw [detensioned]; decide), detensioned] at state
    rw [← slots]
    exact cleans.emptied state
  · rw [if_neg other] at state
    exact (cleans.stands (by rw [state]; exact other')).trans state
  · have same : z.state = .detensioned ↔ x.state = .detensioned := by
      rw [state]
      split
      · rename_i detensioning
        rw [detensioning]
        decide
      · exact Iff.rfl
    rw [cleans.hold, hold]
    simp only [same]

theorem readBack_bed_unassigned (hb : b < 4) (unassigned : c.assigned b = false) : (readBack c m p).bed b = Bed.reset :=
  bed_restore_unassigned _ hb taken_length unassigned

/-! ### Records, stacks and moves -/

theorem readBack_reconciles :
    Reconciles (restoreMaturity ((allBlocks.filter m.isLost).contains .clock) (taken c m p)) (readBack c m p) :=
  restore_reconciles c _ _

theorem readBack_tag {n : Nat} {y : Piece} (hn : n < 256) (record : recordAt (readBack c m p) n = some y) :
    y.tag = ((readBack c m p).moves.queue.find? (·.piece == y.id)).map (·.tag) := by
  unfold readBack at *
  rw [restore_eq] at *
  exact reconcileHook_tag hn record

/-- A record that comes back stood in its block. -/
theorem readBack_record {n : Nat} {y : Piece} (record : recordAt (readBack c m p) n = some y) :
    n < 256 ∧ ∃ x, m.pieces.getD n none = some (some x)
      ∧ y = { x with
          place := y.place, tag := y.tag, liftTest := false, shipTest := false, ageTest := false
          capture := x.capture.map fun k => { k with alift := min k.alift (readBack c m p).maturity.ambient.m } }
      ∧ (y.place = x.place ∨ ∃ l k i j, x.place = .inStock l k i ∧ y.place = .inStock l k j ∧ j ≤ i) := by
  obtain ⟨x, capped, kept⟩ := readBack_reconciles.records n y record
  rw [(restoreMaturity_rest _ _).2.2, recordAt_taken, recordAt_takeBlocks, taken_maturity] at capped
  have ambient : (readBack c m p).maturity.ambient = (takeBlocks c m p).maturity.ambient := by rw [readBack_maturity]
  rw [ambient]
  split at capped
  · rename_i inside
    obtain ⟨z, read, rfl⟩ := Option.map_eq_some_iff.mp capped
    obtain ⟨w, stood, rfl⟩ := Option.map_eq_some_iff.mp read
    refine ⟨inside, w, ?_, kept.rest, kept.place⟩
    cases block : m.pieces.getD n none with
    | none => rw [block] at stood; cases stood
    | some o => rw [block] at stood; exact congrArg some stood
  · cases capped

theorem restoreMaturity_taken_queue (clockLost : Bool) :
    (restoreMaturity clockLost (taken c m p)).moves = (takeBlocks c m p).moves :=
  (restoreMaturity_rest clockLost _).1.trans (announceLost_still _ (takeBlocks c m p)).2.2

theorem restoreMaturity_taken_table (clockLost : Bool) :
    (restoreMaturity clockLost (taken c m p)).pieces.stackTable = (takeBlocks c m p).pieces.stackTable :=
  (restoreMaturity_rest clockLost _).2.1.trans (congrArg PieceStore.stackTable (announceLost_still _ (takeBlocks c m p)).2.1)

theorem takeBlocks_queue : (takeBlocks c m p).moves.queue = ((m.moves.map (·.queue)).getD []) := by
  show (m.moves.getD ⟨[], 1⟩).queue = _
  cases m.moves <;> rfl

theorem takeBlocks_nextTag : (takeBlocks c m p).moves.nextTag = ((m.moves.map (·.nextTag)).getD 1) := by
  show (m.moves.getD ⟨[], 1⟩).nextTag = _
  cases m.moves <;> rfl

theorem readBack_stack (i : Nat) :
    ((readBack c m p).stackAt i).list.Sublist ((m.stackTable.getD (List.replicate 96 ⟨[], .none⟩)).getD i ⟨[], .none⟩).list
      ∧ MarkKept ((m.moves.map (·.queue)).getD []) i ((m.stackTable.getD (List.replicate 96 ⟨[], .none⟩)).getD i ⟨[], .none⟩).mark
        ((readBack c m p).stackAt i).mark := by
  have reconciles := readBack_reconciles (c := c) (m := m) (p := p)
  have stood := stackAt_of_table (restoreMaturity_taken_table (c := c) (m := m) (p := p) ((allBlocks.filter m.isLost).contains .clock)) i
  have lists := reconciles.lists i
  have marks := reconciles.marks i
  rw [stood] at lists marks
  rw [restoreMaturity_taken_queue, takeBlocks_queue] at marks
  exact ⟨lists, marks⟩

theorem readBack_moves : (readBack c m p).moves =
    { p.moves with queue := (readBack c m p).moves.queue, nextTag := (m.moves.map (·.nextTag)).getD 1 } := by
  refine readBack_reconciles.lines.trans ?_
  rw [restoreMaturity_taken_queue, ← takeBlocks_nextTag (c := c) (p := p)]
  rfl

theorem readBack_queue :
    ((readBack c m p).moves.queue.map Move.fixed).Sublist (((m.moves.map (·.queue)).getD []).map Move.fixed) := by
  rw [← takeBlocks_queue (c := c) (p := p), ← restoreMaturity_taken_queue ((allBlocks.filter m.isLost).contains .clock)]
  exact readBack_reconciles.queue

theorem readBack_dirty {a : Block} (lost : m.isLost a = true) : a ∈ (readBack c m p).mem.dirty :=
  readBack_reconciles.dirty a (restoreMaturity_dirty _ (announceLost_dirty (mem_lost.mpr lost) _))

end Sys2Proof.Machine

namespace Sys2Proof.Machine
open Sys2Proof

variable {c : Settings} {m : RecMem} {p : Part}

/-! ### Channels (01 R7, 02 R25) -/

theorem channel_readBack (k : Nat) : (readBack c m p).channel k = (takeBlocks c m p).channel k := by
  unfold Part.channel
  rw [readBack_restores.scan]

theorem readBack_channel (k : Nat) :
    (readBack c m p).channel k = { p.channel k with retired := ((readBack c m p).channel k).retired } := by
  rw [channel_readBack, channel_takeBlocks]
  split
  · rfl
  · rename_i beyond
    have reset : p.channel k = Channel.reset := List.getD_eq_default _ _ (Nat.le_of_not_lt beyond)
    rw [reset]

theorem readBack_channelsRead {x : ChannelsBlock} (block : m.channels = some x) :
    (readBack c m p).maturity.accs = x.accs
      ∧ (readBack c m p).maturity.credit = (if m.clock = none then List.replicate 4 0 else x.credit)
      ∧ (p.shaped → ∀ k < 22, ((readBack c m p).channel k).retired = x.retired.getD k false) := by
  have accs : (takeBlocks c m p).maturity.accs = (m.channels.getD _).accs := rfl
  have credit : (takeBlocks c m p).maturity.credit = (m.channels.getD _).credit := rfl
  rw [block] at accs credit
  refine ⟨by rw [readBack_maturity]; exact accs, by rw [readBack_maturity, credit]; rfl, fun shaped k hk => ?_⟩
  obtain ⟨_, _, channels, _⟩ := shaped
  rw [channel_readBack, channel_takeBlocks, if_pos (by rw [channels]; exact Nat.lt_succ_of_lt hk), block]
  rfl

theorem readBack_channelsLost (block : m.channels = none) :
    (readBack c m p).maturity.accs = List.replicate 22 ⟨0, 0⟩ ∧ (readBack c m p).maturity.credit = List.replicate 4 0
      ∧ ∀ k, ((readBack c m p).channel k).retired = false := by
  have accs : (takeBlocks c m p).maturity.accs = (m.channels.getD _).accs := rfl
  have credit : (takeBlocks c m p).maturity.credit = (m.channels.getD _).credit := rfl
  rw [block] at accs credit
  refine ⟨by rw [readBack_maturity]; exact accs, ?_, fun k => ?_⟩
  · rw [readBack_maturity, credit]
    exact ite_self _
  · rw [channel_readBack, channel_takeBlocks, block]
    split
    · show (List.replicate 22 false).getD k false = false
      rw [List.getD_eq_getElem?_getD, List.getElem?_replicate]
      split <;> rfl
    · rfl

/-! ### Records in which nothing disagrees -/

section
variable (h : Coherent c (takeBlocks c m p))
include h

/-- The slot list of a bed loses nothing in the bed's own restore. -/
theorem bedsRestored_slots {b : Nat} (assigned : c.assigned b = true) :
    ((bedsRestored c (allBlocks.filter m.isLost) (taken c m p)).bed b).slots = ((takeBlocks c m p).bed b).slots := by
  have beds : ∀ k, (taken c m p).bed k = (takeBlocks c m p).bed k :=
    bed_of_beds (announceLost_still _ (takeBlocks c m p)).1.beds
  by_cases hb : b < 4
  · obtain ⟨q, bed, length, pieces, restored⟩ := bed_bedsRestored (c := c) (p := taken c m p) (allBlocks.filter m.isLost) hb
    rw [restored, bed_restoreBed _ (by rw [length, taken_length]; exact hb) assigned, bed, beds]
    have found (id : Nat) : (findRecord q id).isSome = (findRecord (takeBlocks c m p) id).isSome := by
      refine congrArg Option.isSome (findRecord_of_ids (fun n => ?_) id)
      unfold idAt
      rw [recordAt_of_pieces pieces, (restoreMaturity_rest _ _).2.2, recordAt_taken]
      split
      · rw [Option.map_map]
        rfl
      · rfl
    have clean : cleanedSlots (c.bed b).picks.length (fun _ id => (findRecord q id).isSome) ((takeBlocks c m p).bed b).slots
        = ((takeBlocks c m p).bed b).slots := by
      refine cleanedSlots_self (h.slotCount b hb assigned) fun i id held => ?_
      have agrees := h.slots b hb assigned i id held
      unfold slotAgrees findPiece at agrees
      rw [found]
      cases none : findRecord (takeBlocks c m p) id with
      | none => rw [none] at agrees; cases agrees
      | some n => rfl
    rw [clean]
    unfold Bed.withSlots
    split <;> rfl
  · have beyond {r : Part} (length : r.beds.length = 4) : r.bed b = Bed.reset :=
      List.getD_eq_default _ _ (by rw [length]; exact Nat.le_of_not_lt hb)
    rw [beyond ((bedsRestored_length _).trans taken_length), ← beds, beyond taken_length]

theorem bedsRestored_capped :
    Capped c (takeBlocks c m p).maturity.ambient.m (takeBlocks c m p)
      (bedsRestored c (allBlocks.filter m.isLost) (taken c m p)) := by
  generalize lost_eq : (allBlocks.filter m.isLost).contains .clock = v
  have pieces : (bedsRestored c (allBlocks.filter m.isLost) (taken c m p)).pieces = (restoreMaturity v (taken c m p)).pieces := by
    unfold bedsRestored
    rw [forBeds_pieces fun q j => (restoreBed_rest _ j q).2.1, lost_eq]
  have moves : (bedsRestored c (allBlocks.filter m.isLost) (taken c m p)).moves = (restoreMaturity v (taken c m p)).moves := by
    unfold bedsRestored
    rw [forBeds_moves fun q j => (restoreBed_rest _ j q).2.2, lost_eq]
  refine ⟨fun n => ?_, (congrArg PieceStore.stackTable pieces).trans (restoreMaturity_taken_table v),
    congrArg MoveUnit.queue (moves.trans (restoreMaturity_taken_queue v)), fun b assigned => bedsRestored_slots h assigned⟩
  rw [recordAt_of_pieces pieces, (restoreMaturity_rest _ _).2.2, recordAt_taken, taken_maturity]
  split
  · rfl
  · rename_i beyond
    rw [recordAt_takeBlocks, if_neg beyond]
    rfl

theorem readBack_coherent :
    (∀ b < 4, c.assigned b = true → ((readBack c m p).bed b).slots = ((m.beds.getD b none).getD Bed.reset).slots)
      ∧ (∀ n < 256, ((recordAt (readBack c m p) n).map (·.id)) = ((m.pieces.getD n none).getD none).map (·.id)
          ∧ ((recordAt (readBack c m p) n).map (·.place)) = ((m.pieces.getD n none).getD none).map (·.place))
      ∧ (readBack c m p).pieces.stackTable = m.stackTable.getD (List.replicate 96 ⟨[], .none⟩)
      ∧ (readBack c m p).moves.queue = ((m.moves.map (·.queue)).getD []).map Move.restored := by
  have capped := bedsRestored_capped h
  have coherent := capped.coherent h
  have is : readBack c m p = mapRecords (carrierTag (haltHeads (bedsRestored c (allBlocks.filter m.isLost) (taken c m p))))
      (haltHeads (bedsRestored c (allBlocks.filter m.isLost) (taken c m p))) := coherent.reconcile
  have beds (b : Nat) : (readBack c m p).bed b = (bedsRestored c (allBlocks.filter m.isLost) (taken c m p)).bed b := by
    unfold readBack
    rw [bed_restore, coherent.reconcilePlaces]
  generalize bedsRestored c (allBlocks.filter m.isLost) (taken c m p) = q at capped coherent is beds
  obtain ⟨moves, table⟩ := mapRecords_rest (carrierTag (haltHeads q)) (haltHeads q)
  refine ⟨fun b hb assigned => ?_, fun n hn => ?_, ?_, ?_⟩
  · rw [beds, capped.slots b assigned, bed_takeBlocks _ hb]
    rfl
  · have record : recordAt (readBack c m p) n =
        ((recordAsRead m n).map (capAlift (takeBlocks c m p).maturity.ambient.m)).map (carrierTag (haltHeads q)) := by
      rw [is, recordAt_mapRecords, if_pos hn, recordAt_of_pieces (haltHeads_pieces q), capped.records, recordAt_takeBlocks, if_pos hn]
    rw [record]
    unfold recordAsRead
    cases (m.pieces.getD n none).getD none <;> exact ⟨rfl, rfl⟩
  · rw [is, table, haltHeads_pieces, capped.table]
    rfl
  · rw [is, moves, coherent.haltHeads_queue, capped.queue, takeBlocks_queue]

end

/-! ### RECORD_READ_COMPLETE -/

theorem readBack_now : (readBack c m p).clock = { p.clock with now := ((m.clock.map (·.now)).getD 0) } := by
  rw [readBack_restores.clock]
  unfold takeBlocks
  cases m.clock <;> rfl

theorem readBack_travel : (readBack c m p).travel = { p.travel with lastKnown := m.clock.bind (restoredPosition c) } := by
  rw [readBack_restores.travel]
  unfold takeBlocks
  cases m.clock <;> rfl

theorem readBack_mem : (readBack c m p).mem.mem = m := by
  rw [readBack_restores.mem]
  rfl

/-- Settles O8: the blocks are taken as read, the owners remove what disagrees, and records in which nothing disagrees are changed in
nothing but tags, ambient bases and the phases of their moves. -/
theorem recordsRead_settled : Obligations.RecordsRead := by
  intro s c bad run config
  refine completes_act ?_
  have read : act (.recordReadComplete bad) s.part = _ := recordsRead_eq run config
  rw [read]
  generalize bad.foldl RecMem.spoil s.part.mem.mem = m
  have frame := readBack_restores (c := c) (m := m) (p := s.part)
  have now := readBack_now (c := c) (m := m) (p := s.part)
  have ambient := ambient_readBack (c := c) (m := m) (p := s.part)
  have travel := readBack_travel (c := c) (m := m) (p := s.part)
  have channels {x : ChannelsBlock} := readBack_channelsRead (c := c) (m := m) (p := s.part) (x := x)
  have channelsLost := readBack_channelsLost (c := c) (m := m) (p := s.part)
  have channel := readBack_channel (c := c) (m := m) (p := s.part)
  have unassigned {b : Nat} := readBack_bed_unassigned (c := c) (m := m) (p := s.part) (b := b)
  have bed {b : Nat} (hb : b < 4) (assigned : c.assigned b = true) := readBack_bed (m := m) (p := s.part) hb assigned rfl rfl
  have tag {n : Nat} {y : Piece} := readBack_tag (c := c) (m := m) (p := s.part) (n := n) (y := y)
  have record {n : Nat} {y : Piece} := readBack_record (c := c) (m := m) (p := s.part) (n := n) (y := y)
  have stack := readBack_stack (c := c) (m := m) (p := s.part)
  have moves := readBack_moves (c := c) (m := m) (p := s.part)
  have queue := readBack_queue (c := c) (m := m) (p := s.part)
  have atRest : AtRest (readBack c m s.part) := restore_atRest _
  have coherent := readBack_coherent (c := c) (m := m) (p := s.part)
  have dirty {a : Block} := readBack_dirty (c := c) (m := m) (p := s.part) (a := a)
  have mem := readBack_mem (c := c) (m := m) (p := s.part)
  -- The facts above are all the proof uses of the part read back, so it is kept closed from here.
  obtain ⟨r, is⟩ : ∃ r, readBack c m s.part = r := ⟨_, rfl⟩
  rw [is] at frame now ambient travel channels channelsLost channel unassigned bed tag record
  rw [is] at stack moves queue atRest coherent dirty mem ⊢
  exact ⟨rfl, frame.config.trans config, now, ambient, travel, fun x block => channels block, channelsLost, channel,
    by rw [frame.scan]; rfl, fun b hb none => unassigned hb none, fun b hb assigned => bed hb assigned,
    fun n y found => ⟨tag (record found).1 found, (record found).2⟩, stack, moves, queue, atRest, coherent,
    fun a lost => dirty lost, frame.heat, frame.out, frame.span, frame.supply, frame.pins, mem, frame.placed.keeps⟩

end Sys2Proof.Machine
end
